-- ==== Sys2Proof/Word.lean ====
section
/-! DEFINITION. The word types of the block: every register, port and data byte is 8 bits, a port number 16 bits,
a CPU physical address 20 bits (spec 00_scope.md R9). Byte stores (the RAM array, the disk images) are lists of
(address, byte) pairs. -/

namespace Sys2Proof

/-- One register, port or data byte (R9). -/
abbrev Byte := BitVec 8

/-- An I/O port number (R9, R60). -/
abbrev Port := BitVec 16

/-- A CPU physical memory address (R9, R60). -/
abbrev Addr := BitVec 20

/-- A sparse byte store; `Sys2Proof.Machine.Mem` (Machine/Mem.lean) says what an unlisted address reads as and which lists are
canonical. -/
abbrev Memory := List Host.Cell

end Sys2Proof
end

