-- ==== Sys2Proof/Config.lean ====
section
/-! DEFINITION. The parameters of 00_scope.md R8 as plain data, and the free values (opaque constants without a body).
The parameters are carried by the state (field `cfg`), which no step changes, so every statement over all states is a
statement over all parameter values. The default values stand in Machine/Defaults.lean. -/

namespace Sys2Proof

/-- The fifteen command names of the source's command table (30_encoding.md R108). -/
inductive Cmd where
  | testReady | recalibrate | readSense | formatDrive | readVerify | formatTrack | readSectors | writeSectors
  | seek | setDriveParams | readSectorBuffer | writeSectorBuffer | ramDiag | driveDiag | ctrlDiag
deriving DecidableEq, Repr

/-- P_CMD: the opcode byte of each command (R8, R108). -/
structure CmdCodes where
  testReady : Byte
  recalibrate : Byte
  readSense : Byte
  formatDrive : Byte
  readVerify : Byte
  formatTrack : Byte
  readSectors : Byte
  writeSectors : Byte
  seek : Byte
  setDriveParams : Byte
  readSectorBuffer : Byte
  writeSectorBuffer : Byte
  ramDiag : Byte
  driveDiag : Byte
  ctrlDiag : Byte
deriving DecidableEq, Repr

/-- P_SENSE: the code byte of each sense name (R8, 60_exceptions.md R300). -/
structure SenseCodes where
  noError : Byte
  noSeek : Byte
  wrFault : Byte
  notRdy : Byte
  noTrk0 : Byte
  idErr : Byte
  uncErr : Byte
  noAddr : Byte
  notFound : Byte
  seek : Byte
  corr : Byte
  badTrk : Byte
  illCmd : Byte
  illAddr : Byte
  badRam : Byte
  badRom : Byte
  badEcc : Byte
deriving DecidableEq, Repr

/-- P_GEOM[d]: sectors per track, heads per cylinder, number of cylinders (R8, 10_state.md R34). -/
structure Geom where
  spt : Nat
  hpc : Nat
  tracks : Nat
deriving DecidableEq, Repr

/-- P_XTA_SPT_DEFAULT (R8): sectors per track, 1 to 63, held as the number of sectors after the first. -/
structure SptDefault where
  pred : Fin 63
deriving DecidableEq, Repr, Inhabited

/-- The sectors per track a P_XTA_SPT_DEFAULT stands for. -/
def SptDefault.sectors (p : SptDefault) : Nat := p.pred.val + 1

/-- The configuration of one drive: P_PRESENT[d], P_GEOM[d], P_CAPACITY[d] (in sectors), P_IMAGE[d] (byte
`lba * 512 + i` of the list is byte `i` of sector `lba`). -/
structure DriveParams where
  present : Bool
  geom : Geom
  capacity : Nat
  image : Memory
deriving DecidableEq, Repr

/-- P_RESET_SENSE: what the Reset strobe does to the sense code (R8, 40_xta_ports.md R142). -/
inductive ResetSense where
  | unchanged | cleared
deriving DecidableEq, Repr

/-- P_BUFFER_RESET: the sector buffer at power-on (R8, 10_state.md R28). -/
inductive BufferReset where
  | unwritten | zeros
deriving DecidableEq, Repr

/-- P_EMS_READBACK: what a page-register read returns (R8, 43_ems.md R264). -/
inductive Readback where
  | raw | any
deriving DecidableEq, Repr

/-- P_DISABLED_SLOT: who answers an access to a disabled window slot (R8, 43_ems.md R273). -/
inductive DisabledSlot where
  | fallthrough | emsAllOnes
deriving DecidableEq, Repr

/-- THE MODEL'S OWN parameter: which tick checks the next sector of a verify, where the spec has two readings (log entry 41).
`sendTick`: one SEND and one SDONE tick per sector (92_eei_decisions.md D24, the example of 42_xta_commands.md R213, V46).
`sameTick`: in the SDONE tick itself (41_xta_engine.md R185, "in the same tick"). -/
inductive VerifyLoop where
  | sendTick | sameTick
deriving DecidableEq, Repr

/-- The implementation parameters of 00_scope.md R8, one field each, and `verifyLoop`, which is the model's own. P_EMS_PORT_BASE, a function from a byte to a port,
is held as its table of 256 values, by high and low nibble (plain data). P_PLATFORM_MEM is the free value `Config.platformByte`. -/
structure Params where
  xtaBase : Port
  xtaIrq : Nat
  xtaDma : Nat
  sptDefault : SptDefault
  romAddr : Option Addr
  drive0 : DriveParams
  drive1 : DriveParams
  cmd : CmdCodes
  senseCodes : SenseCodes
  compDrive : Byte
  compErr : Byte
  dmaEna : Byte
  irqEna : Byte
  jumpers : Byte
  resetSense : ResetSense
  bufferReset : BufferReset
  memSizeKib : Nat
  emsCfgReset : Byte
  emsPortTable : Vector (Vector Port 16) 16
  emsReadback : Readback
  disabledSlot : DisabledSlot
  indexPort : Port
  dataPort : Port
  emsCfgIndex : Byte
  verifyLoop : VerifyLoop
deriving DecidableEq, Repr

namespace Config

/-- FREE VALUE (R10 `any u8`): the n-th unconstrained byte a read returns. Log entry 12. -/
opaque anyByte : Nat → Byte

/-- FREE VALUE (41_xta_engine.md R178): the n-th draw of the number of bytes a DMA tick moves. Log entry 13. -/
opaque dmaChunk : Nat → Nat

/-- FREE VALUE (20_memory.md R64): whether the channel takes the n-th offered byte (true: OK, false: NODATA). Log entry 14. -/
opaque dmaPut : Nat → Bool

/-- FREE VALUE (R64): the channel's n-th answer to `DmaGet` (`some b`: BYTE(b), `none`: NODATA). Log entry 14. -/
opaque dmaGet : Nat → Option Byte

/-- FREE VALUE (R8 P_PLATFORM_MEM, OPEN): the platform's answer to a read at an address (first argument), the n-th draw.
Log entry 15. -/
opaque platformByte : Nat → Nat → Byte

/-- OPEN parameter P_XTA_IRQ of the machine right after reset (R8). Log entry 5. -/
opaque xtaIrq : Nat

/-- OPEN parameter P_XTA_DMA (R8). Log entry 5. -/
opaque xtaDma : Nat

/-- OPEN parameter P_XTA_SPT_DEFAULT (R8); no rule of the block reads it. Log entry 5. -/
opaque sptDefault : SptDefault

/-- OPEN parameter P_XTA_ROM_ADDR (R8); no rule of the block reads it. Log entry 5. -/
opaque romAddr : Option Addr

/-- OPEN parameter P_JUMPERS (R8, 40_xta_ports.md R145). Log entry 5. -/
opaque jumpers : Byte

end Config

end Sys2Proof
end

