-- ==== Sys2Proof/Machine/Defaults.lean ====
section
/-! DEFINITION. The default parameter values of 00_scope.md R8 (P_CMD of 30_encoding.md R108, P_SENSE of 60_exceptions.md
R300, the masks of R104 and R24, P_EMS_PORT_BASE of R43) and the configuration of the machine right after reset: the
reference configuration RC of 95_test_vectors.md section 1, with every OPEN parameter an opaque constant. -/

namespace Sys2Proof.Machine

/-- The default of P_CMD (R108). Log entry 2. -/
def defaultCmdCodes : CmdCodes where
  testReady := 0x00
  recalibrate := 0x01
  readSense := 0x03
  formatDrive := 0x04
  readVerify := 0x05
  formatTrack := 0x06
  readSectors := 0x08
  writeSectors := 0x0A
  seek := 0x0B
  setDriveParams := 0x0C
  readSectorBuffer := 0x0E
  writeSectorBuffer := 0x0F
  ramDiag := 0xE0
  driveDiag := 0xE3
  ctrlDiag := 0xE4

/-- The default of P_SENSE (R300). Log entry 3. -/
def defaultSenseCodes : SenseCodes where
  noError := 0x00
  noSeek := 0x02
  wrFault := 0x03
  notRdy := 0x04
  noTrk0 := 0x06
  idErr := 0x10
  uncErr := 0x11
  noAddr := 0x12
  notFound := 0x14
  seek := 0x15
  corr := 0x18
  badTrk := 0x19
  illCmd := 0x20
  illAddr := 0x21
  badRam := 0x30
  badRom := 0x31
  badEcc := 0x32

/-- The default of P_EMS_PORT_BASE (R8, R43): `0x0208 OR (v AND 0xF0)`. Log entry 6. -/
def defaultEmsPortBase (v : Byte) : Port := 0x0208 ||| (v &&& 0xF0).setWidth 16

/-- A drive of the reference configuration (95_test_vectors.md section 1): spt 17, hpc 2, tracks 10, capacity 340, an
image of zero bytes. Log entry 1. -/
def rcDrive (present : Bool) : DriveParams where
  present := present
  geom := { spt := 17, hpc := 2, tracks := 10 }
  capacity := 340
  image := []

/-- The configuration after reset: the reference configuration RC, the OPEN parameters left open. Log entries 1 to 7, and
41 for `verifyLoop`. -/
def resetParams : Params where
  xtaBase := 0x320
  xtaIrq := Config.xtaIrq
  xtaDma := Config.xtaDma
  sptDefault := Config.sptDefault
  romAddr := Config.romAddr
  drive0 := rcDrive true
  drive1 := rcDrive false
  cmd := defaultCmdCodes
  senseCodes := defaultSenseCodes
  compDrive := 0x20
  compErr := 0x02
  dmaEna := 0x01
  irqEna := 0x02
  jumpers := Config.jumpers
  resetSense := .unchanged
  bufferReset := .unwritten
  memSizeKib := 1024
  emsCfgReset := 0x00
  emsPortTable :=
    Vector.ofFn fun hi => Vector.ofFn fun lo => defaultEmsPortBase (BitVec.ofNat 4 hi.val ++ BitVec.ofNat 4 lo.val)
  emsReadback := .raw
  disabledSlot := .fallthrough
  indexPort := 0x22
  dataPort := 0x23
  emsCfgIndex := 0x4C
  verifyLoop := .sendTick

end Sys2Proof.Machine
end

