-- ==== Sys2Proof/Syntax.lean ====
section
/-! DEFINITION. The operations of the block, one constructor per row of spec/opcode_table.json: the sixteen port
operations (30_encoding.md R101), the fifteen commands and the unrecognised opcode (R102, R108), and the two memory
operations (R100, MEM). The TICK agent's step is no operation of the table: it stands in Machine/Ticks.lean. -/

namespace Sys2Proof

/-- The operand fields of a Device Control Block, bytes 1 to 5 (30_encoding.md R102, R103). `mbz` is kept because a DCB
whose `mbz` is not zero has a behaviour of its own (R109, R172). -/
structure DcbOps where
  mbz : BitVec 2
  drvsel : Bool
  head : BitVec 5
  sector : BitVec 6
  cyl : BitVec 10
  count : Byte
  ctrl : Byte
deriving DecidableEq, Repr

/-- One operation of the block; the docstring of each constructor names its row and rule. -/
inductive Instr where
  /-- `OUT XB+0, v` (R140). -/
  | xtaDataW (v : Byte)
  /-- `IN XB+0` (R141). -/
  | xtaDataR
  /-- `OUT XB+1, v`, the Reset strobe (R142). -/
  | xtaResetW (v : Byte)
  /-- `IN XB+1` (R144). -/
  | xtaStatusR
  /-- `OUT XB+2, v`, the Select strobe (R143). -/
  | xtaSelectW (v : Byte)
  /-- `IN XB+2` (R145). -/
  | xtaJumpersR
  /-- `OUT XB+3, v` (R146). -/
  | xtaIntrW (v : Byte)
  /-- `IN XB+3` (R147). -/
  | xtaPort3R
  /-- `OUT ems_port_base + 0x4000*slot, v` (R263). -/
  | emsPageW (slot : BitVec 2) (v : Byte)
  /-- `IN ems_port_base + 0x4000*slot` (R264). -/
  | emsPageR (slot : BitVec 2)
  /-- `OUT 0x22, v` (R265). -/
  | chipIndexW (v : Byte)
  /-- `IN 0x22` (R265). -/
  | chipIndexR
  /-- `OUT 0x23, v` with the EMS configuration register selected (R266). -/
  | emsCfgW (v : Byte)
  /-- `IN 0x23` with the EMS configuration register selected (R269). -/
  | emsCfgR
  /-- `OUT 0x23, v` with any other index latched, or none (R267, R268). -/
  | chipDataW (v : Byte)
  /-- `IN 0x23` with any other index latched, or none (R267, R268). -/
  | chipDataR
  /-- TEST_READY (R210). -/
  | xtaCmdTestReady (d : DcbOps)
  /-- RECALIBRATE (R211). -/
  | xtaCmdRecalibrate (d : DcbOps)
  /-- READ_SENSE (R212). -/
  | xtaCmdReadSense (d : DcbOps)
  /-- FORMAT_DRIVE (R216). -/
  | xtaCmdFormatDrive (d : DcbOps)
  /-- READ_VERIFY (R213). -/
  | xtaCmdReadVerify (d : DcbOps)
  /-- FORMAT_TRACK (R217). -/
  | xtaCmdFormatTrack (d : DcbOps)
  /-- READ_SECTORS (R214). -/
  | xtaCmdReadSectors (d : DcbOps)
  /-- WRITE_SECTORS (R215). -/
  | xtaCmdWriteSectors (d : DcbOps)
  /-- SEEK (R218). -/
  | xtaCmdSeek (d : DcbOps)
  /-- SET_DRIVE_PARAMS (R219). -/
  | xtaCmdSetDriveParams (d : DcbOps)
  /-- READ_SECTOR_BUFFER (R220). -/
  | xtaCmdReadSectorBuffer (d : DcbOps)
  /-- WRITE_SECTOR_BUFFER (R221). -/
  | xtaCmdWriteSectorBuffer (d : DcbOps)
  /-- RAM_DIAG (R222). -/
  | xtaCmdRamDiag (d : DcbOps)
  /-- DRIVE_DIAG (R223). -/
  | xtaCmdDriveDiag (d : DcbOps)
  /-- CTRL_DIAG (R224). -/
  | xtaCmdCtrlDiag (d : DcbOps)
  /-- A DCB whose opcode byte is not in P_CMD (R225). -/
  | xtaCmdIllegal (op : Byte) (d : DcbOps)
  /-- `MEMR a` (R271). -/
  | emsMemR (a : Addr)
  /-- `MEMW a, v` (R272). -/
  | emsMemW (a : Addr) (v : Byte)
deriving DecidableEq, Repr

end Sys2Proof
end

