-- ==== Sys2Proof/Machine/PortMap.lean ====
section
/-! DEFINITION. Which register of the block a 16-bit port number names (20_memory.md R61, 30_encoding.md R101, 43_ems.md R260,
R261), as a function of the decoding context: the part of the state that port and command decoding depend on. -/

namespace Sys2Proof.Machine

/-- What decoding depends on beside the bits of an access: the window base, the chipset ports and their index (R43, R44,
R101), the page-port base (R260), P_CMD (R108), and, while the sixth byte of a DCB is awaited at the Data port, the DCB
received so far (R140, R172; its byte 5 is the one awaited). -/
structure DecodeCtx where
  xtaBase : Port
  indexPort : Port
  dataPort : Port
  emsCfgIndex : Byte
  chipIndex : Option Byte
  emsPortBase : Port
  cmd : CmdCodes
  lastDcbByte : Option (Vector Byte 6)
deriving DecidableEq, Repr

/-- The registers of the block that have a port (R60): the four offsets of the XTA window, the four EMS page registers by
slot, and the chipset index and data ports. -/
inductive PortReg where
  | data | status | select | intr
  | page (slot : BitVec 2)
  | chipIndex | chipData
deriving DecidableEq, Repr

/-- All port registers of the block. -/
def PortReg.all : List PortReg :=
  [.data, .status, .select, .intr, .page 0, .page 1, .page 2, .page 3, .chipIndex, .chipData]

/-- The port number of a register. The XTA offsets are added on naturals (R101); the page ports are
`(ems_port_base + 0x4000*s) mod 0x10000` (R260). -/
def DecodeCtx.portNum (c : DecodeCtx) : PortReg → Nat
  | .data => c.xtaBase.toNat
  | .status => c.xtaBase.toNat + 1
  | .select => c.xtaBase.toNat + 2
  | .intr => c.xtaBase.toNat + 3
  | .page s => (c.emsPortBase.toNat + 0x4000 * s.toNat) % 0x10000
  | .chipIndex => c.indexPort.toNat
  | .chipData => c.dataPort.toNat

/-- The registers of the block a port number names, by full 16-bit decode (R61): none for a port outside the block, two or
more where ports coincide. -/
def DecodeCtx.claims (c : DecodeCtx) (p : Nat) : List PortReg :=
  PortReg.all.filter fun r => c.portNum r == p

/-- Two of the block's registers share the port of `r` (R61, R275): the access is refused. -/
def DecodeCtx.collides (c : DecodeCtx) (r : PortReg) : Bool :=
  decide (2 ≤ (c.claims (c.portNum r)).length)

/-- P_CMD(c): the opcode byte of a command (R108). -/
def cmdCode (codes : CmdCodes) : Cmd → Byte
  | .testReady => codes.testReady
  | .recalibrate => codes.recalibrate
  | .readSense => codes.readSense
  | .formatDrive => codes.formatDrive
  | .readVerify => codes.readVerify
  | .formatTrack => codes.formatTrack
  | .readSectors => codes.readSectors
  | .writeSectors => codes.writeSectors
  | .seek => codes.seek
  | .setDriveParams => codes.setDriveParams
  | .readSectorBuffer => codes.readSectorBuffer
  | .writeSectorBuffer => codes.writeSectorBuffer
  | .ramDiag => codes.ramDiag
  | .driveDiag => codes.driveDiag
  | .ctrlDiag => codes.ctrlDiag

/-- The fifteen commands in the order of R108. -/
def allCmds : List Cmd :=
  [.testReady, .recalibrate, .readSense, .formatDrive, .readVerify, .formatTrack, .readSectors, .writeSectors, .seek,
   .setDriveParams, .readSectorBuffer, .writeSectorBuffer, .ramDiag, .driveDiag, .ctrlDiag]

/-- `cmdOf(op)` (41_xta_engine.md R175): the command with that opcode, `none` for ILLEGAL. R108 requires P_CMD's values to
be distinct; where they are not, the first in table order is taken (log entry 31). -/
def cmdOf (codes : CmdCodes) (op : Byte) : Option Cmd :=
  allCmds.find? fun c => cmdCode codes c == op

end Sys2Proof.Machine
end

