-- ==== Sys2Proof/WellFormed.lean ====
section
/-! DEFINITION. Which operations the host can issue in a decoding context: the ones that have an encoding there. Every
operand value of a well-formed operation is admitted. -/

namespace Sys2Proof

open Machine

/-- The register has a port of its own: a 16-bit number no other register of the block shares (20_memory.md R61). -/
def portUsable (c : DecodeCtx) (r : PortReg) : Bool :=
  decide (c.portNum r < 0x10000) && !c.collides r

/-- The opcode byte of the command decodes to the command (30_encoding.md R108: the values of P_CMD are distinct). -/
def cmdUsable (c : DecodeCtx) (k : Cmd) : Bool :=
  decide (cmdOf c.cmd (cmdCode c.cmd k) = some k)

/-- The well-formedness check of one operation. A Data write is the sixth byte of a DCB, not an operation of its own, while
that byte is awaited (R140, R172); port 0x23 is the EMS configuration register exactly while its index is latched (R266,
R268); an unrecognised opcode is in no entry of P_CMD (R225). -/
def Instr.wellFormed (c : DecodeCtx) : Instr → Bool
  | .xtaDataW _ => portUsable c .data && c.lastDcbByte.isNone
  | .xtaDataR => portUsable c .data
  | .xtaResetW _ | .xtaStatusR => portUsable c .status
  | .xtaSelectW _ | .xtaJumpersR => portUsable c .select
  | .xtaIntrW _ | .xtaPort3R => portUsable c .intr
  | .emsPageW s _ | .emsPageR s => portUsable c (.page s)
  | .chipIndexW _ | .chipIndexR => portUsable c .chipIndex
  | .emsCfgW _ | .emsCfgR => portUsable c .chipData && decide (c.chipIndex = some c.emsCfgIndex)
  | .chipDataW _ | .chipDataR => portUsable c .chipData && decide (c.chipIndex ≠ some c.emsCfgIndex)
  | .xtaCmdTestReady _ => cmdUsable c .testReady
  | .xtaCmdRecalibrate _ => cmdUsable c .recalibrate
  | .xtaCmdReadSense _ => cmdUsable c .readSense
  | .xtaCmdFormatDrive _ => cmdUsable c .formatDrive
  | .xtaCmdReadVerify _ => cmdUsable c .readVerify
  | .xtaCmdFormatTrack _ => cmdUsable c .formatTrack
  | .xtaCmdReadSectors _ => cmdUsable c .readSectors
  | .xtaCmdWriteSectors _ => cmdUsable c .writeSectors
  | .xtaCmdSeek _ => cmdUsable c .seek
  | .xtaCmdSetDriveParams _ => cmdUsable c .setDriveParams
  | .xtaCmdReadSectorBuffer _ => cmdUsable c .readSectorBuffer
  | .xtaCmdWriteSectorBuffer _ => cmdUsable c .writeSectorBuffer
  | .xtaCmdRamDiag _ => cmdUsable c .ramDiag
  | .xtaCmdDriveDiag _ => cmdUsable c .driveDiag
  | .xtaCmdCtrlDiag _ => cmdUsable c .ctrlDiag
  | .xtaCmdIllegal op _ => decide (cmdOf c.cmd op = none)
  | .emsMemR _ | .emsMemW _ _ => true

end Sys2Proof
end

