-- ==== Sys2Proof/Decode.lean ====
section
/-! DEFINITION. The decoder (total on any bytes, refusing by name) and, after it, the encoder, both from the formats of
30_encoding.md R100 to R107. An access of format PORT is laid out as port low, port high, direction (0 write, 1 read), data;
one of format MEM as address bits 7..0, 15..8, 19..16, direction, data; a DCB as its six bytes in order. The direction and
data bytes are the model's layout (log entry 16): the spec gives the fields (R101, MEM) and no bit positions for them. -/

namespace Sys2Proof

open Machine

/-- The three operation formats an operation of the table is encoded in (R100); PAGE and EMSCFG are data bytes of PORT. -/
inductive Format where
  | port | mem | dcb
deriving DecidableEq, Repr

/-- Why bytes decode to no operation of the block. -/
inductive DecodeReject where
  /-- Not the length of the format (R100). -/
  | wrongLength
  /-- The direction byte is neither write nor read. -/
  | badDirection
  /-- A read that carries data. -/
  | readWithData
  /-- The address has more than 20 bits (R9, R60). -/
  | addressTooWide
  /-- No register of the block has that port: the access is outside the block (R61). -/
  | unclaimedPort
deriving DecidableEq, Repr

/-- The bits of a byte. -/
def lowByte (n : Nat) : Byte := BitVec.ofNat 8 n

/-- DCB byte 1: `head:5 | drvsel:1 | mbz:2` from bit 0 up (R102). -/
def DcbOps.byte1 (d : DcbOps) : Byte := d.mbz ++ BitVec.ofBool d.drvsel ++ d.head

/-- DCB byte 2: `sector:6 | cyl_high:2` from bit 0 up (R102). -/
def DcbOps.byte2 (d : DcbOps) : Byte := d.cyl.extractLsb' 8 2 ++ d.sector

/-- DCB byte 3: cylinder bits 7..0 (R102). -/
def DcbOps.byte3 (d : DcbOps) : Byte := d.cyl.extractLsb' 0 8

/-- The six bytes of a DCB with a given opcode byte (R102). -/
def DcbOps.toDcb (d : DcbOps) (op : Byte) : Vector Byte 6 :=
  #v[op, d.byte1, d.byte2, d.byte3, d.count, d.ctrl]

/-- The operand fields of a DCB's six bytes (R102, R103). -/
def DcbOps.ofDcb (b : Vector Byte 6) : DcbOps where
  mbz := b[1].extractLsb' 6 2
  drvsel := b[1].getLsbD 5
  head := b[1].extractLsb' 0 5
  sector := b[2].extractLsb' 0 6
  cyl := b[2].extractLsb' 6 2 ++ b[3]
  count := b[4]
  ctrl := b[5]

/-- The command operation of a complete DCB: all eight bits of byte 0 against P_CMD, any other byte is the unrecognised
opcode; no other field takes part (R108). -/
def decodeDcb (codes : CmdCodes) (b : Vector Byte 6) : Instr :=
  let d := DcbOps.ofDcb b
  match cmdOf codes b[0] with
  | some .testReady => .xtaCmdTestReady d
  | some .recalibrate => .xtaCmdRecalibrate d
  | some .readSense => .xtaCmdReadSense d
  | some .formatDrive => .xtaCmdFormatDrive d
  | some .readVerify => .xtaCmdReadVerify d
  | some .formatTrack => .xtaCmdFormatTrack d
  | some .readSectors => .xtaCmdReadSectors d
  | some .writeSectors => .xtaCmdWriteSectors d
  | some .seek => .xtaCmdSeek d
  | some .setDriveParams => .xtaCmdSetDriveParams d
  | some .readSectorBuffer => .xtaCmdReadSectorBuffer d
  | some .writeSectorBuffer => .xtaCmdWriteSectorBuffer d
  | some .ramDiag => .xtaCmdRamDiag d
  | some .driveDiag => .xtaCmdDriveDiag d
  | some .ctrlDiag => .xtaCmdCtrlDiag d
  | none => .xtaCmdIllegal b[0] d

/-- The operation a write of `v` to a register is. A Data write while the sixth DCB byte is awaited completes the DCB and is
the command (R140, R172); a write of port 0x23 is by the latched index (R266, R268). -/
def writeOp (c : DecodeCtx) (r : PortReg) (v : Byte) : Instr :=
  match r with
  | .data =>
    match c.lastDcbByte with
    | some b => decodeDcb c.cmd (b.set 5 v)
    | none => .xtaDataW v
  | .status => .xtaResetW v
  | .select => .xtaSelectW v
  | .intr => .xtaIntrW v
  | .page s => .emsPageW s v
  | .chipIndex => .chipIndexW v
  | .chipData => if c.chipIndex = some c.emsCfgIndex then .emsCfgW v else .chipDataW v

/-- The operation a read of a register is (R101). -/
def readOp (c : DecodeCtx) (r : PortReg) : Instr :=
  match r with
  | .data => .xtaDataR
  | .status => .xtaStatusR
  | .select => .xtaJumpersR
  | .intr => .xtaPort3R
  | .page s => .emsPageR s
  | .chipIndex => .chipIndexR
  | .chipData => if c.chipIndex = some c.emsCfgIndex then .emsCfgR else .chipDataR

/-- The direction byte of the layout: true for a write. -/
def decodeDir (b : Byte) : Option Bool :=
  if b = 0 then some true else if b = 1 then some false else none

/-- PORT: the register whose port it is (R61, R101). Where two registers share the port the access decodes to an operation
on that port, which the machine refuses (R61, R275). -/
def decodePort (c : DecodeCtx) (p : Nat) (write : Bool) (v : Byte) : Except DecodeReject Instr :=
  match c.claims p with
  | [] => .error .unclaimedPort
  | r :: _ =>
    if write then .ok (writeOp c r v)
    else if v = 0 then .ok (readOp c r) else .error .readWithData

/-- MEM: the 20-bit address and the direction (R100, R270). -/
def decodeMem (a : Nat) (write : Bool) (v : Byte) : Except DecodeReject Instr :=
  if a < 0x100000 then
    if write then .ok (.emsMemW (BitVec.ofNat 20 a) v)
    else if v = 0 then .ok (.emsMemR (BitVec.ofNat 20 a)) else .error .readWithData
  else .error .addressTooWide

/-- The decoder: the operation some bytes are in a context, or why they are none. -/
def decode (c : DecodeCtx) (f : Format) (bytes : List Byte) : Except DecodeReject Instr :=
  match f, bytes with
  | .port, [p0, p1, dir, v] =>
    match decodeDir dir with
    | none => .error .badDirection
    | some w => decodePort c (p0.toNat + 0x100 * p1.toNat) w v
  | .mem, [a0, a1, a2, dir, v] =>
    match decodeDir dir with
    | none => .error .badDirection
    | some w => decodeMem (a0.toNat + 0x100 * a1.toNat + 0x10000 * a2.toNat) w v
  | .dcb, [b0, b1, b2, b3, b4, b5] => .ok (decodeDcb c.cmd #v[b0, b1, b2, b3, b4, b5])
  | _, _ => .error .wrongLength

/-- The bytes of a port access. -/
def portBytes (p : Nat) (write : Bool) (v : Byte) : List Byte :=
  [lowByte p, lowByte (p / 0x100), if write then 0 else 1, v]

/-- The bytes of a memory access. -/
def memBytes (a : Nat) (write : Bool) (v : Byte) : List Byte :=
  [lowByte a, lowByte (a / 0x100), lowByte (a / 0x10000), if write then 0 else 1, v]

/-- The encoder: the format and the bytes of an operation in a context. -/
def encode (c : DecodeCtx) : Instr → Format × List Byte
  | .xtaDataW v => (.port, portBytes (c.portNum .data) true v)
  | .xtaDataR => (.port, portBytes (c.portNum .data) false 0)
  | .xtaResetW v => (.port, portBytes (c.portNum .status) true v)
  | .xtaStatusR => (.port, portBytes (c.portNum .status) false 0)
  | .xtaSelectW v => (.port, portBytes (c.portNum .select) true v)
  | .xtaJumpersR => (.port, portBytes (c.portNum .select) false 0)
  | .xtaIntrW v => (.port, portBytes (c.portNum .intr) true v)
  | .xtaPort3R => (.port, portBytes (c.portNum .intr) false 0)
  | .emsPageW s v => (.port, portBytes (c.portNum (.page s)) true v)
  | .emsPageR s => (.port, portBytes (c.portNum (.page s)) false 0)
  | .chipIndexW v => (.port, portBytes (c.portNum .chipIndex) true v)
  | .chipIndexR => (.port, portBytes (c.portNum .chipIndex) false 0)
  | .emsCfgW v => (.port, portBytes (c.portNum .chipData) true v)
  | .emsCfgR => (.port, portBytes (c.portNum .chipData) false 0)
  | .chipDataW v => (.port, portBytes (c.portNum .chipData) true v)
  | .chipDataR => (.port, portBytes (c.portNum .chipData) false 0)
  | .xtaCmdTestReady d => (.dcb, (d.toDcb c.cmd.testReady).toList)
  | .xtaCmdRecalibrate d => (.dcb, (d.toDcb c.cmd.recalibrate).toList)
  | .xtaCmdReadSense d => (.dcb, (d.toDcb c.cmd.readSense).toList)
  | .xtaCmdFormatDrive d => (.dcb, (d.toDcb c.cmd.formatDrive).toList)
  | .xtaCmdReadVerify d => (.dcb, (d.toDcb c.cmd.readVerify).toList)
  | .xtaCmdFormatTrack d => (.dcb, (d.toDcb c.cmd.formatTrack).toList)
  | .xtaCmdReadSectors d => (.dcb, (d.toDcb c.cmd.readSectors).toList)
  | .xtaCmdWriteSectors d => (.dcb, (d.toDcb c.cmd.writeSectors).toList)
  | .xtaCmdSeek d => (.dcb, (d.toDcb c.cmd.seek).toList)
  | .xtaCmdSetDriveParams d => (.dcb, (d.toDcb c.cmd.setDriveParams).toList)
  | .xtaCmdReadSectorBuffer d => (.dcb, (d.toDcb c.cmd.readSectorBuffer).toList)
  | .xtaCmdWriteSectorBuffer d => (.dcb, (d.toDcb c.cmd.writeSectorBuffer).toList)
  | .xtaCmdRamDiag d => (.dcb, (d.toDcb c.cmd.ramDiag).toList)
  | .xtaCmdDriveDiag d => (.dcb, (d.toDcb c.cmd.driveDiag).toList)
  | .xtaCmdCtrlDiag d => (.dcb, (d.toDcb c.cmd.ctrlDiag).toList)
  | .xtaCmdIllegal op d => (.dcb, (d.toDcb op).toList)
  | .emsMemR a => (.mem, memBytes a.toNat false 0)
  | .emsMemW a v => (.mem, memBytes a.toNat true v)

/-- `n` bytes of a number, least significant first. -/
def bytesOf : Nat → Nat → List Byte
  | 0, _ => []
  | n + 1, w => lowByte w :: bytesOf n (w / 0x100)

/-- The format and bytes of a row of spec/opcode_table.json, from the number of bits the table gives it (16 for a port, 24 for
an address, 8 for an opcode) or the model's full layout gives it; the bits above are 0 (so the direction is: write). -/
def tableBytes (nbits w : Nat) : Option (Format × List Byte) :=
  match nbits with
  | 16 | 32 => some (.port, bytesOf 4 (w % 2 ^ nbits))
  | 20 | 24 | 40 => some (.mem, bytesOf 5 (if nbits = 40 then w % 2 ^ 40 else w % 2 ^ 20))
  | 8 | 48 => some (.dcb, bytesOf 6 (w % 2 ^ nbits))
  | _ => none

/-- The context the table's matches are shown for: `ems_cfg = 0x00`, index 0x4C latched, no DCB under way, the default
parameters. -/
def tableCtx : DecodeCtx where
  xtaBase := resetParams.xtaBase
  indexPort := resetParams.indexPort
  dataPort := resetParams.dataPort
  emsCfgIndex := resetParams.emsCfgIndex
  chipIndex := some resetParams.emsCfgIndex
  emsPortBase := defaultEmsPortBase 0
  cmd := resetParams.cmd
  lastDcbByte := none

/-- The operation the decoder reads from a row of spec/opcode_table.json. Direction and chipset index are in no bit of the
table's words: a port or memory row is read as the write, port 0x23 as the EMS configuration register (log entry 16). -/
def decodeTableWord (nbits w : Nat) : Option Instr :=
  match tableBytes nbits w with
  | none => none
  | some (f, bytes) => (decode tableCtx f bytes).toOption

end Sys2Proof
end

