-- ==== Sys2Proof/Machine/Mem.lean ====
section
/-! DEFINITION. Sparse byte stores: the RAM array (10_state.md R42) and the disk images (R40, 20_memory.md R63) as lists of
(address, byte) pairs in one canonical form. Every store and every load of the block goes through the operations here. -/

namespace Sys2Proof.Machine

/-- What an address that is not listed reads as: the one definition of it (log entry 10). -/
def Mem.unlisted : Byte := 0

/-- The byte at an address. -/
def Mem.load : Memory → Nat → Byte
  | [], _ => Mem.unlisted
  | (b, v) :: m, a => if a = b then v else Mem.load m a

/-- `n` bytes from an address on, in ascending address order. -/
def Mem.loadBytes (m : Memory) (a n : Nat) : List Byte :=
  (List.range n).map fun i => Mem.load m (a + i)

/-- The cells that bytes stored from an address on need: none for a byte that an unlisted address reads as. -/
def Mem.cells : Nat → List Byte → Memory
  | _, [] => []
  | a, v :: vs => if v = Mem.unlisted then Mem.cells (a + 1) vs else (a, v) :: Mem.cells (a + 1) vs

/-- The store with `vs` at the addresses from `a` on, every other address as before. -/
def Mem.storeBytes (m : Memory) (a : Nat) (vs : List Byte) : Memory :=
  m.filter (fun c => decide (c.1 < a)) ++ Mem.cells a vs ++ m.filter (fun c => decide (a + vs.length ≤ c.1))

/-- The store with one byte changed. -/
def Mem.store (m : Memory) (a : Nat) (v : Byte) : Memory := Mem.storeBytes m a [v]

/-- The addresses rise strictly, all above a bound. -/
def Mem.rising : Option Nat → Memory → Bool
  | _, [] => true
  | lo, (a, _) :: m => (match lo with | none => true | some b => decide (b < a)) && Mem.rising (some a) m

/-- The canonical form: addresses strictly rising, and no entry equal to what an unlisted address reads as. -/
def Mem.wf (m : Memory) : Bool :=
  Mem.rising none m && m.all fun c => decide (c.2 ≠ Mem.unlisted)

end Sys2Proof.Machine
end

