-- ==== Sys2Proof/Machine/Parts.lean ====
section
/-! DEFINITION. The parts of the state the spec names: the XTA engine's registers and sequencing state (10_state.md R21 to
R31), a drive (R33), the EMS unit (R41, R43, R44), each with its value after power-on (70_reset_and_hazards.md R340, R341). -/

namespace Sys2Proof.Machine

/-- The XTA state-machine value (R21). -/
inductive Xst where
  | idle | recv | send | rdata | sdata | rdone | sdone | compl | fatal
deriving DecidableEq, Repr

/-- The byte array a data phase moves (R27). -/
inductive Target where
  | none | dcbBuf | senseBuf | paramBuf | secBuf
deriving DecidableEq, Repr

/-- The XTA engine's registers and sequencing state (R21 to R31). -/
structure Xta where
  xst : Xst
  status : Byte
  sense : Byte
  intr : Byte
  dcb : Vector Byte 6
  comp : Byte
  curTgt : Target
  curIdx : Nat
  curLen : Nat
  xferDma : Bool
  /-- `none` is the spec's mark UNWRITTEN (R28). -/
  secbuf : Vector (Option Byte) 512
  sensebuf : Vector Byte 4
  parambuf : Vector Byte 8
  cTrack : Nat
  cHead : Nat
  cSector : Nat
  cLba : Nat
  count : Nat
  pending : Bool
deriving DecidableEq, Repr

/-- A drive entity (R33). -/
structure Drive where
  present : Bool
  curCyl : Nat
  spt : Nat
  hpc : Nat
  tracks : Nat
deriving DecidableEq, Repr

/-- One EMS page: the raw byte and the mapping derived from it (R41). -/
structure EmsPage where
  cfg : Byte
  en : Bool
  phys : Nat
deriving DecidableEq, Repr

/-- The EMS unit (R41, R43, R44); `chipIndex = none` is the spec's mark UNWRITTEN. -/
structure Ems where
  pages : Vector EmsPage 4
  emsCfg : Byte
  portBase : Port
  frameBase : Nat
  chipIndex : Option Byte
deriving DecidableEq, Repr

/-- P_EMS_PORT_BASE(v) (R8): the page-port base a configuration byte selects. -/
def emsPortBaseOf (p : Params) (v : Byte) : Port :=
  (p.emsPortTable[(v.extractLsb' 4 4).toNat]'((v.extractLsb' 4 4).isLt))[(v.extractLsb' 0 4).toNat]'((v.extractLsb' 0 4).isLt)

/-- The EMS state a write of `v` to the configuration register leaves, apart from the index latch (43_ems.md R266): port
group and frame base derived from `v`, all pages reset and disabled. -/
def Ems.configured (p : Params) (v : Byte) (chipIndex : Option Byte) : Ems where
  pages := Vector.replicate 4 { cfg := 0, en := false, phys := 0 }
  emsCfg := v
  portBase := emsPortBaseOf p v
  frameBase := 0xC0000 + 0x4000 * (v &&& 0x0F).toNat
  chipIndex := chipIndex

/-- A drive right after power-on (R33, R340). -/
def Drive.powerOn (p : DriveParams) : Drive where
  present := p.present
  curCyl := 0
  spt := p.geom.spt
  hpc := p.geom.hpc
  tracks := p.geom.tracks

/-- The engine right after power-on (R340). Log entry 8 for `dcb`, `comp`, `sensebuf` and `parambuf`, which the spec leaves
unspecified. -/
def Xta.powerOn (p : Params) : Xta where
  xst := .idle
  status := 0x00
  sense := p.senseCodes.noError
  intr := 0x00
  dcb := Vector.replicate 6 0
  comp := 0
  curTgt := .none
  curIdx := 0
  curLen := 0
  xferDma := false
  secbuf := Vector.replicate 512 (match p.bufferReset with | .unwritten => none | .zeros => some 0)
  sensebuf := Vector.replicate 4 0
  parambuf := Vector.replicate 8 0
  cTrack := 0
  cHead := 0
  cSector := 0
  cLba := 0
  count := 0
  pending := false

end Sys2Proof.Machine
end

