-- ==== Sys2Proof/Machine/State.lean ====
section
/-! DEFINITION. The state of the block as the spec gives it (10_state.md R20 to R48), plus the model's own fields: the
parameters in force, the environment's free inputs, the accesses still to come, the byte or bytes the last host read returned,
and the history of recorded events. Power-on for any parameters (70_reset_and_hazards.md R340, R341), and the reset state. -/

namespace Sys2Proof.Machine

/-- The direction of a host access. -/
inductive Dir where
  | read | write
deriving DecidableEq, Repr

/-- The events `Record` appends to the history (00_scope.md R11). -/
inductive Event where
  /-- A completion raised the interrupt on a line (41_xta_engine.md R180). -/
  | irqRaise (line : Nat)
  /-- A byte offered to the DMA channel and whether it was taken (20_memory.md R64). -/
  | dmaPut (b : Byte) (taken : Bool)
  /-- An answer of the DMA channel, `none` for NODATA (R64). -/
  | dmaGet (answer : Option Byte)
  /-- A sector written to a drive's image (R40). -/
  | diskWrite (d : Bool) (lba : Nat)
  /-- A Data-port access the state machine did not expect (40_xta_ports.md R149). -/
  | protocolViolation (dir : Dir) (port : Nat)
  /-- An access to a disabled window slot under P_DISABLED_SLOT = ems_all_ones (43_ems.md R273). -/
  | disabledPageAccess (a : Nat)
deriving DecidableEq, Repr

/-- The one reason of a Fatal (60_exceptions.md R304). -/
inductive FatalReason where
  | dmaExhausted
deriving DecidableEq, Repr

/-- The reasons of a ModelFault (R305). -/
inductive ModelFaultReason where
  | unwrittenBuffer | backendRange | unreachableTick
deriving DecidableEq, Repr

/-- The reasons of a refusal (R305). -/
inductive RefuseReason where
  | dcbMbz | portCollision | widePortAccess | chipIndexUnwritten
deriving DecidableEq, Repr

/-- THE MODEL'S OWN. What the environment answers to the free inputs of the steps to come: the bytes of `any u8` reads, the
DMA chunk sizes, and the channel's answers, each used from the head on. Where a list is empty the answer is an opaque
constant of `Config` applied to `used`, which then advances (log entries 12 to 15). -/
structure Draws where
  bytes : List Byte
  chunks : List Nat
  puts : List Bool
  gets : List (Option Byte)
  used : Nat
deriving DecidableEq, Repr

/-- THE MODEL'S OWN. What happens next at the block's boundary (00_scope.md R6: the agents interleave in any order). -/
inductive Input where
  /-- A host byte access to a port: the bytes of format PORT (30_encoding.md R100, R101). -/
  | port (bytes : List Byte)
  /-- A host byte access to memory: the bytes of format MEM (R100). -/
  | mem (bytes : List Byte)
  /-- A host word access to a port (20_memory.md R66). -/
  | portWord (port : Port)
  /-- A host memory read of `n` bytes (43_ems.md R274). -/
  | memReadWide (a : Addr) (n : Nat)
  /-- A host memory write of the `n` low bytes of the value `w`, little-endian (20_memory.md R65, R274). -/
  | memWriteWide (a : Addr) (n w : Nat)
  /-- The TICK agent takes its step (41_xta_engine.md R174). -/
  | tick
deriving DecidableEq, Repr

/-- The machine. -/
structure State where
  xta : Xta
  drv0 : Drive
  drv1 : Drive
  disk0 : Memory
  disk1 : Memory
  ems : Ems
  ram : Memory
  /-- `fatal` of R47. -/
  fatal : Option FatalReason
  /-- `mfault` of R47. -/
  mfault : Option ModelFaultReason
  /-- `refused` of R47. -/
  refusal : Option RefuseReason
  /-- THE MODEL'S OWN: the parameters of 00_scope.md R8, changed by no step. -/
  cfg : Params
  /-- THE MODEL'S OWN: the free inputs of the steps to come. -/
  draws : Draws
  /-- THE MODEL'S OWN: the accesses and ticks to come, the next one first. -/
  inputs : List Input
  /-- THE MODEL'S OWN: the bytes the most recent host read of this block returned, lowest address first; `State.readValue` is
  the value they are (20_memory.md R65). -/
  result : List Byte
  /-- THE MODEL'S OWN: the history `Record` appends to (R11), the latest event first. -/
  history : List Event
deriving DecidableEq, Repr

/-- Why a step stops. -/
inductive Fault where
  /-- Raised by every operation and step of a machine whose `fatal` is set: no agent has a step (R47, R304). Safe. -/
  | fatalStop (r : FatalReason)
  /-- Raised by every operation and step of a machine whose `mfault` is set: no agent has a step (R47, R305). Safe. -/
  | modelFaultStop (r : ModelFaultReason)
  /-- Raised by a frame access whose translation lies outside the RAM array (R42): an address that does not exist. No
  reachable state has such a mapping (43_ems.md R262, R276). Safe. -/
  | ramOutOfRange
deriving DecidableEq, Repr

/-- Why a step is refused. -/
inductive Refusal where
  /-- Raised by an arm of exec that has no meaning yet. Safe. -/
  | notModelled (mnemonic : String)
  /-- Raised by every operation and step of a machine whose `refusal` is set: no agent has a step (R47, R305). Safe. -/
  | refusedStop (r : RefuseReason)
  /-- Raised by a step whose next input is bytes that are no host access at all (log entry 27). Safe. -/
  | undecodable (r : DecodeReject)
deriving DecidableEq, Repr

/-- Power-on of a machine with parameters `p` and RAM contents `ram` (R340, R341): nothing to come, no draw used. -/
def State.powerOn (p : Params) (ram : Memory) : State where
  xta := Xta.powerOn p
  drv0 := Drive.powerOn p.drive0
  drv1 := Drive.powerOn p.drive1
  disk0 := p.drive0.image
  disk1 := p.drive1.image
  ems := Ems.configured p p.emsCfgReset none
  ram := ram
  fatal := none
  mfault := none
  refusal := none
  cfg := p
  draws := { bytes := [], chunks := [], puts := [], gets := [], used := 0 }
  inputs := []
  result := []
  history := []

/-- The machine right after reset: power-on in the reference configuration with RAM of zeros (log entries 1 to 10). -/
def State.reset : State := State.powerOn resetParams []

end Sys2Proof.Machine
end

