-- ==== Sys2Proof/Machine/Flags.lean ====
section
/-! DEFINITION. The status byte and the completion byte: their bits (00_scope.md R12, 10_state.md R22), every value the status
register takes (41_xta_engine.md R171), the completion byte (30_encoding.md R104), the enables of `intr` (10_state.md R24)
and the interrupt output (60_exceptions.md R306). -/

namespace Sys2Proof.Machine

/-- Status bit 0: the engine is ready for the host to move the next byte (R22). -/
def Status.req : Byte := 0x01
/-- Status bit 1: direction, set for engine to host (R22). -/
def Status.io : Byte := 0x02
/-- Status bit 2: DCB reception or completion byte (R22). -/
def Status.cd : Byte := 0x04
/-- Status bit 3: busy with a command (R22). -/
def Status.bsy : Byte := 0x08
/-- Status bit 4: a DMA data phase is in progress (R22). -/
def Status.drq : Byte := 0x10
/-- Status bit 5: an interrupt is being requested (R22). -/
def Status.irq : Byte := 0x20
/-- Status bit 7: a DCB has been accepted and its command is executing (R22). -/
def Status.dcb : Byte := 0x80

/-- Status with no command (R171). -/
def Status.idle : Byte := 0x00
/-- Status during DCB reception (R143, R171). -/
def Status.reception : Byte := Status.bsy ||| Status.cd ||| Status.req
/-- Status while a command executes with no data phase open (R171). -/
def Status.executing : Byte := Status.bsy ||| Status.dcb
/-- Status of a PIO phase to the host (R176). -/
def Status.pioOut : Byte := Status.bsy ||| Status.dcb ||| Status.io ||| Status.req
/-- Status of a PIO phase from the host (R176). -/
def Status.pioIn : Byte := Status.bsy ||| Status.dcb ||| Status.req
/-- Status of a DMA phase to the host (R176). -/
def Status.dmaOut : Byte := Status.bsy ||| Status.dcb ||| Status.io ||| Status.drq
/-- Status of a DMA phase from the host (R176). -/
def Status.dmaIn : Byte := Status.bsy ||| Status.dcb ||| Status.drq
/-- Status of a completion without interrupt (R180). -/
def Status.completion : Byte := Status.bsy ||| Status.cd ||| Status.io
/-- Status of a completion that raised the interrupt (R180). -/
def Status.completionIrq : Byte := Status.completion ||| Status.irq

/-- `(v AND mask) != 0`. -/
def bitsSet (v mask : Byte) : Bool := decide (v &&& mask ≠ 0)

/-- REQ is set (R140, R141). -/
def State.req (s : State) : Bool := bitsSet s.xta.status Status.req

/-- `(intr AND DMA_ENA) != 0` (R24, R176). -/
def State.dmaEnabled (s : State) : Bool := bitsSet s.xta.intr s.cfg.dmaEna

/-- `(intr AND IRQ_ENA) != 0` (R24, R180). -/
def State.irqEnabled (s : State) : Bool := bitsSet s.xta.intr s.cfg.irqEna

/-- The level on the interrupt line P_XTA_IRQ: status bit 5 (R306). -/
def State.irqOutput (s : State) : Bool := s.xta.status.getLsbD 5

/-- The completion byte: drive echo and error bit, all other bits 0 (R104). -/
def completionByte (p : Params) (drvsel failed : Bool) : Byte :=
  (if drvsel then p.compDrive else 0) ||| (if failed then p.compErr else 0)

end Sys2Proof.Machine
end

