-- ==== Sys2Proof/Machine/Operands.lean ====
section
/-! DEFINITION. Every operand form: the fields of the DCB (30_encoding.md R102, R103), of the drive-parameter block (R106), of
the PAGE and EMSCFG bytes (R107), the sense block (R105), and the port-index swap (43_ems.md R261). -/

namespace Sys2Proof.Machine

/-- The drive the command addresses, `dcb[1][5]` (10_state.md R32). -/
def Xta.drvsel (x : Xta) : Bool := x.dcb[1].getLsbD 5

/-- `mbz = dcb[1][7:6]` (R103). -/
def Xta.mbz (x : Xta) : BitVec 2 := x.dcb[1].extractLsb' 6 2

/-- `head = dcb[1][4:0]` (R103). -/
def Xta.head (x : Xta) : Nat := (x.dcb[1].extractLsb' 0 5).toNat

/-- `sector = dcb[2][5:0]` (R103). -/
def Xta.sector (x : Xta) : Nat := (x.dcb[2].extractLsb' 0 6).toNat

/-- `cyl = (dcb[2][7:6] << 8) OR dcb[3]` (R103, R65). -/
def Xta.cyl (x : Xta) : Nat := (x.dcb[2].extractLsb' 6 2 ++ x.dcb[3]).toNat

/-- `cnt`: the count byte, 0 means 256 (R103). -/
def Xta.cnt (x : Xta) : Nat := if x.dcb[4] = 0 then 256 else x.dcb[4].toNat

/-- The decoded command of the current DCB (41_xta_engine.md R175). -/
def State.command (s : State) : Option Cmd := cmdOf s.cfg.cmd s.xta.dcb[0]

/-- `tracks = (cyl_high : cyl_low)` of the drive-parameter block (R106, R65). -/
def Xta.paramTracks (x : Xta) : Nat := x.parambuf[0].toNat * 256 + x.parambuf[1].toNat

/-- `hpc = heads` of the drive-parameter block (R106). -/
def Xta.paramHeads (x : Xta) : Nat := x.parambuf[2].toNat

/-- The sense block (R105, 42_xta_commands.md R212). -/
def Xta.senseBlock (x : Xta) : Vector Byte 4 :=
  #v[x.sense,
     if x.drvsel then 0x20 else 0x00,
     BitVec.ofNat 8 (((x.cTrack >>> 8 &&& 0x03) <<< 6) ||| (x.cSector &&& 0x3F)),
     BitVec.ofNat 8 (x.cTrack &&& 0xFF)]

/-- The enable bit of a PAGE byte (R107). -/
def pageEnable (v : Byte) : Bool := v.getLsbD 7

/-- The 16 KiB page index of a PAGE byte (R107). -/
def pageIndex (v : Byte) : Nat := (v.extractLsb' 0 7).toNat

/-- `swap(s) = ((s >> 1) OR (s << 1)) AND 3` on 2-bit values (R261). -/
def swapSlot (s : BitVec 2) : BitVec 2 := (s >>> 1) ||| (s <<< 1)

/-- `ems_pages`: the 16 KiB pages above 640 KiB (R262). -/
def emsPages (p : Params) : Nat := if 640 ≤ p.memSizeKib then (p.memSizeKib - 640) / 16 else 0

/-- `Map(v)`: the page a page-register byte asks for, with the byte kept (R262, R263). -/
def mapPage (p : Params) (v : Byte) : EmsPage :=
  if pageEnable v ∧ pageIndex v < emsPages p then
    { cfg := v, en := true, phys := 640 * 1024 + 16 * 1024 * pageIndex v }
  else
    { cfg := v, en := false, phys := 0 }

end Sys2Proof.Machine
end

