-- ==== Sys2Proof/Machine/Ops.lean ====
section
/-! DEFINITION. The named operations every meaning is written over: the model-level stops (60_exceptions.md R304, R305), the
completion, which is this block's trap entry (R308, 41_xta_engine.md R180, R181), and the completion read, its return (R309,
40_xta_ports.md R141), the drives and disks, the free inputs, and the host access itself. -/

namespace Sys2Proof.Machine

/-- The outcome of one operation. -/
abbrev Result := Host.Outcome State Fault Refusal

/-- No agent has a step while a stop is recorded (10_state.md R47). -/
def State.ifRunning (s : State) (k : Result) : Result :=
  match s.fatal with
  | some r => .fault (.fatalStop r)
  | none =>
    match s.mfault with
    | some r => .fault (.modelFaultStop r)
    | none =>
      match s.refusal with
      | some r => .refused (.refusedStop r)
      | none => k

/-- `Record(event)` (00_scope.md R11). -/
def State.record (s : State) (e : Event) : State := { s with history := e :: s.history }

/-- The value a host read returns. -/
def State.answer (s : State) (r : Byte) : State := { s with result := [r] }

/-! Stops. -/

/-- `raise Fatal(reason)` (R304): the reason is recorded and the engine is in FATAL; what was done before stands. -/
def State.raiseFatal (s : State) (r : FatalReason) : State :=
  { s with fatal := some r, xta := { s.xta with xst := .fatal } }

/-- `raise ModelFault(reason)` (R305): the reason is recorded; what was done before stands. -/
def State.raiseModelFault (s : State) (r : ModelFaultReason) : State := { s with mfault := some r }

/-- `refuse(reason)` (R305): the reason is recorded and nothing else changes. -/
def State.refuse (s : State) (r : RefuseReason) : State := { s with refusal := some r }

/-- A routine that either goes on or has ended its step by a Fatal or a ModelFault. -/
inductive Flow where
  | go (s : State)
  | halt (s : State)
deriving DecidableEq, Repr

/-- The state a routine leaves, whether it ended the step or not. -/
def Flow.state : Flow → State
  | .go s => s
  | .halt s => s

/-- Sequencing: nothing more happens after a stop. -/
def Flow.andThen (f : Flow) (k : State → Flow) : Flow :=
  match f with
  | .go s => k s
  | .halt s => .halt s

/-- A loop over the elements of a list, in order, ended by the first stop. -/
def Flow.forEach {α : Type} (body : α → State → Flow) : List α → State → Flow
  | [], s => .go s
  | x :: xs, s => (body x s).andThen (Flow.forEach body xs)

/-! Free inputs. -/

/-- `any u8` (00_scope.md R10): log entry 12. -/
def State.drawByte (s : State) : Byte × State :=
  match s.draws.bytes with
  | b :: bs => (b, { s with draws := { s.draws with bytes := bs } })
  | [] => (Config.anyByte s.draws.used, { s with draws := { s.draws with used := s.draws.used + 1 } })

/-- `k`, a natural in `[1, rem]` (41_xta_engine.md R178): log entry 13. -/
def State.drawChunk (s : State) (rem : Nat) : Nat × State :=
  match s.draws.chunks with
  | k :: ks => (min (max k 1) rem, { s with draws := { s.draws with chunks := ks } })
  | [] =>
    (min (max (Config.dmaChunk s.draws.used) 1) rem, { s with draws := { s.draws with used := s.draws.used + 1 } })

/-- The channel's answer to `DmaPut`, true for OK (20_memory.md R64): log entry 14. -/
def State.drawPut (s : State) : Bool × State :=
  match s.draws.puts with
  | a :: as => (a, { s with draws := { s.draws with puts := as } })
  | [] => (Config.dmaPut s.draws.used, { s with draws := { s.draws with used := s.draws.used + 1 } })

/-- The channel's answer to `DmaGet`, `none` for NODATA (R64): log entry 14. -/
def State.drawGet (s : State) : Option Byte × State :=
  match s.draws.gets with
  | a :: as => (a, { s with draws := { s.draws with gets := as } })
  | [] => (Config.dmaGet s.draws.used, { s with draws := { s.draws with used := s.draws.used + 1 } })

/-- The platform's answer to a read the block does not claim (R8 P_PLATFORM_MEM): log entry 15. -/
def State.drawPlatform (s : State) (a : Nat) : Byte × State :=
  (Config.platformByte a s.draws.used, { s with draws := { s.draws with used := s.draws.used + 1 } })

/-! Timer and transfer cursor. -/

/-- `Schedule()` (00_scope.md R11, 10_state.md R31). -/
def State.schedule (s : State) : State := { s with xta := { s.xta with pending := true } }

/-- `Cancel()` (R11, R31). -/
def State.cancel (s : State) : State := { s with xta := { s.xta with pending := false } }

/-- The engine in a state with a status and no open phase: `cur_tgt <- NONE; cur_idx <- 0; cur_len <- 0; xfer_dma <- false`. -/
def State.enter (s : State) (x : Xst) (status : Byte) : State :=
  { s with xta := { s.xta with
      xst := x, status := status, curTgt := .none, curIdx := 0, curLen := 0, xferDma := false } }

/-! Taking the block's exception and returning from it (R308, R309). -/

/-- `Complete()` (41_xta_engine.md R180), the trap entry of R308: any pending tick is cancelled, the cursor cleared, the status
0x0E, or 0x2E with the interrupt recorded where it is enabled. -/
def State.complete (s : State) : State :=
  if s.irqEnabled then
    (s.cancel.enter .compl Status.completionIrq).record (.irqRaise s.cfg.xtaIrq)
  else
    s.cancel.enter .compl Status.completion

/-- `Fail(code)` (R181): the cause in `sense`, the error bit in `comp`, then the completion. -/
def State.fail (s : State) (code : Byte) : State :=
  State.complete { s with xta := { s.xta with sense := code, comp := s.xta.comp ||| s.cfg.compErr } }

/-- The completion read (40_xta_ports.md R141), the trap return of R309: `comp` goes to the host, the engine to IDLE, the
status to 0x00, which lowers the interrupt. -/
def State.completionRead (s : State) : State := (s.enter .idle Status.idle).answer s.xta.comp

/-! Drives and disks. -/

/-- `drv[d]` (10_state.md R33). -/
def State.drive (s : State) (d : Bool) : Drive := if d then s.drv1 else s.drv0

/-- `drv[d] <- v`. -/
def State.setDrive (s : State) (d : Bool) (v : Drive) : State :=
  if d then { s with drv1 := v } else { s with drv0 := v }

/-- The image of drive `d` (R40); byte `i` of sector `lba` is at `lba * 512 + i` (20_memory.md R63). -/
def State.disk (s : State) (d : Bool) : Memory := if d then s.disk1 else s.disk0

/-- The image of drive `d` replaced. -/
def State.setDisk (s : State) (d : Bool) (m : Memory) : State :=
  if d then { s with disk1 := m } else { s with disk0 := m }

/-- P_CAPACITY[d] in sectors (00_scope.md R8). -/
def State.capacity (s : State) (d : Bool) : Nat := if d then s.cfg.drive1.capacity else s.cfg.drive0.capacity

/-- Byte `i` of sector `lba` of drive `d`. -/
def State.diskByte (s : State) (d : Bool) (lba i : Nat) : Byte := Mem.load (s.disk d) (lba * 512 + i)

/-- `secbuf <- DiskRead(d, lba)` (R40): ModelFault(BackendRange) beyond the image. -/
def State.diskRead (s : State) (d : Bool) (lba : Nat) : Flow :=
  if lba < s.capacity d then
    .go { s with xta := { s.xta with secbuf := Vector.ofFn fun i => some (s.diskByte d lba i.val) } }
  else .halt (s.raiseModelFault .backendRange)

/-- The bytes of cells that have all been written. -/
def writtenBytes : List (Option Byte) → Option (List Byte)
  | [] => some []
  | none :: _ => none
  | some b :: cs => (writtenBytes cs).map (b :: ·)

/-- The bytes of the sector buffer, if every cell has been written (R28). -/
def Xta.secbufBytes (x : Xta) : Option (List Byte) := writtenBytes x.secbuf.toList

/-- `DiskWrite(d, lba, secbuf)` (R40): ModelFault(UnwrittenBuffer) where a cell of the buffer was never written (R28), then
ModelFault(BackendRange) beyond the image (log entry 22). -/
def State.diskWrite (s : State) (d : Bool) (lba : Nat) : Flow :=
  match s.xta.secbufBytes with
  | none => .halt (s.raiseModelFault .unwrittenBuffer)
  | some bytes =>
    if lba < s.capacity d then
      .go ((s.setDisk d (Mem.storeBytes (s.disk d) (lba * 512) bytes)).record (.diskWrite d lba))
    else .halt (s.raiseModelFault .backendRange)

/-! Host accesses. -/

/-- The decoding context of a state. The sixth DCB byte is awaited while a DCB is being received, the host may move a byte,
and five bytes are in (R140). -/
def State.decodeCtx (s : State) : DecodeCtx where
  xtaBase := s.cfg.xtaBase
  indexPort := s.cfg.indexPort
  dataPort := s.cfg.dataPort
  emsCfgIndex := s.cfg.emsCfgIndex
  chipIndex := s.ems.chipIndex
  emsPortBase := s.ems.portBase
  cmd := s.cfg.cmd
  lastDcbByte :=
    if s.xta.xst = .rdata ∧ s.req = true ∧ s.xta.curTgt = .dcbBuf ∧ s.xta.curIdx = 5 ∧ s.xta.curLen = 6 then
      some s.xta.dcb
    else none

/-- A host access to the port of register `r`: refused where two registers share the port (20_memory.md R61, 43_ems.md R275),
with no step while the model is stopped (R47). The refusal of a shared port comes before anything the operation would do: an
access to a shared port 0x23 with no index written, which meets R267 too, is recorded as PortCollision (DESIGN CHOICE, log
entry 39: the spec gives no order). -/
def State.onPort (s : State) (r : PortReg) (k : State) : Result :=
  s.ifRunning (if s.decodeCtx.collides r then .next (s.refuse .portCollision) else .next k)

end Sys2Proof.Machine
end

