-- ==== Sys2Proof/Machine/Engine.lean ====
section
/-! DEFINITION. The routines of 41_xta_engine.md that the port operations and the commands share: data phases (R173, R176, R177,
R178), the dispatcher's entry (R172), seek, address check and sector advance (R182 to R184), and the per-sector loop (R185). -/

namespace Sys2Proof.Machine

/-- The drive of the current DCB (10_state.md R32). -/
def State.d (s : State) : Bool := s.xta.drvsel

/-! Data phases. -/

/-- `BeginOut(tgt, len)` (R176): a phase to the host, by DMA only for the sector buffer with DMA_ENA set. -/
def State.beginOut (s : State) (tgt : Target) (len : Nat) : State :=
  if tgt = .secBuf ∧ s.dmaEnabled = true then
    { s with xta := { s.xta with
        curTgt := tgt, curIdx := 0, curLen := len, xst := .sdata, xferDma := true, status := Status.dmaOut,
        pending := true } }
  else
    { s with xta := { s.xta with
        curTgt := tgt, curIdx := 0, curLen := len, xst := .sdata, xferDma := false, status := Status.pioOut } }

/-- `BeginIn(tgt, len)` (R176): a phase from the host, by DMA only for the sector buffer with DMA_ENA set. -/
def State.beginIn (s : State) (tgt : Target) (len : Nat) : State :=
  if tgt = .secBuf ∧ s.dmaEnabled = true then
    { s with xta := { s.xta with
        curTgt := tgt, curIdx := 0, curLen := len, xst := .rdata, xferDma := true, status := Status.dmaIn,
        pending := true } }
  else
    { s with xta := { s.xta with
        curTgt := tgt, curIdx := 0, curLen := len, xst := .rdata, xferDma := false, status := Status.pioIn } }

/-- The engine executing in a waiting state with a tick scheduled: `xst <- x; status <- BSY OR DCB; Schedule()`. -/
def State.await (s : State) (x : Xst) : State :=
  { s with xta := { s.xta with xst := x, status := Status.executing, pending := true } }

/-- `EndInPhase()` (R173). -/
def State.endInPhase (s : State) : State := s.await .rdone

/-- `EndOutPhase()` (R177). -/
def State.endOutPhase (s : State) : State := s.await .sdone

/-- The cursor moved past one byte. -/
def State.advance (s : State) : State := { s with xta := { s.xta with curIdx := s.xta.curIdx + 1 } }

/-- `secbuf[cur_idx] <- b`. -/
def State.putSecbuf (s : State) (b : Byte) : State :=
  { s with xta := { s.xta with secbuf := s.xta.secbuf.setIfInBounds s.xta.curIdx (some b) } }

/-- The sector-buffer cell at the cursor, `none` for UNWRITTEN (R28). -/
def State.secbufAt (s : State) : Option Byte := s.xta.secbuf.getD s.xta.curIdx none

/-- The loop of `DmaOutStep()` (R178): `k` bytes of the sector buffer to the channel. -/
def State.dmaOutBytes : Nat → State → Flow
  | 0, s => .go s
  | k + 1, s =>
    match s.secbufAt with
    | none => .halt (s.raiseModelFault .unwrittenBuffer)
    | some b =>
      let (taken, s) := s.drawPut
      let s := s.record (.dmaPut b taken)
      if taken then State.dmaOutBytes k s.advance else .halt (s.raiseFatal .dmaExhausted)

/-- The loop of `DmaInStep()` (R178): `k` bytes of the channel to the sector buffer. -/
def State.dmaInBytes : Nat → State → Flow
  | 0, s => .go s
  | k + 1, s =>
    let (answer, s) := s.drawGet
    let s := s.record (.dmaGet answer)
    match answer with
    | none => .halt (s.raiseFatal .dmaExhausted)
    | some b => State.dmaInBytes k (s.putSecbuf b).advance

/-- The end of a DMA step (R178): the phase ends when its last byte has moved, and a tick is scheduled either way. -/
def State.endDmaStep (s : State) (ended : Xst) : State :=
  if s.xta.curIdx = s.xta.curLen then
    { s with xta := { s.xta with xferDma := false, status := Status.executing, xst := ended, pending := true } }
  else s.schedule

/-- `DmaOutStep()` (R178). -/
def State.dmaOutStep (s : State) : Flow :=
  let (k, s) := s.drawChunk (s.xta.curLen - s.xta.curIdx)
  (s.dmaOutBytes k).andThen fun s => .go (s.endDmaStep .sdone)

/-- `DmaInStep()` (R178). -/
def State.dmaInStep (s : State) : Flow :=
  let (k, s) := s.drawChunk (s.xta.curLen - s.xta.curIdx)
  (s.dmaInBytes k).andThen fun s => .go (s.endDmaStep .rdone)

/-! Dispatch entry. -/

/-- What `DcbComplete()` does before `Start` (R172): status 0x88, the cursor cleared, the dispatcher's entry with `xst = IDLE`,
and the drive echo in `comp`. -/
def State.dispatchEntry (s : State) : State :=
  let s := s.enter .idle Status.executing
  { s with xta := { s.xta with comp := completionByte s.cfg s.xta.drvsel false } }

/-- `DcbComplete()` around a start action (R172): a DCB whose `mbz` is not zero is refused before anything else. -/
def State.dcbComplete (start : State → State) (s : State) : State :=
  if s.xta.mbz ≠ 0 then s.refuse .dcbMbz else start s.dispatchEntry

/-- `CheckPresent(d)` before the rest of a start action (R187): an absent drive fails the command with NOTRDY. -/
def State.checkPresent (s : State) (k : State → State) : State :=
  if (s.drive s.d).present then k s else s.fail s.cfg.senseCodes.notRdy

/-! Seek, address check, sector advance. -/

/-- A geometry without a sector: `tracks`, `hpc` or `spt` is 0. Every seek and every address check on it fails, and the head is
clamped to cylinder 0 (92_eei_decisions.md D41, 93_implementation_defined.md row 34, 42_xta_commands.md R219). The pseudocode of
R182 and R184 does not look at all three; that the model follows D41 there is DEDUCED, log entry 37. -/
abbrev Drive.degenerate (v : Drive) : Prop := v.tracks = 0 ∨ v.hpc = 0 ∨ v.spt = 0

/-- `clamp(d, c)` (R182); 0 for every degenerate geometry (D41, log entry 37). -/
def Drive.clamp (v : Drive) (c : Nat) : Nat := if v.degenerate then 0 else min c (v.tracks - 1)

/-- The drive moved to a cylinder: `drv[d].cur_cyl <- c`. -/
def State.setCyl (s : State) (d : Bool) (c : Nat) : State := s.setDrive d { s.drive d with curCyl := c }

/-- `DoSeek(d, c)` (R182): whether the target was reached, and the state with the drive at the clamped cylinder. No seek on a
degenerate geometry reaches its target (R219, D41, log entry 37). -/
def State.doSeek (s : State) (d : Bool) (c : Nat) : Bool × State :=
  (decide (¬ (s.drive d).degenerate ∧ c < (s.drive d).tracks), s.setCyl d ((s.drive d).clamp c))

/-- `LoadChs()` (R185): the CHS cursor and the count from the DCB. -/
def State.loadChs (s : State) : State :=
  { s with xta := { s.xta with
      cTrack := s.xta.cyl, cHead := s.xta.head, cSector := s.xta.sector, count := s.xta.cnt } }

/-- `NextSector(d)` (R183): sector, then head, then cylinder; the drive's `cur_cyl` follows the carry, clamped. -/
def State.nextSector (s : State) (d : Bool) : State :=
  if s.xta.cSector + 1 < (s.drive d).spt then
    { s with xta := { s.xta with cSector := s.xta.cSector + 1 } }
  else if s.xta.cHead + 1 < (s.drive d).hpc then
    { s with xta := { s.xta with cSector := 0, cHead := s.xta.cHead + 1 } }
  else
    let s := s.setCyl d ((s.drive d).clamp ((s.drive d).curCyl + 1))
    { s with xta := { s.xta with cSector := 0, cHead := 0, cTrack := s.xta.cTrack + 1 } }

/-- `GetSector(d, t, h, s)` (R184): the block address, `none` for BAD. A degenerate geometry has no valid address, so that with
`tracks = 0` the check of cylinder 0 fails too (D41, R188, R219; the pseudocode of R184 does not look at `tracks`: DEDUCED, log
entry 37). -/
def State.getSector (s : State) (d : Bool) (t h sec : Nat) : Option Nat :=
  if (s.drive d).degenerate ∨ (s.drive d).curCyl ≠ t ∨ (s.drive d).hpc ≤ h ∨ (s.drive d).spt ≤ sec then none
  else some ((t * (s.drive d).hpc + h) * (s.drive d).spt + sec)

/-- The address check of the CHS cursor before a per-sector step (R185): BAD fails with ILLADDR, else `c_lba` is the address. -/
def State.addressed (s : State) (k : Nat → State → Flow) : Flow :=
  match s.getSector s.d s.xta.cTrack s.xta.cHead s.xta.cSector with
  | none => .go (s.fail s.cfg.senseCodes.illAddr)
  | some l => k l { s with xta := { s.xta with cLba := l } }

/-- `SendStep()` (R185). -/
def State.sendStep (s : State) : Flow :=
  s.addressed fun l s => (s.diskRead s.d l).andThen fun s => .go (s.beginOut .secBuf 512)

/-- `VerifyStep()` (R185). -/
def State.verifyStep (s : State) : Flow :=
  s.addressed fun _ s => .go (s.await .sdone)

/-- What READ_VERIFY does for the sector after one: it waits for that sector's own SEND tick, as 92_eei_decisions.md D24, the
example of 42_xta_commands.md R213 and V46 have it, or checks its address at once, as the pseudocode of R185 has it. The
spec's two readings are the two values of the parameter `verifyLoop` (log entry 41). -/
def State.verifyNext (s : State) : Flow :=
  match s.cfg.verifyLoop with
  | .sendTick => .go (s.await .send)
  | .sameTick => s.verifyStep

/-- `RecvStep()` (R185). -/
def State.recvStep (s : State) : Flow :=
  s.addressed fun _ s => .go (s.beginIn .secBuf 512)

/-- `AfterSector(next)` (R185). The pseudocode assigns `xst` nothing before `next()`, while its last sentence says that the state
passes through SEND or RECV inside the tick; the model assigns nothing, so where `SendStep` ends the step by
ModelFault(BackendRange) `xst` is SDONE (DESIGN CHOICE, log entry 38). -/
def State.afterSector (s : State) (next : State → Flow) : Flow :=
  let s := { s with xta := { s.xta with count := s.xta.count - 1 } }
  if s.xta.count = 0 then .go s.complete else next (s.nextSector s.d)

end Sys2Proof.Machine
end

