-- ==== Sys2Proof/Machine/Commands.lean ====
section
/-! DEFINITION. The commands (42_xta_commands.md R210 to R225): each one's start action, run by the dispatcher with `xst = IDLE`,
`status = 0x88` and `comp` the drive echo (41_xta_engine.md R172); its tick actions, and the tick table that names them, stand
in Machine/Ticks.lean. The meaning of a command as an operation of its own is the acceptance of its DCB: the six bytes are in
`dcb`, and the dispatcher runs the start action (log entry 18). -/

namespace Sys2Proof.Machine

/-! Start actions. -/

/-- TEST_READY at dispatch (R210). -/
def startTestReady (s : State) : State := s.checkPresent State.complete

/-- RECALIBRATE at dispatch (R211). -/
def startRecalibrate (s : State) : State := s.checkPresent fun s => (s.setCyl s.d 0).complete

/-- READ_SENSE at dispatch (R212): the sense block, always by PIO. -/
def startReadSense (s : State) : State :=
  State.beginOut { s with xta := { s.xta with sensebuf := s.xta.senseBlock } } .senseBuf 4

/-- FORMAT_DRIVE at dispatch (R216). -/
def startFormatDrive (s : State) : State := s.checkPresent fun s => s.await .rdone

/-- The CHS cursor loaded and the drive sent to its cylinder, the result of the seek not used (R213, R214, R215, R217). -/
def State.loadAndSeek (s : State) : State :=
  let s := s.loadChs
  (s.doSeek s.d s.xta.cTrack).2

/-- READ_VERIFY at dispatch (R213). -/
def startReadVerify (s : State) : State := s.checkPresent fun s => s.loadAndSeek.await .send

/-- FORMAT_TRACK at dispatch (R217). -/
def startFormatTrack (s : State) : State := s.checkPresent fun s => s.loadAndSeek.await .rdone

/-- READ_SECTORS at dispatch (R214). -/
def startReadSectors (s : State) : State := s.checkPresent fun s => s.loadAndSeek.await .send

/-- WRITE_SECTORS at dispatch (R215). -/
def startWriteSectors (s : State) : State := s.checkPresent fun s => s.loadAndSeek.await .recv

/-- SEEK at dispatch (R218). -/
def startSeek (s : State) : State :=
  s.checkPresent fun s =>
    let s := s.loadChs
    let (reached, s) := s.doSeek s.d s.xta.cTrack
    if reached then s.complete else s.fail s.cfg.senseCodes.seek

/-- SET_DRIVE_PARAMS at dispatch (R219): the parameter block, always by PIO. -/
def startSetDriveParams (s : State) : State := s.beginIn .paramBuf 8

/-- READ_SECTOR_BUFFER at dispatch (R220). -/
def startReadSectorBuffer (s : State) : State := s.beginOut .secBuf 512

/-- WRITE_SECTOR_BUFFER at dispatch (R221). -/
def startWriteSectorBuffer (s : State) : State := s.beginIn .secBuf 512

/-- RAM_DIAG at dispatch (R222). -/
def startRamDiag (s : State) : State := s.await .rdone

/-- DRIVE_DIAG at dispatch (R223). -/
def startDriveDiag (s : State) : State := s.checkPresent fun s => s.await .rdone

/-- CTRL_DIAG at dispatch (R224). -/
def startCtrlDiag (s : State) : State := s.await .rdone

/-- The unrecognised opcode at dispatch (R225). -/
def startIllegal (s : State) : State := s.fail s.cfg.senseCodes.illCmd

/-- `Start(c)` (R172). -/
def startOf : Option Cmd → State → State
  | some .testReady => startTestReady
  | some .recalibrate => startRecalibrate
  | some .readSense => startReadSense
  | some .formatDrive => startFormatDrive
  | some .readVerify => startReadVerify
  | some .formatTrack => startFormatTrack
  | some .readSectors => startReadSectors
  | some .writeSectors => startWriteSectors
  | some .seek => startSeek
  | some .setDriveParams => startSetDriveParams
  | some .readSectorBuffer => startReadSectorBuffer
  | some .writeSectorBuffer => startWriteSectorBuffer
  | some .ramDiag => startRamDiag
  | some .driveDiag => startDriveDiag
  | some .ctrlDiag => startCtrlDiag
  | none => startIllegal

/-! Meanings. -/

/-- A DCB accepted at the Data port and run (R140, R172): its six bytes stand in `dcb`, the cursor has passed them, and the
dispatcher runs the start action. -/
def State.acceptDcb (s : State) (b : Vector Byte 6) (start : State → State) : Result :=
  s.onPort .data (State.dcbComplete start { s with xta := { s.xta with dcb := b, curIdx := 6 } })

/-- TEST_READY (R210). -/
def execXtaCmdTestReady (d : DcbOps) (s : State) : Result := s.acceptDcb (d.toDcb s.cfg.cmd.testReady) startTestReady

/-- RECALIBRATE (R211). -/
def execXtaCmdRecalibrate (d : DcbOps) (s : State) : Result := s.acceptDcb (d.toDcb s.cfg.cmd.recalibrate) startRecalibrate

/-- READ_SENSE (R212). -/
def execXtaCmdReadSense (d : DcbOps) (s : State) : Result := s.acceptDcb (d.toDcb s.cfg.cmd.readSense) startReadSense

/-- FORMAT_DRIVE (R216). -/
def execXtaCmdFormatDrive (d : DcbOps) (s : State) : Result := s.acceptDcb (d.toDcb s.cfg.cmd.formatDrive) startFormatDrive

/-- READ_VERIFY (R213). -/
def execXtaCmdReadVerify (d : DcbOps) (s : State) : Result := s.acceptDcb (d.toDcb s.cfg.cmd.readVerify) startReadVerify

/-- FORMAT_TRACK (R217). -/
def execXtaCmdFormatTrack (d : DcbOps) (s : State) : Result := s.acceptDcb (d.toDcb s.cfg.cmd.formatTrack) startFormatTrack

/-- READ_SECTORS (R214). -/
def execXtaCmdReadSectors (d : DcbOps) (s : State) : Result := s.acceptDcb (d.toDcb s.cfg.cmd.readSectors) startReadSectors

/-- WRITE_SECTORS (R215). -/
def execXtaCmdWriteSectors (d : DcbOps) (s : State) : Result := s.acceptDcb (d.toDcb s.cfg.cmd.writeSectors) startWriteSectors

/-- SEEK (R218). -/
def execXtaCmdSeek (d : DcbOps) (s : State) : Result := s.acceptDcb (d.toDcb s.cfg.cmd.seek) startSeek

/-- SET_DRIVE_PARAMS (R219). -/
def execXtaCmdSetDriveParams (d : DcbOps) (s : State) : Result :=
  s.acceptDcb (d.toDcb s.cfg.cmd.setDriveParams) startSetDriveParams

/-- READ_SECTOR_BUFFER (R220). -/
def execXtaCmdReadSectorBuffer (d : DcbOps) (s : State) : Result :=
  s.acceptDcb (d.toDcb s.cfg.cmd.readSectorBuffer) startReadSectorBuffer

/-- WRITE_SECTOR_BUFFER (R221). -/
def execXtaCmdWriteSectorBuffer (d : DcbOps) (s : State) : Result :=
  s.acceptDcb (d.toDcb s.cfg.cmd.writeSectorBuffer) startWriteSectorBuffer

/-- RAM_DIAG (R222). -/
def execXtaCmdRamDiag (d : DcbOps) (s : State) : Result := s.acceptDcb (d.toDcb s.cfg.cmd.ramDiag) startRamDiag

/-- DRIVE_DIAG (R223). -/
def execXtaCmdDriveDiag (d : DcbOps) (s : State) : Result := s.acceptDcb (d.toDcb s.cfg.cmd.driveDiag) startDriveDiag

/-- CTRL_DIAG (R224). -/
def execXtaCmdCtrlDiag (d : DcbOps) (s : State) : Result := s.acceptDcb (d.toDcb s.cfg.cmd.ctrlDiag) startCtrlDiag

/-- A DCB whose opcode byte is in no entry of P_CMD (R225). -/
def execXtaCmdIllegal (op : Byte) (d : DcbOps) (s : State) : Result := s.acceptDcb (d.toDcb op) startIllegal

end Sys2Proof.Machine
end

