-- ==== Sys2Proof/Machine/Ports.lean ====
section
/-! DEFINITION. The eight operations of the XTA window (40_xta_ports.md R140 to R149). -/

namespace Sys2Proof.Machine

/-- `ProtocolViolation(dir, XB+0)` (R149): ILLCMD in `sense`, the event, and nothing else. -/
def State.protocolViolation (s : State) (dir : Dir) : State :=
  ({ s with xta := { s.xta with sense := s.cfg.senseCodes.illCmd } }).record
    (.protocolViolation dir s.cfg.xtaBase.toNat)

/-- The byte of a from-host phase stored at the cursor of its target (R140). -/
def State.storePhaseByte (s : State) (v : Byte) : State :=
  match s.xta.curTgt with
  | .dcbBuf => { s with xta := { s.xta with dcb := s.xta.dcb.setIfInBounds s.xta.curIdx v } }
  | .paramBuf => { s with xta := { s.xta with parambuf := s.xta.parambuf.setIfInBounds s.xta.curIdx v } }
  | .secBuf => s.putSecbuf v
  | .senseBuf => s
  | .none => s

/-- What an accepted Data write does once its byte is stored and the cursor moved (R140): the last byte of a DCB is dispatched
(R172), the last byte of another phase ends it (R173). -/
def State.afterPhaseByte (s : State) : State :=
  if s.xta.curIdx = s.xta.curLen then
    if s.xta.curTgt = .dcbBuf then s.dcbComplete (startOf s.command) else s.endInPhase
  else s

/-- The Data write (R140): accepted in RDATA with REQ set, else a protocol violation. -/
def State.dataWrite (s : State) (v : Byte) : State :=
  if s.xta.xst = .rdata ∧ s.req = true then (s.storePhaseByte v).advance.afterPhaseByte
  else s.protocolViolation .write

/-- A Data read the state machine does not expect (R141, R149): a violation and any byte. -/
def State.violatingRead (s : State) : State :=
  let (r, s) := (s.protocolViolation .read).drawByte
  s.answer r

/-- The end of an accepted Data read: the byte to the host, the cursor moved, the phase ended after its last byte (R141). -/
def State.afterPhaseRead (s : State) (r : Byte) : State :=
  let s := (s.answer r).advance
  if s.xta.curIdx = s.xta.curLen then s.endOutPhase else s

/-- The Data read (R141): the completion byte in COMPL, the next byte of a PIO phase to the host in SDATA with REQ set (an
UNWRITTEN cell is ModelFault(UnwrittenBuffer)), else a protocol violation. A target that is no to-host buffer has no case in
R141 and is taken as unexpected (log entry 28). -/
def State.dataRead (s : State) : State :=
  if s.xta.xst = .compl then s.completionRead
  else if s.xta.xst = .sdata ∧ s.req = true then
    match s.xta.curTgt with
    | .senseBuf => s.afterPhaseRead (s.xta.sensebuf.getD s.xta.curIdx 0)
    | .secBuf =>
      match s.secbufAt with
      | none => s.raiseModelFault .unwrittenBuffer
      | some r => s.afterPhaseRead r
    | .dcbBuf => s.violatingRead
    | .paramBuf => s.violatingRead
    | .none => s.violatingRead
  else s.violatingRead

/-- The Reset strobe (R142). -/
def State.resetStrobe (s : State) : State :=
  let s := s.cancel.enter .idle Status.idle
  match s.cfg.resetSense with
  | .unchanged => s
  | .cleared => { s with xta := { s.xta with sense := s.cfg.senseCodes.noError } }

/-- The Select strobe (R143). -/
def State.selectStrobe (s : State) : State :=
  { s with xta := { s.xta with
      pending := false, xst := .rdata, curTgt := .dcbBuf, curIdx := 0, curLen := 6, xferDma := false,
      status := Status.reception } }

/-- `OUT XB+0, v` (R140). -/
def execXtaDataW (v : Byte) (s : State) : Result := s.onPort .data (s.dataWrite v)

/-- `IN XB+0` (R141). -/
def execXtaDataR (s : State) : Result := s.onPort .data s.dataRead

/-- `OUT XB+1, v` (R142): the value is ignored (R148). -/
def execXtaResetW (_v : Byte) (s : State) : Result := s.onPort .status s.resetStrobe

/-- `IN XB+1` (R144). -/
def execXtaStatusR (s : State) : Result := s.onPort .status (s.answer s.xta.status)

/-- `OUT XB+2, v` (R143): the value is ignored (R148). -/
def execXtaSelectW (_v : Byte) (s : State) : Result := s.onPort .select s.selectStrobe

/-- `IN XB+2` (R145). -/
def execXtaJumpersR (s : State) : Result := s.onPort .select (s.answer s.cfg.jumpers)

/-- `OUT XB+3, v` (R146). -/
def execXtaIntrW (v : Byte) (s : State) : Result := s.onPort .intr { s with xta := { s.xta with intr := v } }

/-- A read that returns `any u8` and changes no state of the block (R147, R265, R268). -/
def State.readAny (s : State) : State :=
  let (r, s) := s.drawByte
  s.answer r

/-- `IN XB+3` (R147). -/
def execXtaPort3R (s : State) : Result := s.onPort .intr s.readAny

end Sys2Proof.Machine
end

