-- ==== Sys2Proof/Machine/EmsPorts.lean ====
section
/-! DEFINITION. The page-register ports and the chipset index and data ports (43_ems.md R260 to R269). -/

namespace Sys2Proof.Machine

/-- The page-register write of a slot (R263): the byte and its mapping at engine page `swap(slot)`. -/
def State.writePage (s : State) (slot : BitVec 2) (v : Byte) : State :=
  { s with ems := { s.ems with
      pages := s.ems.pages.set (swapSlot slot).toNat (mapPage s.cfg v) (swapSlot slot).isLt } }

/-- The page register of an engine page. -/
def Ems.page (e : Ems) (p : BitVec 2) : EmsPage := e.pages[p.toNat]'(p.isLt)

/-- The page-register read of a slot (R264): the raw byte, or any byte under P_EMS_READBACK = any. -/
def State.readPage (s : State) (slot : BitVec 2) : State :=
  match s.cfg.emsReadback with
  | .raw => s.answer (s.ems.page (swapSlot slot)).cfg
  | .any => s.readAny

/-- The EMS configuration write (R266): port group, frame base and pages in one step. -/
def State.configureEms (s : State) (v : Byte) : State :=
  { s with ems := Ems.configured s.cfg v s.ems.chipIndex }

/-- A write of the chipset data port by the latched index: refused while no index was written (R267), the EMS configuration
register (R266), or another register of the chipset, outside the block (R268). -/
def State.chipDataWrite (s : State) (v : Byte) : State :=
  match s.ems.chipIndex with
  | none => s.refuse .chipIndexUnwritten
  | some i => if i = s.cfg.emsCfgIndex then s.configureEms v else s

/-- A read of the chipset data port by the latched index (R267, R269, R268). -/
def State.chipDataRead (s : State) : State :=
  match s.ems.chipIndex with
  | none => s.refuse .chipIndexUnwritten
  | some i => if i = s.cfg.emsCfgIndex then s.answer s.ems.emsCfg else s.readAny

/-- `OUT ems_port_base + 0x4000*slot, v` (R263). -/
def execEmsPageW (slot : BitVec 2) (v : Byte) (s : State) : Result := s.onPort (.page slot) (s.writePage slot v)

/-- `IN ems_port_base + 0x4000*slot` (R264). -/
def execEmsPageR (slot : BitVec 2) (s : State) : Result := s.onPort (.page slot) (s.readPage slot)

/-- `OUT 0x22, v` (R265). -/
def execChipIndexW (v : Byte) (s : State) : Result :=
  s.onPort .chipIndex { s with ems := { s.ems with chipIndex := some v } }

/-- `IN 0x22` (R265). -/
def execChipIndexR (s : State) : Result := s.onPort .chipIndex s.readAny

/-- `OUT 0x23, v`, the row EMS_CFG_W (R266); which register it reaches is the latched index's (R267, R268). -/
def execEmsCfgW (v : Byte) (s : State) : Result := s.onPort .chipData (s.chipDataWrite v)

/-- `IN 0x23`, the row EMS_CFG_R (R269); which register it reaches is the latched index's (R267, R268). -/
def execEmsCfgR (s : State) : Result := s.onPort .chipData s.chipDataRead

/-- `OUT 0x23, v`, the row CHIP_DATA_W (R268); which register it reaches is the latched index's (R266, R267). -/
def execChipDataW (v : Byte) (s : State) : Result := s.onPort .chipData (s.chipDataWrite v)

/-- `IN 0x23`, the row CHIP_DATA_R (R268); which register it reaches is the latched index's (R267, R269). -/
def execChipDataR (s : State) : Result := s.onPort .chipData s.chipDataRead

end Sys2Proof.Machine
end

