-- ==== Sys2Proof/Machine/EmsMemory.lean ====
section
/-! DEFINITION. Host memory accesses: the translation of the page frame (43_ems.md R270) and the byte accesses (R271, R272, R273),
and the accesses of several bytes made of them, in little-endian order (R274, 20_memory.md R65). -/

namespace Sys2Proof.Machine

/-- The answer of `Translate` (R270). -/
inductive Translation where
  | outside
  | disabled (j : BitVec 2)
  | ram (x : Nat)
deriving DecidableEq, Repr

/-- `Translate(a)` (R270): the window slot is not swapped. Addresses from 0x100000 on are never presented (R62, R274): they
are outside every frame. -/
def State.translate (s : State) (a : Nat) : Translation :=
  if s.ems.frameBase ≤ a ∧ a < s.ems.frameBase + 0x10000 ∧ a < 0x100000 then
    let j := BitVec.ofNat 2 ((a - s.ems.frameBase) / 0x4000)
    if (s.ems.page j).en then .ram ((s.ems.page j).phys + a % 0x4000) else .disabled j
  else .outside

/-- The size of the RAM array (10_state.md R42). -/
def State.ramSize (s : State) : Nat := s.cfg.memSizeKib * 1024

/-- The byte a host read of an address returns, and the state after it (R271, R273). -/
def State.memReadByte (s : State) (a : Nat) : Except Fault (Byte × State) :=
  match s.translate a with
  | .outside => .ok (s.drawPlatform a)
  | .disabled _ =>
    match s.cfg.disabledSlot with
    | .fallthrough => .ok (s.drawPlatform a)
    | .emsAllOnes => .ok (0xFF, s.record (.disabledPageAccess a))
  | .ram x => if x < s.ramSize then .ok (Mem.load s.ram x, s) else .error .ramOutOfRange

/-- The state after a host write of one byte (R272, R273). -/
def State.memWriteByte (s : State) (a : Nat) (v : Byte) : Except Fault State :=
  match s.translate a with
  | .outside => .ok s
  | .disabled _ =>
    match s.cfg.disabledSlot with
    | .fallthrough => .ok s
    | .emsAllOnes => .ok (s.record (.disabledPageAccess a))
  | .ram x => if x < s.ramSize then .ok { s with ram := Mem.store s.ram x v } else .error .ramOutOfRange

/-! Byte order. -/

/-- The bytes of an access of `n` bytes to a value, the lowest-addressed first: the least significant (20_memory.md R65,
43_ems.md R274; general knowledge by the spec, log entry 36). -/
def littleEndian : Nat → Nat → List Byte
  | 0, _ => []
  | n + 1, w => lowByte w :: littleEndian n (w / 0x100)

/-- The value that bytes are, the lowest-addressed the least significant (R65, R274). -/
def fromLittleEndian : List Byte → Nat
  | [] => 0
  | b :: bs => b.toNat + 0x100 * fromLittleEndian bs

/-- The value that the most recent host read returned (R65, R274). -/
def State.readValue (s : State) : Nat := fromLittleEndian s.result

/-! Accesses of several bytes. -/

/-- `n` byte reads in ascending address order (R274). -/
def State.memReadBytes : Nat → Nat → State → Except Fault (List Byte × State)
  | 0, _, s => .ok ([], s)
  | n + 1, a, s =>
    match s.memReadByte a with
    | .error e => .error e
    | .ok (b, s) =>
      match State.memReadBytes n (a + 1) s with
      | .error e => .error e
      | .ok (bs, s) => .ok (b :: bs, s)

/-- Byte writes in ascending address order (R274). -/
def State.memWriteBytes : List Byte → Nat → State → Except Fault State
  | [], _, s => .ok s
  | v :: vs, a, s =>
    match s.memWriteByte a v with
    | .error e => .error e
    | .ok s => State.memWriteBytes vs (a + 1) s

/-- A host memory read of `n` bytes in one step (R274). -/
def State.memRead (s : State) (a n : Nat) : Result :=
  s.ifRunning (match State.memReadBytes n a s with
    | .error e => .fault e
    | .ok (bs, s) => .next { s with result := bs })

/-- A host memory write of several bytes in one step (R274). -/
def State.memWrite (s : State) (a : Nat) (vs : List Byte) : Result :=
  s.ifRunning (match State.memWriteBytes vs a s with
    | .error e => .fault e
    | .ok s => .next s)

/-- A host memory write of the `n` low bytes of a value in one step, split little-endian (R65, R274). -/
def State.memWriteValue (s : State) (a n w : Nat) : Result := s.memWrite a (littleEndian n w)

/-- `MEMR a` (R271). -/
def execEmsMemR (a : Addr) (s : State) : Result := s.memRead a.toNat 1

/-- `MEMW a, v` (R272). -/
def execEmsMemW (a : Addr) (v : Byte) (s : State) : Result := s.memWrite a.toNat [v]

end Sys2Proof.Machine
end

