-- ==== Sys2Proof/Machine/Dispatch.lean ====
section
/-! DEFINITION. The dispatcher: one arm per row of spec/opcode_table.json, each one call of its meaning. -/

namespace Sys2Proof.Machine

def exec (i : Instr) (s : State) : Host.Outcome State Fault Refusal :=
  match i with
  -- XTA host port operations (40_xta_ports.md)
  | .xtaDataW v => Sys2Proof.Machine.execXtaDataW v s
  | .xtaDataR => Sys2Proof.Machine.execXtaDataR s
  | .xtaResetW v => Sys2Proof.Machine.execXtaResetW v s
  | .xtaStatusR => Sys2Proof.Machine.execXtaStatusR s
  | .xtaSelectW v => Sys2Proof.Machine.execXtaSelectW v s
  | .xtaJumpersR => Sys2Proof.Machine.execXtaJumpersR s
  | .xtaIntrW v => Sys2Proof.Machine.execXtaIntrW v s
  | .xtaPort3R => Sys2Proof.Machine.execXtaPort3R s
  -- EMS page registers and chipset ports (43_ems.md)
  | .emsPageW slot v => Sys2Proof.Machine.execEmsPageW slot v s
  | .emsPageR slot => Sys2Proof.Machine.execEmsPageR slot s
  | .chipIndexW v => Sys2Proof.Machine.execChipIndexW v s
  | .chipIndexR => Sys2Proof.Machine.execChipIndexR s
  | .emsCfgW v => Sys2Proof.Machine.execEmsCfgW v s
  | .emsCfgR => Sys2Proof.Machine.execEmsCfgR s
  | .chipDataW v => Sys2Proof.Machine.execChipDataW v s
  | .chipDataR => Sys2Proof.Machine.execChipDataR s
  -- XTA commands (42_xta_commands.md)
  | .xtaCmdTestReady d => Sys2Proof.Machine.execXtaCmdTestReady d s
  | .xtaCmdRecalibrate d => Sys2Proof.Machine.execXtaCmdRecalibrate d s
  | .xtaCmdReadSense d => Sys2Proof.Machine.execXtaCmdReadSense d s
  | .xtaCmdFormatDrive d => Sys2Proof.Machine.execXtaCmdFormatDrive d s
  | .xtaCmdReadVerify d => Sys2Proof.Machine.execXtaCmdReadVerify d s
  | .xtaCmdFormatTrack d => Sys2Proof.Machine.execXtaCmdFormatTrack d s
  | .xtaCmdReadSectors d => Sys2Proof.Machine.execXtaCmdReadSectors d s
  | .xtaCmdWriteSectors d => Sys2Proof.Machine.execXtaCmdWriteSectors d s
  | .xtaCmdSeek d => Sys2Proof.Machine.execXtaCmdSeek d s
  | .xtaCmdSetDriveParams d => Sys2Proof.Machine.execXtaCmdSetDriveParams d s
  | .xtaCmdReadSectorBuffer d => Sys2Proof.Machine.execXtaCmdReadSectorBuffer d s
  | .xtaCmdWriteSectorBuffer d => Sys2Proof.Machine.execXtaCmdWriteSectorBuffer d s
  | .xtaCmdRamDiag d => Sys2Proof.Machine.execXtaCmdRamDiag d s
  | .xtaCmdDriveDiag d => Sys2Proof.Machine.execXtaCmdDriveDiag d s
  | .xtaCmdCtrlDiag d => Sys2Proof.Machine.execXtaCmdCtrlDiag d s
  | .xtaCmdIllegal op d => Sys2Proof.Machine.execXtaCmdIllegal op d s
  -- memory accesses in the page frame (43_ems.md)
  | .emsMemR a => Sys2Proof.Machine.execEmsMemR a s
  | .emsMemW a v => Sys2Proof.Machine.execEmsMemW a v s

end Sys2Proof.Machine
end

