-- ==== Sys2Proof/Machine/Ticks.lean ====
section
/-! DEFINITION. The TICK step (41_xta_engine.md R174): each command's tick actions (42_xta_commands.md R212 to R224) and the tick
table (R226) that names the action for a command, a state and the kind of phase. -/

namespace Sys2Proof.Machine

/-- READ_SENSE in SDONE (R212). -/
def tickReadSenseDone (s : State) : Flow :=
  .go (State.complete { s with xta := { s.xta with sense := s.cfg.senseCodes.noError } })

/-- READ_VERIFY in SDONE (R213): after the last sector it completes, after any other the next one is checked, in a SEND tick of
its own or in this one (log entry 41). -/
def tickReadVerifyDone (s : State) : Flow := s.afterSector State.verifyNext

/-- READ_SECTORS in SDONE (R214). -/
def tickReadSectorsDone (s : State) : Flow := s.afterSector State.sendStep

/-- WRITE_SECTORS in RDONE (R215): the sector goes to the disk, then the loop goes on. -/
def tickWriteSectorsDone (s : State) : Flow :=
  (s.diskWrite s.d s.xta.cLba).andThen fun s => s.afterSector State.recvStep

/-- One sector of FORMAT_DRIVE (R216). -/
def formatDriveSector (d : Bool) (c h sec : Nat) (s : State) : Flow :=
  s.diskWrite d ((c * (s.drive d).hpc + h) * (s.drive d).spt + sec)

/-- FORMAT_DRIVE in RDONE (R216): every sector of every head of every cylinder, the head on the cylinder. -/
def tickFormatDrive (s : State) : Flow :=
  let d := s.d
  let v := s.drive d
  (Flow.forEach (fun c s =>
      Flow.forEach (fun h s =>
          Flow.forEach (formatDriveSector d c h) (List.range v.spt) s)
        (List.range v.hpc) (s.setCyl d c))
    (List.range v.tracks) s).andThen fun s => .go s.complete

/-- The addresses FORMAT_TRACK visits: every sector of every head, heads outermost (R217). -/
def trackSectors (v : Drive) : List (Nat × Nat) :=
  (List.range v.hpc).flatMap fun h => (List.range v.spt).map fun sec => (h, sec)

/-- The loop of FORMAT_TRACK (R217): a failed address check ends the command with ILLADDR. -/
def formatTrackSectors : List (Nat × Nat) → State → Flow
  | [], s => .go s.complete
  | (h, sec) :: rest, s =>
    match s.getSector s.d s.xta.cTrack h sec with
    | none => .go (s.fail s.cfg.senseCodes.illAddr)
    | some l => (s.diskWrite s.d l).andThen (formatTrackSectors rest)

/-- FORMAT_TRACK in RDONE (R217). -/
def tickFormatTrack (s : State) : Flow := formatTrackSectors (trackSectors (s.drive s.d)) s

/-- SET_DRIVE_PARAMS in RDONE (R219): cylinders and heads from the parameter block, `cur_cyl` clamped again. -/
def tickSetDriveParams (s : State) : Flow :=
  let v := { s.drive s.d with tracks := s.xta.paramTracks, hpc := s.xta.paramHeads }
  .go (s.setDrive s.d { v with curCyl := v.clamp v.curCyl }).complete

/-- The completion of a command whose last phase or delay has ended (R220 to R224). -/
def tickComplete (s : State) : Flow := .go s.complete

/-- The tick table (R226): the action for a command, a state and `xfer_dma`; `none` where the table has no row. -/
def tickTable (c : Option Cmd) (x : Xst) (dma : Bool) : Option (State → Flow) :=
  match c with
  | some .readSense => if x = .sdone ∧ dma = false then some tickReadSenseDone else none
  | some .readVerify =>
    if x = .send ∧ dma = false then some State.verifyStep
    else if x = .sdone ∧ dma = false then some tickReadVerifyDone
    else none
  | some .readSectors =>
    if x = .send ∧ dma = false then some State.sendStep
    else if x = .sdata ∧ dma = true then some State.dmaOutStep
    else if x = .sdone ∧ dma = false then some tickReadSectorsDone
    else none
  | some .writeSectors =>
    if x = .recv ∧ dma = false then some State.recvStep
    else if x = .rdata ∧ dma = true then some State.dmaInStep
    else if x = .rdone ∧ dma = false then some tickWriteSectorsDone
    else none
  | some .formatDrive => if x = .rdone ∧ dma = false then some tickFormatDrive else none
  | some .formatTrack => if x = .rdone ∧ dma = false then some tickFormatTrack else none
  | some .setDriveParams => if x = .rdone ∧ dma = false then some tickSetDriveParams else none
  | some .readSectorBuffer =>
    if x = .sdata ∧ dma = true then some State.dmaOutStep
    else if x = .sdone ∧ dma = false then some tickComplete
    else none
  | some .writeSectorBuffer =>
    if x = .rdata ∧ dma = true then some State.dmaInStep
    else if x = .rdone ∧ dma = false then some tickComplete
    else none
  | some .ramDiag => if x = .rdone ∧ dma = false then some tickComplete else none
  | some .driveDiag => if x = .rdone ∧ dma = false then some tickComplete else none
  | some .ctrlDiag => if x = .rdone ∧ dma = false then some tickComplete else none
  | some .testReady => none
  | some .recalibrate => none
  | some .seek => none
  | none => none

/-- The TICK step of a state with a tick pending (R174): the tick is taken, then the table's action, or ModelFault
(UnreachableTick) where there is none. -/
def State.fire (s : State) : State :=
  let s := s.cancel
  match tickTable s.command s.xta.xst s.xta.xferDma with
  | some action => (action s).state
  | none => s.raiseModelFault .unreachableTick

end Sys2Proof.Machine
end

