-- ==== Sys2Proof/Machine/Cycle.lean ====
section
/-! DEFINITION. One step of the block (00_scope.md R6): the next thing that happens at its boundary is taken from `inputs` and
run, a byte access through the decoder and exec. With nothing to come, a pending tick fires (70_reset_and_hazards.md R351), and
otherwise no agent has a step and nothing changes (log entry 11). And where the next operation is placed for such a step. -/

namespace Sys2Proof.Machine

/-- The next input taken off the list. -/
def State.withInputs (s : State) (rest : List Input) : State := { s with inputs := rest }

/-- A host byte access: the operation it decodes to, no effect for a port outside the block (20_memory.md R61), refused where
the bytes are no access at all. -/
def State.runAccess (s : State) (f : Format) (bytes : List Byte) : Result :=
  match decode s.decodeCtx f bytes with
  | .ok i => exec i s
  | .error .unclaimedPort => .next s
  | .error e => .refused (.undecodable e)

/-- A host word access to a port (20_memory.md R66): refused where a byte of it falls on a port of the block (log entry 23),
outside the block otherwise. The second byte of the access at port 0xFFFF falls on no port, it does not wrap to port 0x0000
(DESIGN CHOICE, log entry 40: the spec is silent). A word access to a port that two registers share, which meets R61 and R275
too, is recorded as WidePortAccess (DESIGN CHOICE, log entry 39: the spec gives no order of the two). -/
def State.runPortWord (s : State) (p : Port) : Result :=
  if s.decodeCtx.claims p.toNat = [] ∧ s.decodeCtx.claims (p.toNat + 1) = [] then .next s
  else .next (s.refuse .widePortAccess)

/-- The TICK agent's turn (41_xta_engine.md R174): it has a step only while a tick is pending. -/
def State.runTick (s : State) : Result :=
  if s.xta.pending then .next s.fire else .next s

/-- One step of a machine that is not stopped. -/
def State.cycle (s : State) : Result :=
  match s.inputs with
  | [] => s.runTick
  | .tick :: rest => (s.withInputs rest).runTick
  | .port bytes :: rest => (s.withInputs rest).runAccess .port bytes
  | .mem bytes :: rest => (s.withInputs rest).runAccess .mem bytes
  | .portWord p :: rest => (s.withInputs rest).runPortWord p
  | .memReadWide a n :: rest => (s.withInputs rest).memRead a.toNat n
  | .memWriteWide a n w :: rest => (s.withInputs rest).memWriteValue a.toNat n w

/-- The engine awaiting the sixth byte of a DCB whose first five bytes are given, as after a Select strobe and five Data writes
(40_xta_ports.md R140, R143). -/
def State.receiving (s : State) (b : Vector Byte 6) : State :=
  { s with xta := { s.xta with
      pending := false, xst := .rdata, status := Status.reception, curTgt := .dcbBuf, curIdx := 5, curLen := 6,
      xferDma := false, dcb := b } }

/-- The state whose next step runs given bytes of a format (log entry 17): a port or memory access is the next input, with the
EMS configuration index latched for the chipset data port, as the rows EMS_CFG of the table ask; a DCB is received but for
its last byte, which is the next Data write. -/
def State.placed (s : State) (f : Format) (bytes : List Byte) : State :=
  match f, bytes with
  | .port, p0 :: p1 :: _ =>
    let s := { s with inputs := .port bytes :: s.inputs }
    if p0.toNat + 0x100 * p1.toNat = s.cfg.dataPort.toNat then
      { s with ems := { s.ems with chipIndex := some s.cfg.emsCfgIndex } }
    else s
  | .dcb, [b0, b1, b2, b3, b4, b5] =>
    let s := s.receiving #v[b0, b1, b2, b3, b4, s.xta.dcb[5]]
    { s with inputs := .port (portBytes s.cfg.xtaBase.toNat true b5) :: s.inputs }
  | .mem, bytes => { s with inputs := .mem bytes :: s.inputs }
  | _, _ => s

/-- The state whose next step runs a row of spec/opcode_table.json. -/
def State.placedWord (s : State) (nbits w : Nat) : State :=
  match tableBytes nbits w with
  | some (f, bytes) => s.placed f bytes
  | none => s

end Sys2Proof.Machine
end

