-- ==== Sys2Proof/Machine/Step.lean ====
section
/-! DEFINITION. The step, and where the next operation is placed for it; both only call Machine/Cycle.lean. -/

namespace Sys2Proof.Machine

/-- One step of the machine: none while a stop is recorded (10_state.md R47). -/
def step (s : State) : Host.Outcome State Fault Refusal := s.ifRunning s.cycle

/-- The state whose very next step fetches and runs the operation of a row of spec/opcode_table.json. -/
def State.withFetchWord (s : State) (nbits w : Nat) : State := s.placedWord nbits w

end Sys2Proof.Machine
end

