-- ==== Sys2Proof/Safety.lean ====
section
/-! DEFINITION. The predicates claims are stated in: a machine that is not stopped, the canonical form of the stores, the EMS
mapping invariant (43_ems.md R276), the drive invariant (10_state.md R33), and what the engine's registers are in each state of
the state graph (41_xta_engine.md R170, R171). -/

namespace Sys2Proof.Machine

/-- No stop is recorded (10_state.md R47). -/
abbrev State.running (s : State) : Prop := s.fatal = none ∧ s.mfault = none ∧ s.refusal = none

/-- The port of a register is no other register's (20_memory.md R61). -/
abbrev State.portFree (s : State) (r : PortReg) : Prop := s.decodeCtx.collides r = false

/-- The host can use the port of a register: the machine runs and the port is its own. -/
abbrev State.usable (s : State) (r : PortReg) : Prop := s.running ∧ s.portFree r

/-- Every store is in canonical form and lists only addresses that exist: RAM offsets below P_MEM_SIZE_KIB * 1024
(10_state.md R42), sectors below P_CAPACITY (R40). -/
abbrev State.storesOk (s : State) : Prop :=
  (Mem.wf s.ram = true ∧ ∀ c ∈ s.ram, c.1 < s.ramSize) ∧
  (Mem.wf s.disk0 = true ∧ ∀ c ∈ s.disk0, c.1 < s.capacity false * 512) ∧
  (Mem.wf s.disk1 = true ∧ ∀ c ∈ s.disk1, c.1 < s.capacity true * 512)

/-- The derived EMS state is the one the raw bytes ask for (43_ems.md R276): each page's mapping is `Map` of its byte, the port
group and the frame base are those of the configuration byte. -/
abbrev State.emsOk (s : State) : Prop :=
  (∀ p : BitVec 2,
    if (s.ems.page p).cfg.getLsbD 7 = true ∧ ((s.ems.page p).cfg &&& 0x7F).toNat < emsPages s.cfg then
      (s.ems.page p).en = true ∧ (s.ems.page p).phys = 640 * 1024 + 16 * 1024 * ((s.ems.page p).cfg &&& 0x7F).toNat
    else (s.ems.page p).en = false ∧ (s.ems.page p).phys = 0) ∧
  s.ems.portBase = emsPortBaseOf s.cfg s.ems.emsCfg ∧
  s.ems.frameBase = 0xC0000 + 0x4000 * (s.ems.emsCfg &&& 0x0F).toNat

/-- A drive is on one of its cylinders, on cylinder 0 where it has none (10_state.md R33). -/
abbrev Drive.cylOk (v : Drive) : Prop := v.curCyl ≤ max v.tracks 1 - 1

/-- Both drives (R33). -/
abbrev State.cylsOk (s : State) : Prop := s.drv0.cylOk ∧ s.drv1.cylOk

/-- The current command is one of a list. -/
abbrev State.runs (s : State) (cs : List Cmd) : Prop := ∃ c ∈ cs, s.command = some c

/-- A command with a per-sector loop has 1 to 256 sectors still to move (41_xta_engine.md R188). -/
abbrev State.countOk (s : State) : Prop :=
  s.runs [.readVerify, .readSectors, .writeSectors] → 1 ≤ s.xta.count ∧ s.xta.count ≤ 256

/-- The cursor of a phase over a target: its length, and a byte still to move. -/
abbrev Xta.phase (x : Xta) (tgt : Target) (len : Nat) : Prop := x.curTgt = tgt ∧ x.curLen = len ∧ x.curIdx < len

/-- No phase is open. -/
abbrev Xta.noPhase (x : Xta) : Prop := x.curTgt = .none ∧ x.curIdx = 0 ∧ x.curLen = 0 ∧ x.xferDma = false

/-- The engine waits for a tick with no phase open (41_xta_engine.md R171). -/
abbrev Xta.waiting (x : Xta) : Prop := x.status = 0x88 ∧ x.xferDma = false ∧ x.pending = true

/-- A programmed-I/O phase: the host moves the bytes, no tick is pending (R176). -/
abbrev Xta.pio (x : Xta) (status : Byte) : Prop := x.status = status ∧ x.xferDma = false ∧ x.pending = false

/-- A DMA phase: ticks move the bytes (R176). -/
abbrev Xta.dma (x : Xta) (status : Byte) : Prop := x.status = status ∧ x.xferDma = true ∧ x.pending = true

/-- What the engine's registers are in each state of the graph (R170, R171): the status byte of R171, the cursor, whether a tick
is pending, and which commands can be there (42_xta_commands.md R226). -/
def State.engineOk (s : State) : Prop :=
  match s.xta.xst with
  | .idle => s.xta.status = 0x00 ∧ s.xta.noPhase ∧ s.xta.pending = false
  | .recv => s.xta.waiting ∧ s.runs [.writeSectors] ∧ s.countOk
  | .send => s.xta.waiting ∧ s.runs [.readVerify, .readSectors] ∧ s.countOk
  | .rdata =>
    (s.xta.phase .dcbBuf 6 ∧ s.xta.pio 0x0D) ∨
    (s.xta.phase .paramBuf 8 ∧ s.xta.pio 0x89 ∧ s.runs [.setDriveParams]) ∨
    (s.xta.phase .secBuf 512 ∧ (s.xta.pio 0x89 ∨ s.xta.dma 0x98) ∧ s.runs [.writeSectors, .writeSectorBuffer] ∧ s.countOk)
  | .sdata =>
    (s.xta.phase .senseBuf 4 ∧ s.xta.pio 0x8B ∧ s.runs [.readSense]) ∨
    (s.xta.phase .secBuf 512 ∧ (s.xta.pio 0x8B ∨ s.xta.dma 0x9A) ∧ s.runs [.readSectors, .readSectorBuffer] ∧ s.countOk)
  | .rdone =>
    s.xta.waiting ∧ s.countOk ∧
    s.runs [.writeSectors, .formatDrive, .formatTrack, .setDriveParams, .writeSectorBuffer, .ramDiag, .driveDiag, .ctrlDiag]
  | .sdone => s.xta.waiting ∧ s.countOk ∧ s.runs [.readSense, .readVerify, .readSectors, .readSectorBuffer]
  | .compl => (s.xta.status = 0x0E ∨ s.xta.status = 0x2E) ∧ s.xta.noPhase ∧ s.xta.pending = false
  | .fatal => False

/-- The moves of the state graph that one step can make (R170): staying, a strobe from any state, the start actions from the
sixth DCB byte, the ticks, the last byte of a phase, the completion read, and the Fatal of a DMA phase. -/
def legalMove (x y : Xst) : Bool :=
  x == y ||
  (x != .fatal && (y == .rdata || y == .idle)) ||
  ((x, y) ∈ [(Xst.rdata, Xst.compl), (.rdata, .recv), (.rdata, .send), (.rdata, .sdata), (.rdata, .rdone), (.rdata, .fatal),
    (.recv, .compl), (.send, .sdata), (.send, .sdone), (.send, .compl), (.sdata, .sdone), (.sdata, .fatal),
    (.rdone, .compl), (.sdone, .sdata), (.sdone, .compl)])

/-- A host read or write of the XTA window, or a command (40_xta_ports.md, 42_xta_commands.md): the EMS unit takes no part. -/
def xtaOp : Instr → Bool
  | .xtaDataW _ | .xtaDataR | .xtaResetW _ | .xtaStatusR | .xtaSelectW _ | .xtaJumpersR | .xtaIntrW _ | .xtaPort3R => true
  | .emsPageW _ _ | .emsPageR _ | .chipIndexW _ | .chipIndexR | .emsCfgW _ | .emsCfgR | .chipDataW _ | .chipDataR => false
  | .xtaCmdTestReady _ | .xtaCmdRecalibrate _ | .xtaCmdReadSense _ | .xtaCmdFormatDrive _ | .xtaCmdReadVerify _
  | .xtaCmdFormatTrack _ | .xtaCmdReadSectors _ | .xtaCmdWriteSectors _ | .xtaCmdSeek _ | .xtaCmdSetDriveParams _
  | .xtaCmdReadSectorBuffer _ | .xtaCmdWriteSectorBuffer _ | .xtaCmdRamDiag _ | .xtaCmdDriveDiag _ | .xtaCmdCtrlDiag _
  | .xtaCmdIllegal _ _ => true
  | .emsMemR _ | .emsMemW _ _ => false

/-- The port a port operation or a command is an access to; the sixth byte of a DCB is a Data write (40_xta_ports.md R140). -/
def opPort : Instr → Option PortReg
  | .xtaDataW _ | .xtaDataR => some .data
  | .xtaResetW _ | .xtaStatusR => some .status
  | .xtaSelectW _ | .xtaJumpersR => some .select
  | .xtaIntrW _ | .xtaPort3R => some .intr
  | .emsPageW s _ | .emsPageR s => some (.page s)
  | .chipIndexW _ | .chipIndexR => some .chipIndex
  | .emsCfgW _ | .emsCfgR | .chipDataW _ | .chipDataR => some .chipData
  | .xtaCmdTestReady _ | .xtaCmdRecalibrate _ | .xtaCmdReadSense _ | .xtaCmdFormatDrive _ | .xtaCmdReadVerify _
  | .xtaCmdFormatTrack _ | .xtaCmdReadSectors _ | .xtaCmdWriteSectors _ | .xtaCmdSeek _ | .xtaCmdSetDriveParams _
  | .xtaCmdReadSectorBuffer _ | .xtaCmdWriteSectorBuffer _ | .xtaCmdRamDiag _ | .xtaCmdDriveDiag _ | .xtaCmdCtrlDiag _
  | .xtaCmdIllegal _ _ => some .data
  | .emsMemR _ | .emsMemW _ _ => none

/-- The operation of a command. -/
def cmdInstr : Cmd → DcbOps → Instr
  | .testReady => .xtaCmdTestReady
  | .recalibrate => .xtaCmdRecalibrate
  | .readSense => .xtaCmdReadSense
  | .formatDrive => .xtaCmdFormatDrive
  | .readVerify => .xtaCmdReadVerify
  | .formatTrack => .xtaCmdFormatTrack
  | .readSectors => .xtaCmdReadSectors
  | .writeSectors => .xtaCmdWriteSectors
  | .seek => .xtaCmdSeek
  | .setDriveParams => .xtaCmdSetDriveParams
  | .readSectorBuffer => .xtaCmdReadSectorBuffer
  | .writeSectorBuffer => .xtaCmdWriteSectorBuffer
  | .ramDiag => .xtaCmdRamDiag
  | .driveDiag => .xtaCmdDriveDiag
  | .ctrlDiag => .xtaCmdCtrlDiag

/-- An outcome that is a state with a host read of `any u8` done in it (00_scope.md R10): some byte is returned and only the free
inputs have moved; and any byte can be it, since the environment's next byte, where it has one, is the one returned. -/
abbrev readsAny (s : State) (r : Result) : Prop :=
  (∃ (b : Byte) (dr : Draws), r = .next { s with result := [b], draws := dr }) ∧
  ∀ (b : Byte) (bs : List Byte), s.draws.bytes = b :: bs →
    r = .next { s with result := [b], draws := { s.draws with bytes := bs } }

/-- What a completion leaves, written out from 41_xta_engine.md R180: COMPL, the cursor cleared, no tick pending, status 0x0E, or
0x2E and the interrupt recorded where IRQ_ENA is set. -/
def completed (s : State) : State :=
  { s with
    xta := { s.xta with
      pending := false, xst := .compl, curTgt := .none, curIdx := 0, curLen := 0, xferDma := false,
      status := if s.xta.intr &&& s.cfg.irqEna ≠ 0 then 0x2E else 0x0E }
    history := if s.xta.intr &&& s.cfg.irqEna ≠ 0 then .irqRaise s.cfg.xtaIrq :: s.history else s.history }

/-- What a failure with a sense code leaves, written out from 41_xta_engine.md R181. -/
def failed (s : State) (code : Byte) : State :=
  completed { s with xta := { s.xta with sense := code, comp := s.xta.comp ||| s.cfg.compErr } }

/-- What the acceptance of a DCB leaves for the start action, written out from 41_xta_engine.md R172: the six bytes, status 0x88,
no open phase, the dispatcher's entry in IDLE, and the drive echo in the completion byte. -/
def accepted (s : State) (op : Byte) (d : DcbOps) : State :=
  { s with xta := { s.xta with
      dcb := d.toDcb op, status := 0x88, curTgt := .none, curIdx := 0, curLen := 0, xferDma := false, xst := .idle,
      comp := if d.drvsel then s.cfg.compDrive else 0 } }

/-- The next thing that happens is the tick, and a tick is pending (41_xta_engine.md R174): the environment gives the turn to
TICK, or has nothing else to come. `rest` is what comes after. -/
abbrev State.tickDue (s : State) (rest : List Input) : Prop :=
  s.running ∧ s.xta.pending = true ∧ ((s.inputs = [] ∧ rest = []) ∨ s.inputs = .tick :: rest)

/-- The tick is due for a command in a state of the graph, in a phase or none that is by DMA or not (42_xta_commands.md R226). -/
abbrev State.tickOf (s : State) (rest : List Input) (c : Cmd) (x : Xst) (dma : Bool) : Prop :=
  s.tickDue rest ∧ s.command = some c ∧ s.xta.xst = x ∧ s.xta.xferDma = dma

/-- The drive of the current command (10_state.md R32). -/
abbrev State.cmdDrive (s : State) : Drive := s.drive s.xta.drvsel

/-- The cylinder a drive's head goes to, written out from 41_xta_engine.md R182 and 92_eei_decisions.md D41: the one asked for, at
most the last, and 0 where the geometry has no sector (log entry 37). -/
abbrev Drive.clamped (v : Drive) (c : Nat) : Nat :=
  if 1 ≤ v.tracks ∧ 1 ≤ v.hpc ∧ 1 ≤ v.spt then min c (v.tracks - 1) else 0

/-- The CHS cursor addresses a sector (41_xta_engine.md R184), of a drive that has cylinders (D41, log entry 37). -/
abbrev State.addressOk (s : State) : Prop :=
  1 ≤ s.cmdDrive.tracks ∧
  s.cmdDrive.curCyl = s.xta.cTrack ∧ s.xta.cHead < s.cmdDrive.hpc ∧ s.xta.cSector < s.cmdDrive.spt

/-- The block address of the CHS cursor (R184). -/
abbrev State.cursorLba (s : State) : Nat :=
  (s.xta.cTrack * s.cmdDrive.hpc + s.xta.cHead) * s.cmdDrive.spt + s.xta.cSector

/-- From one state to another, the image of the current command's drive has the 512 bytes `b` in each of the `n` sectors from
`base` on, and every other byte of both images reads as before. -/
abbrev State.imageFilled (s t : State) (base n : Nat) (b : Fin 512 → Byte) : Prop :=
  (∀ (lba : Nat) (i : Fin 512), Mem.load (t.disk s.xta.drvsel) (lba * 512 + i.val) =
    if base ≤ lba ∧ lba < base + n then b i else Mem.load (s.disk s.xta.drvsel) (lba * 512 + i.val)) ∧
  t.disk (!s.xta.drvsel) = s.disk (!s.xta.drvsel)

/-- The records of the writes of `n` sectors from `base` on, in ascending order, the latest first (10_state.md R40). -/
def diskWrites (d : Bool) (base : Nat) : Nat → List Event
  | 0 => []
  | n + 1 => .diskWrite d (base + n) :: diskWrites d base n

end Sys2Proof.Machine
end

