-- ==== Sys2Proof/Certificates/Slice0/Obligations.lean ====
section
/-! DEFINITION. The statements for the provers. Each is about the machine, in every state its hypotheses admit, for all
parameter values; each docstring names the rules of spec/ it formalises. -/

open Sys2Proof
open Sys2Proof.Machine

/-! Encoding and decoding. -/

/-- Decode and encode agree, for every operation that the host can issue in a context, with every operand at every value
(30_encoding.md R100 to R103, R107, R108). -/
def Obligations.DecodeOfEncodeIsTheOperation : Prop :=
  ∀ (c : DecodeCtx) (i : Instr), i.wellFormed c = true → decode c (encode c i).1 (encode c i).2 = .ok i

/-- No bit of an access or of a DCB is dropped: the bytes an operation was decoded from are its encoding, while the sixth byte
of a DCB is not awaited (30_encoding.md R100 to R103). -/
def Obligations.EncodeOfDecodeIsTheBytes : Prop :=
  ∀ (c : DecodeCtx) (f : Format) (bytes : List Byte) (i : Instr),
    c.lastDcbByte = none → decode c f bytes = .ok i → encode c i = (f, bytes)

/-- A few words written out from the encodings of 30_encoding.md decode to the operations they stand for. -/
def Obligations.WrittenOutWordsDecode : Prop :=
  decode tableCtx .port [0x20, 0x03, 0, 0x55] = .ok (.xtaDataW 0x55) ∧
  decode tableCtx .port [0x21, 0x03, 1, 0] = .ok .xtaStatusR ∧
  decode tableCtx .port [0x08, 0x82, 0, 0x85] = .ok (.emsPageW 2 0x85) ∧
  decode tableCtx .port [0x23, 0x00, 0, 0x14] = .ok (.emsCfgW 0x14) ∧
  decode tableCtx .dcb [0x08, 0x21, 0x50, 0x05, 0x03, 0x7F] =
    .ok (.xtaCmdReadSectors { mbz := 0, drvsel := true, head := 1, sector := 0x10, cyl := 0x105, count := 3, ctrl := 0x7F }) ∧
  decode tableCtx .mem [0x10, 0x40, 0x0C, 1, 0] = .ok (.emsMemR 0xC4010)

/-- 41_xta_engine.md R175: the command of an opcode byte is the one P_CMD gives that byte, ILLEGAL where none has it; R108: the
values of P_CMD are distinct. -/
def Obligations.CommandOfAnOpcodeByte : Prop :=
  ∀ (codes : CmdCodes) (op : Byte), (∀ a b : Cmd, cmdCode codes a = cmdCode codes b → a = b) →
    (∀ c : Cmd, cmdOf codes op = some c ↔ cmdCode codes c = op) ∧
    (cmdOf codes op = none ↔ ∀ c : Cmd, cmdCode codes c ≠ op)

/-! The step. -/

/-- Where the next input is a host byte access whose bytes decode to an operation, the step is exec of that operation with the
input taken. This holds for a stopped machine too: both stop. -/
def Obligations.StepRunsTheDecodedOperation : Prop :=
  ∀ (s : State) (bytes : List Byte) (rest : List Input) (i : Instr),
    (s.inputs = .port bytes :: rest → decode s.decodeCtx .port bytes = .ok i → step s = exec i { s with inputs := rest }) ∧
    (s.inputs = .mem bytes :: rest → decode s.decodeCtx .mem bytes = .ok i → step s = exec i { s with inputs := rest })

/-- 40_xta_ports.md R140, 41_xta_engine.md R172: a Data write that is the sixth byte of a DCB is the command that the DCB is,
run as the operation of its own row. -/
def Obligations.SixthDataByteRunsTheCommand : Prop :=
  ∀ (s : State) (v : Byte), s.xta.xst = .rdata → s.xta.status &&& 0x01 ≠ 0 → s.xta.curTgt = .dcbBuf → s.xta.curIdx = 5 →
    s.xta.curLen = 6 → exec (.xtaDataW v) s = exec (decodeDcb s.cfg.cmd (s.xta.dcb.set 5 v)) s

/-- 20_memory.md R61, R66: a byte access to a port of no register of the block changes nothing of it; a word access that touches a
port of the block is refused, any other has no effect. The model's choices in it: a word access that touches the block only
with its second byte is refused too (log entry 23), one to a shared port is recorded as a word access (log entry 39), and one at
port 0xFFFF does not wrap to port 0x0000 (log entry 40). -/
def Obligations.PortsOutsideTheBlockAndWordAccesses : Prop :=
  (∀ (s : State) (p0 p1 dir v : Byte) (rest : List Input), s.running → s.inputs = .port [p0, p1, dir, v] :: rest →
    dir = 0 ∨ dir = 1 → s.decodeCtx.claims (p0.toNat + 0x100 * p1.toNat) = [] → step s = .next { s with inputs := rest }) ∧
  (∀ (s : State) (p : Port) (rest : List Input), s.running → s.inputs = .portWord p :: rest →
    step s =
      if s.decodeCtx.claims p.toNat = [] ∧ s.decodeCtx.claims (p.toNat + 1) = [] then .next { s with inputs := rest }
      else .next { s with inputs := rest, refusal := some .widePortAccess })

/-- 10_state.md R47: while a stop is recorded no agent has a step; a fresh machine has none recorded. -/
def Obligations.StoppedMachineHasNoStep : Prop :=
  (∀ (s t : State), ¬ s.running → step s ≠ .next t ∧ ∀ i : Instr, exec i s ≠ .next t) ∧
  ∀ (p : Params) (ram : Memory), (State.powerOn p ram).running

/-- 20_memory.md R61, 43_ems.md R275: an access to a port that two registers of the block share is refused, whichever operation
it is, and changes nothing else (before any other refusal the access would meet: the model's choice, log entry 39). Under the
default P_EMS_PORT_BASE, the default chipset ports and the typical window base no two registers share a port, for every
configuration byte. -/
def Obligations.SharedPortIsRefused : Prop :=
  (∀ (s : State) (i : Instr) (r : PortReg), s.running → opPort i = some r → s.decodeCtx.collides r = true →
    exec i s = .next { s with refusal := some .portCollision }) ∧
  (∀ (s : State) (r : PortReg), s.cfg.xtaBase = 0x320 → s.cfg.indexPort = 0x22 → s.cfg.dataPort = 0x23 →
    s.ems.portBase = 0x0208 ||| (s.ems.emsCfg &&& 0xF0).setWidth 16 → s.decodeCtx.collides r = false)

/-! The XTA window. -/

/-- 40_xta_ports.md R140: an accepted Data write that is not the last of its phase stores its byte in the phase's buffer, moves
the cursor, and changes nothing else. -/
def Obligations.DataWriteStoresOneByte : Prop :=
  ∀ (s : State) (v : Byte), s.usable .data → s.xta.xst = .rdata → s.xta.status &&& 0x01 ≠ 0 →
    s.xta.curIdx + 1 < s.xta.curLen →
    (s.xta.curTgt = .dcbBuf → exec (.xtaDataW v) s = .next { s with xta := { s.xta with
      dcb := s.xta.dcb.setIfInBounds s.xta.curIdx v, curIdx := s.xta.curIdx + 1 } }) ∧
    (s.xta.curTgt = .paramBuf → exec (.xtaDataW v) s = .next { s with xta := { s.xta with
      parambuf := s.xta.parambuf.setIfInBounds s.xta.curIdx v, curIdx := s.xta.curIdx + 1 } }) ∧
    (s.xta.curTgt = .secBuf → exec (.xtaDataW v) s = .next { s with xta := { s.xta with
      secbuf := s.xta.secbuf.setIfInBounds s.xta.curIdx (some v), curIdx := s.xta.curIdx + 1 } })

/-- 41_xta_engine.md R173 (with 40_xta_ports.md R140): the last byte of a from-host phase is stored, the status is 0x88, the
engine in RDONE, and a tick is scheduled. -/
def Obligations.LastDataWriteEndsThePhase : Prop :=
  ∀ (s : State) (v : Byte), s.usable .data → s.xta.xst = .rdata → s.xta.status &&& 0x01 ≠ 0 →
    s.xta.curIdx + 1 = s.xta.curLen →
    (s.xta.curTgt = .paramBuf → exec (.xtaDataW v) s = .next { s with xta := { s.xta with
      parambuf := s.xta.parambuf.setIfInBounds s.xta.curIdx v, curIdx := s.xta.curIdx + 1, status := 0x88, xst := .rdone,
      pending := true } }) ∧
    (s.xta.curTgt = .secBuf → exec (.xtaDataW v) s = .next { s with xta := { s.xta with
      secbuf := s.xta.secbuf.setIfInBounds s.xta.curIdx (some v), curIdx := s.xta.curIdx + 1, status := 0x88, xst := .rdone,
      pending := true } })

/-- 40_xta_ports.md R149: a Data access the state machine does not expect sets `sense` to ILLCMD, is recorded, and changes
nothing else; a violating read returns a byte, and any byte can be it (R141). -/
def Obligations.UnexpectedDataAccessIsAViolation : Prop :=
  (∀ (s : State) (v : Byte), s.usable .data → ¬ (s.xta.xst = .rdata ∧ s.xta.status &&& 0x01 ≠ 0) →
    exec (.xtaDataW v) s = .next { s with
      xta := { s.xta with sense := s.cfg.senseCodes.illCmd }
      history := .protocolViolation .write s.cfg.xtaBase.toNat :: s.history }) ∧
  (∀ (s : State), s.usable .data → s.xta.xst ≠ .compl → ¬ (s.xta.xst = .sdata ∧ s.xta.status &&& 0x01 ≠ 0) →
    readsAny { s with
      xta := { s.xta with sense := s.cfg.senseCodes.illCmd }
      history := .protocolViolation .read s.cfg.xtaBase.toNat :: s.history } (exec .xtaDataR s))

/-- 60_exceptions.md R309, 40_xta_ports.md R141: in COMPL the Data read returns the completion byte and puts the engine back in
IDLE with status 0x00, the cursor cleared; nothing else changes. -/
def Obligations.CompletionReadReturnsToIdle : Prop :=
  ∀ (s : State), s.usable .data → s.xta.xst = .compl →
    exec .xtaDataR s = .next { s with
      xta := { s.xta with xst := .idle, status := 0x00, curTgt := .none, curIdx := 0, curLen := 0, xferDma := false }
      result := [s.xta.comp] }

/-- 40_xta_ports.md R141, 41_xta_engine.md R177, 10_state.md R28: in a PIO phase to the host the Data read returns the next byte
of the sense block or of the sector buffer; the last one leaves status 0x88, SDONE and a scheduled tick. A cell of the sector
buffer that was never written is ModelFault(UnwrittenBuffer), and nothing else changes. -/
def Obligations.DataReadReturnsThePhaseByte : Prop :=
  ∀ (s : State), s.usable .data → s.xta.xst = .sdata → s.xta.status &&& 0x01 ≠ 0 →
    (∀ b : Byte, (s.xta.curTgt = .senseBuf ∧ s.xta.sensebuf[s.xta.curIdx]? = some b) ∨
        (s.xta.curTgt = .secBuf ∧ s.xta.secbuf[s.xta.curIdx]? = some (some b)) →
      (s.xta.curIdx + 1 < s.xta.curLen → exec .xtaDataR s = .next { s with
        xta := { s.xta with curIdx := s.xta.curIdx + 1 }, result := [b] }) ∧
      (s.xta.curIdx + 1 = s.xta.curLen → exec .xtaDataR s = .next { s with
        xta := { s.xta with curIdx := s.xta.curIdx + 1, status := 0x88, xst := .sdone, pending := true }, result := [b] })) ∧
    (s.xta.curTgt = .secBuf → s.xta.secbuf[s.xta.curIdx]? = some none →
      exec .xtaDataR s = .next { s with mfault := some .unwrittenBuffer })

/-- 40_xta_ports.md R142, 70_reset_and_hazards.md R342: the Reset strobe, in every state and whatever value is written. -/
def Obligations.ResetStrobeForcesIdle : Prop :=
  ∀ (s : State) (v : Byte), s.usable .status →
    exec (.xtaResetW v) s = .next { s with xta := { s.xta with
      pending := false, xst := .idle, status := 0x00, curTgt := .none, curIdx := 0, curLen := 0, xferDma := false,
      sense := if s.cfg.resetSense = .cleared then s.cfg.senseCodes.noError else s.xta.sense } }

/-- 40_xta_ports.md R143: the Select strobe, in every state and whatever value is written. -/
def Obligations.SelectStrobeStartsReception : Prop :=
  ∀ (s : State) (v : Byte), s.usable .select →
    exec (.xtaSelectW v) s = .next { s with xta := { s.xta with
      pending := false, xst := .rdata, curTgt := .dcbBuf, curIdx := 0, curLen := 6, xferDma := false, status := 0x0D } }

/-- 40_xta_ports.md R144, R145, R147: the status read returns the status register, the jumpers read P_JUMPERS, the offset +3
read any byte; none changes any state of the block. -/
def Obligations.WindowReadsChangeNothing : Prop :=
  (∀ s : State, s.usable .status → exec .xtaStatusR s = .next { s with result := [s.xta.status] }) ∧
  (∀ s : State, s.usable .select → exec .xtaJumpersR s = .next { s with result := [s.cfg.jumpers] }) ∧
  (∀ s : State, s.usable .intr → readsAny s (exec .xtaPort3R s))

/-- 40_xta_ports.md R146: the DMA/IRQ-enable write stores its byte and changes nothing else. -/
def Obligations.EnableWriteStoresTheByte : Prop :=
  ∀ (s : State) (v : Byte), s.usable .intr → exec (.xtaIntrW v) s = .next { s with xta := { s.xta with intr := v } }

/-! The EMS unit. -/

/-- 43_ems.md R262: what a page-register byte maps, and that a mapped page lies inside the RAM array. -/
def Obligations.PageByteMapping : Prop :=
  ∀ (p : Params) (v : Byte),
    ((v &&& 0x80 ≠ 0 ∧ (v &&& 0x7F).toNat < (p.memSizeKib - 640) / 16) →
      mapPage p v = { cfg := v, en := true, phys := 640 * 1024 + 16 * 1024 * (v &&& 0x7F).toNat } ∧
      (mapPage p v).phys + 0x3FFF < p.memSizeKib * 1024) ∧
    (¬ (v &&& 0x80 ≠ 0 ∧ (v &&& 0x7F).toNat < (p.memSizeKib - 640) / 16) →
      mapPage p v = { cfg := v, en := false, phys := 0 })

/-- 43_ems.md R261, R263: the page-register write of a slot sets the engine page whose number is the slot's with its two bits
exchanged to the byte and its mapping, leaves the other pages, and changes nothing else. -/
def Obligations.PageWriteSetsTheSwappedPage : Prop :=
  ∀ (s : State) (slot : BitVec 2) (v : Byte), s.usable (.page slot) →
    ∃ t : State, exec (.emsPageW slot v) s = .next t ∧
      (∀ q : BitVec 2, t.ems.page q =
        if q = (if slot = 1 then 2 else if slot = 2 then 1 else slot) then mapPage s.cfg v else s.ems.page q) ∧
      t = { s with ems := { s.ems with pages := t.ems.pages } }

/-- 43_ems.md R264: the page-register read returns the raw byte of the same page, or any byte under P_EMS_READBACK = any, and
changes no state of the block. -/
def Obligations.PageReadReturnsTheRawByte : Prop :=
  ∀ (s : State) (slot : BitVec 2), s.usable (.page slot) →
    (s.cfg.emsReadback = .raw → exec (.emsPageR slot) s = .next { s with
      result := [(s.ems.page (if slot = 1 then 2 else if slot = 2 then 1 else slot)).cfg] }) ∧
    (s.cfg.emsReadback = .any → readsAny s (exec (.emsPageR slot) s))

/-- 43_ems.md R265: the chipset index port latches the byte written; its read returns any byte and changes no state; and
no operation but that write changes the index. -/
def Obligations.IndexPortLatchesTheIndex : Prop :=
  ∀ (s : State), s.usable .chipIndex →
    (∀ v : Byte, exec (.chipIndexW v) s = .next { s with ems := { s.ems with chipIndex := some v } }) ∧
    readsAny s (exec .chipIndexR s) ∧
    (∀ (t : State) (i : Instr), (∀ v : Byte, i ≠ .chipIndexW v) → exec i s = .next t → t.ems.chipIndex = s.ems.chipIndex)

/-- 43_ems.md R266, R269: with the EMS configuration index latched, a write of the chipset data port sets the configuration
byte, the port group, the frame base and disables all four pages, in one step; a read returns the configuration byte. Either
row of port 0x23 is that access. -/
def Obligations.ConfigurationPortReachesTheEmsRegister : Prop :=
  ∀ (s : State), s.usable .chipData → s.ems.chipIndex = some s.cfg.emsCfgIndex →
    (∀ (v : Byte) (i : Instr), i ∈ [Instr.emsCfgW v, .chipDataW v] → exec i s = .next { s with ems := { s.ems with
      emsCfg := v, portBase := emsPortBaseOf s.cfg v, frameBase := 0xC0000 + 0x4000 * (v &&& 0x0F).toNat,
      pages := #v[⟨0x00, false, 0⟩, ⟨0x00, false, 0⟩, ⟨0x00, false, 0⟩, ⟨0x00, false, 0⟩] } }) ∧
    (∀ i : Instr, i ∈ [Instr.emsCfgR, .chipDataR] → exec i s = .next { s with result := [s.ems.emsCfg] })

/-- 43_ems.md R267, R268: while no index was written an access of the chipset data port is refused; with another index latched
a write changes nothing of the block and a read returns any byte. Either row of port 0x23 is that access. -/
def Obligations.DataPortAtOtherIndices : Prop :=
  ∀ (s : State) (v : Byte), s.usable .chipData →
    (s.ems.chipIndex = none → ∀ i : Instr, i ∈ [Instr.emsCfgW v, .chipDataW v, .emsCfgR, .chipDataR] →
      exec i s = .next { s with refusal := some .chipIndexUnwritten }) ∧
    (∀ x : Byte, s.ems.chipIndex = some x → x ≠ s.cfg.emsCfgIndex →
      (∀ i : Instr, i ∈ [Instr.emsCfgW v, .chipDataW v] → exec i s = .next s) ∧
      (∀ i : Instr, i ∈ [Instr.emsCfgR, .chipDataR] → readsAny s (exec i s)))

/-- 43_ems.md R270, R271, R273: a memory read in the frame returns the byte of the mapped page (the window slot is not swapped);
one outside the frame, or in a disabled slot under fallthrough, returns the platform's answer and changes no state of the
block; one in a disabled slot under ems_all_ones returns 0xFF and is recorded. That the platform's answer leaves the RAM array
as it is too is the model's choice (DESIGN CHOICE, log entry 15). -/
def Obligations.FrameReadTranslates : Prop :=
  ∀ (s : State) (a : Addr) (j : BitVec 2), s.running →
    (¬ (s.ems.frameBase ≤ a.toNat ∧ a.toNat < s.ems.frameBase + 0x10000) →
      ∃ (b : Byte) (dr : Draws), exec (.emsMemR a) s = .next { s with result := [b], draws := dr }) ∧
    (s.ems.frameBase + 0x4000 * j.toNat ≤ a.toNat → a.toNat < s.ems.frameBase + 0x4000 * j.toNat + 0x4000 →
      ((s.ems.page j).en = true → (s.ems.page j).phys + a.toNat % 0x4000 < s.cfg.memSizeKib * 1024 →
        exec (.emsMemR a) s = .next { s with result := [Mem.load s.ram ((s.ems.page j).phys + a.toNat % 0x4000)] }) ∧
      ((s.ems.page j).en = false → s.cfg.disabledSlot = .fallthrough →
        ∃ (b : Byte) (dr : Draws), exec (.emsMemR a) s = .next { s with result := [b], draws := dr }) ∧
      ((s.ems.page j).en = false → s.cfg.disabledSlot = .emsAllOnes →
        exec (.emsMemR a) s = .next { s with result := [0xFF], history := .disabledPageAccess a.toNat :: s.history }))

/-- 43_ems.md R270, R272, R273: a memory write in the frame stores the byte in the mapped page and every other byte of the RAM
array reads as before; one outside the frame, or in a disabled slot, changes no state of the block, but for the event under
ems_all_ones. That the platform, which answers the accesses the unit does not claim, leaves the RAM array as it is too is the
model's choice (DESIGN CHOICE, log entry 15). -/
def Obligations.FrameWriteTranslates : Prop :=
  ∀ (s : State) (a : Addr) (v : Byte) (j : BitVec 2), s.running →
    (¬ (s.ems.frameBase ≤ a.toNat ∧ a.toNat < s.ems.frameBase + 0x10000) → exec (.emsMemW a v) s = .next s) ∧
    (s.ems.frameBase + 0x4000 * j.toNat ≤ a.toNat → a.toNat < s.ems.frameBase + 0x4000 * j.toNat + 0x4000 →
      ((s.ems.page j).en = true → (s.ems.page j).phys + a.toNat % 0x4000 < s.cfg.memSizeKib * 1024 →
        ∃ t : State, exec (.emsMemW a v) s = .next t ∧
          (∀ x : Nat, Mem.load t.ram x =
            if x = (s.ems.page j).phys + a.toNat % 0x4000 then v else Mem.load s.ram x) ∧
          t = { s with ram := t.ram }) ∧
      ((s.ems.page j).en = false → s.cfg.disabledSlot = .fallthrough → exec (.emsMemW a v) s = .next s) ∧
      ((s.ems.page j).en = false → s.cfg.disabledSlot = .emsAllOnes →
        exec (.emsMemW a v) s = .next { s with history := .disabledPageAccess a.toNat :: s.history }))

/-- 43_ems.md R271, corner cases: two slots mapped to the same page alias the same bytes. A byte written through one slot is
read through the other at the same offset. -/
def Obligations.AliasedSlotsShareTheirBytes : Prop :=
  ∀ (s t : State) (a b : Addr) (v : Byte) (j k : BitVec 2), s.emsOk → exec (.emsMemW a v) s = .next t →
    s.ems.frameBase + 0x4000 * j.toNat ≤ a.toNat → a.toNat < s.ems.frameBase + 0x4000 * j.toNat + 0x4000 →
    s.ems.frameBase + 0x4000 * k.toNat ≤ b.toNat → b.toNat < s.ems.frameBase + 0x4000 * k.toNat + 0x4000 →
    (s.ems.page j).en = true → (s.ems.page k).en = true → (s.ems.page j).phys = (s.ems.page k).phys →
    a.toNat % 0x4000 = b.toNat % 0x4000 →
    exec (.emsMemR b) t = .next { t with result := [v] }

/-- 43_ems.md R276: writing the page register of a slot changes what the window shows only in slot swap(s). -/
def Obligations.PageWriteMovesOneWindowSlot : Prop :=
  ∀ (s t : State) (slot : BitVec 2) (v : Byte) (a : Nat), s.portFree (.page slot) → exec (.emsPageW slot v) s = .next t →
    ¬ (s.ems.frameBase + 0x4000 * (if slot = 1 then 2 else if slot = 2 then 1 else slot.toNat) ≤ a ∧
       a < s.ems.frameBase + 0x4000 * (if slot = 1 then 2 else if slot = 2 then 1 else slot.toNat) + 0x4000) →
    t.translate a = s.translate a

/-- 43_ems.md R274, 20_memory.md R65: an access of several bytes is the sequence of its byte accesses in ascending address order,
the lowest-addressed byte the least significant, in one step: an access of one byte is the byte operation with the low byte of
the value, and a longer one that byte's and then the rest (little-endian is the spec's from general knowledge, log entry 36).
Bytes from 0x100000 on reach no slot and do not wrap: a write of them changes nothing of the block, a read of them returns
bytes and moves only the free inputs (that they are the platform's is DEDUCED, log entry 24, and that the platform leaves the
RAM array as it is the model's choice, log entry 15). -/
def Obligations.WideAccessIsTheByteAccesses : Prop :=
  (∀ (s t : State) (a : Addr) (w : Nat) (rest : List Input),
    step { s with inputs := .memWriteWide a 1 w :: rest } = exec (.emsMemW a (BitVec.ofNat 8 w)) { s with inputs := rest } ∧
    step { s with inputs := .memReadWide a 1 :: rest } = exec (.emsMemR a) { s with inputs := rest } ∧
    (exec (.emsMemR a) s = .next t → ∃ b : Byte, t.result = [b] ∧ t.readValue = b.toNat)) ∧
  (∀ (s t : State) (a : Addr) (n w : Nat) (rest : List Input),
    a.toNat + n < 0x100000 → s.inputs = rest → exec (.emsMemW a (BitVec.ofNat 8 w)) s = .next t →
    step { s with inputs := .memWriteWide a (n + 1) w :: rest } =
      step { t with inputs := .memWriteWide (a + 1) n (w / 0x100) :: rest }) ∧
  (∀ (s t u : State) (a : Addr) (n : Nat) (rest : List Input),
    a.toNat + n < 0x100000 → s.inputs = rest → exec (.emsMemR a) s = .next t →
    step { t with inputs := .memReadWide (a + 1) n :: rest } = .next u →
    ∃ x : State, step { s with inputs := .memReadWide a (n + 1) :: rest } = .next x ∧
      x = { u with result := t.result ++ u.result } ∧ x.readValue = t.readValue + 0x100 * u.readValue) ∧
  (∀ (s : State) (a : Addr) (n w : Nat) (rest : List Input), 0x100000 ≤ a.toNat + n →
    step { s with inputs := .memWriteWide a n w :: rest } =
      step { s with inputs := .memWriteWide a (0x100000 - a.toNat) w :: rest }) ∧
  (∀ (s t : State) (a : Addr) (n : Nat) (rest : List Input), 0x100000 ≤ a.toNat + n →
    step { s with inputs := .memReadWide a (0x100000 - a.toNat) :: rest } = .next t →
    ∃ (bs : List Byte) (dr : Draws), bs.length = a.toNat + n - 0x100000 ∧
      step { s with inputs := .memReadWide a n :: rest } = .next { t with result := t.result ++ bs, draws := dr })

/-! The commands at dispatch. -/

/-- 41_xta_engine.md R172, 60_exceptions.md R305: a DCB whose `mbz` is not zero is refused, whatever its opcode; its bytes are
stored and nothing else changes. Where the cursor index stands then is the model's choice (log entry 21). -/
def Obligations.DcbWithMbzSetIsRefused : Prop :=
  ∀ (s : State) (d : DcbOps), s.usable .data → d.mbz ≠ 0 →
    (∀ c : Cmd, ∃ n : Nat, exec (cmdInstr c d) s = .next { s with
      xta := { s.xta with dcb := d.toDcb (cmdCode s.cfg.cmd c), curIdx := n }, refusal := some .dcbMbz }) ∧
    (∀ op : Byte, ∃ n : Nat, exec (.xtaCmdIllegal op d) s = .next { s with
      xta := { s.xta with dcb := d.toDcb op, curIdx := n }, refusal := some .dcbMbz })

/-- 41_xta_engine.md R187: the nine commands that check for it fail with NOTRDY at dispatch where the drive is absent. -/
def Obligations.AbsentDriveIsNotReady : Prop :=
  ∀ (s : State) (d : DcbOps) (c : Cmd), s.usable .data → d.mbz = 0 → (s.drive d.drvsel).present = false →
    c ∈ [Cmd.testReady, .recalibrate, .driveDiag, .seek, .readVerify, .readSectors, .writeSectors, .formatTrack, .formatDrive] →
    exec (cmdInstr c d) s = .next (failed (accepted s (cmdCode s.cfg.cmd c) d) s.cfg.senseCodes.notRdy)

/-- 42_xta_commands.md R210, R211: on a present drive TEST_READY completes at dispatch, and RECALIBRATE with the drive's head on
cylinder 0; nothing else changes. -/
def Obligations.TestReadyAndRecalibrateComplete : Prop :=
  ∀ (s : State) (d : DcbOps), s.usable .data → d.mbz = 0 → (s.drive d.drvsel).present = true →
    exec (.xtaCmdTestReady d) s = .next (completed (accepted s s.cfg.cmd.testReady d)) ∧
    exec (.xtaCmdRecalibrate d) s = .next (completed
      ((accepted s s.cfg.cmd.recalibrate d).setDrive d.drvsel { s.drive d.drvsel with curCyl := 0 }))

/-- 42_xta_commands.md R212, 30_encoding.md R105: READ_SENSE opens a 4-byte PIO phase to the host with the sense code, the drive
echo, and the controller's CHS cursor. -/
def Obligations.ReadSenseSendsTheSenseBlock : Prop :=
  ∀ (s : State) (d : DcbOps), s.usable .data → d.mbz = 0 →
    exec (.xtaCmdReadSense d) s = .next { accepted s s.cfg.cmd.readSense d with
      xta := { (accepted s s.cfg.cmd.readSense d).xta with
        sensebuf := #v[s.xta.sense, if d.drvsel then 0x20 else 0x00,
          BitVec.ofNat 8 ((s.xta.cTrack / 256) % 4 * 64 + s.xta.cSector % 64), BitVec.ofNat 8 (s.xta.cTrack % 256)],
        curTgt := .senseBuf, curIdx := 0, curLen := 4, xst := .sdata, xferDma := false, status := 0x8B } }

/-- 42_xta_commands.md R213, R214, R215, R217: on a present drive the sector commands load the CHS cursor and the count (0 means
256), send the head to the cylinder, clamped (R182; D41 for a geometry without a sector, log entry 37), and wait for a tick in
SEND, RECV or RDONE. -/
def Obligations.SectorCommandsSeekAndWait : Prop :=
  ∀ (s : State) (d : DcbOps) (c : Cmd) (x : Xst), s.usable .data → d.mbz = 0 → (s.drive d.drvsel).present = true →
    (c, x) ∈ [(Cmd.readVerify, Xst.send), (.readSectors, .send), (.writeSectors, .recv), (.formatTrack, .rdone)] →
    exec (cmdInstr c d) s = .next
      { ((accepted s (cmdCode s.cfg.cmd c) d).setDrive d.drvsel { s.drive d.drvsel with
          curCyl := (s.drive d.drvsel).clamped d.cyl.toNat }) with
        xta := { (accepted s (cmdCode s.cfg.cmd c) d).xta with
          cTrack := d.cyl.toNat, cHead := d.head.toNat, cSector := d.sector.toNat,
          count := if d.count = 0 then 256 else d.count.toNat, xst := x, pending := true } }

/-- 42_xta_commands.md R216, R222, R223, R224: FORMAT_DRIVE and DRIVE_DIAG on a present drive, RAM_DIAG and CTRL_DIAG on any, wait
for a tick in RDONE and change nothing else. -/
def Obligations.DelayCommandsWaitInRdone : Prop :=
  ∀ (s : State) (d : DcbOps) (c : Cmd), s.usable .data → d.mbz = 0 →
    c ∈ [Cmd.ramDiag, .ctrlDiag] ∨ (c ∈ [Cmd.formatDrive, .driveDiag] ∧ (s.drive d.drvsel).present = true) →
    exec (cmdInstr c d) s = .next { accepted s (cmdCode s.cfg.cmd c) d with
      xta := { (accepted s (cmdCode s.cfg.cmd c) d).xta with xst := .rdone, pending := true } }

/-- 42_xta_commands.md R218, 41_xta_engine.md R182: SEEK on a present drive loads the CHS cursor, moves the head to the clamped
cylinder, and completes where the cylinder exists, else fails with SEEK. On a geometry without a sector every seek fails
(R219, D41, log entry 37). -/
def Obligations.SeekCompletesOrFails : Prop :=
  ∀ (s t : State) (d : DcbOps), s.usable .data → d.mbz = 0 → (s.drive d.drvsel).present = true →
    t = { ((accepted s s.cfg.cmd.seek d).setDrive d.drvsel { s.drive d.drvsel with
          curCyl := (s.drive d.drvsel).clamped d.cyl.toNat }) with
        xta := { (accepted s s.cfg.cmd.seek d).xta with
          cTrack := d.cyl.toNat, cHead := d.head.toNat, cSector := d.sector.toNat,
          count := if d.count = 0 then 256 else d.count.toNat } } →
    exec (.xtaCmdSeek d) s =
      .next (if 1 ≤ (s.drive d.drvsel).hpc ∧ 1 ≤ (s.drive d.drvsel).spt ∧ d.cyl.toNat < (s.drive d.drvsel).tracks then completed t
        else failed t s.cfg.senseCodes.seek)

/-- 42_xta_commands.md R219, R220, R221, 41_xta_engine.md R176: SET_DRIVE_PARAMS opens an 8-byte PIO phase from the host;
READ_SECTOR_BUFFER and WRITE_SECTOR_BUFFER a 512-byte phase, by DMA with a tick scheduled where DMA_ENA is set. -/
def Obligations.BufferCommandsOpenTheirPhase : Prop :=
  ∀ (s : State) (d : DcbOps), s.usable .data → d.mbz = 0 →
    exec (.xtaCmdSetDriveParams d) s = .next { accepted s s.cfg.cmd.setDriveParams d with
      xta := { (accepted s s.cfg.cmd.setDriveParams d).xta with
        curTgt := .paramBuf, curIdx := 0, curLen := 8, xst := .rdata, xferDma := false, status := 0x89 } } ∧
    exec (.xtaCmdReadSectorBuffer d) s = .next { accepted s s.cfg.cmd.readSectorBuffer d with
      xta := { (accepted s s.cfg.cmd.readSectorBuffer d).xta with
        curTgt := .secBuf, curIdx := 0, curLen := 512, xst := .sdata,
        xferDma := decide (s.xta.intr &&& s.cfg.dmaEna ≠ 0),
        status := if s.xta.intr &&& s.cfg.dmaEna ≠ 0 then 0x9A else 0x8B,
        pending := if s.xta.intr &&& s.cfg.dmaEna ≠ 0 then true else s.xta.pending } } ∧
    exec (.xtaCmdWriteSectorBuffer d) s = .next { accepted s s.cfg.cmd.writeSectorBuffer d with
      xta := { (accepted s s.cfg.cmd.writeSectorBuffer d).xta with
        curTgt := .secBuf, curIdx := 0, curLen := 512, xst := .rdata,
        xferDma := decide (s.xta.intr &&& s.cfg.dmaEna ≠ 0),
        status := if s.xta.intr &&& s.cfg.dmaEna ≠ 0 then 0x98 else 0x89,
        pending := if s.xta.intr &&& s.cfg.dmaEna ≠ 0 then true else s.xta.pending } }

/-- 42_xta_commands.md R225: an unrecognised opcode fails with ILLCMD at dispatch, before any presence check. -/
def Obligations.UnrecognisedOpcodeFails : Prop :=
  ∀ (s : State) (d : DcbOps) (op : Byte), s.usable .data → d.mbz = 0 →
    exec (.xtaCmdIllegal op d) s = .next (failed (accepted s op d) s.cfg.senseCodes.illCmd)

/-! The commands at their ticks. -/

/-- 42_xta_commands.md R212, R219 to R224: the last tick of READ_SENSE clears the sense code and completes; that of
SET_DRIVE_PARAMS writes the drive's cylinders and heads, clamps its head position again (R182; D41 for a geometry without a
sector, log entry 37), leaves its sectors per track, and completes; those of the buffer commands and the diagnostics complete. -/
def Obligations.LastTicksComplete : Prop :=
  ∀ (s : State) (rest : List Input),
    (s.tickOf rest .readSense .sdone false →
      step s = .next (completed { s with inputs := rest, xta := { s.xta with sense := s.cfg.senseCodes.noError } })) ∧
    (s.tickOf rest .setDriveParams .rdone false →
      ∀ v : Drive, v = { s.cmdDrive with
        tracks := s.xta.parambuf[0].toNat * 256 + s.xta.parambuf[1].toNat, hpc := s.xta.parambuf[2].toNat } →
      step s = .next (completed ({ s with inputs := rest }.setDrive s.xta.drvsel
        { v with curCyl := v.clamped s.cmdDrive.curCyl }))) ∧
    (s.tickOf rest .readSectorBuffer .sdone false ∨ s.tickOf rest .writeSectorBuffer .rdone false ∨
        s.tickOf rest .ramDiag .rdone false ∨ s.tickOf rest .driveDiag .rdone false ∨ s.tickOf rest .ctrlDiag .rdone false →
      step s = .next (completed { s with inputs := rest }))

/-- 41_xta_engine.md R184, R185, 42_xta_commands.md R213, R214, R215: at the tick of a sector command in SEND or RECV a failed
address check fails the command with ILLADDR (on a drive without cylinders every check fails: D41, log entry 37). Where the
address is valid: READ_VERIFY waits in SDONE; WRITE_SECTORS opens the sector's phase from the host; READ_SECTORS, where the
sector is in the image, reads it into the sector buffer and opens the phase to the host, and raises ModelFault(BackendRange)
elsewhere. -/
def Obligations.SectorTicksCheckTheAddress : Prop :=
  (∀ (s : State) (rest : List Input),
    s.tickOf rest .readVerify .send false ∨ s.tickOf rest .readSectors .send false ∨ s.tickOf rest .writeSectors .recv false →
    ¬ s.addressOk → step s = .next (failed { s with inputs := rest } s.cfg.senseCodes.illAddr)) ∧
  ∀ (s : State) (rest : List Input) (dma : Bool), s.addressOk → dma = decide (s.xta.intr &&& s.cfg.dmaEna ≠ 0) →
    (s.tickOf rest .readVerify .send false → step s = .next { s with inputs := rest, xta := { s.xta with
      cLba := s.cursorLba, xst := .sdone, status := 0x88, pending := true } }) ∧
    (s.tickOf rest .writeSectors .recv false → step s = .next { s with inputs := rest, xta := { s.xta with
      cLba := s.cursorLba, curTgt := .secBuf, curIdx := 0, curLen := 512, xst := .rdata, xferDma := dma,
      status := if dma then 0x98 else 0x89, pending := dma } }) ∧
    (s.tickOf rest .readSectors .send false → s.cursorLba < s.capacity s.xta.drvsel → step s = .next { s with
      inputs := rest, xta := { s.xta with
        cLba := s.cursorLba, curTgt := .secBuf, curIdx := 0, curLen := 512, xst := .sdata, xferDma := dma,
        status := if dma then 0x9A else 0x8B, pending := dma,
        secbuf := Vector.ofFn fun i => some (Mem.load (s.disk s.xta.drvsel) (s.cursorLba * 512 + i.val)) } }) ∧
    (s.tickOf rest .readSectors .send false → ¬ s.cursorLba < s.capacity s.xta.drvsel → step s = .next { s with
      inputs := rest, mfault := some .backendRange, xta := { s.xta with cLba := s.cursorLba, pending := false } })

/-- 41_xta_engine.md R183 and the worked example E1: `next_sector` applied `spt` times from sector 0 of a head is at sector 0 of
the next head, or of head 0 of the next cylinder after the last head, the drive's head then moved one cylinder, clamped. -/
def Obligations.NextSectorRunsThroughTheTrack : Prop :=
  ∀ (s : State) (d : Bool), s.xta.cSector = 0 → 1 ≤ (s.drive d).spt →
    (s.xta.cHead + 1 < (s.drive d).hpc →
      (fun u : State => u.nextSector d)^[(s.drive d).spt] s =
        { s with xta := { s.xta with cHead := s.xta.cHead + 1 } }) ∧
    (s.xta.cHead + 1 = (s.drive d).hpc →
      (fun u : State => u.nextSector d)^[(s.drive d).spt] s =
        { (s.setDrive d { s.drive d with curCyl := min ((s.drive d).curCyl + 1) ((s.drive d).tracks - 1) }) with
          xta := { s.xta with cHead := 0, cTrack := s.xta.cTrack + 1 } })

/-- 41_xta_engine.md R185, 42_xta_commands.md R213: the tick that ends the last sector of a verify or a read completes the command
with the count at 0 and the CHS cursor where it is. The tick that ends any other sector of a read is the tick of SEND at the next
sector. The tick that ends any other sector of a verify waits in SEND at the next sector (92_eei_decisions.md D24), or is its
SEND tick (the pseudocode of R185): the spec's two readings are the two values of the model's parameter `verifyLoop` (log entry
41). For a read whose next sector has a valid address beyond the image it is ModelFault(BackendRange), the cursor at that sector
(the state that `xst` is left in then is the model's choice, log entry 38, and is left open here). -/
def Obligations.SectorLoopCountsDown : Prop :=
  ∀ (s : State) (rest : List Input),
    (s.tickOf rest .readVerify .sdone false ∨ s.tickOf rest .readSectors .sdone false → s.xta.count = 1 →
      step s = .next (completed { s with inputs := rest, xta := { s.xta with count := 0 } })) ∧
    (s.tickOf rest .readVerify .sdone false → 1 < s.xta.count → ∀ u : State,
      u = State.nextSector { s with xta := { s.xta with count := s.xta.count - 1, xst := .send } } s.xta.drvsel →
      (s.cfg.verifyLoop = .sendTick →
        step s = .next { u with inputs := rest, xta := { u.xta with status := 0x88, pending := true } }) ∧
      (s.cfg.verifyLoop = .sameTick → step s = step u)) ∧
    (s.tickOf rest .readSectors .sdone false → 1 < s.xta.count → ∀ u : State,
      u = State.nextSector { s with xta := { s.xta with count := s.xta.count - 1, xst := .send } } s.xta.drvsel →
      ((u.addressOk → u.cursorLba < u.capacity s.xta.drvsel) → step s = step u) ∧
      (u.addressOk → u.capacity s.xta.drvsel ≤ u.cursorLba → ∃ x : Xst, step s = .next { u with
        inputs := rest, mfault := some .backendRange,
        xta := { u.xta with cLba := u.cursorLba, pending := false, xst := x } }))

/-- 42_xta_commands.md R215, 10_state.md R40: the tick of WRITE_SECTORS in RDONE writes the 512 bytes of the sector buffer to the
sector that was addressed, and every other byte of both images reads as before; after the last sector it completes, after any
other it is the tick of RECV at the next sector. -/
def Obligations.WriteSectorsStoresTheSector : Prop :=
  ∀ (s : State) (rest : List Input) (b : Fin 512 → Byte), s.tickOf rest .writeSectors .rdone false →
    (∀ i : Fin 512, s.xta.secbuf[i] = some (b i)) → s.xta.cLba < s.capacity s.xta.drvsel →
    ∃ t : State, step s = .next t ∧ (∀ i : Fin 512, Mem.load (t.disk s.xta.drvsel) (s.xta.cLba * 512 + i.val) = b i) ∧
    (∀ x : Nat, ¬ (s.xta.cLba * 512 ≤ x ∧ x < s.xta.cLba * 512 + 512) →
      Mem.load (t.disk s.xta.drvsel) x = Mem.load (s.disk s.xta.drvsel) x) ∧
    t.disk (!s.xta.drvsel) = s.disk (!s.xta.drvsel) ∧
    (s.xta.count = 1 → t = completed { { s with
      inputs := rest, history := .diskWrite s.xta.drvsel s.xta.cLba :: s.history,
      xta := { s.xta with count := 0 } } with disk0 := t.disk0, disk1 := t.disk1 }) ∧
    (1 < s.xta.count → step (State.nextSector { s with
      disk0 := t.disk0, disk1 := t.disk1, history := .diskWrite s.xta.drvsel s.xta.cLba :: s.history,
      xta := { s.xta with count := s.xta.count - 1, xst := .recv } } s.xta.drvsel) = .next t)

/-- 41_xta_engine.md R178, 20_memory.md R64: a DMA tick of a phase from the host, whose draw is `k` and whose channel supplies `k`
bytes, stores them in the sector buffer from the cursor on and moves the cursor past them; the last byte of the phase ends it
in RDONE, and a tick is scheduled either way. -/
def Obligations.DmaInMovesTheDrawnBytes : Prop :=
  ∀ (s : State) (rest : List Input) (c : Cmd) (bs : List Byte) (ks : List Nat) (gs : List (Option Byte)),
    c = .writeSectors ∨ c = .writeSectorBuffer → s.tickOf rest c .rdata true → s.xta.phase .secBuf 512 →
    1 ≤ bs.length → s.xta.curIdx + bs.length ≤ 512 →
    s.draws.chunks = bs.length :: ks → s.draws.gets = bs.map some ++ gs →
    ∃ t : State, step s = .next t ∧
      (∀ i : Fin 512, t.xta.secbuf[i] =
        if s.xta.curIdx ≤ i.val ∧ i.val < s.xta.curIdx + bs.length then bs[i.val - s.xta.curIdx]?
        else s.xta.secbuf[i]) ∧
      t = { s with
        inputs := rest, draws := { s.draws with chunks := ks, gets := gs },
        history := (bs.map fun b => Event.dmaGet (some b)).reverse ++ s.history,
        xta := { s.xta with
          secbuf := t.xta.secbuf, curIdx := s.xta.curIdx + bs.length, pending := true,
          xferDma := decide (s.xta.curIdx + bs.length < 512),
          status := if s.xta.curIdx + bs.length < 512 then s.xta.status else 0x88,
          xst := if s.xta.curIdx + bs.length < 512 then .rdata else .rdone } }

/-- 41_xta_engine.md R178, 20_memory.md R64: a DMA tick of a phase to the host, whose draw is `k` and whose channel takes the next
`k` bytes of the sector buffer, moves the cursor past them; the last byte of the phase ends it in SDONE, and a tick is
scheduled either way. Where a cell of the `k` was never written the bytes before it stay moved and the step ends in
ModelFault(UnwrittenBuffer) (10_state.md R28), no tick scheduled. -/
def Obligations.DmaOutMovesTheDrawnBytes : Prop :=
  (∀ (s : State) (rest : List Input) (c : Cmd) (bs : List Byte) (ks : List Nat) (ps : List Bool),
    c = .readSectors ∨ c = .readSectorBuffer → s.tickOf rest c .sdata true → s.xta.phase .secBuf 512 →
    1 ≤ bs.length → s.xta.curIdx + bs.length ≤ 512 →
    (∀ j : Nat, j < bs.length → s.xta.secbuf[s.xta.curIdx + j]? = some bs[j]?) →
    s.draws.chunks = bs.length :: ks → s.draws.puts = List.replicate bs.length true ++ ps →
    step s = .next { s with
      inputs := rest, draws := { s.draws with chunks := ks, puts := ps },
      history := (bs.map fun b => Event.dmaPut b true).reverse ++ s.history,
      xta := { s.xta with
        curIdx := s.xta.curIdx + bs.length, pending := true,
        xferDma := decide (s.xta.curIdx + bs.length < 512),
        status := if s.xta.curIdx + bs.length < 512 then s.xta.status else 0x88,
        xst := if s.xta.curIdx + bs.length < 512 then .sdata else .sdone } }) ∧
  (∀ (s : State) (rest : List Input) (c : Cmd) (bs : List Byte) (k : Nat) (ks : List Nat) (ps : List Bool),
    c = .readSectors ∨ c = .readSectorBuffer → s.tickOf rest c .sdata true → s.xta.phase .secBuf 512 →
    bs.length < k → s.xta.curIdx + k ≤ 512 →
    (∀ j : Nat, j < bs.length → s.xta.secbuf[s.xta.curIdx + j]? = some bs[j]?) →
    s.xta.secbuf[s.xta.curIdx + bs.length]? = some none →
    s.draws.chunks = k :: ks → s.draws.puts = List.replicate bs.length true ++ ps →
    step s = .next { s with
      mfault := some .unwrittenBuffer, inputs := rest, draws := { s.draws with chunks := ks, puts := ps },
      history := (bs.map fun b => Event.dmaPut b true).reverse ++ s.history,
      xta := { s.xta with curIdx := s.xta.curIdx + bs.length, pending := false } })

/-- 41_xta_engine.md R178, 60_exceptions.md R304: where the channel answers NODATA after the bytes `bs` of a phase from the host,
or after as many bytes of the sector buffer in a phase to the host, the step ends in FATAL with the reason recorded, no tick
scheduled, and the bytes moved before it stay moved. -/
def Obligations.ExhaustedDmaIsFatal : Prop :=
  (∀ (s : State) (rest : List Input) (c : Cmd) (bs : List Byte) (k : Nat) (ks : List Nat) (gs : List (Option Byte)),
    c = .writeSectors ∨ c = .writeSectorBuffer → s.tickOf rest c .rdata true → s.xta.phase .secBuf 512 →
    bs.length < k → s.xta.curIdx + k ≤ 512 →
    s.draws.chunks = k :: ks → s.draws.gets = bs.map some ++ none :: gs →
    ∃ t : State, step s = .next t ∧
      (∀ i : Fin 512, t.xta.secbuf[i] =
        if s.xta.curIdx ≤ i.val ∧ i.val < s.xta.curIdx + bs.length then bs[i.val - s.xta.curIdx]?
        else s.xta.secbuf[i]) ∧
      t = { s with
        fatal := some .dmaExhausted, inputs := rest, draws := { s.draws with chunks := ks, gets := gs },
        history := .dmaGet none :: ((bs.map fun b => Event.dmaGet (some b)).reverse ++ s.history),
        xta := { s.xta with
          secbuf := t.xta.secbuf, curIdx := s.xta.curIdx + bs.length, pending := false, xst := .fatal } }) ∧
  (∀ (s : State) (rest : List Input) (c : Cmd) (bs : List Byte) (b : Byte) (k : Nat) (ks : List Nat) (ps : List Bool),
    c = .readSectors ∨ c = .readSectorBuffer → s.tickOf rest c .sdata true → s.xta.phase .secBuf 512 →
    bs.length < k → s.xta.curIdx + k ≤ 512 →
    (∀ j : Nat, j < bs.length → s.xta.secbuf[s.xta.curIdx + j]? = some bs[j]?) →
    s.xta.secbuf[s.xta.curIdx + bs.length]? = some (some b) →
    s.draws.chunks = k :: ks → s.draws.puts = List.replicate bs.length true ++ false :: ps →
    step s = .next { s with
      fatal := some .dmaExhausted, inputs := rest, draws := { s.draws with chunks := ks, puts := ps },
      history := .dmaPut b false :: ((bs.map fun b => Event.dmaPut b true).reverse ++ s.history),
      xta := { s.xta with curIdx := s.xta.curIdx + bs.length, pending := false, xst := .fatal } })

/-- 42_xta_commands.md R217, 10_state.md R40: the tick of FORMAT_TRACK on the cylinder the head is on, every address in the image
and the sector buffer written, leaves the buffer's bytes in every sector of the cylinder, records each sector's write in
order, completes, and leaves every other byte of both images and the rest of the machine as before. Where the head is not on
the cylinder, or the drive has no cylinders (D41, log entry 37), it fails with ILLADDR before any write. -/
def Obligations.FormatTrackFillsTheCylinder : Prop :=
  ∀ (s : State) (rest : List Input), s.tickOf rest .formatTrack .rdone false →
    (∀ b : Fin 512 → Byte, (∀ i : Fin 512, s.xta.secbuf[i] = some (b i)) → s.cmdDrive.curCyl = s.xta.cTrack →
      1 ≤ s.cmdDrive.tracks → (s.xta.cTrack + 1) * s.cmdDrive.hpc * s.cmdDrive.spt ≤ s.capacity s.xta.drvsel →
      ∃ t : State, step s = .next t ∧
      s.imageFilled t (s.xta.cTrack * s.cmdDrive.hpc * s.cmdDrive.spt) (s.cmdDrive.hpc * s.cmdDrive.spt) b ∧
      t = completed { s with
        inputs := rest, disk0 := t.disk0, disk1 := t.disk1,
        history := diskWrites s.xta.drvsel (s.xta.cTrack * s.cmdDrive.hpc * s.cmdDrive.spt) (s.cmdDrive.hpc * s.cmdDrive.spt) ++
          s.history }) ∧
    (s.cmdDrive.curCyl ≠ s.xta.cTrack ∨ s.cmdDrive.tracks = 0 → 1 ≤ s.cmdDrive.hpc → 1 ≤ s.cmdDrive.spt →
      step s = .next (failed { s with inputs := rest } s.cfg.senseCodes.illAddr))

/-- 42_xta_commands.md R216, 10_state.md R40: the tick of FORMAT_DRIVE, the geometry inside the image and the sector buffer written,
leaves the buffer's bytes in every sector of the geometry, records each sector's write in order, leaves the head on the last
cylinder, completes, and leaves every other byte of both images and the rest of the machine as before. With a geometry of no
sector nothing is written and it completes. -/
def Obligations.FormatDriveFillsTheDrive : Prop :=
  ∀ (s : State) (rest : List Input) (b : Fin 512 → Byte), s.tickOf rest .formatDrive .rdone false →
    (∀ i : Fin 512, s.xta.secbuf[i] = some (b i)) ∨ s.cmdDrive.tracks * s.cmdDrive.hpc * s.cmdDrive.spt = 0 →
    s.cmdDrive.tracks * s.cmdDrive.hpc * s.cmdDrive.spt ≤ s.capacity s.xta.drvsel →
    ∃ t : State, step s = .next t ∧
    s.imageFilled t 0 (s.cmdDrive.tracks * s.cmdDrive.hpc * s.cmdDrive.spt) b ∧
    t = completed (State.setDrive { s with
      inputs := rest, disk0 := t.disk0, disk1 := t.disk1,
      history := diskWrites s.xta.drvsel 0 (s.cmdDrive.tracks * s.cmdDrive.hpc * s.cmdDrive.spt) ++ s.history } s.xta.drvsel
      { s.cmdDrive with curCyl := if 1 ≤ s.cmdDrive.tracks then s.cmdDrive.tracks - 1 else s.cmdDrive.curCyl })

/-- 10_state.md R28, R40, 60_exceptions.md R305, 42_xta_commands.md R215, R216, R217: a tick of WRITE_SECTORS, FORMAT_TRACK or
FORMAT_DRIVE that would write the sector buffer to the disk raises ModelFault(UnwrittenBuffer) where a cell was never written,
and no byte of either image changes; it raises ModelFault(BackendRange) where a sector to write is beyond the image, and the
sectors before that one stay written and recorded. FORMAT_DRIVE leaves the head on the cylinder it stopped at. Which of the
two is raised where both hold is the model's choice (log entry 22). -/
def Obligations.FailedDiskWriteIsAModelFault : Prop :=
  ∀ (s : State) (rest : List Input),
    (s.tickOf rest .writeSectors .rdone false →
      ((∃ i : Fin 512, s.xta.secbuf[i] = none) →
        step s = .next { s with inputs := rest, xta := { s.xta with pending := false }, mfault := some .unwrittenBuffer }) ∧
      ((∀ i : Fin 512, s.xta.secbuf[i] ≠ none) → s.capacity s.xta.drvsel ≤ s.xta.cLba →
        step s = .next { s with inputs := rest, xta := { s.xta with pending := false }, mfault := some .backendRange })) ∧
    (1 ≤ s.cmdDrive.tracks → 1 ≤ s.cmdDrive.hpc → 1 ≤ s.cmdDrive.spt → (∃ i : Fin 512, s.xta.secbuf[i] = none) →
      (s.tickOf rest .formatTrack .rdone false → s.cmdDrive.curCyl = s.xta.cTrack →
        step s = .next { s with inputs := rest, xta := { s.xta with pending := false }, mfault := some .unwrittenBuffer }) ∧
      (s.tickOf rest .formatDrive .rdone false →
        step s = .next (State.setDrive { s with
          inputs := rest, xta := { s.xta with pending := false }, mfault := some .unwrittenBuffer } s.xta.drvsel
          { s.cmdDrive with curCyl := 0 }))) ∧
    (∀ b : Fin 512 → Byte, (∀ i : Fin 512, s.xta.secbuf[i] = some (b i)) →
      (s.tickOf rest .formatTrack .rdone false → s.cmdDrive.curCyl = s.xta.cTrack → 1 ≤ s.cmdDrive.tracks →
        s.capacity s.xta.drvsel < (s.xta.cTrack + 1) * s.cmdDrive.hpc * s.cmdDrive.spt → ∀ base n : Nat,
        base = s.xta.cTrack * s.cmdDrive.hpc * s.cmdDrive.spt → n = s.capacity s.xta.drvsel - base →
        ∃ t : State, step s = .next t ∧ s.imageFilled t base n b ∧
          t = { s with
            inputs := rest, xta := { s.xta with pending := false }, mfault := some .backendRange,
            disk0 := t.disk0, disk1 := t.disk1, history := diskWrites s.xta.drvsel base n ++ s.history }) ∧
      (s.tickOf rest .formatDrive .rdone false →
        s.capacity s.xta.drvsel < s.cmdDrive.tracks * s.cmdDrive.hpc * s.cmdDrive.spt →
        ∃ t : State, step s = .next t ∧ s.imageFilled t 0 (s.capacity s.xta.drvsel) b ∧
          t = State.setDrive { s with
            inputs := rest, xta := { s.xta with pending := false }, mfault := some .backendRange,
            disk0 := t.disk0, disk1 := t.disk1, history := diskWrites s.xta.drvsel 0 (s.capacity s.xta.drvsel) ++ s.history }
            s.xta.drvsel
            { s.cmdDrive with curCyl := s.capacity s.xta.drvsel / (s.cmdDrive.hpc * s.cmdDrive.spt) }))

/-! Invariants and whole-machine rules. -/

/-- 41_xta_engine.md R170, R171, 42_xta_commands.md R226: in every state of the graph the status byte, the cursor, the pending tick
and the commands that can be there are what the spec's tables say, and every step keeps it so. -/
def Obligations.EngineKeepsItsStateGraph : Prop :=
  ∀ (s t : State), s.engineOk → step s = .next t → t.running → t.engineOk

/-- 41_xta_engine.md R170: the state-machine value makes only the moves of the graph. Where a verify has a SEND tick for each
sector (92_eei_decisions.md D24), the graph's "SEND-then-SDONE" after SDONE is two ticks, so that one step can go from SDONE to
SEND; only a verify does, and only under that value of the model's parameter `verifyLoop` (log entry 41). -/
def Obligations.EngineMovesAlongTheGraph : Prop :=
  ∀ (s t : State), s.engineOk → step s = .next t →
    legalMove s.xta.xst t.xta.xst = true ∨
    (s.cfg.verifyLoop = .sendTick ∧ s.runs [.readVerify] ∧ s.xta.xst = .sdone ∧ t.xta.xst = .send)

/-- 60_exceptions.md R305, 42_xta_commands.md R226: no tick comes in a command and state the tick table does not list. -/
def Obligations.NoTickIsUnreachable : Prop :=
  ∀ (s t : State), s.engineOk → step s = .next t → t.mfault ≠ some .unreachableTick

/-- 43_ems.md R276, 10_state.md R41, R43: every page's mapping is the one its byte asks for, and the port group and the frame
base are those of the configuration byte, after every step; and every RAM offset the frame then reaches is in expanded memory
and inside the RAM array. -/
def Obligations.EmsMappingIsNeverStale : Prop :=
  ∀ (s t : State), s.emsOk → step s = .next t →
    t.emsOk ∧ ∀ a x : Nat, t.translate a = .ram x → 640 * 1024 ≤ x ∧ x < t.cfg.memSizeKib * 1024

/-- The RAM array and the disk images keep their canonical form, and list no address that does not exist (10_state.md R40, R42),
after every step. -/
def Obligations.StoresKeepTheirForm : Prop :=
  ∀ (s t : State), s.storesOk → step s = .next t → t.storesOk

/-- 10_state.md R33: `cur_cyl` is always clamped to the drive's cylinders, after every step. -/
def Obligations.HeadsStayOnTheirCylinders : Prop :=
  ∀ (s t : State), s.cylsOk → step s = .next t → t.cylsOk

/-- 70_reset_and_hazards.md R340, R341: a machine after power-on with any parameters meets the invariants (its images being in
form), and the spec's reset values are in its registers; the reset state is one. -/
def Obligations.PowerOnMeetsTheInvariants : Prop :=
  (∀ (p : Params) (ram : Memory) (s : State), s = State.powerOn p ram →
    s.engineOk ∧ s.emsOk ∧ s.cylsOk ∧
    (Mem.wf ram = true → (∀ c ∈ ram, c.1 < p.memSizeKib * 1024) →
      Mem.wf p.drive0.image = true → (∀ c ∈ p.drive0.image, c.1 < p.drive0.capacity * 512) →
      Mem.wf p.drive1.image = true → (∀ c ∈ p.drive1.image, c.1 < p.drive1.capacity * 512) → s.storesOk) ∧
    s.xta.xst = .idle ∧ s.xta.status = 0x00 ∧ s.xta.sense = p.senseCodes.noError ∧ s.xta.intr = 0x00 ∧
    s.xta.noPhase ∧ s.xta.pending = false ∧
    (∀ i : Fin 512, s.xta.secbuf[i] = if p.bufferReset = .zeros then some 0x00 else none) ∧
    s.xta.cTrack = 0 ∧ s.xta.cHead = 0 ∧ s.xta.cSector = 0 ∧ s.xta.cLba = 0 ∧ s.xta.count = 0 ∧
    s.drv0 = ⟨p.drive0.present, 0, p.drive0.geom.spt, p.drive0.geom.hpc, p.drive0.geom.tracks⟩ ∧
    s.drv1 = ⟨p.drive1.present, 0, p.drive1.geom.spt, p.drive1.geom.hpc, p.drive1.geom.tracks⟩ ∧
    s.disk0 = p.drive0.image ∧ s.disk1 = p.drive1.image ∧ s.ram = ram ∧
    s.ems.emsCfg = p.emsCfgReset ∧ (∀ q : BitVec 2, s.ems.page q = ⟨0x00, false, 0⟩) ∧ s.ems.chipIndex = none ∧ s.running) ∧
  State.reset = State.powerOn resetParams []

/-- 10_state.md R33, R34, R40, 42_xta_commands.md R219: no step changes a drive's presence or its sectors per track or the
parameters; its heads and cylinders change only in a step that is the tick of SET_DRIVE_PARAMS for it, its image only in one
that is the tick of WRITE_SECTORS, FORMAT_TRACK or FORMAT_DRIVE for it. -/
def Obligations.MediaChangeOnlyByTheirCommands : Prop :=
  ∀ (s t : State) (d : Bool), step s = .next t →
    t.cfg = s.cfg ∧ (t.drive d).present = (s.drive d).present ∧ (t.drive d).spt = (s.drive d).spt ∧
    (((t.drive d).hpc = (s.drive d).hpc ∧ (t.drive d).tracks = (s.drive d).tracks) ∨
      (s.xta.drvsel = d ∧ ∃ rest : List Input, s.tickOf rest .setDriveParams .rdone false)) ∧
    (t.disk d = s.disk d ∨
      (s.xta.drvsel = d ∧ ∃ (rest : List Input) (c : Cmd), c ∈ [Cmd.writeSectors, .formatTrack, .formatDrive] ∧
        s.tickOf rest c .rdone false))

/-- The two units share no state (00_scope.md R1, 70_reset_and_hazards.md R341, R342): an operation of the XTA window or a
command leaves the EMS unit and the RAM array as they were, and every other operation leaves the engine, the drives and the
images as they were. -/
def Obligations.UnitsAreIndependent : Prop :=
  ∀ (s t : State) (i : Instr), exec i s = .next t →
    (xtaOp i = true → t.ems = s.ems ∧ t.ram = s.ram) ∧
    (xtaOp i = false → t.xta = s.xta ∧ t.drv0 = s.drv0 ∧ t.drv1 = s.drv1 ∧ t.disk0 = s.disk0 ∧ t.disk1 = s.disk1)

/-- 60_exceptions.md R306: the interrupt line goes from low to high only at a completion with IRQ_ENA set, which records it. -/
def Obligations.InterruptRisesOnlyAtCompletion : Prop :=
  ∀ (s t : State), step s = .next t → s.irqOutput = false → t.irqOutput = true →
    t.xta.xst = .compl ∧ s.xta.intr &&& s.cfg.irqEna ≠ 0 ∧ ∃ h : List Event, t.history = .irqRaise s.cfg.xtaIrq :: h

/-- 60_exceptions.md R310: exec of every operation answers a next state in every state that is not stopped and has the EMS mapping
invariant. Where the spec refuses the access or raises a ModelFault (a shared port, a DCB with `mbz` set, an unwritten chipset
index, a sector-buffer cell never written) that next state is the one that records the stop: that such a step answers a next
state is the model's reading (DEDUCED, log entry 20). -/
def Obligations.EveryOperationIsAccepted : Prop :=
  ∀ (s : State) (i : Instr), s.running → s.emsOk → ∃ t : State, exec i s = .next t
end

