-- ==== Sys2Proof/Laws/Mem.lean ====
section
/-! SUPPORT. The laws of the sparse byte stores: what a load reads after a store, and that a store keeps the canonical form and the
bound on the listed addresses. -/

namespace Sys2Proof.Machine

@[simp] theorem Mem.load_nil (a : Nat) : Mem.load [] a = 0 := rfl

theorem Mem.load_cons (c : Host.Cell) (m : Memory) (a : Nat) :
    Mem.load (c :: m) a = if a = c.1 then c.2 else Mem.load m a := rfl

/-- An address no cell has reads as unlisted. -/
theorem Mem.load_eq_zero {m : Memory} {a : Nat} (h : ∀ c ∈ m, c.1 ≠ a) : Mem.load m a = 0 := by
  induction m with
  | nil => rfl
  | cons c m ih =>
    rw [Mem.load_cons, if_neg (fun e => h c (List.mem_cons_self ..) e.symm)]
    exact ih fun d hd => h d (List.mem_cons_of_mem _ hd)

/-- A store followed by cells that do not have the address reads as itself. -/
theorem Mem.load_append_left {m n : Memory} {a : Nat} (h : ∀ c ∈ n, c.1 ≠ a) :
    Mem.load (m ++ n) a = Mem.load m a := by
  induction m with
  | nil => simpa using Mem.load_eq_zero h
  | cons c m ih => simp [Mem.load_cons, ih]

/-- Cells that do not have the address are passed over. -/
theorem Mem.load_append_right {m n : Memory} {a : Nat} (h : ∀ c ∈ m, c.1 ≠ a) :
    Mem.load (m ++ n) a = Mem.load n a := by
  induction m with
  | nil => rfl
  | cons c m ih =>
    rw [List.cons_append, Mem.load_cons, if_neg (fun e => h c (List.mem_cons_self ..) e.symm)]
    exact ih fun d hd => h d (List.mem_cons_of_mem _ hd)

/-- Keeping the cells of some addresses keeps what those addresses read as. -/
theorem Mem.load_filter {m : Memory} {a : Nat} {p : Nat → Bool} (h : p a = true) :
    Mem.load (m.filter fun c => p c.1) a = Mem.load m a := by
  induction m with
  | nil => rfl
  | cons c m ih =>
    by_cases hp : p c.1 = true
    · simp [hp, Mem.load_cons, ih]
    · have hne : a ≠ c.1 := fun e => hp (e ▸ h)
      simp [hp, Mem.load_cons, hne, ih]

/-- The cells of stored bytes lie at their addresses. -/
theorem Mem.mem_cells {vs : List Byte} {a : Nat} {c : Host.Cell} (h : c ∈ Mem.cells a vs) :
    a ≤ c.1 ∧ c.1 < a + vs.length ∧ c.2 ≠ Mem.unlisted := by
  induction vs generalizing a with
  | nil => simp [Mem.cells] at h
  | cons v vs ih =>
    simp only [Mem.cells] at h
    split at h
    · have := ih h
      simp only [List.length_cons]; exact ⟨by omega, by omega, this.2.2⟩
    · rename_i hv
      rcases List.mem_cons.1 h with rfl | h
      · simp only [List.length_cons]; exact ⟨le_refl _, by omega, hv⟩
      · have := ih h
        simp only [List.length_cons]; exact ⟨by omega, by omega, this.2.2⟩

/-- The cells of stored bytes read as the bytes. -/
theorem Mem.load_cells (vs : List Byte) (a i : Nat) : Mem.load (Mem.cells a vs) (a + i) = vs.getD i 0 := by
  induction vs generalizing a i with
  | nil => simp [Mem.cells]
  | cons v vs ih =>
    cases i with
    | zero =>
      simp only [Mem.cells, Nat.add_zero, List.getD_cons_zero]
      split
      · rename_i hv
        rw [Mem.load_eq_zero fun c hc e => by have := Mem.mem_cells hc; omega, hv]; rfl
      · simp [Mem.load_cons]
    | succ i =>
      simp only [Mem.cells, List.getD_cons_succ]
      rw [← ih (a + 1) i, show a + (i + 1) = a + 1 + i by omega]
      split
      · rfl
      · rw [Mem.load_cons, if_neg (by simp only; omega)]

/-- Read after write: the stored bytes at their addresses, everything else as before. -/
theorem Mem.load_storeBytes (m : Memory) (a : Nat) (vs : List Byte) (x : Nat) :
    Mem.load (Mem.storeBytes m a vs) x =
      if a ≤ x ∧ x < a + vs.length then vs.getD (x - a) 0 else Mem.load m x := by
  have hlow : ∀ c ∈ m.filter (fun c => decide (c.1 < a)), c.1 < a := fun c hc => by
    simpa using (List.mem_filter.1 hc).2
  have hhigh : ∀ c ∈ m.filter (fun c => decide (a + vs.length ≤ c.1)), a + vs.length ≤ c.1 := fun c hc => by
    simpa using (List.mem_filter.1 hc).2
  unfold Mem.storeBytes
  split
  · rename_i h
    rw [Mem.load_append_left fun c hc => by have := hhigh c hc; omega,
      Mem.load_append_right fun c hc => by have := hlow c hc; omega]
    have := Mem.load_cells vs a (x - a)
    rwa [show a + (x - a) = x by omega] at this
  · rename_i h
    by_cases hx : x < a
    · rw [List.append_assoc, Mem.load_append_left (m := m.filter _)]
      · exact Mem.load_filter (p := fun y => decide (y < a)) (by simpa using hx)
      · intro c hc
        rcases List.mem_append.1 hc with hc | hc
        · have := Mem.mem_cells hc; omega
        · have := hhigh c hc; omega
    · rw [Mem.load_append_right]
      · exact Mem.load_filter (p := fun y => decide (a + vs.length ≤ y)) (by simp; omega)
      · intro c hc
        rcases List.mem_append.1 hc with hc | hc
        · have := hlow c hc; omega
        · have := Mem.mem_cells hc; omega

/-- Read after write of a sector: its 512 bytes, every byte of another sector as before. -/
theorem Mem.load_storeSector (m : Memory) (b : Fin 512 → Byte) (l lba : Nat) (i : Fin 512) :
    Mem.load (Mem.storeBytes m (l * 512) (List.ofFn b)) (lba * 512 + i.val) =
      if lba = l then b i else Mem.load m (lba * 512 + i.val) := by
  have hi := i.isLt
  rw [Mem.load_storeBytes, List.length_ofFn]
  split
  · rename_i h
    obtain rfl : lba = l := by omega
    rw [if_pos rfl, Nat.add_sub_cancel_left, List.getD_eq_getElem _ _ (by rw [List.length_ofFn]; omega), List.getElem_ofFn]
  · rw [if_neg (by omega)]

/-- Read after write of one byte. -/
theorem Mem.load_store (m : Memory) (a : Nat) (v : Byte) (x : Nat) :
    Mem.load (Mem.store m a v) x = if x = a then v else Mem.load m x := by
  rw [Mem.store, Mem.load_storeBytes]
  by_cases h : x = a
  · simp [h]
  · rw [if_neg (by simp; omega), if_neg h]

/-- `rising` says: all addresses above the bound, and strictly rising. -/
theorem Mem.rising_iff (lo : Option Nat) (m : Memory) :
    Mem.rising lo m = true ↔ (∀ c ∈ m, ∀ b ∈ lo, b < c.1) ∧ m.Pairwise fun c d => c.1 < d.1 := by
  induction m generalizing lo with
  | nil => simp [Mem.rising]
  | cons c m ih =>
    obtain ⟨a, v⟩ := c
    simp only [Mem.rising, Bool.and_eq_true, ih, List.pairwise_cons, List.forall_mem_cons]
    cases lo with
    | none => simp
    | some b =>
      simp only [decide_eq_true_eq, Option.mem_def, Option.some.injEq, forall_eq']
      constructor
      · rintro ⟨h1, h2, h3⟩
        exact ⟨⟨h1, fun x hx => h1.trans (h2 x hx)⟩, fun x hx => h2 x hx, h3⟩
      · rintro ⟨⟨h1, -⟩, h2, h3⟩
        exact ⟨h1, fun x hx => h2 x hx, h3⟩

/-- The canonical form, said of the cells. -/
theorem Mem.wf_iff (m : Memory) :
    Mem.wf m = true ↔ (m.Pairwise fun c d => c.1 < d.1) ∧ ∀ c ∈ m, c.2 ≠ Mem.unlisted := by
  simp [Mem.wf, Mem.rising_iff]

/-- The cells of stored bytes are in order. -/
theorem Mem.pairwise_cells (vs : List Byte) (a : Nat) : (Mem.cells a vs).Pairwise fun c d => c.1 < d.1 := by
  induction vs generalizing a with
  | nil => simp [Mem.cells]
  | cons v vs ih =>
    simp only [Mem.cells]
    split
    · exact ih (a + 1)
    · refine List.pairwise_cons.2 ⟨fun c hc => ?_, ih (a + 1)⟩
      have := Mem.mem_cells hc
      simp only; omega

/-- A store keeps the canonical form. -/
theorem Mem.wf_storeBytes {m : Memory} (h : Mem.wf m = true) (a : Nat) (vs : List Byte) :
    Mem.wf (Mem.storeBytes m a vs) = true := by
  rw [Mem.wf_iff] at h ⊢
  obtain ⟨hp, hv⟩ := h
  unfold Mem.storeBytes
  constructor
  · rw [List.append_assoc, List.pairwise_append, List.pairwise_append]
    refine ⟨hp.filter _, ⟨Mem.pairwise_cells vs a, hp.filter _, ?_⟩, ?_⟩
    · intro c hc d hd
      have h1 := Mem.mem_cells hc
      have h2 := (List.mem_filter.1 hd).2
      simp at h2; omega
    · intro c hc d hd
      have h1 := (List.mem_filter.1 hc).2
      simp at h1
      rcases List.mem_append.1 hd with hd | hd
      · have := Mem.mem_cells hd; omega
      · have h2 := (List.mem_filter.1 hd).2
        simp at h2; omega
  · intro c hc
    rcases List.mem_append.1 hc with hc | hc
    · rcases List.mem_append.1 hc with hc | hc
      · exact hv c (List.mem_filter.1 hc).1
      · exact (Mem.mem_cells hc).2.2
    · exact hv c (List.mem_filter.1 hc).1

/-- A store keeps a bound on the listed addresses that its own addresses keep. -/
theorem Mem.bounded_storeBytes {m : Memory} {n : Nat} (h : ∀ c ∈ m, c.1 < n) {a : Nat} {vs : List Byte}
    (hb : a + vs.length ≤ n) : ∀ c ∈ Mem.storeBytes m a vs, c.1 < n := by
  intro c hc
  unfold Mem.storeBytes at hc
  rcases List.mem_append.1 hc with hc | hc
  · rcases List.mem_append.1 hc with hc | hc
    · exact h c (List.mem_filter.1 hc).1
    · have := Mem.mem_cells hc; omega
  · exact h c (List.mem_filter.1 hc).1

/-- The canonical form of the power-on RAM: nothing listed. -/
theorem Mem.wf_nil : Mem.wf [] = true := rfl

/-- A listed cell reads as its byte. -/
theorem Mem.load_of_mem {m : Memory} (h : m.Pairwise fun c d => c.1 < d.1) {c : Host.Cell} (hc : c ∈ m) :
    Mem.load m c.1 = c.2 := by
  induction m with
  | nil => simp at hc
  | cons d m ih =>
    obtain ⟨h1, h2⟩ := List.pairwise_cons.1 h
    rw [Mem.load_cons]
    rcases List.mem_cons.1 hc with rfl | hc
    · simp
    · rw [if_neg (by have := h1 c hc; omega)]
      exact ih h2 hc

end Sys2Proof.Machine
end

