-- ==== Sys2Proof/Laws/State.lean ====
section
/-! SUPPORT. What each named update of the state leaves in each field, one lemma per field, so that no proof unfolds a record
update. The lemmas about an update that touches the engine are per field of the engine. -/

namespace Sys2Proof.Machine

variable (s : State)

/-! `record` -/

@[simp] theorem State.record_xta (e : Event) : (s.record e).xta = s.xta := rfl
@[simp] theorem State.record_drv0 (e : Event) : (s.record e).drv0 = s.drv0 := rfl
@[simp] theorem State.record_drv1 (e : Event) : (s.record e).drv1 = s.drv1 := rfl
@[simp] theorem State.record_disk0 (e : Event) : (s.record e).disk0 = s.disk0 := rfl
@[simp] theorem State.record_disk1 (e : Event) : (s.record e).disk1 = s.disk1 := rfl
@[simp] theorem State.record_ems (e : Event) : (s.record e).ems = s.ems := rfl
@[simp] theorem State.record_ram (e : Event) : (s.record e).ram = s.ram := rfl
@[simp] theorem State.record_fatal (e : Event) : (s.record e).fatal = s.fatal := rfl
@[simp] theorem State.record_mfault (e : Event) : (s.record e).mfault = s.mfault := rfl
@[simp] theorem State.record_refusal (e : Event) : (s.record e).refusal = s.refusal := rfl
@[simp] theorem State.record_cfg (e : Event) : (s.record e).cfg = s.cfg := rfl
@[simp] theorem State.record_draws (e : Event) : (s.record e).draws = s.draws := rfl
@[simp] theorem State.record_inputs (e : Event) : (s.record e).inputs = s.inputs := rfl
@[simp] theorem State.record_result (e : Event) : (s.record e).result = s.result := rfl
@[simp] theorem State.record_history (e : Event) : (s.record e).history = e :: s.history := rfl

/-! `answer` -/

@[simp] theorem State.answer_xta (r : Byte) : (s.answer r).xta = s.xta := rfl
@[simp] theorem State.answer_drv0 (r : Byte) : (s.answer r).drv0 = s.drv0 := rfl
@[simp] theorem State.answer_drv1 (r : Byte) : (s.answer r).drv1 = s.drv1 := rfl
@[simp] theorem State.answer_disk0 (r : Byte) : (s.answer r).disk0 = s.disk0 := rfl
@[simp] theorem State.answer_disk1 (r : Byte) : (s.answer r).disk1 = s.disk1 := rfl
@[simp] theorem State.answer_ems (r : Byte) : (s.answer r).ems = s.ems := rfl
@[simp] theorem State.answer_ram (r : Byte) : (s.answer r).ram = s.ram := rfl
@[simp] theorem State.answer_fatal (r : Byte) : (s.answer r).fatal = s.fatal := rfl
@[simp] theorem State.answer_mfault (r : Byte) : (s.answer r).mfault = s.mfault := rfl
@[simp] theorem State.answer_refusal (r : Byte) : (s.answer r).refusal = s.refusal := rfl
@[simp] theorem State.answer_cfg (r : Byte) : (s.answer r).cfg = s.cfg := rfl
@[simp] theorem State.answer_draws (r : Byte) : (s.answer r).draws = s.draws := rfl
@[simp] theorem State.answer_inputs (r : Byte) : (s.answer r).inputs = s.inputs := rfl
@[simp] theorem State.answer_result (r : Byte) : (s.answer r).result = [r] := rfl
@[simp] theorem State.answer_history (r : Byte) : (s.answer r).history = s.history := rfl

/-! `raiseFatal` -/

@[simp] theorem State.raiseFatal_xta_xst (r : FatalReason) : (s.raiseFatal r).xta.xst = .fatal := rfl
@[simp] theorem State.raiseFatal_xta_status (r : FatalReason) : (s.raiseFatal r).xta.status = s.xta.status := rfl
@[simp] theorem State.raiseFatal_xta_sense (r : FatalReason) : (s.raiseFatal r).xta.sense = s.xta.sense := rfl
@[simp] theorem State.raiseFatal_xta_intr (r : FatalReason) : (s.raiseFatal r).xta.intr = s.xta.intr := rfl
@[simp] theorem State.raiseFatal_xta_dcb (r : FatalReason) : (s.raiseFatal r).xta.dcb = s.xta.dcb := rfl
@[simp] theorem State.raiseFatal_xta_comp (r : FatalReason) : (s.raiseFatal r).xta.comp = s.xta.comp := rfl
@[simp] theorem State.raiseFatal_xta_curTgt (r : FatalReason) : (s.raiseFatal r).xta.curTgt = s.xta.curTgt := rfl
@[simp] theorem State.raiseFatal_xta_curIdx (r : FatalReason) : (s.raiseFatal r).xta.curIdx = s.xta.curIdx := rfl
@[simp] theorem State.raiseFatal_xta_curLen (r : FatalReason) : (s.raiseFatal r).xta.curLen = s.xta.curLen := rfl
@[simp] theorem State.raiseFatal_xta_xferDma (r : FatalReason) : (s.raiseFatal r).xta.xferDma = s.xta.xferDma := rfl
@[simp] theorem State.raiseFatal_xta_secbuf (r : FatalReason) : (s.raiseFatal r).xta.secbuf = s.xta.secbuf := rfl
@[simp] theorem State.raiseFatal_xta_sensebuf (r : FatalReason) : (s.raiseFatal r).xta.sensebuf = s.xta.sensebuf := rfl
@[simp] theorem State.raiseFatal_xta_parambuf (r : FatalReason) : (s.raiseFatal r).xta.parambuf = s.xta.parambuf := rfl
@[simp] theorem State.raiseFatal_xta_cTrack (r : FatalReason) : (s.raiseFatal r).xta.cTrack = s.xta.cTrack := rfl
@[simp] theorem State.raiseFatal_xta_cHead (r : FatalReason) : (s.raiseFatal r).xta.cHead = s.xta.cHead := rfl
@[simp] theorem State.raiseFatal_xta_cSector (r : FatalReason) : (s.raiseFatal r).xta.cSector = s.xta.cSector := rfl
@[simp] theorem State.raiseFatal_xta_cLba (r : FatalReason) : (s.raiseFatal r).xta.cLba = s.xta.cLba := rfl
@[simp] theorem State.raiseFatal_xta_count (r : FatalReason) : (s.raiseFatal r).xta.count = s.xta.count := rfl
@[simp] theorem State.raiseFatal_xta_pending (r : FatalReason) : (s.raiseFatal r).xta.pending = s.xta.pending := rfl
@[simp] theorem State.raiseFatal_drv0 (r : FatalReason) : (s.raiseFatal r).drv0 = s.drv0 := rfl
@[simp] theorem State.raiseFatal_drv1 (r : FatalReason) : (s.raiseFatal r).drv1 = s.drv1 := rfl
@[simp] theorem State.raiseFatal_disk0 (r : FatalReason) : (s.raiseFatal r).disk0 = s.disk0 := rfl
@[simp] theorem State.raiseFatal_disk1 (r : FatalReason) : (s.raiseFatal r).disk1 = s.disk1 := rfl
@[simp] theorem State.raiseFatal_ems (r : FatalReason) : (s.raiseFatal r).ems = s.ems := rfl
@[simp] theorem State.raiseFatal_ram (r : FatalReason) : (s.raiseFatal r).ram = s.ram := rfl
@[simp] theorem State.raiseFatal_fatal (r : FatalReason) : (s.raiseFatal r).fatal = some r := rfl
@[simp] theorem State.raiseFatal_mfault (r : FatalReason) : (s.raiseFatal r).mfault = s.mfault := rfl
@[simp] theorem State.raiseFatal_refusal (r : FatalReason) : (s.raiseFatal r).refusal = s.refusal := rfl
@[simp] theorem State.raiseFatal_cfg (r : FatalReason) : (s.raiseFatal r).cfg = s.cfg := rfl
@[simp] theorem State.raiseFatal_draws (r : FatalReason) : (s.raiseFatal r).draws = s.draws := rfl
@[simp] theorem State.raiseFatal_inputs (r : FatalReason) : (s.raiseFatal r).inputs = s.inputs := rfl
@[simp] theorem State.raiseFatal_result (r : FatalReason) : (s.raiseFatal r).result = s.result := rfl
@[simp] theorem State.raiseFatal_history (r : FatalReason) : (s.raiseFatal r).history = s.history := rfl

/-! `raiseModelFault` -/

@[simp] theorem State.raiseModelFault_xta (r : ModelFaultReason) : (s.raiseModelFault r).xta = s.xta := rfl
@[simp] theorem State.raiseModelFault_drv0 (r : ModelFaultReason) : (s.raiseModelFault r).drv0 = s.drv0 := rfl
@[simp] theorem State.raiseModelFault_drv1 (r : ModelFaultReason) : (s.raiseModelFault r).drv1 = s.drv1 := rfl
@[simp] theorem State.raiseModelFault_disk0 (r : ModelFaultReason) : (s.raiseModelFault r).disk0 = s.disk0 := rfl
@[simp] theorem State.raiseModelFault_disk1 (r : ModelFaultReason) : (s.raiseModelFault r).disk1 = s.disk1 := rfl
@[simp] theorem State.raiseModelFault_ems (r : ModelFaultReason) : (s.raiseModelFault r).ems = s.ems := rfl
@[simp] theorem State.raiseModelFault_ram (r : ModelFaultReason) : (s.raiseModelFault r).ram = s.ram := rfl
@[simp] theorem State.raiseModelFault_fatal (r : ModelFaultReason) : (s.raiseModelFault r).fatal = s.fatal := rfl
@[simp] theorem State.raiseModelFault_mfault (r : ModelFaultReason) : (s.raiseModelFault r).mfault = some r := rfl
@[simp] theorem State.raiseModelFault_refusal (r : ModelFaultReason) : (s.raiseModelFault r).refusal = s.refusal := rfl
@[simp] theorem State.raiseModelFault_cfg (r : ModelFaultReason) : (s.raiseModelFault r).cfg = s.cfg := rfl
@[simp] theorem State.raiseModelFault_draws (r : ModelFaultReason) : (s.raiseModelFault r).draws = s.draws := rfl
@[simp] theorem State.raiseModelFault_inputs (r : ModelFaultReason) : (s.raiseModelFault r).inputs = s.inputs := rfl
@[simp] theorem State.raiseModelFault_result (r : ModelFaultReason) : (s.raiseModelFault r).result = s.result := rfl
@[simp] theorem State.raiseModelFault_history (r : ModelFaultReason) : (s.raiseModelFault r).history = s.history := rfl

/-! `refuse` -/

@[simp] theorem State.refuse_xta (r : RefuseReason) : (s.refuse r).xta = s.xta := rfl
@[simp] theorem State.refuse_drv0 (r : RefuseReason) : (s.refuse r).drv0 = s.drv0 := rfl
@[simp] theorem State.refuse_drv1 (r : RefuseReason) : (s.refuse r).drv1 = s.drv1 := rfl
@[simp] theorem State.refuse_disk0 (r : RefuseReason) : (s.refuse r).disk0 = s.disk0 := rfl
@[simp] theorem State.refuse_disk1 (r : RefuseReason) : (s.refuse r).disk1 = s.disk1 := rfl
@[simp] theorem State.refuse_ems (r : RefuseReason) : (s.refuse r).ems = s.ems := rfl
@[simp] theorem State.refuse_ram (r : RefuseReason) : (s.refuse r).ram = s.ram := rfl
@[simp] theorem State.refuse_fatal (r : RefuseReason) : (s.refuse r).fatal = s.fatal := rfl
@[simp] theorem State.refuse_mfault (r : RefuseReason) : (s.refuse r).mfault = s.mfault := rfl
@[simp] theorem State.refuse_refusal (r : RefuseReason) : (s.refuse r).refusal = some r := rfl
@[simp] theorem State.refuse_cfg (r : RefuseReason) : (s.refuse r).cfg = s.cfg := rfl
@[simp] theorem State.refuse_draws (r : RefuseReason) : (s.refuse r).draws = s.draws := rfl
@[simp] theorem State.refuse_inputs (r : RefuseReason) : (s.refuse r).inputs = s.inputs := rfl
@[simp] theorem State.refuse_result (r : RefuseReason) : (s.refuse r).result = s.result := rfl
@[simp] theorem State.refuse_history (r : RefuseReason) : (s.refuse r).history = s.history := rfl

/-! `schedule` -/

@[simp] theorem State.schedule_xta_xst : (s.schedule).xta.xst = s.xta.xst := rfl
@[simp] theorem State.schedule_xta_status : (s.schedule).xta.status = s.xta.status := rfl
@[simp] theorem State.schedule_xta_sense : (s.schedule).xta.sense = s.xta.sense := rfl
@[simp] theorem State.schedule_xta_intr : (s.schedule).xta.intr = s.xta.intr := rfl
@[simp] theorem State.schedule_xta_dcb : (s.schedule).xta.dcb = s.xta.dcb := rfl
@[simp] theorem State.schedule_xta_comp : (s.schedule).xta.comp = s.xta.comp := rfl
@[simp] theorem State.schedule_xta_curTgt : (s.schedule).xta.curTgt = s.xta.curTgt := rfl
@[simp] theorem State.schedule_xta_curIdx : (s.schedule).xta.curIdx = s.xta.curIdx := rfl
@[simp] theorem State.schedule_xta_curLen : (s.schedule).xta.curLen = s.xta.curLen := rfl
@[simp] theorem State.schedule_xta_xferDma : (s.schedule).xta.xferDma = s.xta.xferDma := rfl
@[simp] theorem State.schedule_xta_secbuf : (s.schedule).xta.secbuf = s.xta.secbuf := rfl
@[simp] theorem State.schedule_xta_sensebuf : (s.schedule).xta.sensebuf = s.xta.sensebuf := rfl
@[simp] theorem State.schedule_xta_parambuf : (s.schedule).xta.parambuf = s.xta.parambuf := rfl
@[simp] theorem State.schedule_xta_cTrack : (s.schedule).xta.cTrack = s.xta.cTrack := rfl
@[simp] theorem State.schedule_xta_cHead : (s.schedule).xta.cHead = s.xta.cHead := rfl
@[simp] theorem State.schedule_xta_cSector : (s.schedule).xta.cSector = s.xta.cSector := rfl
@[simp] theorem State.schedule_xta_cLba : (s.schedule).xta.cLba = s.xta.cLba := rfl
@[simp] theorem State.schedule_xta_count : (s.schedule).xta.count = s.xta.count := rfl
@[simp] theorem State.schedule_xta_pending : (s.schedule).xta.pending = true := rfl
@[simp] theorem State.schedule_drv0 : (s.schedule).drv0 = s.drv0 := rfl
@[simp] theorem State.schedule_drv1 : (s.schedule).drv1 = s.drv1 := rfl
@[simp] theorem State.schedule_disk0 : (s.schedule).disk0 = s.disk0 := rfl
@[simp] theorem State.schedule_disk1 : (s.schedule).disk1 = s.disk1 := rfl
@[simp] theorem State.schedule_ems : (s.schedule).ems = s.ems := rfl
@[simp] theorem State.schedule_ram : (s.schedule).ram = s.ram := rfl
@[simp] theorem State.schedule_fatal : (s.schedule).fatal = s.fatal := rfl
@[simp] theorem State.schedule_mfault : (s.schedule).mfault = s.mfault := rfl
@[simp] theorem State.schedule_refusal : (s.schedule).refusal = s.refusal := rfl
@[simp] theorem State.schedule_cfg : (s.schedule).cfg = s.cfg := rfl
@[simp] theorem State.schedule_draws : (s.schedule).draws = s.draws := rfl
@[simp] theorem State.schedule_inputs : (s.schedule).inputs = s.inputs := rfl
@[simp] theorem State.schedule_result : (s.schedule).result = s.result := rfl
@[simp] theorem State.schedule_history : (s.schedule).history = s.history := rfl

/-! `cancel` -/

@[simp] theorem State.cancel_xta_xst : (s.cancel).xta.xst = s.xta.xst := rfl
@[simp] theorem State.cancel_xta_status : (s.cancel).xta.status = s.xta.status := rfl
@[simp] theorem State.cancel_xta_sense : (s.cancel).xta.sense = s.xta.sense := rfl
@[simp] theorem State.cancel_xta_intr : (s.cancel).xta.intr = s.xta.intr := rfl
@[simp] theorem State.cancel_xta_dcb : (s.cancel).xta.dcb = s.xta.dcb := rfl
@[simp] theorem State.cancel_xta_comp : (s.cancel).xta.comp = s.xta.comp := rfl
@[simp] theorem State.cancel_xta_curTgt : (s.cancel).xta.curTgt = s.xta.curTgt := rfl
@[simp] theorem State.cancel_xta_curIdx : (s.cancel).xta.curIdx = s.xta.curIdx := rfl
@[simp] theorem State.cancel_xta_curLen : (s.cancel).xta.curLen = s.xta.curLen := rfl
@[simp] theorem State.cancel_xta_xferDma : (s.cancel).xta.xferDma = s.xta.xferDma := rfl
@[simp] theorem State.cancel_xta_secbuf : (s.cancel).xta.secbuf = s.xta.secbuf := rfl
@[simp] theorem State.cancel_xta_sensebuf : (s.cancel).xta.sensebuf = s.xta.sensebuf := rfl
@[simp] theorem State.cancel_xta_parambuf : (s.cancel).xta.parambuf = s.xta.parambuf := rfl
@[simp] theorem State.cancel_xta_cTrack : (s.cancel).xta.cTrack = s.xta.cTrack := rfl
@[simp] theorem State.cancel_xta_cHead : (s.cancel).xta.cHead = s.xta.cHead := rfl
@[simp] theorem State.cancel_xta_cSector : (s.cancel).xta.cSector = s.xta.cSector := rfl
@[simp] theorem State.cancel_xta_cLba : (s.cancel).xta.cLba = s.xta.cLba := rfl
@[simp] theorem State.cancel_xta_count : (s.cancel).xta.count = s.xta.count := rfl
@[simp] theorem State.cancel_xta_pending : (s.cancel).xta.pending = false := rfl
@[simp] theorem State.cancel_drv0 : (s.cancel).drv0 = s.drv0 := rfl
@[simp] theorem State.cancel_drv1 : (s.cancel).drv1 = s.drv1 := rfl
@[simp] theorem State.cancel_disk0 : (s.cancel).disk0 = s.disk0 := rfl
@[simp] theorem State.cancel_disk1 : (s.cancel).disk1 = s.disk1 := rfl
@[simp] theorem State.cancel_ems : (s.cancel).ems = s.ems := rfl
@[simp] theorem State.cancel_ram : (s.cancel).ram = s.ram := rfl
@[simp] theorem State.cancel_fatal : (s.cancel).fatal = s.fatal := rfl
@[simp] theorem State.cancel_mfault : (s.cancel).mfault = s.mfault := rfl
@[simp] theorem State.cancel_refusal : (s.cancel).refusal = s.refusal := rfl
@[simp] theorem State.cancel_cfg : (s.cancel).cfg = s.cfg := rfl
@[simp] theorem State.cancel_draws : (s.cancel).draws = s.draws := rfl
@[simp] theorem State.cancel_inputs : (s.cancel).inputs = s.inputs := rfl
@[simp] theorem State.cancel_result : (s.cancel).result = s.result := rfl
@[simp] theorem State.cancel_history : (s.cancel).history = s.history := rfl

/-! `enter` -/

@[simp] theorem State.enter_xta_xst (x : Xst) (v : Byte) : (s.enter x v).xta.xst = x := rfl
@[simp] theorem State.enter_xta_status (x : Xst) (v : Byte) : (s.enter x v).xta.status = v := rfl
@[simp] theorem State.enter_xta_sense (x : Xst) (v : Byte) : (s.enter x v).xta.sense = s.xta.sense := rfl
@[simp] theorem State.enter_xta_intr (x : Xst) (v : Byte) : (s.enter x v).xta.intr = s.xta.intr := rfl
@[simp] theorem State.enter_xta_dcb (x : Xst) (v : Byte) : (s.enter x v).xta.dcb = s.xta.dcb := rfl
@[simp] theorem State.enter_xta_comp (x : Xst) (v : Byte) : (s.enter x v).xta.comp = s.xta.comp := rfl
@[simp] theorem State.enter_xta_curTgt (x : Xst) (v : Byte) : (s.enter x v).xta.curTgt = .none := rfl
@[simp] theorem State.enter_xta_curIdx (x : Xst) (v : Byte) : (s.enter x v).xta.curIdx = 0 := rfl
@[simp] theorem State.enter_xta_curLen (x : Xst) (v : Byte) : (s.enter x v).xta.curLen = 0 := rfl
@[simp] theorem State.enter_xta_xferDma (x : Xst) (v : Byte) : (s.enter x v).xta.xferDma = false := rfl
@[simp] theorem State.enter_xta_secbuf (x : Xst) (v : Byte) : (s.enter x v).xta.secbuf = s.xta.secbuf := rfl
@[simp] theorem State.enter_xta_sensebuf (x : Xst) (v : Byte) : (s.enter x v).xta.sensebuf = s.xta.sensebuf := rfl
@[simp] theorem State.enter_xta_parambuf (x : Xst) (v : Byte) : (s.enter x v).xta.parambuf = s.xta.parambuf := rfl
@[simp] theorem State.enter_xta_cTrack (x : Xst) (v : Byte) : (s.enter x v).xta.cTrack = s.xta.cTrack := rfl
@[simp] theorem State.enter_xta_cHead (x : Xst) (v : Byte) : (s.enter x v).xta.cHead = s.xta.cHead := rfl
@[simp] theorem State.enter_xta_cSector (x : Xst) (v : Byte) : (s.enter x v).xta.cSector = s.xta.cSector := rfl
@[simp] theorem State.enter_xta_cLba (x : Xst) (v : Byte) : (s.enter x v).xta.cLba = s.xta.cLba := rfl
@[simp] theorem State.enter_xta_count (x : Xst) (v : Byte) : (s.enter x v).xta.count = s.xta.count := rfl
@[simp] theorem State.enter_xta_pending (x : Xst) (v : Byte) : (s.enter x v).xta.pending = s.xta.pending := rfl
@[simp] theorem State.enter_drv0 (x : Xst) (v : Byte) : (s.enter x v).drv0 = s.drv0 := rfl
@[simp] theorem State.enter_drv1 (x : Xst) (v : Byte) : (s.enter x v).drv1 = s.drv1 := rfl
@[simp] theorem State.enter_disk0 (x : Xst) (v : Byte) : (s.enter x v).disk0 = s.disk0 := rfl
@[simp] theorem State.enter_disk1 (x : Xst) (v : Byte) : (s.enter x v).disk1 = s.disk1 := rfl
@[simp] theorem State.enter_ems (x : Xst) (v : Byte) : (s.enter x v).ems = s.ems := rfl
@[simp] theorem State.enter_ram (x : Xst) (v : Byte) : (s.enter x v).ram = s.ram := rfl
@[simp] theorem State.enter_fatal (x : Xst) (v : Byte) : (s.enter x v).fatal = s.fatal := rfl
@[simp] theorem State.enter_mfault (x : Xst) (v : Byte) : (s.enter x v).mfault = s.mfault := rfl
@[simp] theorem State.enter_refusal (x : Xst) (v : Byte) : (s.enter x v).refusal = s.refusal := rfl
@[simp] theorem State.enter_cfg (x : Xst) (v : Byte) : (s.enter x v).cfg = s.cfg := rfl
@[simp] theorem State.enter_draws (x : Xst) (v : Byte) : (s.enter x v).draws = s.draws := rfl
@[simp] theorem State.enter_inputs (x : Xst) (v : Byte) : (s.enter x v).inputs = s.inputs := rfl
@[simp] theorem State.enter_result (x : Xst) (v : Byte) : (s.enter x v).result = s.result := rfl
@[simp] theorem State.enter_history (x : Xst) (v : Byte) : (s.enter x v).history = s.history := rfl

/-! `advance` -/

@[simp] theorem State.advance_xta_xst : (s.advance).xta.xst = s.xta.xst := rfl
@[simp] theorem State.advance_xta_status : (s.advance).xta.status = s.xta.status := rfl
@[simp] theorem State.advance_xta_sense : (s.advance).xta.sense = s.xta.sense := rfl
@[simp] theorem State.advance_xta_intr : (s.advance).xta.intr = s.xta.intr := rfl
@[simp] theorem State.advance_xta_dcb : (s.advance).xta.dcb = s.xta.dcb := rfl
@[simp] theorem State.advance_xta_comp : (s.advance).xta.comp = s.xta.comp := rfl
@[simp] theorem State.advance_xta_curTgt : (s.advance).xta.curTgt = s.xta.curTgt := rfl
@[simp] theorem State.advance_xta_curIdx : (s.advance).xta.curIdx = s.xta.curIdx + 1 := rfl
@[simp] theorem State.advance_xta_curLen : (s.advance).xta.curLen = s.xta.curLen := rfl
@[simp] theorem State.advance_xta_xferDma : (s.advance).xta.xferDma = s.xta.xferDma := rfl
@[simp] theorem State.advance_xta_secbuf : (s.advance).xta.secbuf = s.xta.secbuf := rfl
@[simp] theorem State.advance_xta_sensebuf : (s.advance).xta.sensebuf = s.xta.sensebuf := rfl
@[simp] theorem State.advance_xta_parambuf : (s.advance).xta.parambuf = s.xta.parambuf := rfl
@[simp] theorem State.advance_xta_cTrack : (s.advance).xta.cTrack = s.xta.cTrack := rfl
@[simp] theorem State.advance_xta_cHead : (s.advance).xta.cHead = s.xta.cHead := rfl
@[simp] theorem State.advance_xta_cSector : (s.advance).xta.cSector = s.xta.cSector := rfl
@[simp] theorem State.advance_xta_cLba : (s.advance).xta.cLba = s.xta.cLba := rfl
@[simp] theorem State.advance_xta_count : (s.advance).xta.count = s.xta.count := rfl
@[simp] theorem State.advance_xta_pending : (s.advance).xta.pending = s.xta.pending := rfl
@[simp] theorem State.advance_drv0 : (s.advance).drv0 = s.drv0 := rfl
@[simp] theorem State.advance_drv1 : (s.advance).drv1 = s.drv1 := rfl
@[simp] theorem State.advance_disk0 : (s.advance).disk0 = s.disk0 := rfl
@[simp] theorem State.advance_disk1 : (s.advance).disk1 = s.disk1 := rfl
@[simp] theorem State.advance_ems : (s.advance).ems = s.ems := rfl
@[simp] theorem State.advance_ram : (s.advance).ram = s.ram := rfl
@[simp] theorem State.advance_fatal : (s.advance).fatal = s.fatal := rfl
@[simp] theorem State.advance_mfault : (s.advance).mfault = s.mfault := rfl
@[simp] theorem State.advance_refusal : (s.advance).refusal = s.refusal := rfl
@[simp] theorem State.advance_cfg : (s.advance).cfg = s.cfg := rfl
@[simp] theorem State.advance_draws : (s.advance).draws = s.draws := rfl
@[simp] theorem State.advance_inputs : (s.advance).inputs = s.inputs := rfl
@[simp] theorem State.advance_result : (s.advance).result = s.result := rfl
@[simp] theorem State.advance_history : (s.advance).history = s.history := rfl

/-! `putSecbuf` -/

@[simp] theorem State.putSecbuf_xta_xst (b : Byte) : (s.putSecbuf b).xta.xst = s.xta.xst := rfl
@[simp] theorem State.putSecbuf_xta_status (b : Byte) : (s.putSecbuf b).xta.status = s.xta.status := rfl
@[simp] theorem State.putSecbuf_xta_sense (b : Byte) : (s.putSecbuf b).xta.sense = s.xta.sense := rfl
@[simp] theorem State.putSecbuf_xta_intr (b : Byte) : (s.putSecbuf b).xta.intr = s.xta.intr := rfl
@[simp] theorem State.putSecbuf_xta_dcb (b : Byte) : (s.putSecbuf b).xta.dcb = s.xta.dcb := rfl
@[simp] theorem State.putSecbuf_xta_comp (b : Byte) : (s.putSecbuf b).xta.comp = s.xta.comp := rfl
@[simp] theorem State.putSecbuf_xta_curTgt (b : Byte) : (s.putSecbuf b).xta.curTgt = s.xta.curTgt := rfl
@[simp] theorem State.putSecbuf_xta_curIdx (b : Byte) : (s.putSecbuf b).xta.curIdx = s.xta.curIdx := rfl
@[simp] theorem State.putSecbuf_xta_curLen (b : Byte) : (s.putSecbuf b).xta.curLen = s.xta.curLen := rfl
@[simp] theorem State.putSecbuf_xta_xferDma (b : Byte) : (s.putSecbuf b).xta.xferDma = s.xta.xferDma := rfl
@[simp] theorem State.putSecbuf_xta_secbuf (b : Byte) : (s.putSecbuf b).xta.secbuf = s.xta.secbuf.setIfInBounds s.xta.curIdx (some b) := rfl
@[simp] theorem State.putSecbuf_xta_sensebuf (b : Byte) : (s.putSecbuf b).xta.sensebuf = s.xta.sensebuf := rfl
@[simp] theorem State.putSecbuf_xta_parambuf (b : Byte) : (s.putSecbuf b).xta.parambuf = s.xta.parambuf := rfl
@[simp] theorem State.putSecbuf_xta_cTrack (b : Byte) : (s.putSecbuf b).xta.cTrack = s.xta.cTrack := rfl
@[simp] theorem State.putSecbuf_xta_cHead (b : Byte) : (s.putSecbuf b).xta.cHead = s.xta.cHead := rfl
@[simp] theorem State.putSecbuf_xta_cSector (b : Byte) : (s.putSecbuf b).xta.cSector = s.xta.cSector := rfl
@[simp] theorem State.putSecbuf_xta_cLba (b : Byte) : (s.putSecbuf b).xta.cLba = s.xta.cLba := rfl
@[simp] theorem State.putSecbuf_xta_count (b : Byte) : (s.putSecbuf b).xta.count = s.xta.count := rfl
@[simp] theorem State.putSecbuf_xta_pending (b : Byte) : (s.putSecbuf b).xta.pending = s.xta.pending := rfl
@[simp] theorem State.putSecbuf_drv0 (b : Byte) : (s.putSecbuf b).drv0 = s.drv0 := rfl
@[simp] theorem State.putSecbuf_drv1 (b : Byte) : (s.putSecbuf b).drv1 = s.drv1 := rfl
@[simp] theorem State.putSecbuf_disk0 (b : Byte) : (s.putSecbuf b).disk0 = s.disk0 := rfl
@[simp] theorem State.putSecbuf_disk1 (b : Byte) : (s.putSecbuf b).disk1 = s.disk1 := rfl
@[simp] theorem State.putSecbuf_ems (b : Byte) : (s.putSecbuf b).ems = s.ems := rfl
@[simp] theorem State.putSecbuf_ram (b : Byte) : (s.putSecbuf b).ram = s.ram := rfl
@[simp] theorem State.putSecbuf_fatal (b : Byte) : (s.putSecbuf b).fatal = s.fatal := rfl
@[simp] theorem State.putSecbuf_mfault (b : Byte) : (s.putSecbuf b).mfault = s.mfault := rfl
@[simp] theorem State.putSecbuf_refusal (b : Byte) : (s.putSecbuf b).refusal = s.refusal := rfl
@[simp] theorem State.putSecbuf_cfg (b : Byte) : (s.putSecbuf b).cfg = s.cfg := rfl
@[simp] theorem State.putSecbuf_draws (b : Byte) : (s.putSecbuf b).draws = s.draws := rfl
@[simp] theorem State.putSecbuf_inputs (b : Byte) : (s.putSecbuf b).inputs = s.inputs := rfl
@[simp] theorem State.putSecbuf_result (b : Byte) : (s.putSecbuf b).result = s.result := rfl
@[simp] theorem State.putSecbuf_history (b : Byte) : (s.putSecbuf b).history = s.history := rfl

/-! `await` -/

@[simp] theorem State.await_xta_xst (x : Xst) : (s.await x).xta.xst = x := rfl
@[simp] theorem State.await_xta_status (x : Xst) : (s.await x).xta.status = Status.executing := rfl
@[simp] theorem State.await_xta_sense (x : Xst) : (s.await x).xta.sense = s.xta.sense := rfl
@[simp] theorem State.await_xta_intr (x : Xst) : (s.await x).xta.intr = s.xta.intr := rfl
@[simp] theorem State.await_xta_dcb (x : Xst) : (s.await x).xta.dcb = s.xta.dcb := rfl
@[simp] theorem State.await_xta_comp (x : Xst) : (s.await x).xta.comp = s.xta.comp := rfl
@[simp] theorem State.await_xta_curTgt (x : Xst) : (s.await x).xta.curTgt = s.xta.curTgt := rfl
@[simp] theorem State.await_xta_curIdx (x : Xst) : (s.await x).xta.curIdx = s.xta.curIdx := rfl
@[simp] theorem State.await_xta_curLen (x : Xst) : (s.await x).xta.curLen = s.xta.curLen := rfl
@[simp] theorem State.await_xta_xferDma (x : Xst) : (s.await x).xta.xferDma = s.xta.xferDma := rfl
@[simp] theorem State.await_xta_secbuf (x : Xst) : (s.await x).xta.secbuf = s.xta.secbuf := rfl
@[simp] theorem State.await_xta_sensebuf (x : Xst) : (s.await x).xta.sensebuf = s.xta.sensebuf := rfl
@[simp] theorem State.await_xta_parambuf (x : Xst) : (s.await x).xta.parambuf = s.xta.parambuf := rfl
@[simp] theorem State.await_xta_cTrack (x : Xst) : (s.await x).xta.cTrack = s.xta.cTrack := rfl
@[simp] theorem State.await_xta_cHead (x : Xst) : (s.await x).xta.cHead = s.xta.cHead := rfl
@[simp] theorem State.await_xta_cSector (x : Xst) : (s.await x).xta.cSector = s.xta.cSector := rfl
@[simp] theorem State.await_xta_cLba (x : Xst) : (s.await x).xta.cLba = s.xta.cLba := rfl
@[simp] theorem State.await_xta_count (x : Xst) : (s.await x).xta.count = s.xta.count := rfl
@[simp] theorem State.await_xta_pending (x : Xst) : (s.await x).xta.pending = true := rfl
@[simp] theorem State.await_drv0 (x : Xst) : (s.await x).drv0 = s.drv0 := rfl
@[simp] theorem State.await_drv1 (x : Xst) : (s.await x).drv1 = s.drv1 := rfl
@[simp] theorem State.await_disk0 (x : Xst) : (s.await x).disk0 = s.disk0 := rfl
@[simp] theorem State.await_disk1 (x : Xst) : (s.await x).disk1 = s.disk1 := rfl
@[simp] theorem State.await_ems (x : Xst) : (s.await x).ems = s.ems := rfl
@[simp] theorem State.await_ram (x : Xst) : (s.await x).ram = s.ram := rfl
@[simp] theorem State.await_fatal (x : Xst) : (s.await x).fatal = s.fatal := rfl
@[simp] theorem State.await_mfault (x : Xst) : (s.await x).mfault = s.mfault := rfl
@[simp] theorem State.await_refusal (x : Xst) : (s.await x).refusal = s.refusal := rfl
@[simp] theorem State.await_cfg (x : Xst) : (s.await x).cfg = s.cfg := rfl
@[simp] theorem State.await_draws (x : Xst) : (s.await x).draws = s.draws := rfl
@[simp] theorem State.await_inputs (x : Xst) : (s.await x).inputs = s.inputs := rfl
@[simp] theorem State.await_result (x : Xst) : (s.await x).result = s.result := rfl
@[simp] theorem State.await_history (x : Xst) : (s.await x).history = s.history := rfl

/-! `loadChs` -/

@[simp] theorem State.loadChs_xta_xst : (s.loadChs).xta.xst = s.xta.xst := rfl
@[simp] theorem State.loadChs_xta_status : (s.loadChs).xta.status = s.xta.status := rfl
@[simp] theorem State.loadChs_xta_sense : (s.loadChs).xta.sense = s.xta.sense := rfl
@[simp] theorem State.loadChs_xta_intr : (s.loadChs).xta.intr = s.xta.intr := rfl
@[simp] theorem State.loadChs_xta_dcb : (s.loadChs).xta.dcb = s.xta.dcb := rfl
@[simp] theorem State.loadChs_xta_comp : (s.loadChs).xta.comp = s.xta.comp := rfl
@[simp] theorem State.loadChs_xta_curTgt : (s.loadChs).xta.curTgt = s.xta.curTgt := rfl
@[simp] theorem State.loadChs_xta_curIdx : (s.loadChs).xta.curIdx = s.xta.curIdx := rfl
@[simp] theorem State.loadChs_xta_curLen : (s.loadChs).xta.curLen = s.xta.curLen := rfl
@[simp] theorem State.loadChs_xta_xferDma : (s.loadChs).xta.xferDma = s.xta.xferDma := rfl
@[simp] theorem State.loadChs_xta_secbuf : (s.loadChs).xta.secbuf = s.xta.secbuf := rfl
@[simp] theorem State.loadChs_xta_sensebuf : (s.loadChs).xta.sensebuf = s.xta.sensebuf := rfl
@[simp] theorem State.loadChs_xta_parambuf : (s.loadChs).xta.parambuf = s.xta.parambuf := rfl
@[simp] theorem State.loadChs_xta_cTrack : (s.loadChs).xta.cTrack = s.xta.cyl := rfl
@[simp] theorem State.loadChs_xta_cHead : (s.loadChs).xta.cHead = s.xta.head := rfl
@[simp] theorem State.loadChs_xta_cSector : (s.loadChs).xta.cSector = s.xta.sector := rfl
@[simp] theorem State.loadChs_xta_cLba : (s.loadChs).xta.cLba = s.xta.cLba := rfl
@[simp] theorem State.loadChs_xta_count : (s.loadChs).xta.count = s.xta.cnt := rfl
@[simp] theorem State.loadChs_xta_pending : (s.loadChs).xta.pending = s.xta.pending := rfl
@[simp] theorem State.loadChs_drv0 : (s.loadChs).drv0 = s.drv0 := rfl
@[simp] theorem State.loadChs_drv1 : (s.loadChs).drv1 = s.drv1 := rfl
@[simp] theorem State.loadChs_disk0 : (s.loadChs).disk0 = s.disk0 := rfl
@[simp] theorem State.loadChs_disk1 : (s.loadChs).disk1 = s.disk1 := rfl
@[simp] theorem State.loadChs_ems : (s.loadChs).ems = s.ems := rfl
@[simp] theorem State.loadChs_ram : (s.loadChs).ram = s.ram := rfl
@[simp] theorem State.loadChs_fatal : (s.loadChs).fatal = s.fatal := rfl
@[simp] theorem State.loadChs_mfault : (s.loadChs).mfault = s.mfault := rfl
@[simp] theorem State.loadChs_refusal : (s.loadChs).refusal = s.refusal := rfl
@[simp] theorem State.loadChs_cfg : (s.loadChs).cfg = s.cfg := rfl
@[simp] theorem State.loadChs_draws : (s.loadChs).draws = s.draws := rfl
@[simp] theorem State.loadChs_inputs : (s.loadChs).inputs = s.inputs := rfl
@[simp] theorem State.loadChs_result : (s.loadChs).result = s.result := rfl
@[simp] theorem State.loadChs_history : (s.loadChs).history = s.history := rfl

/-! `withInputs` -/

@[simp] theorem State.withInputs_xta (rest : List Input) : (s.withInputs rest).xta = s.xta := rfl
@[simp] theorem State.withInputs_drv0 (rest : List Input) : (s.withInputs rest).drv0 = s.drv0 := rfl
@[simp] theorem State.withInputs_drv1 (rest : List Input) : (s.withInputs rest).drv1 = s.drv1 := rfl
@[simp] theorem State.withInputs_disk0 (rest : List Input) : (s.withInputs rest).disk0 = s.disk0 := rfl
@[simp] theorem State.withInputs_disk1 (rest : List Input) : (s.withInputs rest).disk1 = s.disk1 := rfl
@[simp] theorem State.withInputs_ems (rest : List Input) : (s.withInputs rest).ems = s.ems := rfl
@[simp] theorem State.withInputs_ram (rest : List Input) : (s.withInputs rest).ram = s.ram := rfl
@[simp] theorem State.withInputs_fatal (rest : List Input) : (s.withInputs rest).fatal = s.fatal := rfl
@[simp] theorem State.withInputs_mfault (rest : List Input) : (s.withInputs rest).mfault = s.mfault := rfl
@[simp] theorem State.withInputs_refusal (rest : List Input) : (s.withInputs rest).refusal = s.refusal := rfl
@[simp] theorem State.withInputs_cfg (rest : List Input) : (s.withInputs rest).cfg = s.cfg := rfl
@[simp] theorem State.withInputs_draws (rest : List Input) : (s.withInputs rest).draws = s.draws := rfl
@[simp] theorem State.withInputs_inputs (rest : List Input) : (s.withInputs rest).inputs = rest := rfl
@[simp] theorem State.withInputs_result (rest : List Input) : (s.withInputs rest).result = s.result := rfl
@[simp] theorem State.withInputs_history (rest : List Input) : (s.withInputs rest).history = s.history := rfl

/-! `configureEms` -/

@[simp] theorem State.configureEms_xta (v : Byte) : (s.configureEms v).xta = s.xta := rfl
@[simp] theorem State.configureEms_drv0 (v : Byte) : (s.configureEms v).drv0 = s.drv0 := rfl
@[simp] theorem State.configureEms_drv1 (v : Byte) : (s.configureEms v).drv1 = s.drv1 := rfl
@[simp] theorem State.configureEms_disk0 (v : Byte) : (s.configureEms v).disk0 = s.disk0 := rfl
@[simp] theorem State.configureEms_disk1 (v : Byte) : (s.configureEms v).disk1 = s.disk1 := rfl
@[simp] theorem State.configureEms_ems (v : Byte) : (s.configureEms v).ems = Ems.configured s.cfg v s.ems.chipIndex := rfl
@[simp] theorem State.configureEms_ram (v : Byte) : (s.configureEms v).ram = s.ram := rfl
@[simp] theorem State.configureEms_fatal (v : Byte) : (s.configureEms v).fatal = s.fatal := rfl
@[simp] theorem State.configureEms_mfault (v : Byte) : (s.configureEms v).mfault = s.mfault := rfl
@[simp] theorem State.configureEms_refusal (v : Byte) : (s.configureEms v).refusal = s.refusal := rfl
@[simp] theorem State.configureEms_cfg (v : Byte) : (s.configureEms v).cfg = s.cfg := rfl
@[simp] theorem State.configureEms_draws (v : Byte) : (s.configureEms v).draws = s.draws := rfl
@[simp] theorem State.configureEms_inputs (v : Byte) : (s.configureEms v).inputs = s.inputs := rfl
@[simp] theorem State.configureEms_result (v : Byte) : (s.configureEms v).result = s.result := rfl
@[simp] theorem State.configureEms_history (v : Byte) : (s.configureEms v).history = s.history := rfl

/-! `writePage` -/

@[simp] theorem State.writePage_xta (slot : BitVec 2) (v : Byte) : (s.writePage slot v).xta = s.xta := rfl
@[simp] theorem State.writePage_drv0 (slot : BitVec 2) (v : Byte) : (s.writePage slot v).drv0 = s.drv0 := rfl
@[simp] theorem State.writePage_drv1 (slot : BitVec 2) (v : Byte) : (s.writePage slot v).drv1 = s.drv1 := rfl
@[simp] theorem State.writePage_disk0 (slot : BitVec 2) (v : Byte) : (s.writePage slot v).disk0 = s.disk0 := rfl
@[simp] theorem State.writePage_disk1 (slot : BitVec 2) (v : Byte) : (s.writePage slot v).disk1 = s.disk1 := rfl
@[simp] theorem State.writePage_ram (slot : BitVec 2) (v : Byte) : (s.writePage slot v).ram = s.ram := rfl
@[simp] theorem State.writePage_fatal (slot : BitVec 2) (v : Byte) : (s.writePage slot v).fatal = s.fatal := rfl
@[simp] theorem State.writePage_mfault (slot : BitVec 2) (v : Byte) : (s.writePage slot v).mfault = s.mfault := rfl
@[simp] theorem State.writePage_refusal (slot : BitVec 2) (v : Byte) : (s.writePage slot v).refusal = s.refusal := rfl
@[simp] theorem State.writePage_cfg (slot : BitVec 2) (v : Byte) : (s.writePage slot v).cfg = s.cfg := rfl
@[simp] theorem State.writePage_draws (slot : BitVec 2) (v : Byte) : (s.writePage slot v).draws = s.draws := rfl
@[simp] theorem State.writePage_inputs (slot : BitVec 2) (v : Byte) : (s.writePage slot v).inputs = s.inputs := rfl
@[simp] theorem State.writePage_result (slot : BitVec 2) (v : Byte) : (s.writePage slot v).result = s.result := rfl
@[simp] theorem State.writePage_history (slot : BitVec 2) (v : Byte) : (s.writePage slot v).history = s.history := rfl

/-! `selectStrobe` -/

@[simp] theorem State.selectStrobe_xta_xst : (s.selectStrobe).xta.xst = .rdata := rfl
@[simp] theorem State.selectStrobe_xta_status : (s.selectStrobe).xta.status = Status.reception := rfl
@[simp] theorem State.selectStrobe_xta_sense : (s.selectStrobe).xta.sense = s.xta.sense := rfl
@[simp] theorem State.selectStrobe_xta_intr : (s.selectStrobe).xta.intr = s.xta.intr := rfl
@[simp] theorem State.selectStrobe_xta_dcb : (s.selectStrobe).xta.dcb = s.xta.dcb := rfl
@[simp] theorem State.selectStrobe_xta_comp : (s.selectStrobe).xta.comp = s.xta.comp := rfl
@[simp] theorem State.selectStrobe_xta_curTgt : (s.selectStrobe).xta.curTgt = .dcbBuf := rfl
@[simp] theorem State.selectStrobe_xta_curIdx : (s.selectStrobe).xta.curIdx = 0 := rfl
@[simp] theorem State.selectStrobe_xta_curLen : (s.selectStrobe).xta.curLen = 6 := rfl
@[simp] theorem State.selectStrobe_xta_xferDma : (s.selectStrobe).xta.xferDma = false := rfl
@[simp] theorem State.selectStrobe_xta_secbuf : (s.selectStrobe).xta.secbuf = s.xta.secbuf := rfl
@[simp] theorem State.selectStrobe_xta_sensebuf : (s.selectStrobe).xta.sensebuf = s.xta.sensebuf := rfl
@[simp] theorem State.selectStrobe_xta_parambuf : (s.selectStrobe).xta.parambuf = s.xta.parambuf := rfl
@[simp] theorem State.selectStrobe_xta_cTrack : (s.selectStrobe).xta.cTrack = s.xta.cTrack := rfl
@[simp] theorem State.selectStrobe_xta_cHead : (s.selectStrobe).xta.cHead = s.xta.cHead := rfl
@[simp] theorem State.selectStrobe_xta_cSector : (s.selectStrobe).xta.cSector = s.xta.cSector := rfl
@[simp] theorem State.selectStrobe_xta_cLba : (s.selectStrobe).xta.cLba = s.xta.cLba := rfl
@[simp] theorem State.selectStrobe_xta_count : (s.selectStrobe).xta.count = s.xta.count := rfl
@[simp] theorem State.selectStrobe_xta_pending : (s.selectStrobe).xta.pending = false := rfl
@[simp] theorem State.selectStrobe_drv0 : (s.selectStrobe).drv0 = s.drv0 := rfl
@[simp] theorem State.selectStrobe_drv1 : (s.selectStrobe).drv1 = s.drv1 := rfl
@[simp] theorem State.selectStrobe_disk0 : (s.selectStrobe).disk0 = s.disk0 := rfl
@[simp] theorem State.selectStrobe_disk1 : (s.selectStrobe).disk1 = s.disk1 := rfl
@[simp] theorem State.selectStrobe_ems : (s.selectStrobe).ems = s.ems := rfl
@[simp] theorem State.selectStrobe_ram : (s.selectStrobe).ram = s.ram := rfl
@[simp] theorem State.selectStrobe_fatal : (s.selectStrobe).fatal = s.fatal := rfl
@[simp] theorem State.selectStrobe_mfault : (s.selectStrobe).mfault = s.mfault := rfl
@[simp] theorem State.selectStrobe_refusal : (s.selectStrobe).refusal = s.refusal := rfl
@[simp] theorem State.selectStrobe_cfg : (s.selectStrobe).cfg = s.cfg := rfl
@[simp] theorem State.selectStrobe_draws : (s.selectStrobe).draws = s.draws := rfl
@[simp] theorem State.selectStrobe_inputs : (s.selectStrobe).inputs = s.inputs := rfl
@[simp] theorem State.selectStrobe_result : (s.selectStrobe).result = s.result := rfl
@[simp] theorem State.selectStrobe_history : (s.selectStrobe).history = s.history := rfl

/-! `dispatchEntry` -/

@[simp] theorem State.dispatchEntry_xta_xst : (s.dispatchEntry).xta.xst = .idle := rfl
@[simp] theorem State.dispatchEntry_xta_status : (s.dispatchEntry).xta.status = Status.executing := rfl
@[simp] theorem State.dispatchEntry_xta_sense : (s.dispatchEntry).xta.sense = s.xta.sense := rfl
@[simp] theorem State.dispatchEntry_xta_intr : (s.dispatchEntry).xta.intr = s.xta.intr := rfl
@[simp] theorem State.dispatchEntry_xta_dcb : (s.dispatchEntry).xta.dcb = s.xta.dcb := rfl
@[simp] theorem State.dispatchEntry_xta_comp : (s.dispatchEntry).xta.comp = completionByte s.cfg s.xta.drvsel false := rfl
@[simp] theorem State.dispatchEntry_xta_curTgt : (s.dispatchEntry).xta.curTgt = .none := rfl
@[simp] theorem State.dispatchEntry_xta_curIdx : (s.dispatchEntry).xta.curIdx = 0 := rfl
@[simp] theorem State.dispatchEntry_xta_curLen : (s.dispatchEntry).xta.curLen = 0 := rfl
@[simp] theorem State.dispatchEntry_xta_xferDma : (s.dispatchEntry).xta.xferDma = false := rfl
@[simp] theorem State.dispatchEntry_xta_secbuf : (s.dispatchEntry).xta.secbuf = s.xta.secbuf := rfl
@[simp] theorem State.dispatchEntry_xta_sensebuf : (s.dispatchEntry).xta.sensebuf = s.xta.sensebuf := rfl
@[simp] theorem State.dispatchEntry_xta_parambuf : (s.dispatchEntry).xta.parambuf = s.xta.parambuf := rfl
@[simp] theorem State.dispatchEntry_xta_cTrack : (s.dispatchEntry).xta.cTrack = s.xta.cTrack := rfl
@[simp] theorem State.dispatchEntry_xta_cHead : (s.dispatchEntry).xta.cHead = s.xta.cHead := rfl
@[simp] theorem State.dispatchEntry_xta_cSector : (s.dispatchEntry).xta.cSector = s.xta.cSector := rfl
@[simp] theorem State.dispatchEntry_xta_cLba : (s.dispatchEntry).xta.cLba = s.xta.cLba := rfl
@[simp] theorem State.dispatchEntry_xta_count : (s.dispatchEntry).xta.count = s.xta.count := rfl
@[simp] theorem State.dispatchEntry_xta_pending : (s.dispatchEntry).xta.pending = s.xta.pending := rfl
@[simp] theorem State.dispatchEntry_drv0 : (s.dispatchEntry).drv0 = s.drv0 := rfl
@[simp] theorem State.dispatchEntry_drv1 : (s.dispatchEntry).drv1 = s.drv1 := rfl
@[simp] theorem State.dispatchEntry_disk0 : (s.dispatchEntry).disk0 = s.disk0 := rfl
@[simp] theorem State.dispatchEntry_disk1 : (s.dispatchEntry).disk1 = s.disk1 := rfl
@[simp] theorem State.dispatchEntry_ems : (s.dispatchEntry).ems = s.ems := rfl
@[simp] theorem State.dispatchEntry_ram : (s.dispatchEntry).ram = s.ram := rfl
@[simp] theorem State.dispatchEntry_fatal : (s.dispatchEntry).fatal = s.fatal := rfl
@[simp] theorem State.dispatchEntry_mfault : (s.dispatchEntry).mfault = s.mfault := rfl
@[simp] theorem State.dispatchEntry_refusal : (s.dispatchEntry).refusal = s.refusal := rfl
@[simp] theorem State.dispatchEntry_cfg : (s.dispatchEntry).cfg = s.cfg := rfl
@[simp] theorem State.dispatchEntry_draws : (s.dispatchEntry).draws = s.draws := rfl
@[simp] theorem State.dispatchEntry_inputs : (s.dispatchEntry).inputs = s.inputs := rfl
@[simp] theorem State.dispatchEntry_result : (s.dispatchEntry).result = s.result := rfl
@[simp] theorem State.dispatchEntry_history : (s.dispatchEntry).history = s.history := rfl

/-! `protocolViolation` -/

@[simp] theorem State.protocolViolation_xta_xst (dir : Dir) : (s.protocolViolation dir).xta.xst = s.xta.xst := rfl
@[simp] theorem State.protocolViolation_xta_status (dir : Dir) : (s.protocolViolation dir).xta.status = s.xta.status := rfl
@[simp] theorem State.protocolViolation_xta_sense (dir : Dir) : (s.protocolViolation dir).xta.sense = s.cfg.senseCodes.illCmd := rfl
@[simp] theorem State.protocolViolation_xta_intr (dir : Dir) : (s.protocolViolation dir).xta.intr = s.xta.intr := rfl
@[simp] theorem State.protocolViolation_xta_dcb (dir : Dir) : (s.protocolViolation dir).xta.dcb = s.xta.dcb := rfl
@[simp] theorem State.protocolViolation_xta_comp (dir : Dir) : (s.protocolViolation dir).xta.comp = s.xta.comp := rfl
@[simp] theorem State.protocolViolation_xta_curTgt (dir : Dir) : (s.protocolViolation dir).xta.curTgt = s.xta.curTgt := rfl
@[simp] theorem State.protocolViolation_xta_curIdx (dir : Dir) : (s.protocolViolation dir).xta.curIdx = s.xta.curIdx := rfl
@[simp] theorem State.protocolViolation_xta_curLen (dir : Dir) : (s.protocolViolation dir).xta.curLen = s.xta.curLen := rfl
@[simp] theorem State.protocolViolation_xta_xferDma (dir : Dir) : (s.protocolViolation dir).xta.xferDma = s.xta.xferDma := rfl
@[simp] theorem State.protocolViolation_xta_secbuf (dir : Dir) : (s.protocolViolation dir).xta.secbuf = s.xta.secbuf := rfl
@[simp] theorem State.protocolViolation_xta_sensebuf (dir : Dir) : (s.protocolViolation dir).xta.sensebuf = s.xta.sensebuf := rfl
@[simp] theorem State.protocolViolation_xta_parambuf (dir : Dir) : (s.protocolViolation dir).xta.parambuf = s.xta.parambuf := rfl
@[simp] theorem State.protocolViolation_xta_cTrack (dir : Dir) : (s.protocolViolation dir).xta.cTrack = s.xta.cTrack := rfl
@[simp] theorem State.protocolViolation_xta_cHead (dir : Dir) : (s.protocolViolation dir).xta.cHead = s.xta.cHead := rfl
@[simp] theorem State.protocolViolation_xta_cSector (dir : Dir) : (s.protocolViolation dir).xta.cSector = s.xta.cSector := rfl
@[simp] theorem State.protocolViolation_xta_cLba (dir : Dir) : (s.protocolViolation dir).xta.cLba = s.xta.cLba := rfl
@[simp] theorem State.protocolViolation_xta_count (dir : Dir) : (s.protocolViolation dir).xta.count = s.xta.count := rfl
@[simp] theorem State.protocolViolation_xta_pending (dir : Dir) : (s.protocolViolation dir).xta.pending = s.xta.pending := rfl
@[simp] theorem State.protocolViolation_drv0 (dir : Dir) : (s.protocolViolation dir).drv0 = s.drv0 := rfl
@[simp] theorem State.protocolViolation_drv1 (dir : Dir) : (s.protocolViolation dir).drv1 = s.drv1 := rfl
@[simp] theorem State.protocolViolation_disk0 (dir : Dir) : (s.protocolViolation dir).disk0 = s.disk0 := rfl
@[simp] theorem State.protocolViolation_disk1 (dir : Dir) : (s.protocolViolation dir).disk1 = s.disk1 := rfl
@[simp] theorem State.protocolViolation_ems (dir : Dir) : (s.protocolViolation dir).ems = s.ems := rfl
@[simp] theorem State.protocolViolation_ram (dir : Dir) : (s.protocolViolation dir).ram = s.ram := rfl
@[simp] theorem State.protocolViolation_fatal (dir : Dir) : (s.protocolViolation dir).fatal = s.fatal := rfl
@[simp] theorem State.protocolViolation_mfault (dir : Dir) : (s.protocolViolation dir).mfault = s.mfault := rfl
@[simp] theorem State.protocolViolation_refusal (dir : Dir) : (s.protocolViolation dir).refusal = s.refusal := rfl
@[simp] theorem State.protocolViolation_cfg (dir : Dir) : (s.protocolViolation dir).cfg = s.cfg := rfl
@[simp] theorem State.protocolViolation_draws (dir : Dir) : (s.protocolViolation dir).draws = s.draws := rfl
@[simp] theorem State.protocolViolation_inputs (dir : Dir) : (s.protocolViolation dir).inputs = s.inputs := rfl
@[simp] theorem State.protocolViolation_result (dir : Dir) : (s.protocolViolation dir).result = s.result := rfl

/-! `completionRead` -/

@[simp] theorem State.completionRead_xta_xst : (s.completionRead).xta.xst = .idle := rfl
@[simp] theorem State.completionRead_xta_status : (s.completionRead).xta.status = Status.idle := rfl
@[simp] theorem State.completionRead_xta_sense : (s.completionRead).xta.sense = s.xta.sense := rfl
@[simp] theorem State.completionRead_xta_intr : (s.completionRead).xta.intr = s.xta.intr := rfl
@[simp] theorem State.completionRead_xta_dcb : (s.completionRead).xta.dcb = s.xta.dcb := rfl
@[simp] theorem State.completionRead_xta_comp : (s.completionRead).xta.comp = s.xta.comp := rfl
@[simp] theorem State.completionRead_xta_curTgt : (s.completionRead).xta.curTgt = .none := rfl
@[simp] theorem State.completionRead_xta_curIdx : (s.completionRead).xta.curIdx = 0 := rfl
@[simp] theorem State.completionRead_xta_curLen : (s.completionRead).xta.curLen = 0 := rfl
@[simp] theorem State.completionRead_xta_xferDma : (s.completionRead).xta.xferDma = false := rfl
@[simp] theorem State.completionRead_xta_secbuf : (s.completionRead).xta.secbuf = s.xta.secbuf := rfl
@[simp] theorem State.completionRead_xta_sensebuf : (s.completionRead).xta.sensebuf = s.xta.sensebuf := rfl
@[simp] theorem State.completionRead_xta_parambuf : (s.completionRead).xta.parambuf = s.xta.parambuf := rfl
@[simp] theorem State.completionRead_xta_cTrack : (s.completionRead).xta.cTrack = s.xta.cTrack := rfl
@[simp] theorem State.completionRead_xta_cHead : (s.completionRead).xta.cHead = s.xta.cHead := rfl
@[simp] theorem State.completionRead_xta_cSector : (s.completionRead).xta.cSector = s.xta.cSector := rfl
@[simp] theorem State.completionRead_xta_cLba : (s.completionRead).xta.cLba = s.xta.cLba := rfl
@[simp] theorem State.completionRead_xta_count : (s.completionRead).xta.count = s.xta.count := rfl
@[simp] theorem State.completionRead_xta_pending : (s.completionRead).xta.pending = s.xta.pending := rfl
@[simp] theorem State.completionRead_drv0 : (s.completionRead).drv0 = s.drv0 := rfl
@[simp] theorem State.completionRead_drv1 : (s.completionRead).drv1 = s.drv1 := rfl
@[simp] theorem State.completionRead_disk0 : (s.completionRead).disk0 = s.disk0 := rfl
@[simp] theorem State.completionRead_disk1 : (s.completionRead).disk1 = s.disk1 := rfl
@[simp] theorem State.completionRead_ems : (s.completionRead).ems = s.ems := rfl
@[simp] theorem State.completionRead_ram : (s.completionRead).ram = s.ram := rfl
@[simp] theorem State.completionRead_fatal : (s.completionRead).fatal = s.fatal := rfl
@[simp] theorem State.completionRead_mfault : (s.completionRead).mfault = s.mfault := rfl
@[simp] theorem State.completionRead_refusal : (s.completionRead).refusal = s.refusal := rfl
@[simp] theorem State.completionRead_cfg : (s.completionRead).cfg = s.cfg := rfl
@[simp] theorem State.completionRead_draws : (s.completionRead).draws = s.draws := rfl
@[simp] theorem State.completionRead_inputs : (s.completionRead).inputs = s.inputs := rfl
@[simp] theorem State.completionRead_result : (s.completionRead).result = [s.xta.comp] := rfl
@[simp] theorem State.completionRead_history : (s.completionRead).history = s.history := rfl

/-! `complete` -/

@[simp] theorem State.complete_xta_xst : (s.complete).xta.xst = .compl := by
  simp only [State.complete]; repeat' split
  all_goals rfl
@[simp] theorem State.complete_xta_sense : (s.complete).xta.sense = s.xta.sense := by
  simp only [State.complete]; repeat' split
  all_goals rfl
@[simp] theorem State.complete_xta_intr : (s.complete).xta.intr = s.xta.intr := by
  simp only [State.complete]; repeat' split
  all_goals rfl
@[simp] theorem State.complete_xta_dcb : (s.complete).xta.dcb = s.xta.dcb := by
  simp only [State.complete]; repeat' split
  all_goals rfl
@[simp] theorem State.complete_xta_comp : (s.complete).xta.comp = s.xta.comp := by
  simp only [State.complete]; repeat' split
  all_goals rfl
@[simp] theorem State.complete_xta_curTgt : (s.complete).xta.curTgt = .none := by
  simp only [State.complete]; repeat' split
  all_goals rfl
@[simp] theorem State.complete_xta_curIdx : (s.complete).xta.curIdx = 0 := by
  simp only [State.complete]; repeat' split
  all_goals rfl
@[simp] theorem State.complete_xta_curLen : (s.complete).xta.curLen = 0 := by
  simp only [State.complete]; repeat' split
  all_goals rfl
@[simp] theorem State.complete_xta_xferDma : (s.complete).xta.xferDma = false := by
  simp only [State.complete]; repeat' split
  all_goals rfl
@[simp] theorem State.complete_xta_secbuf : (s.complete).xta.secbuf = s.xta.secbuf := by
  simp only [State.complete]; repeat' split
  all_goals rfl
@[simp] theorem State.complete_xta_sensebuf : (s.complete).xta.sensebuf = s.xta.sensebuf := by
  simp only [State.complete]; repeat' split
  all_goals rfl
@[simp] theorem State.complete_xta_parambuf : (s.complete).xta.parambuf = s.xta.parambuf := by
  simp only [State.complete]; repeat' split
  all_goals rfl
@[simp] theorem State.complete_xta_cTrack : (s.complete).xta.cTrack = s.xta.cTrack := by
  simp only [State.complete]; repeat' split
  all_goals rfl
@[simp] theorem State.complete_xta_cHead : (s.complete).xta.cHead = s.xta.cHead := by
  simp only [State.complete]; repeat' split
  all_goals rfl
@[simp] theorem State.complete_xta_cSector : (s.complete).xta.cSector = s.xta.cSector := by
  simp only [State.complete]; repeat' split
  all_goals rfl
@[simp] theorem State.complete_xta_cLba : (s.complete).xta.cLba = s.xta.cLba := by
  simp only [State.complete]; repeat' split
  all_goals rfl
@[simp] theorem State.complete_xta_count : (s.complete).xta.count = s.xta.count := by
  simp only [State.complete]; repeat' split
  all_goals rfl
@[simp] theorem State.complete_xta_pending : (s.complete).xta.pending = false := by
  simp only [State.complete]; repeat' split
  all_goals rfl
@[simp] theorem State.complete_drv0 : (s.complete).drv0 = s.drv0 := by
  simp only [State.complete]; repeat' split
  all_goals rfl
@[simp] theorem State.complete_drv1 : (s.complete).drv1 = s.drv1 := by
  simp only [State.complete]; repeat' split
  all_goals rfl
@[simp] theorem State.complete_disk0 : (s.complete).disk0 = s.disk0 := by
  simp only [State.complete]; repeat' split
  all_goals rfl
@[simp] theorem State.complete_disk1 : (s.complete).disk1 = s.disk1 := by
  simp only [State.complete]; repeat' split
  all_goals rfl
@[simp] theorem State.complete_ems : (s.complete).ems = s.ems := by
  simp only [State.complete]; repeat' split
  all_goals rfl
@[simp] theorem State.complete_ram : (s.complete).ram = s.ram := by
  simp only [State.complete]; repeat' split
  all_goals rfl
@[simp] theorem State.complete_fatal : (s.complete).fatal = s.fatal := by
  simp only [State.complete]; repeat' split
  all_goals rfl
@[simp] theorem State.complete_mfault : (s.complete).mfault = s.mfault := by
  simp only [State.complete]; repeat' split
  all_goals rfl
@[simp] theorem State.complete_refusal : (s.complete).refusal = s.refusal := by
  simp only [State.complete]; repeat' split
  all_goals rfl
@[simp] theorem State.complete_cfg : (s.complete).cfg = s.cfg := by
  simp only [State.complete]; repeat' split
  all_goals rfl
@[simp] theorem State.complete_draws : (s.complete).draws = s.draws := by
  simp only [State.complete]; repeat' split
  all_goals rfl
@[simp] theorem State.complete_inputs : (s.complete).inputs = s.inputs := by
  simp only [State.complete]; repeat' split
  all_goals rfl
@[simp] theorem State.complete_result : (s.complete).result = s.result := by
  simp only [State.complete]; repeat' split
  all_goals rfl

/-! `fail` -/

@[simp] theorem State.fail_xta_xst (code : Byte) : (s.fail code).xta.xst = .compl := by
  simp only [State.fail, State.complete]; repeat' split
  all_goals rfl
@[simp] theorem State.fail_xta_sense (code : Byte) : (s.fail code).xta.sense = code := by
  simp only [State.fail, State.complete]; repeat' split
  all_goals rfl
@[simp] theorem State.fail_xta_intr (code : Byte) : (s.fail code).xta.intr = s.xta.intr := by
  simp only [State.fail, State.complete]; repeat' split
  all_goals rfl
@[simp] theorem State.fail_xta_dcb (code : Byte) : (s.fail code).xta.dcb = s.xta.dcb := by
  simp only [State.fail, State.complete]; repeat' split
  all_goals rfl
@[simp] theorem State.fail_xta_comp (code : Byte) : (s.fail code).xta.comp = s.xta.comp ||| s.cfg.compErr := by
  simp only [State.fail, State.complete]; repeat' split
  all_goals rfl
@[simp] theorem State.fail_xta_curTgt (code : Byte) : (s.fail code).xta.curTgt = .none := by
  simp only [State.fail, State.complete]; repeat' split
  all_goals rfl
@[simp] theorem State.fail_xta_curIdx (code : Byte) : (s.fail code).xta.curIdx = 0 := by
  simp only [State.fail, State.complete]; repeat' split
  all_goals rfl
@[simp] theorem State.fail_xta_curLen (code : Byte) : (s.fail code).xta.curLen = 0 := by
  simp only [State.fail, State.complete]; repeat' split
  all_goals rfl
@[simp] theorem State.fail_xta_xferDma (code : Byte) : (s.fail code).xta.xferDma = false := by
  simp only [State.fail, State.complete]; repeat' split
  all_goals rfl
@[simp] theorem State.fail_xta_secbuf (code : Byte) : (s.fail code).xta.secbuf = s.xta.secbuf := by
  simp only [State.fail, State.complete]; repeat' split
  all_goals rfl
@[simp] theorem State.fail_xta_sensebuf (code : Byte) : (s.fail code).xta.sensebuf = s.xta.sensebuf := by
  simp only [State.fail, State.complete]; repeat' split
  all_goals rfl
@[simp] theorem State.fail_xta_parambuf (code : Byte) : (s.fail code).xta.parambuf = s.xta.parambuf := by
  simp only [State.fail, State.complete]; repeat' split
  all_goals rfl
@[simp] theorem State.fail_xta_cTrack (code : Byte) : (s.fail code).xta.cTrack = s.xta.cTrack := by
  simp only [State.fail, State.complete]; repeat' split
  all_goals rfl
@[simp] theorem State.fail_xta_cHead (code : Byte) : (s.fail code).xta.cHead = s.xta.cHead := by
  simp only [State.fail, State.complete]; repeat' split
  all_goals rfl
@[simp] theorem State.fail_xta_cSector (code : Byte) : (s.fail code).xta.cSector = s.xta.cSector := by
  simp only [State.fail, State.complete]; repeat' split
  all_goals rfl
@[simp] theorem State.fail_xta_cLba (code : Byte) : (s.fail code).xta.cLba = s.xta.cLba := by
  simp only [State.fail, State.complete]; repeat' split
  all_goals rfl
@[simp] theorem State.fail_xta_count (code : Byte) : (s.fail code).xta.count = s.xta.count := by
  simp only [State.fail, State.complete]; repeat' split
  all_goals rfl
@[simp] theorem State.fail_xta_pending (code : Byte) : (s.fail code).xta.pending = false := by
  simp only [State.fail, State.complete]; repeat' split
  all_goals rfl
@[simp] theorem State.fail_drv0 (code : Byte) : (s.fail code).drv0 = s.drv0 := by
  simp only [State.fail, State.complete]; repeat' split
  all_goals rfl
@[simp] theorem State.fail_drv1 (code : Byte) : (s.fail code).drv1 = s.drv1 := by
  simp only [State.fail, State.complete]; repeat' split
  all_goals rfl
@[simp] theorem State.fail_disk0 (code : Byte) : (s.fail code).disk0 = s.disk0 := by
  simp only [State.fail, State.complete]; repeat' split
  all_goals rfl
@[simp] theorem State.fail_disk1 (code : Byte) : (s.fail code).disk1 = s.disk1 := by
  simp only [State.fail, State.complete]; repeat' split
  all_goals rfl
@[simp] theorem State.fail_ems (code : Byte) : (s.fail code).ems = s.ems := by
  simp only [State.fail, State.complete]; repeat' split
  all_goals rfl
@[simp] theorem State.fail_ram (code : Byte) : (s.fail code).ram = s.ram := by
  simp only [State.fail, State.complete]; repeat' split
  all_goals rfl
@[simp] theorem State.fail_fatal (code : Byte) : (s.fail code).fatal = s.fatal := by
  simp only [State.fail, State.complete]; repeat' split
  all_goals rfl
@[simp] theorem State.fail_mfault (code : Byte) : (s.fail code).mfault = s.mfault := by
  simp only [State.fail, State.complete]; repeat' split
  all_goals rfl
@[simp] theorem State.fail_refusal (code : Byte) : (s.fail code).refusal = s.refusal := by
  simp only [State.fail, State.complete]; repeat' split
  all_goals rfl
@[simp] theorem State.fail_cfg (code : Byte) : (s.fail code).cfg = s.cfg := by
  simp only [State.fail, State.complete]; repeat' split
  all_goals rfl
@[simp] theorem State.fail_draws (code : Byte) : (s.fail code).draws = s.draws := by
  simp only [State.fail, State.complete]; repeat' split
  all_goals rfl
@[simp] theorem State.fail_inputs (code : Byte) : (s.fail code).inputs = s.inputs := by
  simp only [State.fail, State.complete]; repeat' split
  all_goals rfl
@[simp] theorem State.fail_result (code : Byte) : (s.fail code).result = s.result := by
  simp only [State.fail, State.complete]; repeat' split
  all_goals rfl

/-! `setDrive` -/

@[simp] theorem State.setDrive_xta (d : Bool) (v : Drive) : (s.setDrive d v).xta = s.xta := by
  simp only [State.setDrive]; repeat' split
  all_goals rfl
@[simp] theorem State.setDrive_disk0 (d : Bool) (v : Drive) : (s.setDrive d v).disk0 = s.disk0 := by
  simp only [State.setDrive]; repeat' split
  all_goals rfl
@[simp] theorem State.setDrive_disk1 (d : Bool) (v : Drive) : (s.setDrive d v).disk1 = s.disk1 := by
  simp only [State.setDrive]; repeat' split
  all_goals rfl
@[simp] theorem State.setDrive_ems (d : Bool) (v : Drive) : (s.setDrive d v).ems = s.ems := by
  simp only [State.setDrive]; repeat' split
  all_goals rfl
@[simp] theorem State.setDrive_ram (d : Bool) (v : Drive) : (s.setDrive d v).ram = s.ram := by
  simp only [State.setDrive]; repeat' split
  all_goals rfl
@[simp] theorem State.setDrive_fatal (d : Bool) (v : Drive) : (s.setDrive d v).fatal = s.fatal := by
  simp only [State.setDrive]; repeat' split
  all_goals rfl
@[simp] theorem State.setDrive_mfault (d : Bool) (v : Drive) : (s.setDrive d v).mfault = s.mfault := by
  simp only [State.setDrive]; repeat' split
  all_goals rfl
@[simp] theorem State.setDrive_refusal (d : Bool) (v : Drive) : (s.setDrive d v).refusal = s.refusal := by
  simp only [State.setDrive]; repeat' split
  all_goals rfl
@[simp] theorem State.setDrive_cfg (d : Bool) (v : Drive) : (s.setDrive d v).cfg = s.cfg := by
  simp only [State.setDrive]; repeat' split
  all_goals rfl
@[simp] theorem State.setDrive_draws (d : Bool) (v : Drive) : (s.setDrive d v).draws = s.draws := by
  simp only [State.setDrive]; repeat' split
  all_goals rfl
@[simp] theorem State.setDrive_inputs (d : Bool) (v : Drive) : (s.setDrive d v).inputs = s.inputs := by
  simp only [State.setDrive]; repeat' split
  all_goals rfl
@[simp] theorem State.setDrive_result (d : Bool) (v : Drive) : (s.setDrive d v).result = s.result := by
  simp only [State.setDrive]; repeat' split
  all_goals rfl
@[simp] theorem State.setDrive_history (d : Bool) (v : Drive) : (s.setDrive d v).history = s.history := by
  simp only [State.setDrive]; repeat' split
  all_goals rfl

/-! `setCyl` -/

@[simp] theorem State.setCyl_xta (d : Bool) (c : Nat) : (s.setCyl d c).xta = s.xta := by
  simp only [State.setCyl, State.setDrive]; repeat' split
  all_goals rfl
@[simp] theorem State.setCyl_disk0 (d : Bool) (c : Nat) : (s.setCyl d c).disk0 = s.disk0 := by
  simp only [State.setCyl, State.setDrive]; repeat' split
  all_goals rfl
@[simp] theorem State.setCyl_disk1 (d : Bool) (c : Nat) : (s.setCyl d c).disk1 = s.disk1 := by
  simp only [State.setCyl, State.setDrive]; repeat' split
  all_goals rfl
@[simp] theorem State.setCyl_ems (d : Bool) (c : Nat) : (s.setCyl d c).ems = s.ems := by
  simp only [State.setCyl, State.setDrive]; repeat' split
  all_goals rfl
@[simp] theorem State.setCyl_ram (d : Bool) (c : Nat) : (s.setCyl d c).ram = s.ram := by
  simp only [State.setCyl, State.setDrive]; repeat' split
  all_goals rfl
@[simp] theorem State.setCyl_fatal (d : Bool) (c : Nat) : (s.setCyl d c).fatal = s.fatal := by
  simp only [State.setCyl, State.setDrive]; repeat' split
  all_goals rfl
@[simp] theorem State.setCyl_mfault (d : Bool) (c : Nat) : (s.setCyl d c).mfault = s.mfault := by
  simp only [State.setCyl, State.setDrive]; repeat' split
  all_goals rfl
@[simp] theorem State.setCyl_refusal (d : Bool) (c : Nat) : (s.setCyl d c).refusal = s.refusal := by
  simp only [State.setCyl, State.setDrive]; repeat' split
  all_goals rfl
@[simp] theorem State.setCyl_cfg (d : Bool) (c : Nat) : (s.setCyl d c).cfg = s.cfg := by
  simp only [State.setCyl, State.setDrive]; repeat' split
  all_goals rfl
@[simp] theorem State.setCyl_draws (d : Bool) (c : Nat) : (s.setCyl d c).draws = s.draws := by
  simp only [State.setCyl, State.setDrive]; repeat' split
  all_goals rfl
@[simp] theorem State.setCyl_inputs (d : Bool) (c : Nat) : (s.setCyl d c).inputs = s.inputs := by
  simp only [State.setCyl, State.setDrive]; repeat' split
  all_goals rfl
@[simp] theorem State.setCyl_result (d : Bool) (c : Nat) : (s.setCyl d c).result = s.result := by
  simp only [State.setCyl, State.setDrive]; repeat' split
  all_goals rfl
@[simp] theorem State.setCyl_history (d : Bool) (c : Nat) : (s.setCyl d c).history = s.history := by
  simp only [State.setCyl, State.setDrive]; repeat' split
  all_goals rfl

/-! `setDisk` -/

@[simp] theorem State.setDisk_xta (d : Bool) (m : Memory) : (s.setDisk d m).xta = s.xta := by
  simp only [State.setDisk]; repeat' split
  all_goals rfl
@[simp] theorem State.setDisk_drv0 (d : Bool) (m : Memory) : (s.setDisk d m).drv0 = s.drv0 := by
  simp only [State.setDisk]; repeat' split
  all_goals rfl
@[simp] theorem State.setDisk_drv1 (d : Bool) (m : Memory) : (s.setDisk d m).drv1 = s.drv1 := by
  simp only [State.setDisk]; repeat' split
  all_goals rfl
@[simp] theorem State.setDisk_ems (d : Bool) (m : Memory) : (s.setDisk d m).ems = s.ems := by
  simp only [State.setDisk]; repeat' split
  all_goals rfl
@[simp] theorem State.setDisk_ram (d : Bool) (m : Memory) : (s.setDisk d m).ram = s.ram := by
  simp only [State.setDisk]; repeat' split
  all_goals rfl
@[simp] theorem State.setDisk_fatal (d : Bool) (m : Memory) : (s.setDisk d m).fatal = s.fatal := by
  simp only [State.setDisk]; repeat' split
  all_goals rfl
@[simp] theorem State.setDisk_mfault (d : Bool) (m : Memory) : (s.setDisk d m).mfault = s.mfault := by
  simp only [State.setDisk]; repeat' split
  all_goals rfl
@[simp] theorem State.setDisk_refusal (d : Bool) (m : Memory) : (s.setDisk d m).refusal = s.refusal := by
  simp only [State.setDisk]; repeat' split
  all_goals rfl
@[simp] theorem State.setDisk_cfg (d : Bool) (m : Memory) : (s.setDisk d m).cfg = s.cfg := by
  simp only [State.setDisk]; repeat' split
  all_goals rfl
@[simp] theorem State.setDisk_draws (d : Bool) (m : Memory) : (s.setDisk d m).draws = s.draws := by
  simp only [State.setDisk]; repeat' split
  all_goals rfl
@[simp] theorem State.setDisk_inputs (d : Bool) (m : Memory) : (s.setDisk d m).inputs = s.inputs := by
  simp only [State.setDisk]; repeat' split
  all_goals rfl
@[simp] theorem State.setDisk_result (d : Bool) (m : Memory) : (s.setDisk d m).result = s.result := by
  simp only [State.setDisk]; repeat' split
  all_goals rfl
@[simp] theorem State.setDisk_history (d : Bool) (m : Memory) : (s.setDisk d m).history = s.history := by
  simp only [State.setDisk]; repeat' split
  all_goals rfl

/-! `beginOut` -/

@[simp] theorem State.beginOut_xta_xst (tgt : Target) (len : Nat) : (s.beginOut tgt len).xta.xst = .sdata := by
  simp only [State.beginOut]; repeat' split
  all_goals rfl
@[simp] theorem State.beginOut_xta_sense (tgt : Target) (len : Nat) : (s.beginOut tgt len).xta.sense = s.xta.sense := by
  simp only [State.beginOut]; repeat' split
  all_goals rfl
@[simp] theorem State.beginOut_xta_intr (tgt : Target) (len : Nat) : (s.beginOut tgt len).xta.intr = s.xta.intr := by
  simp only [State.beginOut]; repeat' split
  all_goals rfl
@[simp] theorem State.beginOut_xta_dcb (tgt : Target) (len : Nat) : (s.beginOut tgt len).xta.dcb = s.xta.dcb := by
  simp only [State.beginOut]; repeat' split
  all_goals rfl
@[simp] theorem State.beginOut_xta_comp (tgt : Target) (len : Nat) : (s.beginOut tgt len).xta.comp = s.xta.comp := by
  simp only [State.beginOut]; repeat' split
  all_goals rfl
@[simp] theorem State.beginOut_xta_curTgt (tgt : Target) (len : Nat) : (s.beginOut tgt len).xta.curTgt = tgt := by
  simp only [State.beginOut]; repeat' split
  all_goals rfl
@[simp] theorem State.beginOut_xta_curIdx (tgt : Target) (len : Nat) : (s.beginOut tgt len).xta.curIdx = 0 := by
  simp only [State.beginOut]; repeat' split
  all_goals rfl
@[simp] theorem State.beginOut_xta_curLen (tgt : Target) (len : Nat) : (s.beginOut tgt len).xta.curLen = len := by
  simp only [State.beginOut]; repeat' split
  all_goals rfl
@[simp] theorem State.beginOut_xta_secbuf (tgt : Target) (len : Nat) : (s.beginOut tgt len).xta.secbuf = s.xta.secbuf := by
  simp only [State.beginOut]; repeat' split
  all_goals rfl
@[simp] theorem State.beginOut_xta_sensebuf (tgt : Target) (len : Nat) : (s.beginOut tgt len).xta.sensebuf = s.xta.sensebuf := by
  simp only [State.beginOut]; repeat' split
  all_goals rfl
@[simp] theorem State.beginOut_xta_parambuf (tgt : Target) (len : Nat) : (s.beginOut tgt len).xta.parambuf = s.xta.parambuf := by
  simp only [State.beginOut]; repeat' split
  all_goals rfl
@[simp] theorem State.beginOut_xta_cTrack (tgt : Target) (len : Nat) : (s.beginOut tgt len).xta.cTrack = s.xta.cTrack := by
  simp only [State.beginOut]; repeat' split
  all_goals rfl
@[simp] theorem State.beginOut_xta_cHead (tgt : Target) (len : Nat) : (s.beginOut tgt len).xta.cHead = s.xta.cHead := by
  simp only [State.beginOut]; repeat' split
  all_goals rfl
@[simp] theorem State.beginOut_xta_cSector (tgt : Target) (len : Nat) : (s.beginOut tgt len).xta.cSector = s.xta.cSector := by
  simp only [State.beginOut]; repeat' split
  all_goals rfl
@[simp] theorem State.beginOut_xta_cLba (tgt : Target) (len : Nat) : (s.beginOut tgt len).xta.cLba = s.xta.cLba := by
  simp only [State.beginOut]; repeat' split
  all_goals rfl
@[simp] theorem State.beginOut_xta_count (tgt : Target) (len : Nat) : (s.beginOut tgt len).xta.count = s.xta.count := by
  simp only [State.beginOut]; repeat' split
  all_goals rfl
@[simp] theorem State.beginOut_drv0 (tgt : Target) (len : Nat) : (s.beginOut tgt len).drv0 = s.drv0 := by
  simp only [State.beginOut]; repeat' split
  all_goals rfl
@[simp] theorem State.beginOut_drv1 (tgt : Target) (len : Nat) : (s.beginOut tgt len).drv1 = s.drv1 := by
  simp only [State.beginOut]; repeat' split
  all_goals rfl
@[simp] theorem State.beginOut_disk0 (tgt : Target) (len : Nat) : (s.beginOut tgt len).disk0 = s.disk0 := by
  simp only [State.beginOut]; repeat' split
  all_goals rfl
@[simp] theorem State.beginOut_disk1 (tgt : Target) (len : Nat) : (s.beginOut tgt len).disk1 = s.disk1 := by
  simp only [State.beginOut]; repeat' split
  all_goals rfl
@[simp] theorem State.beginOut_ems (tgt : Target) (len : Nat) : (s.beginOut tgt len).ems = s.ems := by
  simp only [State.beginOut]; repeat' split
  all_goals rfl
@[simp] theorem State.beginOut_ram (tgt : Target) (len : Nat) : (s.beginOut tgt len).ram = s.ram := by
  simp only [State.beginOut]; repeat' split
  all_goals rfl
@[simp] theorem State.beginOut_fatal (tgt : Target) (len : Nat) : (s.beginOut tgt len).fatal = s.fatal := by
  simp only [State.beginOut]; repeat' split
  all_goals rfl
@[simp] theorem State.beginOut_mfault (tgt : Target) (len : Nat) : (s.beginOut tgt len).mfault = s.mfault := by
  simp only [State.beginOut]; repeat' split
  all_goals rfl
@[simp] theorem State.beginOut_refusal (tgt : Target) (len : Nat) : (s.beginOut tgt len).refusal = s.refusal := by
  simp only [State.beginOut]; repeat' split
  all_goals rfl
@[simp] theorem State.beginOut_cfg (tgt : Target) (len : Nat) : (s.beginOut tgt len).cfg = s.cfg := by
  simp only [State.beginOut]; repeat' split
  all_goals rfl
@[simp] theorem State.beginOut_draws (tgt : Target) (len : Nat) : (s.beginOut tgt len).draws = s.draws := by
  simp only [State.beginOut]; repeat' split
  all_goals rfl
@[simp] theorem State.beginOut_inputs (tgt : Target) (len : Nat) : (s.beginOut tgt len).inputs = s.inputs := by
  simp only [State.beginOut]; repeat' split
  all_goals rfl
@[simp] theorem State.beginOut_result (tgt : Target) (len : Nat) : (s.beginOut tgt len).result = s.result := by
  simp only [State.beginOut]; repeat' split
  all_goals rfl
@[simp] theorem State.beginOut_history (tgt : Target) (len : Nat) : (s.beginOut tgt len).history = s.history := by
  simp only [State.beginOut]; repeat' split
  all_goals rfl

/-! `beginIn` -/

@[simp] theorem State.beginIn_xta_xst (tgt : Target) (len : Nat) : (s.beginIn tgt len).xta.xst = .rdata := by
  simp only [State.beginIn]; repeat' split
  all_goals rfl
@[simp] theorem State.beginIn_xta_sense (tgt : Target) (len : Nat) : (s.beginIn tgt len).xta.sense = s.xta.sense := by
  simp only [State.beginIn]; repeat' split
  all_goals rfl
@[simp] theorem State.beginIn_xta_intr (tgt : Target) (len : Nat) : (s.beginIn tgt len).xta.intr = s.xta.intr := by
  simp only [State.beginIn]; repeat' split
  all_goals rfl
@[simp] theorem State.beginIn_xta_dcb (tgt : Target) (len : Nat) : (s.beginIn tgt len).xta.dcb = s.xta.dcb := by
  simp only [State.beginIn]; repeat' split
  all_goals rfl
@[simp] theorem State.beginIn_xta_comp (tgt : Target) (len : Nat) : (s.beginIn tgt len).xta.comp = s.xta.comp := by
  simp only [State.beginIn]; repeat' split
  all_goals rfl
@[simp] theorem State.beginIn_xta_curTgt (tgt : Target) (len : Nat) : (s.beginIn tgt len).xta.curTgt = tgt := by
  simp only [State.beginIn]; repeat' split
  all_goals rfl
@[simp] theorem State.beginIn_xta_curIdx (tgt : Target) (len : Nat) : (s.beginIn tgt len).xta.curIdx = 0 := by
  simp only [State.beginIn]; repeat' split
  all_goals rfl
@[simp] theorem State.beginIn_xta_curLen (tgt : Target) (len : Nat) : (s.beginIn tgt len).xta.curLen = len := by
  simp only [State.beginIn]; repeat' split
  all_goals rfl
@[simp] theorem State.beginIn_xta_secbuf (tgt : Target) (len : Nat) : (s.beginIn tgt len).xta.secbuf = s.xta.secbuf := by
  simp only [State.beginIn]; repeat' split
  all_goals rfl
@[simp] theorem State.beginIn_xta_sensebuf (tgt : Target) (len : Nat) : (s.beginIn tgt len).xta.sensebuf = s.xta.sensebuf := by
  simp only [State.beginIn]; repeat' split
  all_goals rfl
@[simp] theorem State.beginIn_xta_parambuf (tgt : Target) (len : Nat) : (s.beginIn tgt len).xta.parambuf = s.xta.parambuf := by
  simp only [State.beginIn]; repeat' split
  all_goals rfl
@[simp] theorem State.beginIn_xta_cTrack (tgt : Target) (len : Nat) : (s.beginIn tgt len).xta.cTrack = s.xta.cTrack := by
  simp only [State.beginIn]; repeat' split
  all_goals rfl
@[simp] theorem State.beginIn_xta_cHead (tgt : Target) (len : Nat) : (s.beginIn tgt len).xta.cHead = s.xta.cHead := by
  simp only [State.beginIn]; repeat' split
  all_goals rfl
@[simp] theorem State.beginIn_xta_cSector (tgt : Target) (len : Nat) : (s.beginIn tgt len).xta.cSector = s.xta.cSector := by
  simp only [State.beginIn]; repeat' split
  all_goals rfl
@[simp] theorem State.beginIn_xta_cLba (tgt : Target) (len : Nat) : (s.beginIn tgt len).xta.cLba = s.xta.cLba := by
  simp only [State.beginIn]; repeat' split
  all_goals rfl
@[simp] theorem State.beginIn_xta_count (tgt : Target) (len : Nat) : (s.beginIn tgt len).xta.count = s.xta.count := by
  simp only [State.beginIn]; repeat' split
  all_goals rfl
@[simp] theorem State.beginIn_drv0 (tgt : Target) (len : Nat) : (s.beginIn tgt len).drv0 = s.drv0 := by
  simp only [State.beginIn]; repeat' split
  all_goals rfl
@[simp] theorem State.beginIn_drv1 (tgt : Target) (len : Nat) : (s.beginIn tgt len).drv1 = s.drv1 := by
  simp only [State.beginIn]; repeat' split
  all_goals rfl
@[simp] theorem State.beginIn_disk0 (tgt : Target) (len : Nat) : (s.beginIn tgt len).disk0 = s.disk0 := by
  simp only [State.beginIn]; repeat' split
  all_goals rfl
@[simp] theorem State.beginIn_disk1 (tgt : Target) (len : Nat) : (s.beginIn tgt len).disk1 = s.disk1 := by
  simp only [State.beginIn]; repeat' split
  all_goals rfl
@[simp] theorem State.beginIn_ems (tgt : Target) (len : Nat) : (s.beginIn tgt len).ems = s.ems := by
  simp only [State.beginIn]; repeat' split
  all_goals rfl
@[simp] theorem State.beginIn_ram (tgt : Target) (len : Nat) : (s.beginIn tgt len).ram = s.ram := by
  simp only [State.beginIn]; repeat' split
  all_goals rfl
@[simp] theorem State.beginIn_fatal (tgt : Target) (len : Nat) : (s.beginIn tgt len).fatal = s.fatal := by
  simp only [State.beginIn]; repeat' split
  all_goals rfl
@[simp] theorem State.beginIn_mfault (tgt : Target) (len : Nat) : (s.beginIn tgt len).mfault = s.mfault := by
  simp only [State.beginIn]; repeat' split
  all_goals rfl
@[simp] theorem State.beginIn_refusal (tgt : Target) (len : Nat) : (s.beginIn tgt len).refusal = s.refusal := by
  simp only [State.beginIn]; repeat' split
  all_goals rfl
@[simp] theorem State.beginIn_cfg (tgt : Target) (len : Nat) : (s.beginIn tgt len).cfg = s.cfg := by
  simp only [State.beginIn]; repeat' split
  all_goals rfl
@[simp] theorem State.beginIn_draws (tgt : Target) (len : Nat) : (s.beginIn tgt len).draws = s.draws := by
  simp only [State.beginIn]; repeat' split
  all_goals rfl
@[simp] theorem State.beginIn_inputs (tgt : Target) (len : Nat) : (s.beginIn tgt len).inputs = s.inputs := by
  simp only [State.beginIn]; repeat' split
  all_goals rfl
@[simp] theorem State.beginIn_result (tgt : Target) (len : Nat) : (s.beginIn tgt len).result = s.result := by
  simp only [State.beginIn]; repeat' split
  all_goals rfl
@[simp] theorem State.beginIn_history (tgt : Target) (len : Nat) : (s.beginIn tgt len).history = s.history := by
  simp only [State.beginIn]; repeat' split
  all_goals rfl

/-! `endDmaStep` -/

@[simp] theorem State.endDmaStep_xta_sense (x : Xst) : (s.endDmaStep x).xta.sense = s.xta.sense := by
  simp only [State.endDmaStep]; repeat' split
  all_goals rfl
@[simp] theorem State.endDmaStep_xta_intr (x : Xst) : (s.endDmaStep x).xta.intr = s.xta.intr := by
  simp only [State.endDmaStep]; repeat' split
  all_goals rfl
@[simp] theorem State.endDmaStep_xta_dcb (x : Xst) : (s.endDmaStep x).xta.dcb = s.xta.dcb := by
  simp only [State.endDmaStep]; repeat' split
  all_goals rfl
@[simp] theorem State.endDmaStep_xta_comp (x : Xst) : (s.endDmaStep x).xta.comp = s.xta.comp := by
  simp only [State.endDmaStep]; repeat' split
  all_goals rfl
@[simp] theorem State.endDmaStep_xta_curTgt (x : Xst) : (s.endDmaStep x).xta.curTgt = s.xta.curTgt := by
  simp only [State.endDmaStep]; repeat' split
  all_goals rfl
@[simp] theorem State.endDmaStep_xta_curIdx (x : Xst) : (s.endDmaStep x).xta.curIdx = s.xta.curIdx := by
  simp only [State.endDmaStep]; repeat' split
  all_goals rfl
@[simp] theorem State.endDmaStep_xta_curLen (x : Xst) : (s.endDmaStep x).xta.curLen = s.xta.curLen := by
  simp only [State.endDmaStep]; repeat' split
  all_goals rfl
@[simp] theorem State.endDmaStep_xta_secbuf (x : Xst) : (s.endDmaStep x).xta.secbuf = s.xta.secbuf := by
  simp only [State.endDmaStep]; repeat' split
  all_goals rfl
@[simp] theorem State.endDmaStep_xta_sensebuf (x : Xst) : (s.endDmaStep x).xta.sensebuf = s.xta.sensebuf := by
  simp only [State.endDmaStep]; repeat' split
  all_goals rfl
@[simp] theorem State.endDmaStep_xta_parambuf (x : Xst) : (s.endDmaStep x).xta.parambuf = s.xta.parambuf := by
  simp only [State.endDmaStep]; repeat' split
  all_goals rfl
@[simp] theorem State.endDmaStep_xta_cTrack (x : Xst) : (s.endDmaStep x).xta.cTrack = s.xta.cTrack := by
  simp only [State.endDmaStep]; repeat' split
  all_goals rfl
@[simp] theorem State.endDmaStep_xta_cHead (x : Xst) : (s.endDmaStep x).xta.cHead = s.xta.cHead := by
  simp only [State.endDmaStep]; repeat' split
  all_goals rfl
@[simp] theorem State.endDmaStep_xta_cSector (x : Xst) : (s.endDmaStep x).xta.cSector = s.xta.cSector := by
  simp only [State.endDmaStep]; repeat' split
  all_goals rfl
@[simp] theorem State.endDmaStep_xta_cLba (x : Xst) : (s.endDmaStep x).xta.cLba = s.xta.cLba := by
  simp only [State.endDmaStep]; repeat' split
  all_goals rfl
@[simp] theorem State.endDmaStep_xta_count (x : Xst) : (s.endDmaStep x).xta.count = s.xta.count := by
  simp only [State.endDmaStep]; repeat' split
  all_goals rfl
@[simp] theorem State.endDmaStep_xta_pending (x : Xst) : (s.endDmaStep x).xta.pending = true := by
  simp only [State.endDmaStep]; repeat' split
  all_goals rfl
@[simp] theorem State.endDmaStep_drv0 (x : Xst) : (s.endDmaStep x).drv0 = s.drv0 := by
  simp only [State.endDmaStep]; repeat' split
  all_goals rfl
@[simp] theorem State.endDmaStep_drv1 (x : Xst) : (s.endDmaStep x).drv1 = s.drv1 := by
  simp only [State.endDmaStep]; repeat' split
  all_goals rfl
@[simp] theorem State.endDmaStep_disk0 (x : Xst) : (s.endDmaStep x).disk0 = s.disk0 := by
  simp only [State.endDmaStep]; repeat' split
  all_goals rfl
@[simp] theorem State.endDmaStep_disk1 (x : Xst) : (s.endDmaStep x).disk1 = s.disk1 := by
  simp only [State.endDmaStep]; repeat' split
  all_goals rfl
@[simp] theorem State.endDmaStep_ems (x : Xst) : (s.endDmaStep x).ems = s.ems := by
  simp only [State.endDmaStep]; repeat' split
  all_goals rfl
@[simp] theorem State.endDmaStep_ram (x : Xst) : (s.endDmaStep x).ram = s.ram := by
  simp only [State.endDmaStep]; repeat' split
  all_goals rfl
@[simp] theorem State.endDmaStep_fatal (x : Xst) : (s.endDmaStep x).fatal = s.fatal := by
  simp only [State.endDmaStep]; repeat' split
  all_goals rfl
@[simp] theorem State.endDmaStep_mfault (x : Xst) : (s.endDmaStep x).mfault = s.mfault := by
  simp only [State.endDmaStep]; repeat' split
  all_goals rfl
@[simp] theorem State.endDmaStep_refusal (x : Xst) : (s.endDmaStep x).refusal = s.refusal := by
  simp only [State.endDmaStep]; repeat' split
  all_goals rfl
@[simp] theorem State.endDmaStep_cfg (x : Xst) : (s.endDmaStep x).cfg = s.cfg := by
  simp only [State.endDmaStep]; repeat' split
  all_goals rfl
@[simp] theorem State.endDmaStep_draws (x : Xst) : (s.endDmaStep x).draws = s.draws := by
  simp only [State.endDmaStep]; repeat' split
  all_goals rfl
@[simp] theorem State.endDmaStep_inputs (x : Xst) : (s.endDmaStep x).inputs = s.inputs := by
  simp only [State.endDmaStep]; repeat' split
  all_goals rfl
@[simp] theorem State.endDmaStep_result (x : Xst) : (s.endDmaStep x).result = s.result := by
  simp only [State.endDmaStep]; repeat' split
  all_goals rfl
@[simp] theorem State.endDmaStep_history (x : Xst) : (s.endDmaStep x).history = s.history := by
  simp only [State.endDmaStep]; repeat' split
  all_goals rfl

/-! `nextSector` -/

@[simp] theorem State.nextSector_xta_xst (d : Bool) : (s.nextSector d).xta.xst = s.xta.xst := by
  simp only [State.nextSector, State.setCyl, State.setDrive]; repeat' split
  all_goals rfl
@[simp] theorem State.nextSector_xta_status (d : Bool) : (s.nextSector d).xta.status = s.xta.status := by
  simp only [State.nextSector, State.setCyl, State.setDrive]; repeat' split
  all_goals rfl
@[simp] theorem State.nextSector_xta_sense (d : Bool) : (s.nextSector d).xta.sense = s.xta.sense := by
  simp only [State.nextSector, State.setCyl, State.setDrive]; repeat' split
  all_goals rfl
@[simp] theorem State.nextSector_xta_intr (d : Bool) : (s.nextSector d).xta.intr = s.xta.intr := by
  simp only [State.nextSector, State.setCyl, State.setDrive]; repeat' split
  all_goals rfl
@[simp] theorem State.nextSector_xta_dcb (d : Bool) : (s.nextSector d).xta.dcb = s.xta.dcb := by
  simp only [State.nextSector, State.setCyl, State.setDrive]; repeat' split
  all_goals rfl
@[simp] theorem State.nextSector_xta_comp (d : Bool) : (s.nextSector d).xta.comp = s.xta.comp := by
  simp only [State.nextSector, State.setCyl, State.setDrive]; repeat' split
  all_goals rfl
@[simp] theorem State.nextSector_xta_curTgt (d : Bool) : (s.nextSector d).xta.curTgt = s.xta.curTgt := by
  simp only [State.nextSector, State.setCyl, State.setDrive]; repeat' split
  all_goals rfl
@[simp] theorem State.nextSector_xta_curIdx (d : Bool) : (s.nextSector d).xta.curIdx = s.xta.curIdx := by
  simp only [State.nextSector, State.setCyl, State.setDrive]; repeat' split
  all_goals rfl
@[simp] theorem State.nextSector_xta_curLen (d : Bool) : (s.nextSector d).xta.curLen = s.xta.curLen := by
  simp only [State.nextSector, State.setCyl, State.setDrive]; repeat' split
  all_goals rfl
@[simp] theorem State.nextSector_xta_xferDma (d : Bool) : (s.nextSector d).xta.xferDma = s.xta.xferDma := by
  simp only [State.nextSector, State.setCyl, State.setDrive]; repeat' split
  all_goals rfl
@[simp] theorem State.nextSector_xta_secbuf (d : Bool) : (s.nextSector d).xta.secbuf = s.xta.secbuf := by
  simp only [State.nextSector, State.setCyl, State.setDrive]; repeat' split
  all_goals rfl
@[simp] theorem State.nextSector_xta_sensebuf (d : Bool) : (s.nextSector d).xta.sensebuf = s.xta.sensebuf := by
  simp only [State.nextSector, State.setCyl, State.setDrive]; repeat' split
  all_goals rfl
@[simp] theorem State.nextSector_xta_parambuf (d : Bool) : (s.nextSector d).xta.parambuf = s.xta.parambuf := by
  simp only [State.nextSector, State.setCyl, State.setDrive]; repeat' split
  all_goals rfl
@[simp] theorem State.nextSector_xta_cLba (d : Bool) : (s.nextSector d).xta.cLba = s.xta.cLba := by
  simp only [State.nextSector, State.setCyl, State.setDrive]; repeat' split
  all_goals rfl
@[simp] theorem State.nextSector_xta_count (d : Bool) : (s.nextSector d).xta.count = s.xta.count := by
  simp only [State.nextSector, State.setCyl, State.setDrive]; repeat' split
  all_goals rfl
@[simp] theorem State.nextSector_xta_pending (d : Bool) : (s.nextSector d).xta.pending = s.xta.pending := by
  simp only [State.nextSector, State.setCyl, State.setDrive]; repeat' split
  all_goals rfl
@[simp] theorem State.nextSector_disk0 (d : Bool) : (s.nextSector d).disk0 = s.disk0 := by
  simp only [State.nextSector, State.setCyl, State.setDrive]; repeat' split
  all_goals rfl
@[simp] theorem State.nextSector_disk1 (d : Bool) : (s.nextSector d).disk1 = s.disk1 := by
  simp only [State.nextSector, State.setCyl, State.setDrive]; repeat' split
  all_goals rfl
@[simp] theorem State.nextSector_ems (d : Bool) : (s.nextSector d).ems = s.ems := by
  simp only [State.nextSector, State.setCyl, State.setDrive]; repeat' split
  all_goals rfl
@[simp] theorem State.nextSector_ram (d : Bool) : (s.nextSector d).ram = s.ram := by
  simp only [State.nextSector, State.setCyl, State.setDrive]; repeat' split
  all_goals rfl
@[simp] theorem State.nextSector_fatal (d : Bool) : (s.nextSector d).fatal = s.fatal := by
  simp only [State.nextSector, State.setCyl, State.setDrive]; repeat' split
  all_goals rfl
@[simp] theorem State.nextSector_mfault (d : Bool) : (s.nextSector d).mfault = s.mfault := by
  simp only [State.nextSector, State.setCyl, State.setDrive]; repeat' split
  all_goals rfl
@[simp] theorem State.nextSector_refusal (d : Bool) : (s.nextSector d).refusal = s.refusal := by
  simp only [State.nextSector, State.setCyl, State.setDrive]; repeat' split
  all_goals rfl
@[simp] theorem State.nextSector_cfg (d : Bool) : (s.nextSector d).cfg = s.cfg := by
  simp only [State.nextSector, State.setCyl, State.setDrive]; repeat' split
  all_goals rfl
@[simp] theorem State.nextSector_draws (d : Bool) : (s.nextSector d).draws = s.draws := by
  simp only [State.nextSector, State.setCyl, State.setDrive]; repeat' split
  all_goals rfl
@[simp] theorem State.nextSector_inputs (d : Bool) : (s.nextSector d).inputs = s.inputs := by
  simp only [State.nextSector, State.setCyl, State.setDrive]; repeat' split
  all_goals rfl
@[simp] theorem State.nextSector_result (d : Bool) : (s.nextSector d).result = s.result := by
  simp only [State.nextSector, State.setCyl, State.setDrive]; repeat' split
  all_goals rfl
@[simp] theorem State.nextSector_history (d : Bool) : (s.nextSector d).history = s.history := by
  simp only [State.nextSector, State.setCyl, State.setDrive]; repeat' split
  all_goals rfl

/-! `resetStrobe` -/

@[simp] theorem State.resetStrobe_xta_xst : (s.resetStrobe).xta.xst = .idle := by
  simp only [State.resetStrobe]; repeat' split
  all_goals rfl
@[simp] theorem State.resetStrobe_xta_status : (s.resetStrobe).xta.status = Status.idle := by
  simp only [State.resetStrobe]; repeat' split
  all_goals rfl
@[simp] theorem State.resetStrobe_xta_intr : (s.resetStrobe).xta.intr = s.xta.intr := by
  simp only [State.resetStrobe]; repeat' split
  all_goals rfl
@[simp] theorem State.resetStrobe_xta_dcb : (s.resetStrobe).xta.dcb = s.xta.dcb := by
  simp only [State.resetStrobe]; repeat' split
  all_goals rfl
@[simp] theorem State.resetStrobe_xta_comp : (s.resetStrobe).xta.comp = s.xta.comp := by
  simp only [State.resetStrobe]; repeat' split
  all_goals rfl
@[simp] theorem State.resetStrobe_xta_curTgt : (s.resetStrobe).xta.curTgt = .none := by
  simp only [State.resetStrobe]; repeat' split
  all_goals rfl
@[simp] theorem State.resetStrobe_xta_curIdx : (s.resetStrobe).xta.curIdx = 0 := by
  simp only [State.resetStrobe]; repeat' split
  all_goals rfl
@[simp] theorem State.resetStrobe_xta_curLen : (s.resetStrobe).xta.curLen = 0 := by
  simp only [State.resetStrobe]; repeat' split
  all_goals rfl
@[simp] theorem State.resetStrobe_xta_xferDma : (s.resetStrobe).xta.xferDma = false := by
  simp only [State.resetStrobe]; repeat' split
  all_goals rfl
@[simp] theorem State.resetStrobe_xta_secbuf : (s.resetStrobe).xta.secbuf = s.xta.secbuf := by
  simp only [State.resetStrobe]; repeat' split
  all_goals rfl
@[simp] theorem State.resetStrobe_xta_sensebuf : (s.resetStrobe).xta.sensebuf = s.xta.sensebuf := by
  simp only [State.resetStrobe]; repeat' split
  all_goals rfl
@[simp] theorem State.resetStrobe_xta_parambuf : (s.resetStrobe).xta.parambuf = s.xta.parambuf := by
  simp only [State.resetStrobe]; repeat' split
  all_goals rfl
@[simp] theorem State.resetStrobe_xta_cTrack : (s.resetStrobe).xta.cTrack = s.xta.cTrack := by
  simp only [State.resetStrobe]; repeat' split
  all_goals rfl
@[simp] theorem State.resetStrobe_xta_cHead : (s.resetStrobe).xta.cHead = s.xta.cHead := by
  simp only [State.resetStrobe]; repeat' split
  all_goals rfl
@[simp] theorem State.resetStrobe_xta_cSector : (s.resetStrobe).xta.cSector = s.xta.cSector := by
  simp only [State.resetStrobe]; repeat' split
  all_goals rfl
@[simp] theorem State.resetStrobe_xta_cLba : (s.resetStrobe).xta.cLba = s.xta.cLba := by
  simp only [State.resetStrobe]; repeat' split
  all_goals rfl
@[simp] theorem State.resetStrobe_xta_count : (s.resetStrobe).xta.count = s.xta.count := by
  simp only [State.resetStrobe]; repeat' split
  all_goals rfl
@[simp] theorem State.resetStrobe_xta_pending : (s.resetStrobe).xta.pending = false := by
  simp only [State.resetStrobe]; repeat' split
  all_goals rfl
@[simp] theorem State.resetStrobe_drv0 : (s.resetStrobe).drv0 = s.drv0 := by
  simp only [State.resetStrobe]; repeat' split
  all_goals rfl
@[simp] theorem State.resetStrobe_drv1 : (s.resetStrobe).drv1 = s.drv1 := by
  simp only [State.resetStrobe]; repeat' split
  all_goals rfl
@[simp] theorem State.resetStrobe_disk0 : (s.resetStrobe).disk0 = s.disk0 := by
  simp only [State.resetStrobe]; repeat' split
  all_goals rfl
@[simp] theorem State.resetStrobe_disk1 : (s.resetStrobe).disk1 = s.disk1 := by
  simp only [State.resetStrobe]; repeat' split
  all_goals rfl
@[simp] theorem State.resetStrobe_ems : (s.resetStrobe).ems = s.ems := by
  simp only [State.resetStrobe]; repeat' split
  all_goals rfl
@[simp] theorem State.resetStrobe_ram : (s.resetStrobe).ram = s.ram := by
  simp only [State.resetStrobe]; repeat' split
  all_goals rfl
@[simp] theorem State.resetStrobe_fatal : (s.resetStrobe).fatal = s.fatal := by
  simp only [State.resetStrobe]; repeat' split
  all_goals rfl
@[simp] theorem State.resetStrobe_mfault : (s.resetStrobe).mfault = s.mfault := by
  simp only [State.resetStrobe]; repeat' split
  all_goals rfl
@[simp] theorem State.resetStrobe_refusal : (s.resetStrobe).refusal = s.refusal := by
  simp only [State.resetStrobe]; repeat' split
  all_goals rfl
@[simp] theorem State.resetStrobe_cfg : (s.resetStrobe).cfg = s.cfg := by
  simp only [State.resetStrobe]; repeat' split
  all_goals rfl
@[simp] theorem State.resetStrobe_draws : (s.resetStrobe).draws = s.draws := by
  simp only [State.resetStrobe]; repeat' split
  all_goals rfl
@[simp] theorem State.resetStrobe_inputs : (s.resetStrobe).inputs = s.inputs := by
  simp only [State.resetStrobe]; repeat' split
  all_goals rfl
@[simp] theorem State.resetStrobe_result : (s.resetStrobe).result = s.result := by
  simp only [State.resetStrobe]; repeat' split
  all_goals rfl
@[simp] theorem State.resetStrobe_history : (s.resetStrobe).history = s.history := by
  simp only [State.resetStrobe]; repeat' split
  all_goals rfl

/-! `drawByte` -/

@[simp] theorem State.drawByte_xta : (s.drawByte.2).xta = s.xta := by
  simp only [State.drawByte]; repeat' split
  all_goals rfl
@[simp] theorem State.drawByte_drv0 : (s.drawByte.2).drv0 = s.drv0 := by
  simp only [State.drawByte]; repeat' split
  all_goals rfl
@[simp] theorem State.drawByte_drv1 : (s.drawByte.2).drv1 = s.drv1 := by
  simp only [State.drawByte]; repeat' split
  all_goals rfl
@[simp] theorem State.drawByte_disk0 : (s.drawByte.2).disk0 = s.disk0 := by
  simp only [State.drawByte]; repeat' split
  all_goals rfl
@[simp] theorem State.drawByte_disk1 : (s.drawByte.2).disk1 = s.disk1 := by
  simp only [State.drawByte]; repeat' split
  all_goals rfl
@[simp] theorem State.drawByte_ems : (s.drawByte.2).ems = s.ems := by
  simp only [State.drawByte]; repeat' split
  all_goals rfl
@[simp] theorem State.drawByte_ram : (s.drawByte.2).ram = s.ram := by
  simp only [State.drawByte]; repeat' split
  all_goals rfl
@[simp] theorem State.drawByte_fatal : (s.drawByte.2).fatal = s.fatal := by
  simp only [State.drawByte]; repeat' split
  all_goals rfl
@[simp] theorem State.drawByte_mfault : (s.drawByte.2).mfault = s.mfault := by
  simp only [State.drawByte]; repeat' split
  all_goals rfl
@[simp] theorem State.drawByte_refusal : (s.drawByte.2).refusal = s.refusal := by
  simp only [State.drawByte]; repeat' split
  all_goals rfl
@[simp] theorem State.drawByte_cfg : (s.drawByte.2).cfg = s.cfg := by
  simp only [State.drawByte]; repeat' split
  all_goals rfl
@[simp] theorem State.drawByte_inputs : (s.drawByte.2).inputs = s.inputs := by
  simp only [State.drawByte]; repeat' split
  all_goals rfl
@[simp] theorem State.drawByte_result : (s.drawByte.2).result = s.result := by
  simp only [State.drawByte]; repeat' split
  all_goals rfl
@[simp] theorem State.drawByte_history : (s.drawByte.2).history = s.history := by
  simp only [State.drawByte]; repeat' split
  all_goals rfl

/-! `drawChunk` -/

@[simp] theorem State.drawChunk_xta (n : Nat) : ((s.drawChunk n).2).xta = s.xta := by
  simp only [State.drawChunk]; repeat' split
  all_goals rfl
@[simp] theorem State.drawChunk_drv0 (n : Nat) : ((s.drawChunk n).2).drv0 = s.drv0 := by
  simp only [State.drawChunk]; repeat' split
  all_goals rfl
@[simp] theorem State.drawChunk_drv1 (n : Nat) : ((s.drawChunk n).2).drv1 = s.drv1 := by
  simp only [State.drawChunk]; repeat' split
  all_goals rfl
@[simp] theorem State.drawChunk_disk0 (n : Nat) : ((s.drawChunk n).2).disk0 = s.disk0 := by
  simp only [State.drawChunk]; repeat' split
  all_goals rfl
@[simp] theorem State.drawChunk_disk1 (n : Nat) : ((s.drawChunk n).2).disk1 = s.disk1 := by
  simp only [State.drawChunk]; repeat' split
  all_goals rfl
@[simp] theorem State.drawChunk_ems (n : Nat) : ((s.drawChunk n).2).ems = s.ems := by
  simp only [State.drawChunk]; repeat' split
  all_goals rfl
@[simp] theorem State.drawChunk_ram (n : Nat) : ((s.drawChunk n).2).ram = s.ram := by
  simp only [State.drawChunk]; repeat' split
  all_goals rfl
@[simp] theorem State.drawChunk_fatal (n : Nat) : ((s.drawChunk n).2).fatal = s.fatal := by
  simp only [State.drawChunk]; repeat' split
  all_goals rfl
@[simp] theorem State.drawChunk_mfault (n : Nat) : ((s.drawChunk n).2).mfault = s.mfault := by
  simp only [State.drawChunk]; repeat' split
  all_goals rfl
@[simp] theorem State.drawChunk_refusal (n : Nat) : ((s.drawChunk n).2).refusal = s.refusal := by
  simp only [State.drawChunk]; repeat' split
  all_goals rfl
@[simp] theorem State.drawChunk_cfg (n : Nat) : ((s.drawChunk n).2).cfg = s.cfg := by
  simp only [State.drawChunk]; repeat' split
  all_goals rfl
@[simp] theorem State.drawChunk_inputs (n : Nat) : ((s.drawChunk n).2).inputs = s.inputs := by
  simp only [State.drawChunk]; repeat' split
  all_goals rfl
@[simp] theorem State.drawChunk_result (n : Nat) : ((s.drawChunk n).2).result = s.result := by
  simp only [State.drawChunk]; repeat' split
  all_goals rfl
@[simp] theorem State.drawChunk_history (n : Nat) : ((s.drawChunk n).2).history = s.history := by
  simp only [State.drawChunk]; repeat' split
  all_goals rfl

/-! `drawPut` -/

@[simp] theorem State.drawPut_xta : (s.drawPut.2).xta = s.xta := by
  simp only [State.drawPut]; repeat' split
  all_goals rfl
@[simp] theorem State.drawPut_drv0 : (s.drawPut.2).drv0 = s.drv0 := by
  simp only [State.drawPut]; repeat' split
  all_goals rfl
@[simp] theorem State.drawPut_drv1 : (s.drawPut.2).drv1 = s.drv1 := by
  simp only [State.drawPut]; repeat' split
  all_goals rfl
@[simp] theorem State.drawPut_disk0 : (s.drawPut.2).disk0 = s.disk0 := by
  simp only [State.drawPut]; repeat' split
  all_goals rfl
@[simp] theorem State.drawPut_disk1 : (s.drawPut.2).disk1 = s.disk1 := by
  simp only [State.drawPut]; repeat' split
  all_goals rfl
@[simp] theorem State.drawPut_ems : (s.drawPut.2).ems = s.ems := by
  simp only [State.drawPut]; repeat' split
  all_goals rfl
@[simp] theorem State.drawPut_ram : (s.drawPut.2).ram = s.ram := by
  simp only [State.drawPut]; repeat' split
  all_goals rfl
@[simp] theorem State.drawPut_fatal : (s.drawPut.2).fatal = s.fatal := by
  simp only [State.drawPut]; repeat' split
  all_goals rfl
@[simp] theorem State.drawPut_mfault : (s.drawPut.2).mfault = s.mfault := by
  simp only [State.drawPut]; repeat' split
  all_goals rfl
@[simp] theorem State.drawPut_refusal : (s.drawPut.2).refusal = s.refusal := by
  simp only [State.drawPut]; repeat' split
  all_goals rfl
@[simp] theorem State.drawPut_cfg : (s.drawPut.2).cfg = s.cfg := by
  simp only [State.drawPut]; repeat' split
  all_goals rfl
@[simp] theorem State.drawPut_inputs : (s.drawPut.2).inputs = s.inputs := by
  simp only [State.drawPut]; repeat' split
  all_goals rfl
@[simp] theorem State.drawPut_result : (s.drawPut.2).result = s.result := by
  simp only [State.drawPut]; repeat' split
  all_goals rfl
@[simp] theorem State.drawPut_history : (s.drawPut.2).history = s.history := by
  simp only [State.drawPut]; repeat' split
  all_goals rfl

/-! `drawGet` -/

@[simp] theorem State.drawGet_xta : (s.drawGet.2).xta = s.xta := by
  simp only [State.drawGet]; repeat' split
  all_goals rfl
@[simp] theorem State.drawGet_drv0 : (s.drawGet.2).drv0 = s.drv0 := by
  simp only [State.drawGet]; repeat' split
  all_goals rfl
@[simp] theorem State.drawGet_drv1 : (s.drawGet.2).drv1 = s.drv1 := by
  simp only [State.drawGet]; repeat' split
  all_goals rfl
@[simp] theorem State.drawGet_disk0 : (s.drawGet.2).disk0 = s.disk0 := by
  simp only [State.drawGet]; repeat' split
  all_goals rfl
@[simp] theorem State.drawGet_disk1 : (s.drawGet.2).disk1 = s.disk1 := by
  simp only [State.drawGet]; repeat' split
  all_goals rfl
@[simp] theorem State.drawGet_ems : (s.drawGet.2).ems = s.ems := by
  simp only [State.drawGet]; repeat' split
  all_goals rfl
@[simp] theorem State.drawGet_ram : (s.drawGet.2).ram = s.ram := by
  simp only [State.drawGet]; repeat' split
  all_goals rfl
@[simp] theorem State.drawGet_fatal : (s.drawGet.2).fatal = s.fatal := by
  simp only [State.drawGet]; repeat' split
  all_goals rfl
@[simp] theorem State.drawGet_mfault : (s.drawGet.2).mfault = s.mfault := by
  simp only [State.drawGet]; repeat' split
  all_goals rfl
@[simp] theorem State.drawGet_refusal : (s.drawGet.2).refusal = s.refusal := by
  simp only [State.drawGet]; repeat' split
  all_goals rfl
@[simp] theorem State.drawGet_cfg : (s.drawGet.2).cfg = s.cfg := by
  simp only [State.drawGet]; repeat' split
  all_goals rfl
@[simp] theorem State.drawGet_inputs : (s.drawGet.2).inputs = s.inputs := by
  simp only [State.drawGet]; repeat' split
  all_goals rfl
@[simp] theorem State.drawGet_result : (s.drawGet.2).result = s.result := by
  simp only [State.drawGet]; repeat' split
  all_goals rfl
@[simp] theorem State.drawGet_history : (s.drawGet.2).history = s.history := by
  simp only [State.drawGet]; repeat' split
  all_goals rfl

/-! `drawPlatform` -/

@[simp] theorem State.drawPlatform_xta (a : Nat) : ((s.drawPlatform a).2).xta = s.xta := rfl
@[simp] theorem State.drawPlatform_drv0 (a : Nat) : ((s.drawPlatform a).2).drv0 = s.drv0 := rfl
@[simp] theorem State.drawPlatform_drv1 (a : Nat) : ((s.drawPlatform a).2).drv1 = s.drv1 := rfl
@[simp] theorem State.drawPlatform_disk0 (a : Nat) : ((s.drawPlatform a).2).disk0 = s.disk0 := rfl
@[simp] theorem State.drawPlatform_disk1 (a : Nat) : ((s.drawPlatform a).2).disk1 = s.disk1 := rfl
@[simp] theorem State.drawPlatform_ems (a : Nat) : ((s.drawPlatform a).2).ems = s.ems := rfl
@[simp] theorem State.drawPlatform_ram (a : Nat) : ((s.drawPlatform a).2).ram = s.ram := rfl
@[simp] theorem State.drawPlatform_fatal (a : Nat) : ((s.drawPlatform a).2).fatal = s.fatal := rfl
@[simp] theorem State.drawPlatform_mfault (a : Nat) : ((s.drawPlatform a).2).mfault = s.mfault := rfl
@[simp] theorem State.drawPlatform_refusal (a : Nat) : ((s.drawPlatform a).2).refusal = s.refusal := rfl
@[simp] theorem State.drawPlatform_cfg (a : Nat) : ((s.drawPlatform a).2).cfg = s.cfg := rfl
@[simp] theorem State.drawPlatform_inputs (a : Nat) : ((s.drawPlatform a).2).inputs = s.inputs := rfl
@[simp] theorem State.drawPlatform_result (a : Nat) : ((s.drawPlatform a).2).result = s.result := rfl
@[simp] theorem State.drawPlatform_history (a : Nat) : ((s.drawPlatform a).2).history = s.history := rfl

/-! `readAny` -/

@[simp] theorem State.readAny_xta : (s.readAny).xta = s.xta := by
  simp only [State.readAny, State.drawByte]; repeat' split
  all_goals rfl
@[simp] theorem State.readAny_drv0 : (s.readAny).drv0 = s.drv0 := by
  simp only [State.readAny, State.drawByte]; repeat' split
  all_goals rfl
@[simp] theorem State.readAny_drv1 : (s.readAny).drv1 = s.drv1 := by
  simp only [State.readAny, State.drawByte]; repeat' split
  all_goals rfl
@[simp] theorem State.readAny_disk0 : (s.readAny).disk0 = s.disk0 := by
  simp only [State.readAny, State.drawByte]; repeat' split
  all_goals rfl
@[simp] theorem State.readAny_disk1 : (s.readAny).disk1 = s.disk1 := by
  simp only [State.readAny, State.drawByte]; repeat' split
  all_goals rfl
@[simp] theorem State.readAny_ems : (s.readAny).ems = s.ems := by
  simp only [State.readAny, State.drawByte]; repeat' split
  all_goals rfl
@[simp] theorem State.readAny_ram : (s.readAny).ram = s.ram := by
  simp only [State.readAny, State.drawByte]; repeat' split
  all_goals rfl
@[simp] theorem State.readAny_fatal : (s.readAny).fatal = s.fatal := by
  simp only [State.readAny, State.drawByte]; repeat' split
  all_goals rfl
@[simp] theorem State.readAny_mfault : (s.readAny).mfault = s.mfault := by
  simp only [State.readAny, State.drawByte]; repeat' split
  all_goals rfl
@[simp] theorem State.readAny_refusal : (s.readAny).refusal = s.refusal := by
  simp only [State.readAny, State.drawByte]; repeat' split
  all_goals rfl
@[simp] theorem State.readAny_cfg : (s.readAny).cfg = s.cfg := by
  simp only [State.readAny, State.drawByte]; repeat' split
  all_goals rfl
@[simp] theorem State.readAny_inputs : (s.readAny).inputs = s.inputs := by
  simp only [State.readAny, State.drawByte]; repeat' split
  all_goals rfl
@[simp] theorem State.readAny_history : (s.readAny).history = s.history := by
  simp only [State.readAny, State.drawByte]; repeat' split
  all_goals rfl

end Sys2Proof.Machine
end

