-- ==== Sys2Proof/Laws/Ops.lean ====
section
/-! SUPPORT. One lemma for each shared operation that says once what it can do: when an operation on a port answers a next state,
what a completion, a failure, the acceptance of a DCB, a disk access and a loop leave. Later proofs cite these. -/

namespace Sys2Proof.Machine

/-! Vectors. -/

/-- A read with a default is the optional read. -/
theorem vector_getD_eq {α : Type} {n : Nat} (v : Vector α n) (i : Nat) (d : α) : v.getD i d = (v[i]?).getD d := by
  rw [Vector.getD_getElem?]
  unfold Vector.getD Array.getD
  by_cases h : i < n
  · rw [dif_pos h, dif_pos (by simpa using h)]; rfl
  · rw [dif_neg h, dif_neg (by simpa using h)]

/-- A write inside the bounds. -/
theorem vector_setIfInBounds_eq {α : Type} {n : Nat} (v : Vector α n) {i : Nat} (h : i < n) (x : α) :
    v.setIfInBounds i x = v.set i x h := by
  apply Vector.ext
  intro j hj
  rw [Vector.getElem_set, Vector.getElem_setIfInBounds]

/-! The host access. -/

/-- A stop or the answer of the rest. -/
theorem State.ifRunning_of_running {s : State} (h : s.running) (k : Result) : s.ifRunning k = k := by
  obtain ⟨h1, h2, h3⟩ := h
  simp [State.ifRunning, h1, h2, h3]

/-- An operation that answers a next state ran on a machine that is not stopped. -/
theorem State.ifRunning_next {s t : State} {k : Result} : s.ifRunning k = .next t ↔ s.running ∧ k = .next t := by
  unfold State.ifRunning
  split
  · rename_i h; simp [h]
  · rename_i h1
    split
    · rename_i h2; simp [h2]
    · rename_i h2
      split
      · rename_i h3; simp [h3]
      · rename_i h3
        exact ⟨fun h => ⟨⟨h1, h2, h3⟩, h⟩, fun h => h.2⟩

/-- What an access to a port can answer: the refusal of a shared port, or its own effect. -/
theorem State.onPort_next {s t : State} {r : PortReg} {k : State} :
    s.onPort r k = .next t ↔
      s.running ∧ ((s.decodeCtx.collides r = true ∧ t = s.refuse .portCollision) ∨ (s.portFree r ∧ t = k)) := by
  unfold State.onPort
  rw [State.ifRunning_next]
  refine and_congr_right fun _ => ?_
  by_cases h : s.decodeCtx.collides r = true
  · simp [h, eq_comm]
  · rw [Bool.not_eq_true] at h
    simp [h, eq_comm]

/-- An access to a usable port has its own effect. -/
theorem State.onPort_of_usable {s : State} {r : PortReg} (h : s.usable r) (k : State) : s.onPort r k = .next k :=
  State.onPort_next.2 ⟨h.1, .inr ⟨h.2, rfl⟩⟩

/-- An access to a shared port is refused. -/
theorem State.onPort_of_collides {s : State} {r : PortReg} (h : s.running) (hc : s.decodeCtx.collides r = true) (k : State) :
    s.onPort r k = .next (s.refuse .portCollision) :=
  State.onPort_next.2 ⟨h, .inl ⟨hc, rfl⟩⟩

/-! Flags. -/

theorem bitsSet_iff (v m : Byte) : bitsSet v m = true ↔ v &&& m ≠ 0 := by simp [bitsSet]

theorem State.req_iff (s : State) : s.req = true ↔ s.xta.status &&& 0x01 ≠ 0 := bitsSet_iff _ _

theorem State.dmaEnabled_iff (s : State) : s.dmaEnabled = true ↔ s.xta.intr &&& s.cfg.dmaEna ≠ 0 := bitsSet_iff _ _

theorem State.irqEnabled_iff (s : State) : s.irqEnabled = true ↔ s.xta.intr &&& s.cfg.irqEna ≠ 0 := bitsSet_iff _ _

/-! Free inputs. -/

/-- Everything a draw of a byte can do: it answers a byte and uses up a draw. -/
theorem State.drawByte_cases (s : State) : ∃ (b : Byte) (dr : Draws), s.drawByte = (b, { s with draws := dr }) := by
  unfold State.drawByte
  split <;> exact ⟨_, _, rfl⟩

/-- A scripted byte. -/
theorem State.drawByte_of_script {s : State} {b : Byte} {bs : List Byte} (h : s.draws.bytes = b :: bs) :
    s.drawByte = (b, { s with draws := { s.draws with bytes := bs } }) := by
  unfold State.drawByte
  rw [h]

/-- Everything a draw of a chunk size can do: at least one byte, at most the bytes left. -/
theorem State.drawChunk_cases (s : State) {rem : Nat} (h : 1 ≤ rem) :
    ∃ (k : Nat) (dr : Draws), 1 ≤ k ∧ k ≤ rem ∧ s.drawChunk rem = (k, { s with draws := dr }) := by
  unfold State.drawChunk
  split <;> exact ⟨_, _, by omega, by omega, rfl⟩

/-- A scripted chunk size. -/
theorem State.drawChunk_of_script {s : State} {rem k : Nat} {ks : List Nat} (h : s.draws.chunks = k :: ks) (h1 : 1 ≤ k)
    (h2 : k ≤ rem) : s.drawChunk rem = (k, { s with draws := { s.draws with chunks := ks } }) := by
  unfold State.drawChunk
  rw [h]
  exact congrArg (·, _) (by omega)

/-- Everything the channel can answer to an offered byte. -/
theorem State.drawPut_cases (s : State) : ∃ (a : Bool) (dr : Draws), s.drawPut = (a, { s with draws := dr }) := by
  unfold State.drawPut
  split <;> exact ⟨_, _, rfl⟩

/-- Everything the channel can answer to a request for a byte. -/
theorem State.drawGet_cases (s : State) : ∃ (a : Option Byte) (dr : Draws), s.drawGet = (a, { s with draws := dr }) := by
  unfold State.drawGet
  split <;> exact ⟨_, _, rfl⟩

/-- Everything the platform can answer. -/
theorem State.drawPlatform_cases (s : State) (a : Nat) :
    ∃ (b : Byte) (dr : Draws), s.drawPlatform a = (b, { s with draws := dr }) := ⟨_, _, rfl⟩

/-! The completion. -/

/-- What a completion leaves. -/
theorem State.complete_eq (s : State) : s.complete = completed s := by
  unfold State.complete completed
  by_cases h : s.xta.intr &&& s.cfg.irqEna ≠ 0
  · rw [if_pos ((State.irqEnabled_iff s).2 h)]
    simp only [if_pos h]; rfl
  · rw [if_neg (fun hc => h ((State.irqEnabled_iff s).1 hc))]
    simp only [if_neg h]; rfl

/-- What a failure leaves. -/
theorem State.fail_eq (s : State) (code : Byte) : s.fail code = failed s code := State.complete_eq _

/-! The DCB. -/

/-- Every bit of DCB byte 1. -/
theorem DcbOps.getLsbD_byte1 (d : DcbOps) (i : Nat) :
    d.byte1.getLsbD i = if i < 5 then d.head.getLsbD i else if i = 5 then d.drvsel else d.mbz.getLsbD (i - 6) := by
  unfold DcbOps.byte1
  rw [BitVec.getLsbD_append, BitVec.getLsbD_append]
  by_cases h : i < 5
  · simp only [h, if_true]
  · by_cases h5 : i = 5
    · subst h5; simp
    · simp only [h, h5, if_false, show ¬ (i - 5 < 1) by omega]
      congr 1

/-- Every bit of DCB byte 2. -/
theorem DcbOps.getLsbD_byte2 (d : DcbOps) (i : Nat) :
    d.byte2.getLsbD i = if i < 6 then d.sector.getLsbD i else decide (i - 6 < 2) && d.cyl.getLsbD (8 + (i - 6)) := by
  unfold DcbOps.byte2
  rw [BitVec.getLsbD_append, BitVec.getLsbD_extractLsb']

/-- Bit 5 of DCB byte 1 is the drive select. -/
theorem DcbOps.byte1_drvsel (d : DcbOps) : d.byte1.getLsbD 5 = d.drvsel := by
  rw [DcbOps.getLsbD_byte1]
  simp

/-- Bits 7..6 of DCB byte 1 are `mbz`. -/
theorem DcbOps.byte1_mbz (d : DcbOps) : d.byte1.extractLsb' 6 2 = d.mbz := by
  apply BitVec.eq_of_getLsbD_eq
  intro i hi
  rw [BitVec.getLsbD_extractLsb', DcbOps.getLsbD_byte1]
  simp only [hi, decide_true, Bool.true_and, show ¬ (6 + i < 5) by omega, show 6 + i ≠ 5 by omega, if_false]
  congr 1
  omega

/-- Bits 4..0 of DCB byte 1 are the head. -/
theorem DcbOps.byte1_head (d : DcbOps) : d.byte1.extractLsb' 0 5 = d.head := by
  apply BitVec.eq_of_getLsbD_eq
  intro i hi
  rw [BitVec.getLsbD_extractLsb', DcbOps.getLsbD_byte1]
  simp only [hi, decide_true, Bool.true_and, Nat.zero_add, if_true]

/-- Bits 5..0 of DCB byte 2 are the sector. -/
theorem DcbOps.byte2_sector (d : DcbOps) : d.byte2.extractLsb' 0 6 = d.sector := by
  apply BitVec.eq_of_getLsbD_eq
  intro i hi
  rw [BitVec.getLsbD_extractLsb', DcbOps.getLsbD_byte2]
  simp only [hi, decide_true, Bool.true_and, Nat.zero_add, if_true]

/-- Bits 7..6 of DCB byte 2 and byte 3 are the cylinder. -/
theorem DcbOps.bytes_cyl (d : DcbOps) : d.byte2.extractLsb' 6 2 ++ d.byte3 = d.cyl := by
  apply BitVec.eq_of_getLsbD_eq
  intro i hi
  rw [BitVec.getLsbD_append, BitVec.getLsbD_extractLsb', DcbOps.getLsbD_byte2, DcbOps.byte3, BitVec.getLsbD_extractLsb']
  by_cases h : i < 8
  · simp only [h, decide_true, Bool.true_and, Nat.zero_add, if_true]
  · simp only [h, if_false, show ¬ (6 + (i - 8) < 6) by omega, show 6 + (i - 8) - 6 = i - 8 by omega,
      show i - 8 < 2 by omega, show 8 + (i - 8) = i by omega, decide_true, Bool.true_and]

variable (d : DcbOps) (op : Byte)

@[simp] theorem DcbOps.toDcb_get0 : (d.toDcb op)[0] = op := rfl
@[simp] theorem DcbOps.toDcb_get1 : (d.toDcb op)[1] = d.byte1 := rfl
@[simp] theorem DcbOps.toDcb_get2 : (d.toDcb op)[2] = d.byte2 := rfl
@[simp] theorem DcbOps.toDcb_get3 : (d.toDcb op)[3] = d.byte3 := rfl
@[simp] theorem DcbOps.toDcb_get4 : (d.toDcb op)[4] = d.count := rfl
@[simp] theorem DcbOps.toDcb_get5 : (d.toDcb op)[5] = d.ctrl := rfl

/-- The operand fields of an encoded DCB are the ones it was encoded from. -/
theorem DcbOps.ofDcb_toDcb : DcbOps.ofDcb (d.toDcb op) = d := by
  simp only [DcbOps.ofDcb, DcbOps.toDcb_get1, DcbOps.toDcb_get2, DcbOps.toDcb_get3, DcbOps.toDcb_get4, DcbOps.toDcb_get5,
    DcbOps.byte1_drvsel, DcbOps.byte1_mbz, DcbOps.byte1_head, DcbOps.byte2_sector, DcbOps.bytes_cyl]

/-- The bytes of decoded operand fields are the ones they were decoded from. -/
theorem DcbOps.toDcb_ofDcb (b : Vector Byte 6) : (DcbOps.ofDcb b).toDcb b[0] = b := by
  have h1 : (DcbOps.ofDcb b).byte1 = b[1] := by
    apply BitVec.eq_of_getLsbD_eq
    intro i hi
    rw [DcbOps.getLsbD_byte1]
    simp only [DcbOps.ofDcb, BitVec.getLsbD_extractLsb']
    by_cases h : i < 5
    · simp only [h, decide_true, Bool.true_and, Nat.zero_add, if_true]
    · by_cases h5 : i = 5
      · subst h5; rfl
      · simp only [h, h5, if_false, show i - 6 < 2 by omega, decide_true, Bool.true_and]
        congr 1
        omega
  have h2 : (DcbOps.ofDcb b).byte2 = b[2] := by
    apply BitVec.eq_of_getLsbD_eq
    intro i hi
    rw [DcbOps.getLsbD_byte2]
    simp only [DcbOps.ofDcb, BitVec.getLsbD_append, BitVec.getLsbD_extractLsb']
    by_cases h : i < 6
    · simp only [h, decide_true, Bool.true_and, Nat.zero_add, if_true]
    · simp only [h, if_false, show i - 6 < 2 by omega, show ¬ (8 + (i - 6) < 8) by omega,
        show 8 + (i - 6) - 8 < 2 by omega, decide_true, Bool.true_and]
      congr 1
      omega
  have h3 : (DcbOps.ofDcb b).byte3 = b[3] := by
    apply BitVec.eq_of_getLsbD_eq
    intro i hi
    simp only [DcbOps.ofDcb, DcbOps.byte3, BitVec.getLsbD_append, BitVec.getLsbD_extractLsb', hi, decide_true,
      Bool.true_and, Nat.zero_add, if_true]
  apply Vector.ext
  intro i hi
  match i, hi with
  | 0, _ => rfl
  | 1, _ => exact h1
  | 2, _ => exact h2
  | 3, _ => exact h3
  | 4, _ => rfl
  | 5, _ => rfl

/-! The operands read from an accepted DCB. -/

variable (s : State)

@[simp] theorem accepted_drvsel : (accepted s op d).xta.drvsel = d.drvsel := DcbOps.byte1_drvsel d
@[simp] theorem accepted_head : (accepted s op d).xta.head = d.head.toNat := congrArg _ (DcbOps.byte1_head d)
@[simp] theorem accepted_sector : (accepted s op d).xta.sector = d.sector.toNat := congrArg _ (DcbOps.byte2_sector d)
@[simp] theorem accepted_cyl : (accepted s op d).xta.cyl = d.cyl.toNat := congrArg _ (DcbOps.bytes_cyl d)
@[simp] theorem accepted_cnt : (accepted s op d).xta.cnt = if d.count = 0 then 256 else d.count.toNat := rfl

/-- What the acceptance of a DCB answers on a usable Data port: its start action on the dispatcher's entry. -/
theorem State.acceptDcb_of_usable {s : State} (h : s.usable .data) (hm : d.mbz = 0) (start : State → State) :
    s.acceptDcb (d.toDcb op) start = .next (start (accepted s op d)) := by
  unfold State.acceptDcb
  rw [State.onPort_of_usable h]
  unfold State.dcbComplete
  rw [if_neg (by simp [Xta.mbz, DcbOps.byte1_mbz, hm])]
  congr 2
  simp only [State.dispatchEntry, State.enter, accepted, Xta.drvsel, DcbOps.toDcb_get1, DcbOps.byte1_drvsel,
    completionByte]
  simp
  rfl

/-- A DCB with `mbz` set is refused. -/
theorem State.acceptDcb_of_mbz {s : State} (h : s.usable .data) (hm : d.mbz ≠ 0) (start : State → State) :
    s.acceptDcb (d.toDcb op) start =
      .next (State.refuse { s with xta := { s.xta with dcb := d.toDcb op, curIdx := 6 } } .dcbMbz) := by
  unfold State.acceptDcb
  rw [State.onPort_of_usable h]
  unfold State.dcbComplete
  rw [if_pos (by simpa [Xta.mbz, DcbOps.byte1_mbz] using hm)]

/-! Drives. -/

@[simp] theorem State.drive_setDrive_same (d : Bool) (v : Drive) : (s.setDrive d v).drive d = v := by
  cases d <;> rfl

@[simp] theorem State.drive_setDrive_other (d : Bool) (v : Drive) : (s.setDrive d v).drive (!d) = s.drive (!d) := by
  cases d <;> rfl

@[simp] theorem State.disk_setDisk_same (d : Bool) (m : Memory) : (s.setDisk d m).disk d = m := by
  cases d <;> rfl

@[simp] theorem State.disk_setDisk_other (d : Bool) (m : Memory) : (s.setDisk d m).disk (!d) = s.disk (!d) := by
  cases d <;> rfl

/-- The clamp of a cylinder is the one written out in Safety. -/
theorem Drive.clamp_eq (v : Drive) (c : Nat) : v.clamp c = v.clamped c := by
  unfold Drive.clamp Drive.clamped
  split
  · rw [if_neg (by omega)]
  · rw [if_pos (by omega)]

/-- Clamping twice is clamping once. -/
theorem Drive.clamp_clamp (v : Drive) (c : Nat) : v.clamp (v.clamp c) = v.clamp c := by
  unfold Drive.clamp
  split
  · rfl
  · omega

/-- A clamped cylinder is one of the drive's. -/
theorem Drive.clamp_le (v : Drive) (c : Nat) : v.clamp c ≤ max v.tracks 1 - 1 := by
  unfold Drive.clamp
  split <;> omega

/-! Loops. -/

/-- What every pass of a loop keeps, the loop keeps. -/
theorem Flow.forEach_keeps {α : Type} {body : α → State → Flow} {P : State → Prop}
    (h : ∀ x s, P s → P (body x s).state) (xs : List α) (s : State) (hs : P s) : P (Flow.forEach body xs s).state := by
  induction xs generalizing s with
  | nil => exact hs
  | cons x xs ih =>
    have hx := h x s hs
    simp only [Flow.forEach]
    cases hb : body x s with
    | go t => rw [hb] at hx; exact ih t hx
    | halt t => rw [hb] at hx; exact hx

/-- What a routine and its continuation keep, their sequence keeps. -/
theorem Flow.andThen_keeps {f : Flow} {k : State → Flow} {P : State → Prop} (hf : P f.state)
    (hk : ∀ s, P s → P (k s).state) : P (f.andThen k).state := by
  cases f with
  | go s => exact hk s hf
  | halt s => exact hf

/-- A sequence goes on exactly where both parts do. -/
theorem Flow.andThen_go {f : Flow} {k : State → Flow} {t : State} :
    f.andThen k = .go t ↔ ∃ s, f = .go s ∧ k s = .go t := by
  cases f <;> simp [Flow.andThen]

/-! Disk accesses. -/

/-- The bytes of cells that have all been written. -/
theorem writtenBytes_eq_some (cs : List (Option Byte)) (bs : List Byte) :
    writtenBytes cs = some bs ↔ cs = bs.map some := by
  induction cs generalizing bs with
  | nil => cases bs <;> simp [writtenBytes]
  | cons c cs ih =>
    cases c with
    | none => cases bs <;> simp [writtenBytes]
    | some b =>
      simp only [writtenBytes, Option.map_eq_some_iff, ih]
      cases bs with
      | nil => simp
      | cons b' bs => simp [and_comm, eq_comm]

/-- Where a cell was never written there are no bytes. -/
theorem writtenBytes_eq_none (cs : List (Option Byte)) : writtenBytes cs = none ↔ none ∈ cs := by
  induction cs with
  | nil => simp [writtenBytes]
  | cons c cs ih => cases c <;> simp [writtenBytes, ih]

/-- The bytes of a sector buffer whose every cell has been written. -/
theorem Xta.secbufBytes_of_written {x : Xta} {b : Fin 512 → Byte} (h : ∀ i : Fin 512, x.secbuf[i] = some (b i)) :
    x.secbufBytes = some (List.ofFn b) := by
  unfold Xta.secbufBytes
  rw [writtenBytes_eq_some]
  apply List.ext_getElem
  · rw [Vector.length_toList, List.length_map, List.length_ofFn]
  · intro i h1 h2
    rw [Vector.length_toList] at h1
    rw [Vector.getElem_toList, List.getElem_map, List.getElem_ofFn]
    exact h ⟨i, h1⟩

/-- The sector buffer has 512 bytes. -/
theorem Xta.secbufBytes_length {x : Xta} {bs : List Byte} (h : x.secbufBytes = some bs) : bs.length = 512 := by
  have := congrArg List.length ((writtenBytes_eq_some _ _).1 h)
  rw [Vector.length_toList, List.length_map] at this
  exact this.symm

/-- Everything a disk write can do: it faults and writes nothing, or it stores the buffer in a sector of the image. -/
theorem State.diskWrite_cases (s : State) (d : Bool) (lba : Nat) :
    s.diskWrite d lba = .halt (s.raiseModelFault .unwrittenBuffer) ∨
    s.diskWrite d lba = .halt (s.raiseModelFault .backendRange) ∨
    ∃ bs, s.xta.secbufBytes = some bs ∧ bs.length = 512 ∧ lba < s.capacity d ∧
      s.diskWrite d lba = .go ((s.setDisk d (Mem.storeBytes (s.disk d) (lba * 512) bs)).record (.diskWrite d lba)) := by
  unfold State.diskWrite
  split
  · exact .inl rfl
  · rename_i bs hb
    split
    · rename_i hc
      exact .inr (.inr ⟨bs, hb, Xta.secbufBytes_length hb, hc, rfl⟩)
    · exact .inr (.inl rfl)

/-- A disk write of a written buffer inside the image. -/
theorem State.diskWrite_of_written {s : State} {d : Bool} {lba : Nat} {b : Fin 512 → Byte}
    (h : ∀ i : Fin 512, s.xta.secbuf[i] = some (b i)) (hc : lba < s.capacity d) :
    s.diskWrite d lba =
      .go ((s.setDisk d (Mem.storeBytes (s.disk d) (lba * 512) (List.ofFn b))).record (.diskWrite d lba)) := by
  unfold State.diskWrite
  rw [Xta.secbufBytes_of_written h]
  exact if_pos hc

/-- A disk write of a buffer with a cell that was never written. -/
theorem State.diskWrite_of_unwritten {s : State} (h : ∃ i : Fin 512, s.xta.secbuf[i] = none) (d : Bool) (lba : Nat) :
    s.diskWrite d lba = .halt (s.raiseModelFault .unwrittenBuffer) := by
  obtain ⟨i, hi⟩ := h
  have e : s.xta.secbufBytes = none := by
    unfold Xta.secbufBytes
    rw [writtenBytes_eq_none, ← hi]
    exact Vector.mem_toList_iff.2 (Vector.getElem_mem i.isLt)
  unfold State.diskWrite
  rw [e]

/-- A disk write of a written buffer beyond the image. -/
theorem State.diskWrite_beyond {s : State} {d : Bool} {lba : Nat} {b : Fin 512 → Byte}
    (h : ∀ i : Fin 512, s.xta.secbuf[i] = some (b i)) (hc : s.capacity d ≤ lba) :
    s.diskWrite d lba = .halt (s.raiseModelFault .backendRange) := by
  unfold State.diskWrite
  rw [Xta.secbufBytes_of_written h]
  exact if_neg (Nat.not_lt.2 hc)

/-- Everything a disk read can do. -/
theorem State.diskRead_cases (s : State) (d : Bool) (lba : Nat) :
    (lba < s.capacity d ∧ s.diskRead d lba =
      .go { s with xta := { s.xta with secbuf := Vector.ofFn fun i => some (s.diskByte d lba i.val) } }) ∨
    (¬ lba < s.capacity d ∧ s.diskRead d lba = .halt (s.raiseModelFault .backendRange)) := by
  unfold State.diskRead
  by_cases h : lba < s.capacity d
  · rw [if_pos h]; exact .inl ⟨h, rfl⟩
  · rw [if_neg h]; exact .inr ⟨h, rfl⟩

end Sys2Proof.Machine
end

