-- ==== Sys2Proof/Laws/Ems.lean ====
section
/-! SUPPORT. What the translation of the page frame, one byte of a memory access and an access of several bytes can do
(43_ems.md R262, R270 to R274). -/

namespace Sys2Proof.Machine

/-- The port-index exchange: slots 1 and 2 change places. -/
theorem swapSlot_eq (s : BitVec 2) : swapSlot s = if s = 1 then 2 else if s = 2 then 1 else s := by
  revert s
  decide

/-- The page index is the byte without its enable bit. -/
theorem pageIndex_eq (v : Byte) : pageIndex v = (v &&& 0x7F).toNat := by
  revert v
  decide +kernel

/-- The enable bit. -/
theorem pageEnable_iff (v : Byte) : pageEnable v = true ↔ v &&& 0x80 ≠ 0 := by
  revert v
  decide +kernel

/-- The page a register write leaves at each engine page. -/
theorem State.writePage_page (s : State) (slot q : BitVec 2) (v : Byte) :
    (s.writePage slot v).ems.page q = if q = swapSlot slot then mapPage s.cfg v else s.ems.page q := by
  unfold State.writePage Ems.page
  simp only [Vector.getElem_set]
  by_cases hq : q = swapSlot slot
  · subst hq
    rw [if_pos rfl, if_pos rfl]
  · rw [if_neg fun e => hq (BitVec.eq_of_toNat_eq e.symm), if_neg hq]

/-- An address outside the frame. -/
theorem State.translate_outside {s : State} {a : Nat} (h : ¬ (s.ems.frameBase ≤ a ∧ a < s.ems.frameBase + 0x10000)) :
    s.translate a = .outside := by
  unfold State.translate
  exact if_neg fun hc => h ⟨hc.1, hc.2.1⟩

/-- An address in a window slot. -/
theorem State.translate_slot {s : State} {a : Nat} {j : BitVec 2} (h : a < 0x100000)
    (h1 : s.ems.frameBase + 0x4000 * j.toNat ≤ a) (h2 : a < s.ems.frameBase + 0x4000 * j.toNat + 0x4000) :
    s.translate a = if (s.ems.page j).en then .ram ((s.ems.page j).phys + a % 0x4000) else .disabled j := by
  have hj : j.toNat < 4 := j.isLt
  have e : BitVec.ofNat 2 ((a - s.ems.frameBase) / 0x4000) = j := by
    apply BitVec.eq_of_toNat_eq
    rw [BitVec.toNat_ofNat]
    omega
  unfold State.translate
  rw [if_pos ⟨by omega, by omega, h⟩]
  simp only [e]

/-- Under the mapping invariant an enabled page lies in expanded memory, inside the RAM array. -/
theorem State.emsOk_bound {s : State} (h : s.emsOk) {j : BitVec 2} (he : (s.ems.page j).en = true) {x : Nat} (hx : x < 0x4000) :
    640 * 1024 ≤ (s.ems.page j).phys + x ∧ (s.ems.page j).phys + x < s.ramSize := by
  have hj := h.1 j
  unfold State.ramSize
  split at hj
  · rename_i hc
    have h1 := hc.2
    unfold emsPages at h1
    split at h1 <;> omega
  · rw [hj.1] at he
    cases he

/-- Everything one byte of a read can do: it draws or records, and changes nothing else. -/
theorem State.memReadByte_frame {s t : State} {a : Nat} {b : Byte} (h : s.memReadByte a = .ok (b, t)) :
    ∃ dr hist, t = { s with draws := dr, history := hist } := by
  unfold State.memReadByte at h
  split at h
  · cases h; exact ⟨_, _, rfl⟩
  · split at h <;> cases h <;> exact ⟨_, _, rfl⟩
  · split at h <;> cases h; exact ⟨_, _, rfl⟩

/-- Everything one byte of a write can do: it stores a byte of the RAM array that exists, or records, or does nothing. -/
theorem State.memWriteByte_cases {s t : State} {a : Nat} {v : Byte} (h : s.memWriteByte a v = .ok t) :
    t = s ∨ t = s.record (.disabledPageAccess a) ∨ ∃ x < s.ramSize, t = { s with ram := Mem.store s.ram x v } := by
  unfold State.memWriteByte at h
  split at h
  · cases h; exact .inl rfl
  · split at h <;> cases h
    · exact .inl rfl
    · exact .inr (.inl rfl)
  · split at h <;> cases h
    rename_i x _ hx
    exact .inr (.inr ⟨x, hx, rfl⟩)

/-- An address from 0x100000 on reaches no slot. -/
theorem State.translate_beyond {s : State} {a : Nat} (h : 0x100000 ≤ a) : s.translate a = .outside := by
  unfold State.translate
  exact if_neg fun hc => absurd hc.2.2 (Nat.not_lt.2 h)

/-! Byte order. -/

/-- An access of `n` bytes has `n` bytes. -/
@[simp] theorem littleEndian_length (n w : Nat) : (littleEndian n w).length = n := by
  induction n generalizing w with
  | zero => rfl
  | succ n ih => rw [littleEndian, List.length_cons, ih]

/-- The first bytes of an access are those of the shorter access. -/
theorem littleEndian_take {k n : Nat} (h : k ≤ n) (w : Nat) : (littleEndian n w).take k = littleEndian k w := by
  induction k generalizing n w with
  | zero => rfl
  | succ k ih =>
    obtain ⟨m, rfl⟩ : ∃ m, n = m + 1 := ⟨n - 1, by omega⟩
    rw [littleEndian, List.take_succ_cons, ih (by omega), littleEndian]

/-- The bytes of a value are the value, as far as the access reaches. -/
theorem fromLittleEndian_littleEndian (n w : Nat) : fromLittleEndian (littleEndian n w) = w % 0x100 ^ n := by
  induction n generalizing w with
  | zero => rw [Nat.pow_zero, Nat.mod_one]; rfl
  | succ n ih =>
    rw [littleEndian, fromLittleEndian, ih, Nat.pow_succ', Nat.mod_mul]
    simp [lowByte]

/-- Every run of bytes is that of its value. -/
theorem littleEndian_fromLittleEndian (bs : List Byte) : littleEndian bs.length (fromLittleEndian bs) = bs := by
  induction bs with
  | nil => rfl
  | cons b bs ih =>
    have hb := b.isLt
    rw [List.length_cons, littleEndian, fromLittleEndian]
    congr 1
    · apply BitVec.eq_of_toNat_eq
      simp [lowByte, Nat.mod_eq_of_lt hb]
    · rw [show (b.toNat + 0x100 * fromLittleEndian bs) / 0x100 = fromLittleEndian bs by omega, ih]

/-! Accesses of several bytes. -/

/-- A read of bytes in two parts. -/
theorem State.memReadBytes_add (n m a : Nat) (s : State) : State.memReadBytes (n + m) a s =
    match State.memReadBytes n a s with
    | .error e => .error e
    | .ok (bs, t) =>
      match State.memReadBytes m (a + n) t with
      | .error e => .error e
      | .ok (cs, u) => .ok (bs ++ cs, u) := by
  induction n generalizing a s with
  | zero =>
    rw [Nat.zero_add]
    simp only [State.memReadBytes, Nat.add_zero]
    cases State.memReadBytes m a s <;> rfl
  | succ n ih =>
    rw [Nat.add_right_comm]
    simp only [State.memReadBytes]
    cases s.memReadByte a with
    | error e => rfl
    | ok p =>
      simp only
      rw [ih]
      cases State.memReadBytes n (a + 1) p.2 with
      | error e => rfl
      | ok q =>
        simp only
        rw [Nat.add_assoc, Nat.add_comm 1 n]
        cases State.memReadBytes m (a + (n + 1)) q.2 <;> rfl

/-- A write of bytes in two parts. -/
theorem State.memWriteBytes_append (vs ws : List Byte) (a : Nat) (s : State) : State.memWriteBytes (vs ++ ws) a s =
    match State.memWriteBytes vs a s with
    | .error e => .error e
    | .ok t => State.memWriteBytes ws (a + vs.length) t := by
  induction vs generalizing a s with
  | nil => rfl
  | cons v vs ih =>
    simp only [List.cons_append, State.memWriteBytes]
    cases s.memWriteByte a v with
    | error e => rfl
    | ok t =>
      simp only
      rw [ih, List.length_cons, Nat.add_assoc, Nat.add_comm 1 vs.length]

/-- Bytes from 0x100000 on reach no slot: a read of them returns bytes and moves only the free inputs. -/
theorem State.memReadBytes_beyond (n : Nat) {a : Nat} (h : 0x100000 ≤ a) (s : State) :
    ∃ (bs : List Byte) (dr : Draws), bs.length = n ∧ State.memReadBytes n a s = .ok (bs, { s with draws := dr }) := by
  induction n generalizing a s with
  | zero => exact ⟨[], s.draws, rfl, rfl⟩
  | succ n ih =>
    obtain ⟨b, dr, e⟩ := s.drawPlatform_cases a
    obtain ⟨bs, dr', hl, e'⟩ := ih (Nat.le_succ_of_le h) { s with draws := dr }
    refine ⟨b :: bs, dr', by rw [List.length_cons, hl], ?_⟩
    unfold State.memReadBytes State.memReadByte
    rw [State.translate_beyond h]
    simp only [e, e']

/-- A write of bytes from 0x100000 on changes nothing. -/
theorem State.memWriteBytes_beyond (vs : List Byte) {a : Nat} (h : 0x100000 ≤ a) (s : State) :
    State.memWriteBytes vs a s = .ok s := by
  induction vs generalizing a with
  | nil => rfl
  | cons v vs ih =>
    unfold State.memWriteBytes State.memWriteByte
    rw [State.translate_beyond h]
    exact ih (Nat.le_succ_of_le h)

/-- A read of bytes does not look at the result of an earlier read. -/
theorem State.memReadBytes_result (n a : Nat) (s : State) (r : List Byte) :
    State.memReadBytes n a { s with result := r } =
      (State.memReadBytes n a s).map fun p => (p.1, { p.2 with result := r }) := by
  have one : ∀ (s : State) (a : Nat), ({ s with result := r } : State).memReadByte a =
      (s.memReadByte a).map fun p => (p.1, { p.2 with result := r }) := by
    intro s a
    unfold State.memReadByte
    rw [show ({ s with result := r } : State).translate a = s.translate a from rfl]
    cases s.translate a with
    | outside => rfl
    | disabled j =>
      rw [show ({ s with result := r } : State).cfg = s.cfg from rfl]
      cases s.cfg.disabledSlot <;> rfl
    | ram x =>
      rw [show ({ s with result := r } : State).ramSize = s.ramSize from rfl]
      simp only
      split <;> rfl
  induction n generalizing a s with
  | zero => rfl
  | succ n ih =>
    simp only [State.memReadBytes, one]
    cases s.memReadByte a with
    | error e => rfl
    | ok p =>
      simp only [Except.map, ih]
      cases State.memReadBytes n (a + 1) p.2 <;> rfl

end Sys2Proof.Machine
end

