-- ==== Sys2Proof/Laws/Engine.lean ====
section
/-! SUPPORT. Everything the DMA loops, the address check and the presence check can do (41_xta_engine.md R178, R185, R187): which
fields a loop that goes on has changed, and how one that stops has stopped; what a loop does with the bytes the channel takes
or supplies. And what the data phases, the seek and the sector advance leave. -/

namespace Sys2Proof.Machine

/-- A loop to the host that goes on has moved the cursor past its bytes, and otherwise only drawn and recorded. -/
theorem State.dmaOutBytes_go {k : Nat} {s t : State} (h : s.dmaOutBytes k = .go t) :
    ∃ dr hist, t = { s with draws := dr, history := hist, xta := { s.xta with curIdx := s.xta.curIdx + k } } := by
  induction k generalizing s with
  | zero => exact ⟨s.draws, s.history, (Flow.go.inj h).symm⟩
  | succ k ih =>
    unfold State.dmaOutBytes at h
    split at h
    · cases h
    · obtain ⟨a, dr, e⟩ := s.drawPut_cases
      simp only [e] at h
      split at h
      · obtain ⟨dr', hist', e'⟩ := ih h
        refine ⟨dr', hist', e'.trans ?_⟩
        simp only [State.advance, State.record, Nat.add_assoc, Nat.add_comm 1 k]
      · cases h

/-- A loop to the host that stops has met an unwritten cell or a channel that took no byte; the cursor has moved, the rest stands. -/
theorem State.dmaOutBytes_halt {k : Nat} {s t : State} (h : s.dmaOutBytes k = .halt t) :
    ∃ dr hist n, n < k ∧
      (t = State.raiseModelFault { s with draws := dr, history := hist, xta := { s.xta with curIdx := s.xta.curIdx + n } }
            .unwrittenBuffer ∨
       t = State.raiseFatal { s with draws := dr, history := hist, xta := { s.xta with curIdx := s.xta.curIdx + n } }
            .dmaExhausted) := by
  induction k generalizing s with
  | zero => cases h
  | succ k ih =>
    unfold State.dmaOutBytes at h
    split at h
    · exact ⟨s.draws, s.history, 0, by omega, .inl (Flow.halt.inj h).symm⟩
    · obtain ⟨a, dr, e⟩ := s.drawPut_cases
      simp only [e] at h
      split at h
      · obtain ⟨dr', hist', n, hn, e'⟩ := ih h
        refine ⟨dr', hist', n + 1, by omega, e'.imp (·.trans ?_) (·.trans ?_)⟩ <;>
          simp only [State.advance, State.record, Nat.add_assoc, Nat.add_comm 1 n]
      · exact ⟨dr, _, 0, by omega, .inr (Flow.halt.inj h).symm⟩

/-- A loop from the host that goes on has stored bytes in the sector buffer and moved the cursor past them. -/
theorem State.dmaInBytes_go {k : Nat} {s t : State} (h : s.dmaInBytes k = .go t) :
    ∃ dr hist buf, t = { s with
      draws := dr, history := hist, xta := { s.xta with secbuf := buf, curIdx := s.xta.curIdx + k } } := by
  induction k generalizing s with
  | zero => exact ⟨s.draws, s.history, s.xta.secbuf, (Flow.go.inj h).symm⟩
  | succ k ih =>
    unfold State.dmaInBytes at h
    obtain ⟨a, dr, e⟩ := s.drawGet_cases
    simp only [e] at h
    split at h
    · cases h
    · obtain ⟨dr', hist', buf, e'⟩ := ih h
      refine ⟨dr', hist', buf, e'.trans ?_⟩
      simp only [State.advance, State.record, State.putSecbuf, Nat.add_assoc, Nat.add_comm 1 k]

/-- A loop from the host that stops has met a channel that had no byte. -/
theorem State.dmaInBytes_halt {k : Nat} {s t : State} (h : s.dmaInBytes k = .halt t) :
    ∃ dr hist buf n, n < k ∧ t = State.raiseFatal { s with
      draws := dr, history := hist, xta := { s.xta with secbuf := buf, curIdx := s.xta.curIdx + n } } .dmaExhausted := by
  induction k generalizing s with
  | zero => cases h
  | succ k ih =>
    unfold State.dmaInBytes at h
    obtain ⟨a, dr, e⟩ := s.drawGet_cases
    simp only [e] at h
    split at h
    · exact ⟨dr, _, s.xta.secbuf, 0, by omega, (Flow.halt.inj h).symm⟩
    · obtain ⟨dr', hist', buf, n, hn, e'⟩ := ih h
      refine ⟨dr', hist', buf, n + 1, by omega, e'.trans ?_⟩
      simp only [State.advance, State.record, State.putSecbuf, Nat.add_assoc, Nat.add_comm 1 n]

/-- A loop to the host over bytes `bs` that the channel takes: the cursor has moved past them, and the loop goes on. -/
theorem State.dmaOutBytes_taken (bs : List Byte) (m : Nat) {s : State} {ps : List Bool}
    (hb : ∀ j : Nat, j < bs.length → s.xta.secbuf[s.xta.curIdx + j]? = some bs[j]?)
    (hp : s.draws.puts = List.replicate bs.length true ++ ps) :
    s.dmaOutBytes (bs.length + m) = State.dmaOutBytes m { s with
      draws := { s.draws with puts := ps }
      history := (bs.map fun b => Event.dmaPut b true).reverse ++ s.history
      xta := { s.xta with curIdx := s.xta.curIdx + bs.length } } := by
  induction bs generalizing s with
  | nil =>
    cases s
    cases hp
    simp
  | cons b bs ih =>
    have h0 : s.secbufAt = some b := by
      unfold State.secbufAt
      rw [vector_getD_eq]
      have := hb 0 (Nat.succ_pos _)
      rw [Nat.add_zero] at this
      rw [this]
      rfl
    rw [List.length_cons, Nat.add_right_comm]
    simp only [State.dmaOutBytes, h0, State.drawPut, hp, List.length_cons, List.replicate_succ, List.cons_append, if_true]
    rw [ih]
    · simp only [State.advance, State.record, List.map_cons, List.reverse_cons, List.append_assoc, List.cons_append,
        List.nil_append, Nat.add_assoc, Nat.add_comm 1]
    · intro j hj
      have := hb (j + 1) (Nat.succ_lt_succ hj)
      rw [Nat.add_comm j, ← Nat.add_assoc] at this
      rw [Nat.add_comm 1 j] at this
      exact this
    · rfl

/-- A loop from the host over bytes `bs` that the channel supplies: they stand in the sector buffer from the cursor on, the
cursor has moved past them, and the loop goes on. -/
theorem State.dmaInBytes_supplied (bs : List Byte) (m : Nat) {s : State} {gs : List (Option Byte)}
    (hi : s.xta.curIdx + bs.length ≤ 512) (hg : s.draws.gets = bs.map some ++ gs) :
    ∃ buf : Vector (Option Byte) 512,
      (∀ i : Fin 512, buf[i] =
        if s.xta.curIdx ≤ i.val ∧ i.val < s.xta.curIdx + bs.length then bs[i.val - s.xta.curIdx]? else s.xta.secbuf[i]) ∧
      s.dmaInBytes (bs.length + m) = State.dmaInBytes m { s with
        draws := { s.draws with gets := gs }
        history := (bs.map fun b => Event.dmaGet (some b)).reverse ++ s.history
        xta := { s.xta with secbuf := buf, curIdx := s.xta.curIdx + bs.length } } := by
  induction bs generalizing s with
  | nil =>
    refine ⟨s.xta.secbuf, fun i => (if_neg (by simp only [List.length_nil]; omega)).symm, ?_⟩
    cases s
    cases hg
    simp
  | cons b bs ih =>
    rw [List.length_cons] at hi
    obtain ⟨buf, hbuf, e⟩ := ih (s := (State.putSecbuf { s with
        draws := { s.draws with gets := bs.map some ++ gs }, history := .dmaGet (some b) :: s.history } b).advance)
      (by simp only [State.advance, State.putSecbuf]; omega) rfl
    refine ⟨buf, fun i => ?_, ?_⟩
    · rw [hbuf]
      simp only [State.advance, State.putSecbuf, Fin.getElem_fin, List.length_cons,
        vector_setIfInBounds_eq _ (show s.xta.curIdx < 512 by omega), Vector.getElem_set]
      by_cases h1 : i.val = s.xta.curIdx
      · rw [if_neg (by omega), if_pos h1.symm, if_pos (by omega), h1, Nat.sub_self]
        rfl
      · by_cases h2 : s.xta.curIdx + 1 ≤ i.val ∧ i.val < s.xta.curIdx + 1 + bs.length
        · rw [if_pos h2, if_pos (by omega), show i.val - s.xta.curIdx = i.val - (s.xta.curIdx + 1) + 1 by omega,
            List.getElem?_cons_succ]
        · rw [if_neg h2, if_neg (Ne.symm h1), if_neg (by omega)]
    · rw [List.length_cons, Nat.add_right_comm]
      simp only [State.dmaInBytes, State.drawGet, hg, List.map_cons, List.cons_append]
      refine Eq.trans e ?_
      simp only [State.advance, State.putSecbuf, List.reverse_cons, List.append_assoc, List.cons_append,
        List.nil_append, Nat.add_assoc, Nat.add_comm 1]

/-- The address check where the address is bad. -/
theorem State.addressed_bad {s : State} (h : ¬ s.addressOk) (k : Nat → State → Flow) :
    s.addressed k = .go (s.fail s.cfg.senseCodes.illAddr) := by
  unfold State.addressed State.getSector
  rw [if_pos]
  by_contra hc
  simp only [Drive.degenerate, not_or, not_not, Nat.not_le] at hc
  exact h ⟨Nat.pos_of_ne_zero hc.1.1, hc.2⟩

/-- The address check where the address is good. -/
theorem State.addressed_ok {s : State} (h : s.addressOk) (k : Nat → State → Flow) :
    s.addressed k = k s.cursorLba { s with xta := { s.xta with cLba := s.cursorLba } } := by
  unfold State.addressed State.getSector
  rw [if_neg]
  · rfl
  · obtain ⟨ht, hc, hh, hs⟩ := h
    have ht : 1 ≤ (s.drive s.d).tracks := ht
    have hh : s.xta.cHead < (s.drive s.d).hpc := hh
    have hs : s.xta.cSector < (s.drive s.d).spt := hs
    rintro (hg | hg | hg)
    · unfold Drive.degenerate at hg
      omega
    · exact hg hc
    · omega

/-- The next sector of a verify, where it has a SEND tick of its own. -/
theorem State.verifyNext_sendTick {s : State} (h : s.cfg.verifyLoop = .sendTick) :
    s.verifyNext = .go { s with xta := { s.xta with xst := .send, status := 0x88, pending := true } } := by
  unfold State.verifyNext
  rw [h]
  rfl

/-- The next sector of a verify, where it is checked in the tick that ends the one before it. -/
theorem State.verifyNext_sameTick {s : State} (h : s.cfg.verifyLoop = .sameTick) : s.verifyNext = s.verifyStep := by
  unfold State.verifyNext
  rw [h]

/-- The start action of a command that checks for its drive, on an absent one. -/
theorem State.checkPresent_absent {s : State} (h : (s.drive s.d).present = false) (k : State → State) :
    s.checkPresent k = s.fail s.cfg.senseCodes.notRdy := by
  unfold State.checkPresent
  rw [if_neg (by simp [h])]

/-- The start action of a command that checks for its drive, on a present one. -/
theorem State.checkPresent_present {s : State} (h : (s.drive s.d).present = true) (k : State → State) :
    s.checkPresent k = k s := by
  unfold State.checkPresent
  rw [if_pos h]

/-! Data phases. -/

/-- A phase to the host by DMA. -/
theorem State.beginOut_dma {s : State} (h : s.dmaEnabled = true) (len : Nat) :
    s.beginOut .secBuf len = { s with xta := { s.xta with
      curTgt := .secBuf, curIdx := 0, curLen := len, xst := .sdata, xferDma := true, status := 0x9A, pending := true } } := by
  unfold State.beginOut
  rw [if_pos ⟨rfl, h⟩]
  rfl

/-- A phase to the host by programmed I/O. -/
theorem State.beginOut_pio {s : State} {tgt : Target} (h : tgt = .secBuf → s.dmaEnabled = false) (len : Nat) :
    s.beginOut tgt len = { s with xta := { s.xta with
      curTgt := tgt, curIdx := 0, curLen := len, xst := .sdata, xferDma := false, status := 0x8B } } := by
  unfold State.beginOut
  rw [if_neg fun hc => Bool.false_ne_true ((h hc.1).symm.trans hc.2)]
  rfl

/-- A phase from the host by DMA. -/
theorem State.beginIn_dma {s : State} (h : s.dmaEnabled = true) (len : Nat) :
    s.beginIn .secBuf len = { s with xta := { s.xta with
      curTgt := .secBuf, curIdx := 0, curLen := len, xst := .rdata, xferDma := true, status := 0x98, pending := true } } := by
  unfold State.beginIn
  rw [if_pos ⟨rfl, h⟩]
  rfl

/-- A phase from the host by programmed I/O. -/
theorem State.beginIn_pio {s : State} {tgt : Target} (h : tgt = .secBuf → s.dmaEnabled = false) (len : Nat) :
    s.beginIn tgt len = { s with xta := { s.xta with
      curTgt := tgt, curIdx := 0, curLen := len, xst := .rdata, xferDma := false, status := 0x89 } } := by
  unfold State.beginIn
  rw [if_neg fun hc => Bool.false_ne_true ((h hc.1).symm.trans hc.2)]
  rfl

/-! Seek and sector advance. -/

/-- The sector advance changes the CHS cursor and the two drives, nothing else. -/
theorem State.nextSector_frame (s : State) (d : Bool) : ∃ c h n v0 v1, s.nextSector d = { s with
    drv0 := v0, drv1 := v1, xta := { s.xta with cSector := c, cHead := h, cTrack := n } } := by
  unfold State.nextSector
  split
  · exact ⟨_, s.xta.cHead, s.xta.cTrack, s.drv0, s.drv1, rfl⟩
  · split
    · exact ⟨_, _, s.xta.cTrack, s.drv0, s.drv1, rfl⟩
    · cases d <;> exact ⟨_, _, _, _, _, rfl⟩

/-- The sector advance looks neither at the inputs nor at the timer nor at the state of the graph. -/
theorem State.nextSector_with (s : State) (x : Xst) (p : Bool) (r : List Input) (d : Bool) :
    State.nextSector { s with inputs := r, xta := { s.xta with pending := p, xst := x } } d =
      { s.nextSector d with inputs := r, xta := { (s.nextSector d).xta with pending := p, xst := x } } := by
  have hd : ∀ x, State.drive { s with inputs := r, xta := x } d = s.drive d := fun _ => rfl
  unfold State.nextSector
  simp only [hd]
  split
  · rfl
  · split
    · rfl
    · cases d <;> rfl

/-- The sector advance changes a drive only in its head position. -/
theorem State.nextSector_drive (s : State) (d x : Bool) :
    ∃ c, (s.nextSector d).drive x = { s.drive x with curCyl := c } ∧ (c = (s.drive x).curCyl ∨ c = (s.drive x).clamp c) := by
  unfold State.nextSector
  split
  · exact ⟨_, rfl, .inl rfl⟩
  · split
    · exact ⟨_, rfl, .inl rfl⟩
    · have hcl : ∀ (v : Drive) (c : Nat), v.clamp c = v.clamp (v.clamp c) := fun v c => (v.clamp_clamp c).symm
      cases d <;> cases x
      · exact ⟨_, rfl, .inr (hcl _ _)⟩
      · exact ⟨_, rfl, .inl rfl⟩
      · exact ⟨_, rfl, .inl rfl⟩
      · exact ⟨_, rfl, .inr (hcl _ _)⟩

/-- What the sector commands do before they wait, from an accepted DCB: the CHS cursor, the count, the head position. -/
theorem State.loadAndSeek_accepted (s : State) (op : Byte) (d : DcbOps) : (accepted s op d).loadAndSeek =
    { ((accepted s op d).setDrive d.drvsel { s.drive d.drvsel with
        curCyl := (s.drive d.drvsel).clamped d.cyl.toNat }) with
      xta := { (accepted s op d).xta with
        cTrack := d.cyl.toNat, cHead := d.head.toNat, cSector := d.sector.toNat,
        count := if d.count = 0 then 256 else d.count.toNat } } := by
  unfold State.loadAndSeek State.loadChs State.doSeek State.setCyl
  simp only [accepted_cyl, accepted_head, accepted_sector, accepted_cnt]
  have e : ∀ a b c n, Xta.drvsel { (accepted s op d).xta with cTrack := a, cHead := b, cSector := c, count := n } = d.drvsel :=
    fun _ _ _ _ => accepted_drvsel d op s
  simp only [State.d, e, Drive.clamp_eq]
  cases d.drvsel <;> rfl

end Sys2Proof.Machine
end

