-- ==== Sys2Proof/Laws/Format.lean ====
section
/-! SUPPORT. What the loops of FORMAT_TRACK and FORMAT_DRIVE do (42_xta_commands.md R216, R217): the sectors they visit are
consecutive, so that a loop is a run of disk writes in ascending order, ended where the image ends. -/

namespace Sys2Proof.Machine

/-! A run of sector writes. -/

/-- The state after `n` sectors from `base` on have been written with the bytes `b`. -/
def State.filled (s : State) (d : Bool) (b : Fin 512 → Byte) (base : Nat) : Nat → State
  | 0 => s
  | n + 1 =>
    let t := s.filled d b base n
    (t.setDisk d (Mem.storeBytes (t.disk d) ((base + n) * 512) (List.ofFn b))).record (.diskWrite d (base + n))

section
variable (s : State) (d : Bool) (b : Fin 512 → Byte) (base n : Nat)

/-- A run of writes changes the images and records each write, nothing else. -/
theorem State.filled_eq : s.filled d b base n = { s with
    disk0 := (s.filled d b base n).disk0, disk1 := (s.filled d b base n).disk1,
    history := diskWrites d base n ++ s.history } := by
  induction n with
  | zero => rfl
  | succ n ih =>
    unfold State.filled
    cases d <;>
    · simp only
      rw [ih]
      rfl

/-- The other drive's image is as before. -/
theorem State.filled_other : (s.filled d b base n).disk (!d) = s.disk (!d) := by
  induction n with
  | zero => rfl
  | succ n ih => rw [State.filled]; cases d <;> exact ih

/-- The sectors of the run hold the bytes, every other sector is as before. -/
theorem State.filled_load (lba : Nat) (i : Fin 512) : Mem.load ((s.filled d b base n).disk d) (lba * 512 + i.val) =
    if base ≤ lba ∧ lba < base + n then b i else Mem.load (s.disk d) (lba * 512 + i.val) := by
  induction n with
  | zero => rw [if_neg (by omega)]; rfl
  | succ n ih =>
    have e : (s.filled d b base (n + 1)).disk d =
        Mem.storeBytes ((s.filled d b base n).disk d) ((base + n) * 512) (List.ofFn b) := by
      rw [State.filled]; cases d <;> rfl
    rw [e, Mem.load_storeSector, ih]
    by_cases h : lba = base + n
    · rw [if_pos h, if_pos (by omega)]
    · rw [if_neg h]
      by_cases h2 : base ≤ lba ∧ lba < base + n
      · rw [if_pos h2, if_pos (by omega)]
      · rw [if_neg h2, if_neg (by omega)]

end

section
variable {s : State} {d : Bool} {b : Fin 512 → Byte} {base n : Nat}

/-- The next write of a run. -/
theorem State.filled_write (hb : ∀ i : Fin 512, s.xta.secbuf[i] = some (b i)) (hc : base + n < s.capacity d) :
    (s.filled d b base n).diskWrite d (base + n) = .go (s.filled d b base (n + 1)) := by
  rw [State.diskWrite_of_written (b := b)]
  · rfl
  · rw [State.filled_eq]; exact hb
  · rw [State.filled_eq]; exact hc

/-- The next write of a run that has reached the end of the image. -/
theorem State.filled_beyond (hb : ∀ i : Fin 512, s.xta.secbuf[i] = some (b i)) (hc : s.capacity d ≤ base + n) :
    (s.filled d b base n).diskWrite d (base + n) = .halt ((s.filled d b base n).raiseModelFault .backendRange) := by
  rw [State.diskWrite_beyond (b := b)]
  · rw [State.filled_eq]; exact hb
  · rw [State.filled_eq]; exact hc

end

/-! FORMAT_TRACK. -/

/-- Addresses of cylinder `c` whose sectors are consecutive from `l` on. -/
def consecutive (v : Drive) (c : Nat) : Nat → List (Nat × Nat) → Prop
  | _, [] => True
  | l, (h, sec) :: rest =>
    h < v.hpc ∧ sec < v.spt ∧ (c * v.hpc + h) * v.spt + sec = l ∧ consecutive v c (l + 1) rest

theorem consecutive_append {v : Drive} {c l : Nat} {xs ys : List (Nat × Nat)} (hx : consecutive v c l xs)
    (hy : consecutive v c (l + xs.length) ys) : consecutive v c l (xs ++ ys) := by
  induction xs generalizing l with
  | nil => simpa using hy
  | cons x xs ih =>
    refine ⟨hx.1, hx.2.1, hx.2.2.1, ih hx.2.2.2 ?_⟩
    rw [List.length_cons] at hy
    rwa [Nat.add_assoc, Nat.add_comm 1]

/-- The last `m` sectors of a head. -/
theorem consecutive_head {v : Drive} (c : Nat) {h m : Nat} (hh : h < v.hpc) (hm : m ≤ v.spt) :
    consecutive v c ((c * v.hpc + h) * v.spt + (v.spt - m)) ((List.range' (v.spt - m) m).map fun sec => (h, sec)) := by
  induction m with
  | zero => trivial
  | succ m ih =>
    rw [List.range'_succ, List.map_cons]
    have e : v.spt - (m + 1) + 1 = v.spt - m := by omega
    refine ⟨hh, by omega, rfl, ?_⟩
    rw [Nat.add_assoc, e]
    exact ih (by omega)

/-- The last `m` heads of a cylinder. -/
theorem consecutive_heads {v : Drive} (c : Nat) {m : Nat} (hm : m ≤ v.hpc) :
    consecutive v c ((c * v.hpc + (v.hpc - m)) * v.spt)
      ((List.range' (v.hpc - m) m).flatMap fun h => (List.range v.spt).map fun sec => (h, sec)) := by
  induction m with
  | zero => trivial
  | succ m ih =>
    rw [List.range'_succ, List.flatMap_cons]
    have e : v.hpc - (m + 1) + 1 = v.hpc - m := by omega
    apply consecutive_append
    · have := consecutive_head (v := v) c (h := v.hpc - (m + 1)) (by omega) (Nat.le_refl v.spt)
      rwa [Nat.sub_self, ← List.range_eq_range', Nat.add_zero] at this
    · have := ih (by omega)
      rw [← e, ← Nat.add_assoc, Nat.add_mul, Nat.one_mul] at this
      rwa [List.length_map, List.length_range]

/-- FORMAT_TRACK visits the sectors of its cylinder in ascending order. -/
theorem trackSectors_consecutive (v : Drive) (c : Nat) : consecutive v c (c * v.hpc * v.spt) (trackSectors v) := by
  have := consecutive_heads (v := v) c (Nat.le_refl v.hpc)
  rwa [Nat.sub_self, Nat.add_zero, ← List.range_eq_range'] at this

theorem trackSectors_length (v : Drive) : (trackSectors v).length = v.hpc * v.spt := by
  unfold trackSectors
  simp [List.length_flatMap]

/-- One turn of the loop of FORMAT_TRACK on the cylinder the head is on: the sector is written. -/
theorem formatTrackSectors_cons {s : State} (ht : 1 ≤ s.cmdDrive.tracks) (hc : s.cmdDrive.curCyl = s.xta.cTrack) {l : Nat}
    {x : Nat × Nat} {xs : List (Nat × Nat)} (hx : consecutive s.cmdDrive s.xta.cTrack l (x :: xs)) :
    formatTrackSectors (x :: xs) s = (s.diskWrite s.xta.drvsel l).andThen (formatTrackSectors xs) := by
  obtain ⟨hh, hs, hl, -⟩ := hx
  have hg : s.getSector s.d s.xta.cTrack x.1 x.2 = some l := by
    unfold State.getSector
    rw [show s.drive s.d = s.cmdDrive from rfl, if_neg, hl]
    unfold Drive.degenerate
    rintro (h | h | h)
    · omega
    · exact h hc
    · omega
  unfold formatTrackSectors
  simp only [hg]
  rfl

/-- FORMAT_TRACK on a geometry with sectors, the head off the cylinder or no cylinders: ILLADDR before any write. -/
theorem tickFormatTrack_bad {s : State} (h : s.cmdDrive.curCyl ≠ s.xta.cTrack ∨ s.cmdDrive.tracks = 0)
    (hh : 1 ≤ s.cmdDrive.hpc) (hs : 1 ≤ s.cmdDrive.spt) :
    tickFormatTrack s = .go (s.fail s.cfg.senseCodes.illAddr) := by
  have hl := trackSectors_length s.cmdDrive
  have hp : 0 < s.cmdDrive.hpc * s.cmdDrive.spt := Nat.mul_pos hh hs
  unfold tickFormatTrack
  rw [show s.drive s.d = s.cmdDrive from rfl]
  cases hx : trackSectors s.cmdDrive with
  | nil => rw [hx, List.length_nil] at hl; omega
  | cons x xs =>
    unfold formatTrackSectors State.getSector
    rw [if_pos]
    exact h.symm.imp .inl .inl

/-- The loop of FORMAT_TRACK over consecutive sectors of the cylinder the head is on: it writes them all and completes, or writes
those inside the image and faults. -/
theorem formatTrackSectors_eq {s : State} {b : Fin 512 → Byte} (hb : ∀ i : Fin 512, s.xta.secbuf[i] = some (b i))
    (ht : 1 ≤ s.cmdDrive.tracks) (hc : s.cmdDrive.curCyl = s.xta.cTrack) {base n : Nat} {xs : List (Nat × Nat)}
    (hx : consecutive s.cmdDrive s.xta.cTrack (base + n) xs) (hn : base + n ≤ s.capacity s.xta.drvsel) :
    formatTrackSectors xs (s.filled s.xta.drvsel b base n) =
      if base + n + xs.length ≤ s.capacity s.xta.drvsel then
        .go (s.filled s.xta.drvsel b base (n + xs.length)).complete
      else .halt ((s.filled s.xta.drvsel b base (s.capacity s.xta.drvsel - base)).raiseModelFault .backendRange) := by
  induction xs generalizing n with
  | nil => exact (if_pos hn).symm
  | cons x xs ih =>
    have e : ∀ t : State, t = s.filled s.xta.drvsel b base n → t.cmdDrive = s.cmdDrive ∧ t.xta = s.xta := by
      rintro t rfl
      rw [State.filled_eq]
      exact ⟨rfl, rfl⟩
    obtain ⟨e1, e2⟩ := e _ rfl
    rw [formatTrackSectors_cons (l := base + n) (by rw [e1]; exact ht) (by rw [e1, e2]; exact hc) (by rw [e1, e2]; exact hx), e2]
    rw [List.length_cons]
    by_cases hl : base + n < s.capacity s.xta.drvsel
    · rw [State.filled_write hb hl]
      refine (ih (n := n + 1) hx.2.2.2 hl).trans ?_
      rw [show base + (n + 1) + xs.length = base + n + (xs.length + 1) by omega,
        show n + 1 + xs.length = n + (xs.length + 1) by omega]
    · rw [State.filled_beyond hb (Nat.not_lt.1 hl), if_neg (by omega), show s.capacity s.xta.drvsel - base = n by omega]
      rfl

/-! FORMAT_DRIVE. -/

/-- `n` sectors from 0 on written, and the head on cylinder `c`. -/
def State.formatted (s : State) (d : Bool) (b : Fin 512 → Byte) (c n : Nat) : State :=
  (s.filled d b 0 n).setDrive d { s.drive d with curCyl := c }

section
variable (s : State) (d : Bool) (b : Fin 512 → Byte) (c n : Nat)

theorem State.formatted_drive : (s.formatted d b c n).drive d = { s.drive d with curCyl := c } := by
  unfold State.formatted; exact State.drive_setDrive_same ..

theorem State.formatted_setCyl (c' : Nat) : (s.formatted d b c n).setCyl d c' = s.formatted d b c' n := by
  unfold State.setCyl
  rw [State.formatted_drive]
  unfold State.formatted
  cases d <;> rfl

theorem State.formatted_start : s.formatted d b (s.drive d).curCyl 0 = s := by
  unfold State.formatted State.filled
  cases d <;> rfl

/-- Where the loop stands after `n` sectors: it goes on, or it has faulted at the end of the image. -/
def State.formatFlow (s : State) (d : Bool) (b : Fin 512 → Byte) (c n : Nat) : Flow :=
  if n ≤ s.capacity d then .go (s.formatted d b c n)
  else .halt ((s.formatted d b c (s.capacity d)).raiseModelFault .backendRange)

end

section
variable {s : State} {d : Bool} {b : Fin 512 → Byte} {c : Nat}

/-- One write of the loop. -/
theorem State.formatted_write (hb : ∀ i : Fin 512, s.xta.secbuf[i] = some (b i)) {n : Nat} (hn : n ≤ s.capacity d) :
    (s.formatted d b c n).diskWrite d n = s.formatFlow d b c (n + 1) := by
  have hx : (s.formatted d b c n).xta = s.xta ∧ (s.formatted d b c n).capacity d = s.capacity d := by
    unfold State.formatted
    rw [State.filled_eq]
    cases d <;> exact ⟨rfl, rfl⟩
  unfold State.formatFlow
  by_cases hc : n < s.capacity d
  · rw [State.diskWrite_of_written (b := b) (by rw [hx.1]; exact hb) (by rw [hx.2]; exact hc), if_pos (Nat.succ_le_of_lt hc)]
    unfold State.formatted
    rw [State.filled]
    cases d <;>
    simp only [State.setDrive, State.setDisk, State.disk, State.record, Nat.zero_add, Bool.false_eq_true, if_false, if_true]
  · rw [State.diskWrite_beyond (b := b) (by rw [hx.1]; exact hb) (by rw [hx.2]; exact Nat.not_lt.1 hc), if_neg (by omega),
      show s.capacity d = n by omega]

/-- The last `m` sectors of a head. -/
theorem formatDrive_sectors {h m n : Nat} (hb : 0 < (s.drive d).spt → ∀ i : Fin 512, s.xta.secbuf[i] = some (b i))
    (hm : m ≤ (s.drive d).spt) (hn : n = (c * (s.drive d).hpc + h) * (s.drive d).spt + ((s.drive d).spt - m))
    (hc : n ≤ s.capacity d) :
    Flow.forEach (formatDriveSector d c h) (List.range' ((s.drive d).spt - m) m) (s.formatted d b c n) =
      s.formatFlow d b c (n + m) := by
  induction m generalizing n with
  | zero => exact (if_pos hc).symm
  | succ m ih =>
    rw [List.range'_succ]
    unfold Flow.forEach formatDriveSector
    rw [State.formatted_drive]
    simp only
    rw [← hn, State.formatted_write (hb (by omega)) hc]
    unfold State.formatFlow
    by_cases hl : n < s.capacity d
    · rw [if_pos (Nat.succ_le_of_lt hl)]
      have := ih (n := n + 1) (by omega) (by omega) hl
      rw [show (s.drive d).spt - m = (s.drive d).spt - (m + 1) + 1 by omega, show n + 1 + m = n + (m + 1) by omega] at this
      exact this
    · rw [if_neg (by omega), if_neg (by omega)]
      rfl

/-- The last `m` heads of a cylinder. -/
theorem formatDrive_heads {m n : Nat}
    (hb : 0 < (s.drive d).hpc → 0 < (s.drive d).spt → ∀ i : Fin 512, s.xta.secbuf[i] = some (b i))
    (hm : m ≤ (s.drive d).hpc) (hn : n = (c * (s.drive d).hpc + ((s.drive d).hpc - m)) * (s.drive d).spt)
    (hc : n ≤ s.capacity d) :
    Flow.forEach (fun h t => Flow.forEach (formatDriveSector d c h) (List.range (s.drive d).spt) t)
        (List.range' ((s.drive d).hpc - m) m) (s.formatted d b c n) = s.formatFlow d b c (n + m * (s.drive d).spt) := by
  induction m generalizing n with
  | zero => unfold State.formatFlow; rw [Nat.zero_mul]; exact (if_pos hc).symm
  | succ m ih =>
    rw [List.range'_succ]
    unfold Flow.forEach
    have hs := formatDrive_sectors (c := c) (h := (s.drive d).hpc - (m + 1)) (hb (by omega)) (Nat.le_refl _) (by omega) hc
    rw [Nat.sub_self, ← List.range_eq_range'] at hs
    have e : n + (m + 1) * (s.drive d).spt = n + (s.drive d).spt + m * (s.drive d).spt := by rw [Nat.add_mul]; omega
    rw [hs, e]
    unfold State.formatFlow
    by_cases hl : n + (s.drive d).spt ≤ s.capacity d
    · rw [if_pos hl]
      have e : (s.drive d).hpc - m = (s.drive d).hpc - (m + 1) + 1 := by omega
      have := ih (by omega) (by rw [hn, e, ← Nat.add_assoc, Nat.add_mul _ 1, Nat.one_mul]) hl
      rw [e] at this
      exact this
    · rw [if_neg hl, if_neg (by omega)]
      rfl

/-- The last `m` of `n` cylinders: every sector is written, or those inside the image are and the loop has faulted. -/
theorem formatDrive_cylinders {m n k c' : Nat}
    (hb : 0 < n → 0 < (s.drive d).hpc → 0 < (s.drive d).spt → ∀ i : Fin 512, s.xta.secbuf[i] = some (b i))
    (hm : c + m = n) (hk : k = c * ((s.drive d).hpc * (s.drive d).spt)) (hc : k ≤ s.capacity d) :
    Flow.forEach (fun c t => Flow.forEach
          (fun h t => Flow.forEach (formatDriveSector d c h) (List.range (s.drive d).spt) t)
          (List.range (s.drive d).hpc) (t.setCyl d c))
        (List.range' c m) (s.formatted d b c' k) =
      if n * ((s.drive d).hpc * (s.drive d).spt) ≤ s.capacity d then
        .go (s.formatted d b (if m = 0 then c' else n - 1) (n * ((s.drive d).hpc * (s.drive d).spt)))
      else .halt ((s.formatted d b (s.capacity d / ((s.drive d).hpc * (s.drive d).spt)) (s.capacity d)).raiseModelFault
        .backendRange) := by
  induction m generalizing c c' k with
  | zero =>
    obtain rfl : c = n := hm
    rw [← hk, if_pos hc, if_pos rfl]
    rfl
  | succ m ih =>
    rw [List.range'_succ]
    unfold Flow.forEach
    have hh := formatDrive_heads (c := c) (hb (by omega)) (Nat.le_refl _)
      (by rw [Nat.sub_self, Nat.add_zero, Nat.mul_assoc]; exact hk) hc
    rw [Nat.sub_self, ← List.range_eq_range'] at hh
    rw [State.formatted_setCyl, hh]
    unfold State.formatFlow
    by_cases hl : k + (s.drive d).hpc * (s.drive d).spt ≤ s.capacity d
    · rw [if_pos hl]
      refine (ih (c := c + 1) (c' := c) (by omega) (by rw [Nat.add_mul, Nat.one_mul, hk]) hl).trans ?_
      rw [if_neg (Nat.succ_ne_zero m)]
      split
      · split
        · rw [show n - 1 = c by omega]
        · rfl
      · rfl
    · have hle : (c + 1) * ((s.drive d).hpc * (s.drive d).spt) ≤ n * ((s.drive d).hpc * (s.drive d).spt) :=
        Nat.mul_le_mul_right _ (by omega)
      have hdiv : s.capacity d / ((s.drive d).hpc * (s.drive d).spt) = c := by
        rw [Nat.div_eq_iff (by omega), ← hk]
        omega
      rw [Nat.add_mul, Nat.one_mul, ← hk] at hle
      rw [if_neg hl, if_neg (by omega), hdiv]
      rfl

end

/-- The tick of FORMAT_DRIVE, the buffer written or nothing to write: every sector of the geometry is written and it completes, or
those inside the image are and it faults on the cylinder of the first one beyond. -/
theorem tickFormatDrive_eq {s : State} {b : Fin 512 → Byte}
    (hb : (∀ i : Fin 512, s.xta.secbuf[i] = some (b i)) ∨ s.cmdDrive.tracks * s.cmdDrive.hpc * s.cmdDrive.spt = 0) :
    tickFormatDrive s =
      if s.cmdDrive.tracks * s.cmdDrive.hpc * s.cmdDrive.spt ≤ s.capacity s.xta.drvsel then
        .go (s.formatted s.xta.drvsel b (if 1 ≤ s.cmdDrive.tracks then s.cmdDrive.tracks - 1 else s.cmdDrive.curCyl)
          (s.cmdDrive.tracks * s.cmdDrive.hpc * s.cmdDrive.spt)).complete
      else .halt ((s.formatted s.xta.drvsel b (s.capacity s.xta.drvsel / (s.cmdDrive.hpc * s.cmdDrive.spt))
        (s.capacity s.xta.drvsel)).raiseModelFault .backendRange) := by
  have h := formatDrive_cylinders (s := s) (d := s.xta.drvsel) (b := b) (n := s.cmdDrive.tracks) (c' := s.cmdDrive.curCyl)
    (fun h1 h2 h3 => hb.resolve_right (Nat.ne_of_gt (Nat.mul_pos (Nat.mul_pos h1 h2) h3))) (Nat.zero_add _)
    (Nat.zero_mul _).symm (Nat.zero_le _)
  rw [← List.range_eq_range', show s.formatted s.xta.drvsel b s.cmdDrive.curCyl 0 = s from State.formatted_start s _ b] at h
  unfold tickFormatDrive
  simp only [show s.d = s.xta.drvsel from rfl, show s.drive s.xta.drvsel = s.cmdDrive from rfl] at h ⊢
  rw [h, ← Nat.mul_assoc]
  split
  · simp only [Flow.andThen]
    by_cases h0 : s.cmdDrive.tracks = 0
    · rw [if_pos h0, if_neg (by omega)]
    · rw [if_neg h0, if_pos (by omega)]
  · rfl

end Sys2Proof.Machine
end

