-- ==== Sys2Proof/Laws/PerInstr.lean ====
section
/-! SUPPORT. Per-instruction families: one lemma per constructor of Instr. -/

namespace Sys2Proof.Laws

/-- The format of an operation and the number of its bytes (30_encoding.md R100): a port operation is the four bytes of a PORT
access, a memory operation the five of a MEM access, a command the six of a DCB. -/
def EncodeForm.Statement (i : Instr) : Prop :=
  ∀ c : Machine.DecodeCtx,
    (Machine.opPort i = none → (encode c i).1 = .mem) ∧
    (Machine.opPort i ≠ none → (encode c i).1 = .port ∨ ((encode c i).1 = .dcb ∧ Machine.opPort i = some .data)) ∧
    (encode c i).2.length = match (encode c i).1 with | .port => 4 | .mem => 5 | .dcb => 6

theorem EncodeForm.xtaDataW (v : Byte) : EncodeForm.Statement (.xtaDataW v) :=
  fun _ => ⟨nofun, fun _ => .inl rfl, rfl⟩
theorem EncodeForm.xtaDataR : EncodeForm.Statement .xtaDataR :=
  fun _ => ⟨nofun, fun _ => .inl rfl, rfl⟩
theorem EncodeForm.xtaResetW (v : Byte) : EncodeForm.Statement (.xtaResetW v) :=
  fun _ => ⟨nofun, fun _ => .inl rfl, rfl⟩
theorem EncodeForm.xtaStatusR : EncodeForm.Statement .xtaStatusR :=
  fun _ => ⟨nofun, fun _ => .inl rfl, rfl⟩
theorem EncodeForm.xtaSelectW (v : Byte) : EncodeForm.Statement (.xtaSelectW v) :=
  fun _ => ⟨nofun, fun _ => .inl rfl, rfl⟩
theorem EncodeForm.xtaJumpersR : EncodeForm.Statement .xtaJumpersR :=
  fun _ => ⟨nofun, fun _ => .inl rfl, rfl⟩
theorem EncodeForm.xtaIntrW (v : Byte) : EncodeForm.Statement (.xtaIntrW v) :=
  fun _ => ⟨nofun, fun _ => .inl rfl, rfl⟩
theorem EncodeForm.xtaPort3R : EncodeForm.Statement .xtaPort3R :=
  fun _ => ⟨nofun, fun _ => .inl rfl, rfl⟩
theorem EncodeForm.emsPageW (slot : BitVec 2) (v : Byte) : EncodeForm.Statement (.emsPageW slot v) :=
  fun _ => ⟨nofun, fun _ => .inl rfl, rfl⟩
theorem EncodeForm.emsPageR (slot : BitVec 2) : EncodeForm.Statement (.emsPageR slot) :=
  fun _ => ⟨nofun, fun _ => .inl rfl, rfl⟩
theorem EncodeForm.chipIndexW (v : Byte) : EncodeForm.Statement (.chipIndexW v) :=
  fun _ => ⟨nofun, fun _ => .inl rfl, rfl⟩
theorem EncodeForm.chipIndexR : EncodeForm.Statement .chipIndexR :=
  fun _ => ⟨nofun, fun _ => .inl rfl, rfl⟩
theorem EncodeForm.emsCfgW (v : Byte) : EncodeForm.Statement (.emsCfgW v) :=
  fun _ => ⟨nofun, fun _ => .inl rfl, rfl⟩
theorem EncodeForm.emsCfgR : EncodeForm.Statement .emsCfgR :=
  fun _ => ⟨nofun, fun _ => .inl rfl, rfl⟩
theorem EncodeForm.chipDataW (v : Byte) : EncodeForm.Statement (.chipDataW v) :=
  fun _ => ⟨nofun, fun _ => .inl rfl, rfl⟩
theorem EncodeForm.chipDataR : EncodeForm.Statement .chipDataR :=
  fun _ => ⟨nofun, fun _ => .inl rfl, rfl⟩
theorem EncodeForm.xtaCmdTestReady (d : DcbOps) : EncodeForm.Statement (.xtaCmdTestReady d) :=
  fun _ => ⟨nofun, fun _ => .inr ⟨rfl, rfl⟩, rfl⟩
theorem EncodeForm.xtaCmdRecalibrate (d : DcbOps) : EncodeForm.Statement (.xtaCmdRecalibrate d) :=
  fun _ => ⟨nofun, fun _ => .inr ⟨rfl, rfl⟩, rfl⟩
theorem EncodeForm.xtaCmdReadSense (d : DcbOps) : EncodeForm.Statement (.xtaCmdReadSense d) :=
  fun _ => ⟨nofun, fun _ => .inr ⟨rfl, rfl⟩, rfl⟩
theorem EncodeForm.xtaCmdFormatDrive (d : DcbOps) : EncodeForm.Statement (.xtaCmdFormatDrive d) :=
  fun _ => ⟨nofun, fun _ => .inr ⟨rfl, rfl⟩, rfl⟩
theorem EncodeForm.xtaCmdReadVerify (d : DcbOps) : EncodeForm.Statement (.xtaCmdReadVerify d) :=
  fun _ => ⟨nofun, fun _ => .inr ⟨rfl, rfl⟩, rfl⟩
theorem EncodeForm.xtaCmdFormatTrack (d : DcbOps) : EncodeForm.Statement (.xtaCmdFormatTrack d) :=
  fun _ => ⟨nofun, fun _ => .inr ⟨rfl, rfl⟩, rfl⟩
theorem EncodeForm.xtaCmdReadSectors (d : DcbOps) : EncodeForm.Statement (.xtaCmdReadSectors d) :=
  fun _ => ⟨nofun, fun _ => .inr ⟨rfl, rfl⟩, rfl⟩
theorem EncodeForm.xtaCmdWriteSectors (d : DcbOps) : EncodeForm.Statement (.xtaCmdWriteSectors d) :=
  fun _ => ⟨nofun, fun _ => .inr ⟨rfl, rfl⟩, rfl⟩
theorem EncodeForm.xtaCmdSeek (d : DcbOps) : EncodeForm.Statement (.xtaCmdSeek d) :=
  fun _ => ⟨nofun, fun _ => .inr ⟨rfl, rfl⟩, rfl⟩
theorem EncodeForm.xtaCmdSetDriveParams (d : DcbOps) : EncodeForm.Statement (.xtaCmdSetDriveParams d) :=
  fun _ => ⟨nofun, fun _ => .inr ⟨rfl, rfl⟩, rfl⟩
theorem EncodeForm.xtaCmdReadSectorBuffer (d : DcbOps) : EncodeForm.Statement (.xtaCmdReadSectorBuffer d) :=
  fun _ => ⟨nofun, fun _ => .inr ⟨rfl, rfl⟩, rfl⟩
theorem EncodeForm.xtaCmdWriteSectorBuffer (d : DcbOps) : EncodeForm.Statement (.xtaCmdWriteSectorBuffer d) :=
  fun _ => ⟨nofun, fun _ => .inr ⟨rfl, rfl⟩, rfl⟩
theorem EncodeForm.xtaCmdRamDiag (d : DcbOps) : EncodeForm.Statement (.xtaCmdRamDiag d) :=
  fun _ => ⟨nofun, fun _ => .inr ⟨rfl, rfl⟩, rfl⟩
theorem EncodeForm.xtaCmdDriveDiag (d : DcbOps) : EncodeForm.Statement (.xtaCmdDriveDiag d) :=
  fun _ => ⟨nofun, fun _ => .inr ⟨rfl, rfl⟩, rfl⟩
theorem EncodeForm.xtaCmdCtrlDiag (d : DcbOps) : EncodeForm.Statement (.xtaCmdCtrlDiag d) :=
  fun _ => ⟨nofun, fun _ => .inr ⟨rfl, rfl⟩, rfl⟩
theorem EncodeForm.xtaCmdIllegal (op : Byte) (d : DcbOps) : EncodeForm.Statement (.xtaCmdIllegal op d) :=
  fun _ => ⟨nofun, fun _ => .inr ⟨rfl, rfl⟩, rfl⟩
theorem EncodeForm.emsMemR (a : Addr) : EncodeForm.Statement (.emsMemR a) :=
  fun _ => ⟨fun _ => rfl, fun h => absurd rfl h, rfl⟩
theorem EncodeForm.emsMemW (a : Addr) (v : Byte) : EncodeForm.Statement (.emsMemW a v) :=
  fun _ => ⟨fun _ => rfl, fun h => absurd rfl h, rfl⟩

end Sys2Proof.Laws
end

