-- ==== Sys2Proof/Laws/Step.lean ====
section
/-! SUPPORT. What one step can be: an operation that was decoded, an access outside the block, a word access, an access of several
bytes, a tick, or nothing. And what the tick of a command is. -/

namespace Sys2Proof.Machine

/-- Only a machine that is not stopped has a step. -/
theorem step_running {s t : State} (h : step s = .next t) : s.running := (State.ifRunning_next.1 h).1

/-- Only a machine that is not stopped runs an operation. -/
theorem exec_running {s t : State} {i : Instr} (h : exec i s = .next t) : s.running := by
  cases i <;> exact (State.ifRunning_next.1 h).1

/-- The step of a machine that is not stopped. -/
theorem step_eq_cycle {s : State} (h : s.running) : step s = s.cycle := State.ifRunning_of_running h _

/-- Everything one step can do. In each case the next input, if any, has been taken off the list. A tick it fires was due; an
operation it runs is a byte access that was decoded. -/
theorem step_cases {s t : State} (h : step s = .next t) :
    ∃ u : State, (∃ rest, u = { s with inputs := rest }) ∧ u.running ∧
      (t = u ∨
       ((∃ rest, s.tickDue rest ∧ u = { s with inputs := rest }) ∧ t = u.fire) ∨
       (∃ f bytes i, f ≠ .dcb ∧ decode u.decodeCtx f bytes = .ok i ∧ exec i u = .next t) ∨
       t = u.refuse .widePortAccess ∨
       (∃ a n, u.memRead a n = .next t) ∨
       (∃ a vs, u.memWrite a vs = .next t)) := by
  have hr := step_running h
  rw [step_eq_cycle hr] at h
  have tick : ∀ u : State, u.runTick = .next t → t = u ∨ (u.xta.pending = true ∧ t = u.fire) := by
    intro u hu
    unfold State.runTick at hu
    split at hu
    · rename_i hp
      exact .inr ⟨hp, (Host.Outcome.next.inj hu).symm⟩
    · exact .inl (Host.Outcome.next.inj hu).symm
  have access : ∀ (u : State) f bytes, f ≠ .dcb → u.runAccess f bytes = .next t →
      t = u ∨ ∃ f bytes i, f ≠ .dcb ∧ decode u.decodeCtx f bytes = .ok i ∧ exec i u = .next t := by
    intro u f bytes hf hu
    unfold State.runAccess at hu
    split at hu
    · rename_i i hi
      exact .inr ⟨f, bytes, i, hf, hi, hu⟩
    · exact .inl (Host.Outcome.next.inj hu).symm
    · cases hu
  unfold State.cycle at h
  split at h
  · rename_i hi
    have e : s = { s with inputs := [] } := by cases s; cases hi; rfl
    refine ⟨s, ⟨s.inputs, rfl⟩, hr, ?_⟩
    exact (tick s h).imp_right fun ht => .inl ⟨⟨[], ⟨hr, ht.1, .inl ⟨hi, rfl⟩⟩, e⟩, ht.2⟩
  · rename_i rest hi
    refine ⟨s.withInputs rest, ⟨rest, rfl⟩, hr, ?_⟩
    exact (tick _ h).imp_right fun ht => .inl ⟨⟨rest, ⟨hr, ht.1, .inr hi⟩, rfl⟩, ht.2⟩
  · rename_i bytes rest _
    refine ⟨s.withInputs rest, ⟨rest, rfl⟩, hr, ?_⟩
    exact (access _ _ _ (by decide) h).imp_right fun h => .inr (.inl h)
  · rename_i bytes rest _
    refine ⟨s.withInputs rest, ⟨rest, rfl⟩, hr, ?_⟩
    exact (access _ _ _ (by decide) h).imp_right fun h => .inr (.inl h)
  · rename_i p rest _
    refine ⟨s.withInputs rest, ⟨rest, rfl⟩, hr, ?_⟩
    unfold State.runPortWord at h
    split at h
    · exact .inl (Host.Outcome.next.inj h).symm
    · exact .inr (.inr (.inr (.inl (Host.Outcome.next.inj h).symm)))
  · rename_i a n rest _
    exact ⟨s.withInputs rest, ⟨rest, rfl⟩, hr, .inr (.inr (.inr (.inr (.inl ⟨_, _, h⟩))))⟩
  · rename_i a vs rest _
    exact ⟨s.withInputs rest, ⟨rest, rfl⟩, hr, .inr (.inr (.inr (.inr (.inr ⟨_, _, h⟩))))⟩

/-- What an operation on a port, or a command, can be: refused for the collision of its port, or the effect of its meaning. -/
theorem exec_port_cases {s t : State} {i : Instr} {r : PortReg} (hp : opPort i = some r) (h : exec i s = .next t) :
    t = s.refuse .portCollision ∨ s.portFree r := by
  cases i <;> simp only [opPort, Option.some.injEq, reduceCtorEq] at hp <;> subst hp <;>
    exact (State.onPort_next.1 h).2.imp And.right And.left

/-- The step of a memory write of several bytes, stopped or not. -/
theorem step_memWriteWide (s : State) (a : Addr) (n w : Nat) (rest : List Input) :
    step { s with inputs := .memWriteWide a n w :: rest } =
      State.memWrite { s with inputs := rest } a.toNat (littleEndian n w) := by
  unfold step State.memWrite State.cycle State.ifRunning
  simp only
  cases s.fatal <;> cases s.mfault <;> cases s.refusal <;> rfl

/-- The step of a memory read of several bytes, stopped or not. -/
theorem step_memReadWide (s : State) (a : Addr) (n : Nat) (rest : List Input) :
    step { s with inputs := .memReadWide a n :: rest } = State.memRead { s with inputs := rest } a.toNat n := by
  unfold step State.memRead State.cycle State.ifRunning
  simp only
  cases s.fatal <;> cases s.mfault <;> cases s.refusal <;> rfl

/-- A tick that is due fires. -/
theorem step_of_tickDue {s : State} {rest : List Input} (h : s.tickDue rest) :
    step s = .next (State.fire { s with inputs := rest }) := by
  obtain ⟨hr, hp, hi⟩ := h
  rw [step_eq_cycle hr]
  unfold State.cycle
  rcases hi with ⟨hi, rfl⟩ | hi
  · rw [hi]
    unfold State.runTick
    rw [if_pos hp]
    cases s
    cases hi
    rfl
  · rw [hi]
    unfold State.runTick
    exact if_pos hp

/-- The tick of a command with a row in the tick table runs that row's action, with the tick taken. -/
theorem step_of_tickOf {s : State} {rest : List Input} {c : Cmd} {x : Xst} {dma : Bool} (h : s.tickOf rest c x dma)
    {action : State → Flow} (ha : tickTable (some c) x dma = some action) :
    step s = .next (action { s with inputs := rest, xta := { s.xta with pending := false } }).state := by
  obtain ⟨hd, hc, rfl, rfl⟩ := h
  rw [step_of_tickDue hd]
  have e : tickTable (State.command { s with inputs := rest, xta := { s.xta with pending := false } }) s.xta.xst s.xta.xferDma
      = some action := by
    rw [show State.command { s with inputs := rest, xta := { s.xta with pending := false } } = some c from hc]
    exact ha
  unfold State.fire State.cancel
  simp only [e]

end Sys2Proof.Machine
end

