-- ==== Sys2Proof/Tests/Slice0.lean ====
section
/-! SUPPORT. The model's own tests: ill-formed operations are refused, words written out from 30_encoding.md decode to their
operations, single steps do what the vectors of 95_test_vectors.md say (V and E numbers in the docstrings), and for every
obligation with hypotheses a state and operands that meet them. -/

namespace Sys2Proof.Tests

open Sys2Proof Sys2Proof.Machine

/-! Helpers. -/

/-- What a step or an operation leaves, seen through a function; nothing where it stops. -/
def seen {α : Type} (r : Result) (f : State → α) : Option α :=
  match r with
  | .next t => some (f t)
  | _ => none

/-- The reset state with another engine. -/
def engine (f : Xta → Xta) : State := { State.reset with xta := f State.reset.xta }

/-- The reset state with other parameters. -/
def configured (f : Params → Params) : State := { State.reset with cfg := f State.reset.cfg }

/-- The reset state with the EMS unit changed. -/
def mapped (f : Ems → Ems) : State := { State.reset with ems := f State.reset.ems }

/-- DCB operands of all zeros: drive 0, CHS (0, 0, 0), count 0 (256). -/
def dcb0 : DcbOps := { mbz := 0, drvsel := false, head := 0, sector := 0, cyl := 0, count := 0, ctrl := 0 }

/-- The engine in a state waiting for the tick of a command, `op` its opcode byte. -/
def waiting (op : Byte) (x : Xst) (f : Xta → Xta) : State :=
  engine fun e => f { e with
    xst := x, status := 0x88, pending := true, dcb := #v[op, 0, 0, 0, 0, 0], count := 1 }

/-! WellFormed: one ill-formed term for each check. -/

/-- Offset +3 of a window at 0xFFFE is no 16-bit port (R61). -/
theorem test_wf_port_beyond_16_bits :
    Instr.wellFormed { tableCtx with xtaBase := 0xFFFE } (.xtaIntrW 1) = false := by decide

/-- The Select port of a window at 0x20 is the chipset index port (R61, R275). -/
theorem test_wf_shared_port :
    Instr.wellFormed { tableCtx with xtaBase := 0x20 } .xtaJumpersR = false := by decide

/-- A Data write while the sixth DCB byte is awaited is the command (R140, R172). -/
theorem test_wf_data_write_that_ends_a_dcb :
    Instr.wellFormed { tableCtx with lastDcbByte := some #v[0, 0, 0, 0, 0, 0] } (.xtaDataW 1) = false := by decide

/-- Port 0x23 with another index latched is not the EMS configuration register (R268). -/
theorem test_wf_config_write_at_another_index :
    Instr.wellFormed { tableCtx with chipIndex := some 0x40 } (.emsCfgW 1) = false := by decide

/-- Nor with no index latched (R267). -/
theorem test_wf_config_read_without_index :
    Instr.wellFormed { tableCtx with chipIndex := none } .emsCfgR = false := by decide

/-- Port 0x23 with the EMS index latched is no other register (R266). -/
theorem test_wf_chip_data_at_the_config_index :
    Instr.wellFormed tableCtx (.chipDataW 1) = false := by decide

/-- A SEEK whose P_CMD value is that of READ_SECTORS has no opcode of its own (R108). -/
theorem test_wf_command_without_an_opcode_of_its_own :
    Instr.wellFormed { tableCtx with cmd := { tableCtx.cmd with seek := 0x08 } } (.xtaCmdSeek dcb0) = false := by decide

/-- 0x0B is SEEK, no unrecognised opcode (R225). -/
theorem test_wf_illegal_opcode_that_is_a_command :
    Instr.wellFormed tableCtx (.xtaCmdIllegal 0x0B dcb0) = false := by decide

/-! Decoding: a word for every constructor, written out from the encodings of 30_encoding.md R100 to R107. -/

theorem test_decode_xtaDataW :
    decode tableCtx .port [0x20, 0x03, 0, 0x55] = .ok (.xtaDataW 0x55) := by decide

theorem test_decode_xtaDataR :
    decode tableCtx .port [0x20, 0x03, 1, 0x00] = .ok (.xtaDataR) := by decide

theorem test_decode_xtaResetW :
    decode tableCtx .port [0x21, 0x03, 0, 0xFF] = .ok (.xtaResetW 0xFF) := by decide

theorem test_decode_xtaStatusR :
    decode tableCtx .port [0x21, 0x03, 1, 0x00] = .ok (.xtaStatusR) := by decide

theorem test_decode_xtaSelectW :
    decode tableCtx .port [0x22, 0x03, 0, 0x01] = .ok (.xtaSelectW 1) := by decide

theorem test_decode_xtaJumpersR :
    decode tableCtx .port [0x22, 0x03, 1, 0x00] = .ok (.xtaJumpersR) := by decide

theorem test_decode_xtaIntrW :
    decode tableCtx .port [0x23, 0x03, 0, 0x03] = .ok (.xtaIntrW 3) := by decide

theorem test_decode_xtaPort3R :
    decode tableCtx .port [0x23, 0x03, 1, 0x00] = .ok (.xtaPort3R) := by decide

theorem test_decode_emsPageW :
    decode tableCtx .port [0x08, 0xC2, 0, 0x97] = .ok (.emsPageW 3 0x97) := by decide

theorem test_decode_emsPageR :
    decode tableCtx .port [0x08, 0x42, 1, 0x00] = .ok (.emsPageR 1) := by decide

theorem test_decode_chipIndexW :
    decode tableCtx .port [0x22, 0x00, 0, 0x4C] = .ok (.chipIndexW 0x4C) := by decide

theorem test_decode_chipIndexR :
    decode tableCtx .port [0x22, 0x00, 1, 0x00] = .ok (.chipIndexR) := by decide

theorem test_decode_emsCfgW :
    decode tableCtx .port [0x23, 0x00, 0, 0x14] = .ok (.emsCfgW 0x14) := by decide

theorem test_decode_emsCfgR :
    decode tableCtx .port [0x23, 0x00, 1, 0x00] = .ok (.emsCfgR) := by decide

theorem test_decode_chipDataW :
    decode { tableCtx with chipIndex := some 0x40 } .port [0x23, 0x00, 0, 0x77] = .ok (.chipDataW 0x77) := by decide

theorem test_decode_chipDataR :
    decode { tableCtx with chipIndex := none } .port [0x23, 0x00, 1, 0x00] = .ok .chipDataR := by decide

/-- The fields of R102, R103: byte 1 is `01 1 11111`, byte 2 is `11 010000`. -/
theorem test_decode_dcb_fields :
    DcbOps.ofDcb #v[0x08, 0x7F, 0xD0, 0x05, 0x03, 0x7F] =
      { mbz := 1, drvsel := true, head := 31, sector := 0x10, cyl := 0x305, count := 3, ctrl := 0x7F } := by decide

theorem test_decode_xtaCmdTestReady :
    decode tableCtx .dcb [0x00, 0x21, 0x50, 0x05, 0x03, 0x80] = .ok (.xtaCmdTestReady
      { mbz := 0, drvsel := true, head := 1, sector := 0x10, cyl := 0x105, count := 3, ctrl := 0x80 }) := by decide

theorem test_decode_xtaCmdRecalibrate :
    decode tableCtx .dcb [0x01, 0x21, 0x50, 0x05, 0x03, 0x80] = .ok (.xtaCmdRecalibrate
      { mbz := 0, drvsel := true, head := 1, sector := 0x10, cyl := 0x105, count := 3, ctrl := 0x80 }) := by decide

theorem test_decode_xtaCmdReadSense :
    decode tableCtx .dcb [0x03, 0x21, 0x50, 0x05, 0x03, 0x80] = .ok (.xtaCmdReadSense
      { mbz := 0, drvsel := true, head := 1, sector := 0x10, cyl := 0x105, count := 3, ctrl := 0x80 }) := by decide

theorem test_decode_xtaCmdFormatDrive :
    decode tableCtx .dcb [0x04, 0x21, 0x50, 0x05, 0x03, 0x80] = .ok (.xtaCmdFormatDrive
      { mbz := 0, drvsel := true, head := 1, sector := 0x10, cyl := 0x105, count := 3, ctrl := 0x80 }) := by decide

theorem test_decode_xtaCmdReadVerify :
    decode tableCtx .dcb [0x05, 0x21, 0x50, 0x05, 0x03, 0x80] = .ok (.xtaCmdReadVerify
      { mbz := 0, drvsel := true, head := 1, sector := 0x10, cyl := 0x105, count := 3, ctrl := 0x80 }) := by decide

theorem test_decode_xtaCmdFormatTrack :
    decode tableCtx .dcb [0x06, 0x21, 0x50, 0x05, 0x03, 0x80] = .ok (.xtaCmdFormatTrack
      { mbz := 0, drvsel := true, head := 1, sector := 0x10, cyl := 0x105, count := 3, ctrl := 0x80 }) := by decide

theorem test_decode_xtaCmdReadSectors :
    decode tableCtx .dcb [0x08, 0x21, 0x50, 0x05, 0x03, 0x80] = .ok (.xtaCmdReadSectors
      { mbz := 0, drvsel := true, head := 1, sector := 0x10, cyl := 0x105, count := 3, ctrl := 0x80 }) := by decide

theorem test_decode_xtaCmdWriteSectors :
    decode tableCtx .dcb [0x0A, 0x21, 0x50, 0x05, 0x03, 0x80] = .ok (.xtaCmdWriteSectors
      { mbz := 0, drvsel := true, head := 1, sector := 0x10, cyl := 0x105, count := 3, ctrl := 0x80 }) := by decide

theorem test_decode_xtaCmdSeek :
    decode tableCtx .dcb [0x0B, 0x21, 0x50, 0x05, 0x03, 0x80] = .ok (.xtaCmdSeek
      { mbz := 0, drvsel := true, head := 1, sector := 0x10, cyl := 0x105, count := 3, ctrl := 0x80 }) := by decide

theorem test_decode_xtaCmdSetDriveParams :
    decode tableCtx .dcb [0x0C, 0x21, 0x50, 0x05, 0x03, 0x80] = .ok (.xtaCmdSetDriveParams
      { mbz := 0, drvsel := true, head := 1, sector := 0x10, cyl := 0x105, count := 3, ctrl := 0x80 }) := by decide

theorem test_decode_xtaCmdReadSectorBuffer :
    decode tableCtx .dcb [0x0E, 0x21, 0x50, 0x05, 0x03, 0x80] = .ok (.xtaCmdReadSectorBuffer
      { mbz := 0, drvsel := true, head := 1, sector := 0x10, cyl := 0x105, count := 3, ctrl := 0x80 }) := by decide

theorem test_decode_xtaCmdWriteSectorBuffer :
    decode tableCtx .dcb [0x0F, 0x21, 0x50, 0x05, 0x03, 0x80] = .ok (.xtaCmdWriteSectorBuffer
      { mbz := 0, drvsel := true, head := 1, sector := 0x10, cyl := 0x105, count := 3, ctrl := 0x80 }) := by decide

theorem test_decode_xtaCmdRamDiag :
    decode tableCtx .dcb [0xE0, 0x21, 0x50, 0x05, 0x03, 0x80] = .ok (.xtaCmdRamDiag
      { mbz := 0, drvsel := true, head := 1, sector := 0x10, cyl := 0x105, count := 3, ctrl := 0x80 }) := by decide

theorem test_decode_xtaCmdDriveDiag :
    decode tableCtx .dcb [0xE3, 0x21, 0x50, 0x05, 0x03, 0x80] = .ok (.xtaCmdDriveDiag
      { mbz := 0, drvsel := true, head := 1, sector := 0x10, cyl := 0x105, count := 3, ctrl := 0x80 }) := by decide

theorem test_decode_xtaCmdCtrlDiag :
    decode tableCtx .dcb [0xE4, 0x21, 0x50, 0x05, 0x03, 0x80] = .ok (.xtaCmdCtrlDiag
      { mbz := 0, drvsel := true, head := 1, sector := 0x10, cyl := 0x105, count := 3, ctrl := 0x80 }) := by decide

theorem test_decode_xtaCmdIllegal :
    decode tableCtx .dcb [0x07, 0x00, 0x00, 0x00, 0x00, 0x00] = .ok (.xtaCmdIllegal 0x07 dcb0) := by decide

theorem test_decode_emsMemR :
    decode tableCtx .mem [0x10, 0x40, 0x0C, 1, 0x00] = .ok (.emsMemR 0xC4010) := by decide

theorem test_decode_emsMemW :
    decode tableCtx .mem [0xFF, 0x7F, 0x0C, 0, 0x11] = .ok (.emsMemW 0xC7FFF 0x11) := by decide

theorem test_decode_refuses_other_ports :
    decode tableCtx .port [0x24, 0x03, 0, 0x55] = .error .unclaimedPort ∧
      decode tableCtx .port [0x20, 0x03, 2, 0x55] = .error .badDirection ∧
      decode tableCtx .mem [0x00, 0x00, 0x10, 1, 0x00] = .error .addressTooWide ∧
      decode tableCtx .dcb [0x00] = .error .wrongLength := by decide

/-! Single steps. -/

/-- V2: the Select strobe, fetched from where the next access is placed. -/
theorem test_step_runs_a_placed_word :
    seen (step (State.reset.withFetchWord 16 0x0322)) (fun t => (t.xta.xst, t.xta.status)) = some (.rdata, 0x0D) := by decide

/-- V15, V40: the sixth byte of a TEST_READY DCB. -/
theorem test_step_runs_a_placed_dcb :
    seen (step (State.reset.withFetchWord 8 0x00)) (fun t => (t.xta.xst, t.xta.status, t.xta.comp)) = some (.compl, 0x0E, 0) := by decide

/-- V3. -/
theorem test_dataW_violation :
    seen (exec (.xtaDataW 0x55) State.reset) (fun t => (t.xta.sense, t.xta.status, t.history)) =
      some (0x20, 0x00, [.protocolViolation .write 0x320]) := by decide

/-- E7. -/
theorem test_dataW_sixth_byte_of_an_absent_drive :
    seen (exec (.xtaDataW 0) ((engine fun e => { e with intr := 0x02 }).receiving #v[0, 0x20, 0, 0, 0, 0xFF]))
      (fun t => (t.xta.xst, t.xta.status, t.xta.comp, t.xta.sense, t.history.length, t.xta.pending)) =
      some (.compl, 0x2E, 0x22, 0x04, 1, false) := by decide

/-- V10. -/
theorem test_dataR_completion :
    seen (exec .xtaDataR (engine fun e => { e with xst := .compl, status := 0x2E, comp := 0x22 }))
      (fun t => (t.result, t.xta.xst, t.xta.status)) = some ([0x22], .idle, 0x00) := by decide

/-- V65. -/
theorem test_dataR_unwritten_cell :
    seen (exec .xtaDataR (engine fun e => { e with xst := .sdata, status := 0x8B, curTgt := .secBuf, curLen := 512 }))
      (fun t => (t.mfault, t.xta.curIdx)) = some (some .unwrittenBuffer, 0) := by decide +kernel

/-- V13. -/
theorem test_resetW_in_a_phase :
    seen (exec (.xtaResetW 0xFF) (engine fun e => { e with
        xst := .sdata, status := 0x8B, curTgt := .secBuf, curIdx := 10, curLen := 512, sense := 0x04 }))
      (fun t => (t.xta.xst, t.xta.status, t.xta.curTgt, t.xta.curIdx, t.xta.curLen, t.xta.sense)) =
      some (.idle, 0x00, .none, 0, 0, 0x04) := by decide

/-- V14. -/
theorem test_resetW_cancels_the_tick :
    seen (exec (.xtaResetW 0) (waiting 0x08 .sdata fun e => { e with status := 0x9A, xferDma := true }))
      (fun t => (t.xta.pending, t.xta.xferDma)) = some (false, false) := by decide

/-- V9. -/
theorem test_statusR :
    seen (exec .xtaStatusR (engine fun e => { e with xst := .compl, status := 0x2E })) (fun t => (t.result, t.xta.status)) =
      some ([0x2E], 0x2E) := by decide

/-- V12. -/
theorem test_selectW_discards_a_completion :
    seen (exec (.xtaSelectW 0) (engine fun e => { e with xst := .compl, status := 0x2E, comp := 0x22 }))
      (fun t => (t.xta.xst, t.xta.status, t.xta.curTgt, t.xta.curLen, t.irqOutput)) = some (.rdata, 0x0D, .dcbBuf, 6, false) := by decide

/-- V8. -/
theorem test_jumpersR :
    seen (exec .xtaJumpersR (configured fun p => { p with jumpers := 0xFF })) (fun t => t.result) = some [0xFF] := by decide

/-- V7. -/
theorem test_intrW :
    seen (exec (.xtaIntrW 0x03) State.reset) (fun t => (t.xta.intr, t.xta.status)) = some (0x03, 0x00) := by decide

/-- V7: any byte; here the environment answers 0xA7. -/
theorem test_port3R_reads_any_byte :
    seen (exec .xtaPort3R { State.reset with draws := { State.reset.draws with bytes := [0xA7] } })
      (fun t => (t.result, t.draws.bytes)) = some ([0xA7], []) := by decide

/-- V82. -/
theorem test_emsPageW_swaps_the_slot :
    seen (exec (.emsPageW 2 0x82) State.reset) (fun t => (t.ems.page 1, t.ems.page 2)) =
      some (⟨0x82, true, 0xA8000⟩, ⟨0, false, 0⟩) := by decide

/-- V84. -/
theorem test_emsPageW_index_too_high :
    seen (exec (.emsPageW 3 0x98) State.reset) (fun t => t.ems.page 3) = some ⟨0x98, false, 0⟩ := by decide

/-- P4: slot 2 reads engine page 1, the raw byte. -/
theorem test_emsPageR :
    seen (exec (.emsPageR 2) (mapped fun e => { e with pages := #v[⟨0, false, 0⟩, ⟨0x98, false, 0⟩, ⟨0, false, 0⟩, ⟨0, false, 0⟩] }))
      (fun t => t.result) = some [0x98] := by decide

/-- V92. -/
theorem test_chipIndexW :
    seen (exec (.chipIndexW 0x40) State.reset) (fun t => (t.ems.chipIndex, t.ems.emsCfg)) = some (some 0x40, 0) := by decide

/-- V95. -/
theorem test_chipIndexR :
    seen (exec .chipIndexR { State.reset with draws := { State.reset.draws with bytes := [0x11] } }) (fun t => t.result) =
      some [0x11] := by decide

/-- V89. -/
theorem test_emsCfgW :
    seen (exec (.emsCfgW 0x14) (mapped fun e => { e with chipIndex := some 0x4C }))
      (fun t => (t.ems.portBase, t.ems.frameBase, (t.ems.page 2).en)) = some (0x0218, 0xD0000, false) := by decide

/-- V93. -/
theorem test_emsCfgW_highest :
    seen (exec (.emsCfgW 0xFF) (mapped fun e => { e with chipIndex := some 0x4C }))
      (fun t => (t.ems.portBase, t.ems.frameBase, t.translate 0xFC000, t.translate 0x100000)) =
      some (0x02F8, 0xFC000, .disabled 0, .outside) := by decide

/-- V91. -/
theorem test_emsCfgR :
    seen (exec .emsCfgR (mapped fun e => { e with chipIndex := some 0x4C, emsCfg := 0x14 })) (fun t => t.result) = some [0x14] := by decide

/-- V92. -/
theorem test_chipDataW_at_another_index :
    seen (exec (.chipDataW 0x77) (mapped fun e => { e with chipIndex := some 0x40, emsCfg := 0x14 }))
      (fun t => t.ems.emsCfg) = some 0x14 := by decide

/-- V88. -/
theorem test_chipDataW_without_index :
    seen (exec (.chipDataW 0x14) State.reset) (fun t => (t.refusal, t.ems.emsCfg)) = some (some .chipIndexUnwritten, 0) := by decide

/-- R267, for a read. -/
theorem test_chipDataR_without_index :
    seen (exec .chipDataR State.reset) (fun t => t.refusal) = some (some .chipIndexUnwritten) := by decide

/-- V40. -/
theorem test_testReady :
    seen (exec (.xtaCmdTestReady dcb0) State.reset) (fun t => (t.xta.xst, t.xta.comp, t.xta.sense, t.xta.pending)) = some (.compl, 0x00, 0x00, false) := by decide

/-- V41. -/
theorem test_testReady_absent :
    seen (exec (.xtaCmdTestReady { dcb0 with drvsel := true }) State.reset) (fun t => (t.xta.xst, t.xta.comp, t.xta.sense, t.xta.pending)) = some (.compl, 0x22, 0x04, false) := by decide

/-- V42. -/
theorem test_recalibrate :
    seen (exec (.xtaCmdRecalibrate dcb0) (State.reset.setCyl false 5)) (fun t => (t.drv0.curCyl, t.xta.comp)) = some (0, 0) := by decide

/-- V43. -/
theorem test_recalibrate_absent :
    seen (exec (.xtaCmdRecalibrate { dcb0 with drvsel := true }) State.reset) (fun t => (t.xta.xst, t.xta.comp, t.xta.sense, t.xta.pending)) = some (.compl, 0x22, 0x04, false) := by decide

/-- V45. -/
theorem test_readSense :
    seen (exec (.xtaCmdReadSense dcb0) (engine fun e => { e with sense := 0x15, cTrack := 12 }))
      (fun t => (t.xta.sensebuf, t.xta.xst, t.xta.status, t.xta.curLen)) = some (#v[0x15, 0x00, 0x00, 0x0C], .sdata, 0x8B, 4) := by decide

/-- R105: cylinder 0x305, sector 0x41 of which six bits show. -/
theorem test_readSense_cursor :
    seen (exec (.xtaCmdReadSense { dcb0 with drvsel := true }) (engine fun e => { e with cTrack := 0x305, cSector := 0x41 }))
      (fun t => t.xta.sensebuf) = some #v[0x00, 0x20, 0xC1, 0x05] := by decide

/-- R216 at dispatch. -/
theorem test_formatDrive :
    seen (exec (.xtaCmdFormatDrive dcb0) State.reset) (fun t => (t.xta.xst, t.xta.status, t.xta.pending)) = some (.rdone, 0x88, true) := by decide

/-- V47 at dispatch. -/
theorem test_readVerify_clamps :
    seen (exec (.xtaCmdReadVerify { dcb0 with cyl := 12, count := 1 }) State.reset)
      (fun t => (t.drv0.curCyl, t.xta.cTrack, t.xta.xst, t.xta.count)) = some (9, 12, .send, 1) := by decide

/-- V57 at dispatch. -/
theorem test_formatTrack :
    seen (exec (.xtaCmdFormatTrack { dcb0 with cyl := 3 }) State.reset) (fun t => (t.drv0.curCyl, t.xta.xst, t.xta.pending)) =
      some (3, .rdone, true) := by decide

/-- V48 at dispatch. -/
theorem test_readSectors :
    seen (exec (.xtaCmdReadSectors { dcb0 with head := 1, sector := 16, cyl := 5, count := 1 }) State.reset)
      (fun t => (t.drv0.curCyl, t.xta.cTrack, t.xta.cHead, t.xta.cSector, t.xta.count, t.xta.xst)) = some (5, 5, 1, 16, 1, .send) := by decide

/-- E6 at dispatch. -/
theorem test_readSectors_count_zero :
    seen (exec (.xtaCmdReadSectors dcb0) State.reset) (fun t => t.xta.count) = some 256 := by decide

/-- P3 at dispatch. -/
theorem test_writeSectors :
    seen (exec (.xtaCmdWriteSectors { dcb0 with count := 1 }) State.reset) (fun t => (t.xta.xst, t.xta.status, t.xta.pending)) =
      some (.recv, 0x88, true) := by decide

/-- V59. -/
theorem test_seek :
    seen (exec (.xtaCmdSeek { dcb0 with cyl := 9 }) State.reset) (fun t => (t.drv0.curCyl, t.xta.comp)) = some (9, 0x00) := by decide

/-- V60. -/
theorem test_seek_beyond :
    seen (exec (.xtaCmdSeek { dcb0 with cyl := 12 }) State.reset) (fun t => (t.drv0.curCyl, t.xta.comp, t.xta.sense, t.xta.cTrack)) =
      some (9, 0x02, 0x15, 12) := by decide

/-- P7 at dispatch; never by DMA (R176). -/
theorem test_setDriveParams :
    seen (exec (.xtaCmdSetDriveParams dcb0) (engine fun e => { e with intr := 0x01 }))
      (fun t => (t.xta.xst, t.xta.status, t.xta.curTgt, t.xta.curLen, t.xta.xferDma)) = some (.rdata, 0x89, .paramBuf, 8, false) := by decide

/-- V65 at dispatch. -/
theorem test_readSectorBuffer_pio :
    seen (exec (.xtaCmdReadSectorBuffer dcb0) State.reset) (fun t => (t.xta.xst, t.xta.status, t.xta.curLen, t.xta.pending)) =
      some (.sdata, 0x8B, 512, false) := by decide

/-- P6 at dispatch. -/
theorem test_writeSectorBuffer_dma :
    seen (exec (.xtaCmdWriteSectorBuffer dcb0) (engine fun e => { e with intr := 0x03 }))
      (fun t => (t.xta.xst, t.xta.status, t.xta.xferDma, t.xta.pending)) = some (.rdata, 0x98, true, true) := by decide

/-- V66 at dispatch. -/
theorem test_ramDiag :
    seen (exec (.xtaCmdRamDiag dcb0) State.reset) (fun t => (t.xta.xst, t.xta.comp, t.xta.pending)) = some (.rdone, 0x00, true) := by decide

/-- V67. -/
theorem test_driveDiag_absent :
    seen (exec (.xtaCmdDriveDiag { dcb0 with drvsel := true }) State.reset) (fun t => (t.xta.xst, t.xta.comp, t.xta.sense, t.xta.pending)) = some (.compl, 0x22, 0x04, false) := by decide

/-- V68: no presence check. -/
theorem test_ctrlDiag_absent :
    seen (exec (.xtaCmdCtrlDiag { dcb0 with drvsel := true }) State.reset) (fun t => (t.xta.xst, t.xta.comp, t.xta.sense, t.xta.pending)) = some (.rdone, 0x20, 0x00, true) := by decide

/-- V69. -/
theorem test_illegal_absent :
    seen (exec (.xtaCmdIllegal 0x07 { dcb0 with drvsel := true }) State.reset) (fun t => (t.xta.xst, t.xta.comp, t.xta.sense, t.xta.pending)) = some (.compl, 0x22, 0x20, false) := by decide

/-- V70. -/
theorem test_illegal_irq :
    seen (exec (.xtaCmdIllegal 0xFF dcb0) (engine fun e => { e with intr := 0x02 }))
      (fun t => (t.xta.status, t.xta.comp, t.xta.sense)) = some (0x2E, 0x02, 0x20) := by decide

/-- V32. -/
theorem test_mbz_is_refused :
    seen (exec (.xtaCmdTestReady { dcb0 with mbz := 1, ctrl := 7 }) (State.reset.receiving #v[0, 0x40, 0, 0, 0, 0]))
      (fun t => (t.refusal, t.xta.dcb[5], t.xta.status)) = some (some .dcbMbz, 7, 0x0D) := by decide

/-- Slots 0 and 1 of the window mapped, as after V80 and V82. -/
def v82 : State := mapped fun e => { e with pages := #v[⟨0x80, true, 0xA0000⟩, ⟨0x82, true, 0xA8000⟩, ⟨0, false, 0⟩, ⟨0, false, 0⟩] }

/-- V100. -/
theorem test_emsMemR :
    seen (exec (.emsMemR 0xC4010) { v82 with ram := [(0xA8010, 0x5A)] }) (fun t => t.result) = some [0x5A] := by decide

/-- V103. -/
theorem test_emsMemR_disabled_all_ones :
    seen (exec (.emsMemR 0xC0000) (configured fun p => { p with disabledSlot := .emsAllOnes }))
      (fun t => (t.result, t.history)) = some ([0xFF], [.disabledPageAccess 0xC0000]) := by decide

/-- V101. -/
theorem test_emsMemW :
    seen (exec (.emsMemW 0xC7FFF 0x11) v82) (fun t => t.ram) = some [(0xABFFF, 0x11)] := by decide

/-- R273, fallthrough: the block drops the write. -/
theorem test_emsMemW_disabled :
    seen (exec (.emsMemW 0xC8000 0x12) v82) (fun t => (t.ram, t.history)) = some ([], []) := by decide

/-- V106. -/
theorem test_wide_read_crosses_slots :
    seen (step { v82 with ram := [(0xA3FFF, 0x34), (0xA8000, 0x12)], inputs := [.memReadWide 0xC3FFF 2] }) (fun t => (t.result, t.readValue)) =
      some ([0x34, 0x12], 0x1234) := by decide

/-- R65, R274: a word write across the same boundary puts its low byte at the lower address. -/
theorem test_wide_write_crosses_slots :
    seen (step { v82 with inputs := [.memWriteWide 0xC3FFF 2 0x1234] }) (fun t => t.ram) =
      some [(0xA3FFF, 0x34), (0xA8000, 0x12)] := by decide

/-- V104, V105. -/
theorem test_translate_edges :
    v82.translate 0xBFFFF = .outside ∧ v82.translate 0xC0000 = .ram 0xA0000 ∧ v82.translate 0xCFFFF = .disabled 3 ∧
      v82.translate 0xD0000 = .outside := by decide

/-- V20 to V23. -/
theorem test_getSector :
    let s := State.reset.setCyl false 5;
    s.getSector false 5 1 16 = some 203 ∧ s.getSector false 5 2 0 = none ∧ s.getSector false 5 0 17 = none ∧
      s.getSector false 4 0 0 = none := by decide

/-- V25, V26, V27. -/
theorem test_doSeek :
    (State.reset.doSeek false 12).1 = false ∧ (State.reset.doSeek false 12).2.drv0.curCyl = 9 ∧
      (State.reset.doSeek false 9).1 = true ∧ ({ State.reset.drv0 with tracks := 0 } : Drive).clamp 0 = 0 := by decide

/-- 42_xta_commands.md R219, 92_eei_decisions.md D41: with no heads every seek fails and the head is on cylinder 0. -/
theorem test_doSeek_no_heads :
    let s := { State.reset with drv0 := ⟨true, 5, 17, 0, 10⟩ };
    (s.doSeek false 3).1 = false ∧ (s.doSeek false 3).2.drv0.curCyl = 0 := by decide

/-- D41: with no cylinders the address check of cylinder 0 fails too. -/
theorem test_getSector_no_cylinders :
    ({ State.reset with drv0 := ⟨true, 0, 17, 2, 0⟩ } : State).getSector false 0 0 0 = none := by decide

/-- V29. -/
theorem test_nextSector_carries :
    let s := (engine fun e => { e with cTrack := 9, cHead := 1, cSector := 16 }).setCyl false 9;
    ((s.nextSector false).xta.cTrack, (s.nextSector false).xta.cHead, (s.nextSector false).xta.cSector,
      (s.nextSector false).drv0.curCyl) = (10, 0, 0, 9) := by decide

/-- V87, E4. -/
theorem test_emsPages :
    emsPages State.reset.cfg = 24 ∧ emsPages { State.reset.cfg with memSizeKib := 1000 } = 22 ∧
      (mapPage State.reset.cfg 0x85).phys = 0xB4000 ∧ (mapPage State.reset.cfg 0x05).en = false := by decide

/-- E5 (90_conflicts.md C2). -/
theorem test_swapSlot :
    swapSlot 0 = 0 ∧ swapSlot 1 = 2 ∧ swapSlot 2 = 1 ∧ swapSlot 3 = 3 := by decide

/-- V49. -/
theorem test_tick_bad_head :
    seen (step (waiting 0x08 .send fun e => { e with cHead := 2 })) (fun t => (t.xta.xst, t.xta.comp, t.xta.sense)) =
      some (.compl, 0x02, 0x21) := by decide

/-- V46, D24: the SDONE tick after the first of two verified sectors waits for the second one's SEND tick. -/
theorem test_tick_verify_next_sector :
    seen (step (waiting 0x05 .sdone fun e => { e with count := 2 }))
      (fun t => (t.xta.xst, t.xta.status, t.xta.pending, t.xta.count, t.xta.cSector, t.xta.cLba)) =
        some (.send, 0x88, true, 1, 1, 0) := by decide

/-- A verify of two sectors at the end of the first, under the reading of R185 (log entry 41). -/
def verifySameTick : State :=
  { waiting 0x05 .sdone fun e => { e with count := 2 } with cfg := { resetParams with verifyLoop := .sameTick } }

/-- R185: the same tick checks the second sector. -/
theorem test_tick_verify_next_sector_same_tick :
    seen (step verifySameTick) (fun t => (t.xta.xst, t.xta.pending, t.xta.count, t.xta.cSector, t.xta.cLba)) =
      some (.sdone, true, 1, 1, 1) := by decide

/-- V62. -/
theorem test_tick_setDriveParams :
    seen (step ((waiting 0x0C .rdone fun e => { e with parambuf := #v[0, 5, 2, 0, 0, 0, 0, 0] }).setCyl false 9))
      (fun t => (t.drv0, t.xta.comp)) = some (⟨true, 4, 17, 2, 5⟩, 0x00) := by decide +kernel

/-- V35. -/
theorem test_tick_dma_exhausted :
    seen (step { waiting 0x0F .rdata fun e => { e with status := 0x98, xferDma := true, curTgt := .secBuf, curLen := 512 } with
        draws := { State.reset.draws with chunks := [1], gets := [none] } })
      (fun t => (t.fatal, t.xta.xst, t.xta.curIdx, t.history)) = some (some .dmaExhausted, .fatal, 0, [.dmaGet none]) := by decide

/-- R217, D41: FORMAT_TRACK of cylinder 0 on a drive without cylinders is an address error, before any write. -/
theorem test_tick_format_no_cylinders :
    seen (step { waiting 0x06 .rdone id with drv0 := ⟨true, 0, 17, 2, 0⟩ }) (fun t => (t.xta.xst, t.xta.comp, t.xta.sense, t.mfault)) =
      some (.compl, 0x02, 0x21, none) := by decide +kernel

/-- V55. -/
theorem test_tick_unwritten_format :
    seen (step (waiting 0x04 .rdone id)) (fun t => (t.mfault, t.disk0)) = some (some .unwrittenBuffer, []) := by decide +kernel

/-! Witnesses: for every obligation with hypotheses, a concrete state and operands that meet all of them together, one for each
clause, at boundary values of the ranges. -/

theorem witness_DecodeOfEncodeIsTheOperation :
    Instr.wellFormed tableCtx (.xtaPort3R) = true ∧ Instr.wellFormed tableCtx (.emsPageW 3 0xFF) = true ∧
      Instr.wellFormed tableCtx (.xtaCmdCtrlDiag dcb0) = true ∧ Instr.wellFormed tableCtx (.xtaCmdIllegal 0xFF dcb0) = true ∧
      Instr.wellFormed tableCtx (.emsMemW 0xFFFFF 0xFF) = true := by decide

theorem witness_EncodeOfDecodeIsTheBytes :
    tableCtx.lastDcbByte = none ∧ decode tableCtx .port [0x23, 0x03, 1, 0x00] = .ok .xtaPort3R ∧
      decode tableCtx .mem [0xFF, 0xFF, 0x0F, 0, 0xFF] = .ok (.emsMemW 0xFFFFF 0xFF) ∧
      decode tableCtx .dcb [0x00, 0x00, 0x00, 0x00, 0x00, 0x00] = .ok (.xtaCmdTestReady dcb0) := by decide

theorem witness_CommandOfAnOpcodeByte :
    ∀ a b : Cmd, cmdCode defaultCmdCodes a = cmdCode defaultCmdCodes b → a = b := by
  intro a b
  cases a <;> cases b <;> decide

/-- The reset state with something to come. -/
def coming (l : List Input) : State := { State.reset with inputs := l }

theorem witness_StepRunsTheDecodedOperation :
    ((coming [.port [0x21, 0x03, 1, 0x00]]).inputs = [.port [0x21, 0x03, 1, 0x00]] ∧
      decode (coming [.port [0x21, 0x03, 1, 0x00]]).decodeCtx .port [0x21, 0x03, 1, 0x00] = .ok .xtaStatusR) ∧
    ((coming [.mem [0x00, 0x00, 0x0C, 1, 0x00]]).inputs = [.mem [0x00, 0x00, 0x0C, 1, 0x00]] ∧
      decode (coming [.mem [0x00, 0x00, 0x0C, 1, 0x00]]).decodeCtx .mem [0x00, 0x00, 0x0C, 1, 0x00] = .ok (.emsMemR 0xC0000)) := by decide

theorem witness_SixthDataByteRunsTheCommand :
    let s := State.reset.receiving #v[0x08, 0, 0, 0, 1, 0];
    s.xta.xst = .rdata ∧ s.xta.status &&& 0x01 ≠ 0 ∧ s.xta.curTgt = .dcbBuf ∧ s.xta.curIdx = 5 ∧ s.xta.curLen = 6 := by decide

/-- Log entry 40: with a register of the block at port 0x0000, a word access at port 0xFFFF reaches no port of the block. -/
theorem test_word_access_at_the_last_port :
    seen (step { configured (fun p => { p with xtaBase := 0 }) with inputs := [.portWord 0xFFFF] }) (fun t => t.refusal) = some none := by
  decide

/-- The second access touches the block with its second byte only. -/
theorem witness_PortsOutsideTheBlockAndWordAccesses :
    (State.reset.running ∧ (coming [.port [0x24, 0x03, 1, 0x00]]).inputs = [.port [0x24, 0x03, 1, 0x00]] ∧ ((1 : Byte) = 0 ∨ (1 : Byte) = 1) ∧
      State.reset.decodeCtx.claims 0x324 = []) ∧
    ((coming [.portWord 0x31F]).running ∧ (coming [.portWord 0x31F]).inputs = [.portWord 0x31F] ∧
      State.reset.decodeCtx.claims 0x31F = [] ∧ State.reset.decodeCtx.claims 0x320 ≠ []) := by decide

theorem witness_StoppedMachineHasNoStep :
    ¬ State.running { State.reset with fatal := some .dmaExhausted } ∧
      ¬ State.running { State.reset with mfault := some .backendRange } ∧
      ¬ State.running { State.reset with refusal := some .dcbMbz } := by decide

theorem witness_SharedPortIsRefused :
    let s := configured fun p => { p with xtaBase := 0x20 };
    (s.running ∧ opPort .chipIndexR = some .chipIndex ∧ s.decodeCtx.collides .chipIndex = true ∧
      opPort .xtaJumpersR = some .select ∧ s.decodeCtx.collides .select = true) ∧
    (State.reset.cfg.xtaBase = 0x320 ∧ State.reset.cfg.indexPort = 0x22 ∧ State.reset.cfg.dataPort = 0x23 ∧
      State.reset.ems.portBase = 0x0208 ||| (State.reset.ems.emsCfg &&& 0xF0).setWidth 16) := by decide

/-- Every port of the block can be used right after reset: the witness of ResetStrobeForcesIdle, SelectStrobeStartsReception,
WindowReadsChangeNothing, EnableWriteStoresTheByte, PageWriteSetsTheSwappedPage, PageReadReturnsTheRawByte (raw),
IndexPortLatchesTheIndex, and DataPortAtOtherIndices (no index). -/
theorem witness_usable :
    ∀ r ∈ PortReg.all, State.reset.usable r := by decide

theorem witness_WindowReadsChangeNothing :
    let s := { State.reset with draws := { State.reset.draws with bytes := [0xA7] } };
    s.usable .status ∧ s.usable .select ∧ s.usable .intr ∧ s.draws.bytes = [0xA7] := by decide

theorem witness_DataWriteStoresOneByte :
    (let s := (engine fun e => { e with xst := .rdata, status := 0x0D, curTgt := .dcbBuf, curIdx := 4, curLen := 6 });
      s.usable .data ∧ s.xta.xst = .rdata ∧ s.xta.status &&& 0x01 ≠ 0 ∧ s.xta.curIdx + 1 < s.xta.curLen ∧ s.xta.curTgt = .dcbBuf) ∧
    (let s := (engine fun e => { e with xst := .rdata, status := 0x89, curTgt := .paramBuf, curIdx := 6, curLen := 8 });
      s.usable .data ∧ s.xta.xst = .rdata ∧ s.xta.status &&& 0x01 ≠ 0 ∧ s.xta.curIdx + 1 < s.xta.curLen ∧ s.xta.curTgt = .paramBuf) ∧
    (let s := (engine fun e => { e with xst := .rdata, status := 0x89, curTgt := .secBuf, curIdx := 510, curLen := 512 });
      s.usable .data ∧ s.xta.xst = .rdata ∧ s.xta.status &&& 0x01 ≠ 0 ∧ s.xta.curIdx + 1 < s.xta.curLen ∧ s.xta.curTgt = .secBuf) := by decide

theorem witness_LastDataWriteEndsThePhase :
    (let s := (engine fun e => { e with xst := .rdata, status := 0x89, curTgt := .paramBuf, curIdx := 7, curLen := 8 });
      s.usable .data ∧ s.xta.xst = .rdata ∧ s.xta.status &&& 0x01 ≠ 0 ∧ s.xta.curIdx + 1 = s.xta.curLen ∧ s.xta.curTgt = .paramBuf) ∧
    (let s := (engine fun e => { e with xst := .rdata, status := 0x89, curTgt := .secBuf, curIdx := 511, curLen := 512 });
      s.usable .data ∧ s.xta.xst = .rdata ∧ s.xta.status &&& 0x01 ≠ 0 ∧ s.xta.curIdx + 1 = s.xta.curLen ∧ s.xta.curTgt = .secBuf) := by decide

theorem witness_UnexpectedDataAccessIsAViolation :
    let s := { State.reset with draws := { State.reset.draws with bytes := [0xA7] } };
    s.usable .data ∧ ¬ (s.xta.xst = .rdata ∧ s.xta.status &&& 0x01 ≠ 0) ∧ s.xta.xst ≠ .compl ∧
      ¬ (s.xta.xst = .sdata ∧ s.xta.status &&& 0x01 ≠ 0) ∧ s.draws.bytes = [0xA7] := by decide

/-- In RDATA, but of a DMA phase, where REQ is clear. -/
theorem witness_UnexpectedDataAccessIsAViolation_dma :
    let s := engine fun e => { e with xst := .rdata, status := 0x98, xferDma := true, curTgt := .secBuf, curLen := 512 };
    s.usable .data ∧ ¬ (s.xta.xst = .rdata ∧ s.xta.status &&& 0x01 ≠ 0) := by decide

theorem witness_CompletionReadReturnsToIdle :
    let s := engine fun e => { e with xst := .compl, status := 0x2E, comp := 0x22 };
    s.usable .data ∧ s.xta.xst = .compl := by decide

theorem witness_DataReadReturnsThePhaseByte_sense :
    (let s := engine fun e => { e with xst := .sdata, status := 0x8B, curTgt := .senseBuf, curIdx := 2, curLen := 4 };
      s.usable .data ∧ s.xta.xst = .sdata ∧ s.xta.status &&& 0x01 ≠ 0 ∧
      (s.xta.curTgt = .senseBuf ∧ s.xta.sensebuf[s.xta.curIdx]? = some 0x00) ∧ s.xta.curIdx + 1 < s.xta.curLen) ∧
    (let s := engine fun e => { e with xst := .sdata, status := 0x8B, curTgt := .senseBuf, curIdx := 3, curLen := 4 };
      s.usable .data ∧ s.xta.xst = .sdata ∧ s.xta.status &&& 0x01 ≠ 0 ∧
      (s.xta.curTgt = .senseBuf ∧ s.xta.sensebuf[s.xta.curIdx]? = some 0x00) ∧ s.xta.curIdx + 1 = s.xta.curLen) := by decide

/-- A sector buffer of 0xE5 bytes. -/
def filled : Vector (Option Byte) 512 := Vector.replicate 512 (some 0xE5)

theorem filled_get (i : Fin 512) : filled[i] = some 0xE5 := Vector.getElem_replicate i.isLt

theorem filled_get? {i : Nat} (h : i < 512) : filled[i]? = some (some 0xE5) := by
  unfold filled
  rw [Vector.getElem?_replicate, if_pos h]

theorem witness_DataReadReturnsThePhaseByte_sector :
    (let s := engine fun e => { e with
        xst := .sdata, status := 0x8B, curTgt := .secBuf, curIdx := 510, curLen := 512, secbuf := filled };
      (s.usable .data ∧ s.xta.xst = .sdata ∧ s.xta.status &&& 0x01 ≠ 0 ∧ s.xta.curIdx + 1 < s.xta.curLen) ∧
      (s.xta.curTgt = .secBuf ∧ s.xta.secbuf[s.xta.curIdx]? = some (some 0xE5))) ∧
    (let s := engine fun e => { e with
        xst := .sdata, status := 0x8B, curTgt := .secBuf, curIdx := 511, curLen := 512, secbuf := filled };
      (s.usable .data ∧ s.xta.xst = .sdata ∧ s.xta.status &&& 0x01 ≠ 0 ∧ s.xta.curIdx + 1 = s.xta.curLen) ∧
      (s.xta.curTgt = .secBuf ∧ s.xta.secbuf[s.xta.curIdx]? = some (some 0xE5))) :=
  ⟨⟨by decide, rfl, filled_get? (by decide)⟩, ⟨by decide, rfl, filled_get? (by decide)⟩⟩

theorem witness_DataReadReturnsThePhaseByte_unwritten :
    let s := engine fun e => { e with xst := .sdata, status := 0x8B, curTgt := .secBuf, curIdx := 511, curLen := 512 };
    (s.usable .data ∧ s.xta.xst = .sdata ∧ s.xta.status &&& 0x01 ≠ 0) ∧
      s.xta.curTgt = .secBuf ∧ s.xta.secbuf[s.xta.curIdx]? = some none :=
  ⟨by decide, rfl, by
    show (Vector.replicate 512 (none : Option Byte))[511]? = some none
    rw [Vector.getElem?_replicate, if_pos (by decide)]⟩

/-- Page index 23 of 24 is mapped, 24 is not (V83, V84). -/
theorem witness_PageByteMapping :
    ((0x97 : Byte) &&& 0x80 ≠ 0 ∧ ((0x97 : Byte) &&& 0x7F).toNat < (1024 - 640) / 16) ∧
      ¬ ((0x98 : Byte) &&& 0x80 ≠ 0 ∧ ((0x98 : Byte) &&& 0x7F).toNat < (1024 - 640) / 16) := by decide

theorem witness_PageReadReturnsTheRawByte :
    (State.reset.usable (.page 1) ∧ State.reset.cfg.emsReadback = .raw) ∧
      ((configured fun p => { p with emsReadback := .any }).usable (.page 1) ∧
        (configured fun p => { p with emsReadback := .any }).cfg.emsReadback = .any) := by decide

theorem witness_ConfigurationPortReachesTheEmsRegister :
    let s := mapped fun e => { e with chipIndex := some 0x4C };
    s.usable .chipData ∧ s.ems.chipIndex = some s.cfg.emsCfgIndex := by decide

theorem witness_DataPortAtOtherIndices :
    (State.reset.usable .chipData ∧ State.reset.ems.chipIndex = none) ∧
      ((mapped fun e => { e with chipIndex := some 0x4D }).usable .chipData ∧
        (mapped fun e => { e with chipIndex := some 0x4D }).ems.chipIndex = some 0x4D ∧ (0x4D : Byte) ≠ State.reset.cfg.emsCfgIndex) := by decide

/-- The clauses of FrameReadTranslates and FrameWriteTranslates: outside, the last byte of a mapped slot, the last of a disabled one. -/
theorem witness_FrameTranslates :
    v82.running ∧ ¬ (v82.ems.frameBase ≤ 0xD0000 ∧ 0xD0000 < v82.ems.frameBase + 0x10000) ∧
    (v82.ems.frameBase + 0x4000 * (1 : BitVec 2).toNat ≤ 0xC7FFF ∧ 0xC7FFF < v82.ems.frameBase + 0x4000 * (1 : BitVec 2).toNat + 0x4000 ∧
      (v82.ems.page 1).en = true ∧ (v82.ems.page 1).phys + 0xC7FFF % 0x4000 < v82.cfg.memSizeKib * 1024) ∧
    (v82.ems.frameBase + 0x4000 * (3 : BitVec 2).toNat ≤ 0xCFFFF ∧ 0xCFFFF < v82.ems.frameBase + 0x4000 * (3 : BitVec 2).toNat + 0x4000 ∧
      (v82.ems.page 3).en = false ∧ v82.cfg.disabledSlot = .fallthrough) := by decide

theorem witness_FrameTranslates_all_ones :
    let s := configured fun p => { p with disabledSlot := .emsAllOnes };
    s.running ∧ s.ems.frameBase + 0x4000 * (0 : BitVec 2).toNat ≤ 0xC0000 ∧ 0xC0000 < s.ems.frameBase + 0x4000 * (0 : BitVec 2).toNat + 0x4000 ∧
      (s.ems.page 0).en = false ∧ s.cfg.disabledSlot = .emsAllOnes := by decide

/-- Slots 0 and 1 of the window on the same page. -/
def aliased : State := mapped fun e => { e with
  pages := #v[⟨0x80, true, 0xA0000⟩, ⟨0x80, true, 0xA0000⟩, ⟨0, false, 0⟩, ⟨0, false, 0⟩] }

theorem witness_AliasedSlotsShareTheirBytes :
    aliased.emsOk ∧ exec (.emsMemW 0xC3FFF 0x11) aliased = .next { aliased with ram := [(0xA3FFF, 0x11)] } ∧
    aliased.ems.frameBase + 0x4000 * (0 : BitVec 2).toNat ≤ 0xC3FFF ∧ 0xC3FFF < aliased.ems.frameBase + 0x4000 * (0 : BitVec 2).toNat + 0x4000 ∧
    aliased.ems.frameBase + 0x4000 * (1 : BitVec 2).toNat ≤ 0xC7FFF ∧ 0xC7FFF < aliased.ems.frameBase + 0x4000 * (1 : BitVec 2).toNat + 0x4000 ∧
    (aliased.ems.page 0).en = true ∧ (aliased.ems.page 1).en = true ∧ (aliased.ems.page 0).phys = (aliased.ems.page 1).phys ∧
    0xC3FFF % 0x4000 = 0xC7FFF % 0x4000 :=
  ⟨by decide, rfl, by decide⟩

theorem witness_PageWriteMovesOneWindowSlot :
    State.reset.portFree (.page 2) ∧ exec (.emsPageW 2 0x82) State.reset = .next (State.reset.writePage 2 0x82) ∧
    ¬ (State.reset.ems.frameBase + 0x4000 * (if (2 : BitVec 2) = 1 then 2 else if (2 : BitVec 2) = 2 then 1 else (2 : BitVec 2).toNat) ≤ 0xC8000 ∧
       0xC8000 < State.reset.ems.frameBase + 0x4000 * (if (2 : BitVec 2) = 1 then 2 else if (2 : BitVec 2) = 2 then 1 else (2 : BitVec 2).toNat) + 0x4000) :=
  ⟨by decide, rfl, by decide⟩

theorem witness_WideAccessIsTheByteAccesses :
    ((0xFFFFE : Addr).toNat + 1 < 0x100000 ∧ v82.inputs = [] ∧ exec (.emsMemW 0xFFFFE (BitVec.ofNat 8 0x2211)) v82 = .next v82) ∧
    (∃ t u, (0xC3FFF : Addr).toNat + 1 < 0x100000 ∧ v82.inputs = [] ∧ exec (.emsMemR 0xC3FFF) v82 = .next t ∧
      step { t with inputs := [.memReadWide (0xC3FFF + 1) 1] } = .next u) ∧
    0x100000 ≤ (0xFFFFF : Addr).toNat + 1 ∧
    (∃ t, 0x100000 ≤ (0xFFFFF : Addr).toNat + 2 ∧
      step { v82 with inputs := [.memReadWide 0xFFFFF (0x100000 - (0xFFFFF : Addr).toNat)] } = .next t) :=
  ⟨⟨by decide, rfl, rfl⟩, ⟨{ v82 with result := [0] }, { v82 with result := [0] }, by decide, rfl, rfl, rfl⟩, by decide,
    ⟨_, by decide, rfl⟩⟩

theorem witness_DcbWithMbzSetIsRefused :
    State.reset.usable .data ∧ ({ dcb0 with mbz := 1 } : DcbOps).mbz ≠ 0 := by decide

theorem witness_AbsentDriveIsNotReady :
    State.reset.usable .data ∧ ({ dcb0 with drvsel := true } : DcbOps).mbz = 0 ∧
      (State.reset.drive ({ dcb0 with drvsel := true } : DcbOps).drvsel).present = false ∧
      Cmd.formatDrive ∈ [Cmd.testReady, .recalibrate, .driveDiag, .seek, .readVerify, .readSectors, .writeSectors, .formatTrack,
        .formatDrive] := by decide

/-- Drive 0 is present and the DCB of zeros is good: the witness of TestReadyAndRecalibrateComplete, ReadSenseSendsTheSenseBlock,
SectorCommandsSeekAndWait, DelayCommandsWaitInRdone, SeekCompletesOrFails, BufferCommandsOpenTheirPhase and
UnrecognisedOpcodeFails. -/
theorem witness_presentDrive :
    State.reset.usable .data ∧ dcb0.mbz = 0 ∧ (State.reset.drive dcb0.drvsel).present = true ∧
      (Cmd.formatTrack, Xst.rdone) ∈ [(Cmd.readVerify, Xst.send), (.readSectors, .send), (.writeSectors, .recv), (.formatTrack, .rdone)] ∧
      (Cmd.driveDiag ∈ [Cmd.ramDiag, .ctrlDiag] ∨
        (Cmd.driveDiag ∈ [Cmd.formatDrive, .driveDiag] ∧ (State.reset.drive dcb0.drvsel).present = true)) := by decide

/-- The first and the last cylinder, the first that does not exist, and a present drive without sectors. -/
theorem witness_SeekCompletesOrFails :
    (1 ≤ (State.reset.drive false).hpc ∧ 1 ≤ (State.reset.drive false).spt) ∧
      dcb0.cyl.toNat < (State.reset.drive dcb0.drvsel).tracks ∧
      ({ dcb0 with cyl := 9 } : DcbOps).cyl.toNat < (State.reset.drive false).tracks ∧
      ¬ ({ dcb0 with cyl := 10 } : DcbOps).cyl.toNat < (State.reset.drive false).tracks ∧
      (let s := { State.reset with drv0 := ⟨true, 0, 0, 2, 10⟩ };
        s.usable .data ∧ (s.drive dcb0.drvsel).present = true ∧ ¬ 1 ≤ (s.drive dcb0.drvsel).spt) := by decide

/-- Where an obligation asks for the tick of a command: the machine waits for it with nothing else to come. -/
theorem witness_LastTicksComplete :
    (waiting 0x03 .sdone id).tickOf [] .readSense .sdone false ∧ (waiting 0x0C .rdone id).tickOf [] .setDriveParams .rdone false ∧
    (waiting 0x0E .sdone id).tickOf [] .readSectorBuffer .sdone false ∧
    (waiting 0x0F .rdone id).tickOf [] .writeSectorBuffer .rdone false ∧ (waiting 0xE0 .rdone id).tickOf [] .ramDiag .rdone false ∧
    (waiting 0xE3 .rdone id).tickOf [] .driveDiag .rdone false ∧ (waiting 0xE4 .rdone id).tickOf [] .ctrlDiag .rdone false :=
  ⟨by decide, by decide, by decide, by decide, by decide, by decide, by decide⟩

/-- The tick given its turn by the environment, with an access still to come. -/
theorem witness_tick_given_its_turn :
    State.tickOf { waiting 0x03 .sdone id with inputs := [.tick, .portWord 0x320] } [.portWord 0x320] .readSense .sdone false := by
  decide

theorem witness_SectorTicksCheckTheAddress_bad :
    ((waiting 0x05 .send fun e => { e with cHead := 2 }).tickOf [] .readVerify .send false ∧
      ¬ (waiting 0x05 .send fun e => { e with cHead := 2 }).addressOk) ∧
    ((waiting 0x08 .send fun e => { e with cSector := 17 }).tickOf [] .readSectors .send false ∧
      ¬ (waiting 0x08 .send fun e => { e with cSector := 17 }).addressOk) ∧
    ((waiting 0x0A .recv fun e => { e with cTrack := 1 }).tickOf [] .writeSectors .recv false ∧
      ¬ (waiting 0x0A .recv fun e => { e with cTrack := 1 }).addressOk) ∧
    (let s := { waiting 0x08 .send id with drv0 := ⟨true, 0, 17, 2, 0⟩ };
      s.tickOf [] .readSectors .send false ∧ ¬ s.addressOk) := by decide

theorem witness_SectorTicksCheckTheAddress_good :
    (let s := waiting 0x05 .send fun e => { e with cHead := 1, cSector := 16 };
      s.addressOk ∧ s.tickOf [] .readVerify .send false ∧ false = decide (s.xta.intr &&& s.cfg.dmaEna ≠ 0)) ∧
    (let s := waiting 0x0A .recv fun e => { e with cHead := 1, cSector := 16, intr := 1 };
      s.addressOk ∧ s.tickOf [] .writeSectors .recv false ∧ true = decide (s.xta.intr &&& s.cfg.dmaEna ≠ 0)) ∧
    (let s := (waiting 0x08 .send fun e => { e with cTrack := 9, cHead := 1, cSector := 16 }).setCyl false 9;
      s.addressOk ∧ s.tickOf [] .readSectors .send false ∧ s.cursorLba < s.capacity s.xta.drvsel) ∧
    (let s := ({ waiting 0x08 .send fun e => { e with cTrack := 10 } with
        drv0 := ⟨true, 10, 17, 2, 11⟩ } : State);
      s.addressOk ∧ s.tickOf [] .readSectors .send false ∧ ¬ s.cursorLba < s.capacity s.xta.drvsel) := by decide

theorem witness_NextSectorRunsThroughTheTrack :
    (State.reset.xta.cSector = 0 ∧ 1 ≤ (State.reset.drive false).spt ∧ State.reset.xta.cHead + 1 < (State.reset.drive false).hpc) ∧
    (let s := engine fun e => { e with cHead := 1 };
      s.xta.cSector = 0 ∧ 1 ≤ (s.drive false).spt ∧ s.xta.cHead + 1 = (s.drive false).hpc) := by decide

theorem witness_SectorLoopCountsDown_same_tick :
    verifySameTick.tickOf [] .readVerify .sdone false ∧ 1 < verifySameTick.xta.count ∧
      verifySameTick.cfg.verifyLoop = .sameTick := by decide

theorem witness_SectorLoopCountsDown :
    ((waiting 0x05 .sdone id).tickOf [] .readVerify .sdone false ∧ (waiting 0x08 .sdone id).tickOf [] .readSectors .sdone false ∧
      (waiting 0x05 .sdone id).xta.count = 1 ∧ (waiting 0x08 .sdone id).xta.count = 1) ∧
    ((waiting 0x05 .sdone fun e => { e with count := 2 }).tickOf [] .readVerify .sdone false ∧
      1 < (waiting 0x05 .sdone fun e => { e with count := 2 }).xta.count ∧
      (waiting 0x05 .sdone fun e => { e with count := 2 }).cfg.verifyLoop = .sendTick) ∧
    (let s := waiting 0x08 .sdone fun e => { e with count := 2 };
      let u := State.nextSector { s with xta := { s.xta with count := s.xta.count - 1, xst := .send } } s.xta.drvsel;
      s.tickOf [] .readSectors .sdone false ∧ 1 < s.xta.count ∧ u.addressOk ∧ u.cursorLba < u.capacity s.xta.drvsel) := by decide

/-- The last sector of the image, on a drive whose geometry goes on. -/
def lastSector : State :=
  { waiting 0x08 .sdone fun e => { e with count := 2, cTrack := 9, cHead := 1, cSector := 16 } with drv0 := ⟨true, 9, 17, 2, 11⟩ }

theorem witness_SectorLoopCountsDown_beyond :
    lastSector.tickOf [] .readSectors .sdone false ∧ 1 < lastSector.xta.count ∧
    (let u := State.nextSector { lastSector with xta := { lastSector.xta with count := lastSector.xta.count - 1, xst := .send } }
        lastSector.xta.drvsel;
      u.addressOk ∧ u.capacity lastSector.xta.drvsel ≤ u.cursorLba) := by decide

/-- WRITE_SECTORS with a written sector in the buffer, to go to the last sector of the drive. -/
def writing (n : Nat) : State := waiting 0x0A .rdone fun e => { e with secbuf := filled, cLba := 339, count := n }

theorem witness_WriteSectorsStoresTheSector :
    (writing 1).tickOf [] .writeSectors .rdone false ∧ (∀ i : Fin 512, (writing 1).xta.secbuf[i] = some ((fun _ => 0xE5) i)) ∧
    (writing 1).xta.cLba < (writing 1).capacity (writing 1).xta.drvsel ∧ (writing 1).xta.count = 1 ∧
    (writing 2).tickOf [] .writeSectors .rdone false ∧ 1 < (writing 2).xta.count :=
  ⟨by decide, filled_get, by decide⟩

/-- A DMA phase at a cursor, with a script for its draws. -/
def dmaPhase (op : Byte) (x : Xst) (i : Nat) (chunks : List Nat) (puts : List Bool) (gets : List (Option Byte)) : State :=
  { waiting op x fun e => { e with
      status := if x = .sdata then 0x9A else 0x98, xferDma := true, curTgt := .secBuf, curIdx := i, curLen := 512,
      secbuf := filled } with
    draws := { State.reset.draws with chunks := chunks, puts := puts, gets := gets } }

theorem witness_DmaInMovesTheDrawnBytes :
    (let s := dmaPhase 0x0A .rdata 510 [2] [] [some 1, some 2];
      s.tickOf [] .writeSectors .rdata true ∧ s.xta.phase .secBuf 512 ∧ 1 ≤ [(1 : Byte), 2].length ∧
      s.xta.curIdx + [(1 : Byte), 2].length ≤ 512 ∧ s.draws.chunks = [(1 : Byte), 2].length :: [] ∧
      s.draws.gets = [(1 : Byte), 2].map some ++ []) ∧
    (let s := dmaPhase 0x0F .rdata 0 [1, 511] [] [some 1, some 2];
      s.tickOf [] .writeSectorBuffer .rdata true ∧ s.xta.phase .secBuf 512 ∧ s.draws.chunks = [(1 : Byte)].length :: [511] ∧
      s.draws.gets = [(1 : Byte)].map some ++ [some 2]) := by decide

theorem witness_DmaOutMovesTheDrawnBytes :
    let s := dmaPhase 0x08 .sdata 510 [2] [true, true] [];
    (s.tickOf [] .readSectors .sdata true ∧ s.xta.phase .secBuf 512 ∧ 1 ≤ [(0xE5 : Byte), 0xE5].length ∧
      s.xta.curIdx + [(0xE5 : Byte), 0xE5].length ≤ 512 ∧ s.draws.chunks = [(0xE5 : Byte), 0xE5].length :: [] ∧
      s.draws.puts = List.replicate [(0xE5 : Byte), 0xE5].length true ++ []) ∧
    (∀ j : Nat, j < [(0xE5 : Byte), 0xE5].length → s.xta.secbuf[s.xta.curIdx + j]? = some [(0xE5 : Byte), 0xE5][j]?) := by
  refine ⟨by decide, fun j hj => ?_⟩
  have hj : j < 2 := hj
  refine (filled_get? (i := 510 + j) (by omega)).trans ?_
  match j, hj with
  | 0, _ => rfl
  | 1, _ => rfl

/-- The last cell of the buffer was never written. -/
theorem witness_DmaOutMovesTheDrawnBytes_unwritten :
    let p := dmaPhase 0x08 .sdata 510 [2] [true] [];
    let s := { p with xta := { p.xta with secbuf := filled.set 511 none } };
    (s.tickOf [] .readSectors .sdata true ∧ s.xta.phase .secBuf 512 ∧ [(0xE5 : Byte)].length < 2 ∧ s.xta.curIdx + 2 ≤ 512 ∧
      s.draws.chunks = 2 :: [] ∧ s.draws.puts = List.replicate [(0xE5 : Byte)].length true ++ []) ∧
    (∀ j : Nat, j < [(0xE5 : Byte)].length → s.xta.secbuf[s.xta.curIdx + j]? = some [(0xE5 : Byte)][j]?) ∧
    s.xta.secbuf[s.xta.curIdx + [(0xE5 : Byte)].length]? = some none := by
  refine ⟨by decide, fun j hj => ?_, Vector.getElem?_set_self (i := 511) (by decide)⟩
  have hj : j < 1 := hj
  obtain rfl : j = 0 := by omega
  exact (Vector.getElem?_set_ne (i := 511) (j := 510) (by decide) (by decide)).trans (filled_get? (by decide))

theorem witness_ExhaustedDmaIsFatal_out :
    let s := dmaPhase 0x0E .sdata 510 [2] [true, false] [];
    (s.tickOf [] .readSectorBuffer .sdata true ∧ s.xta.phase .secBuf 512 ∧ [(0xE5 : Byte)].length < 2 ∧ s.xta.curIdx + 2 ≤ 512 ∧
      s.draws.chunks = 2 :: [] ∧ s.draws.puts = List.replicate [(0xE5 : Byte)].length true ++ false :: []) ∧
    (∀ j : Nat, j < [(0xE5 : Byte)].length → s.xta.secbuf[s.xta.curIdx + j]? = some [(0xE5 : Byte)][j]?) ∧
    s.xta.secbuf[s.xta.curIdx + [(0xE5 : Byte)].length]? = some (some 0xE5) := by
  refine ⟨by decide, fun j hj => ?_, filled_get? (i := 511) (by decide)⟩
  have hj : j < 1 := hj
  obtain rfl : j = 0 := by omega
  exact filled_get? (i := 510) (by decide)

theorem witness_ExhaustedDmaIsFatal :
    let s := dmaPhase 0x0F .rdata 509 [3] [] [some 1, none];
    s.tickOf [] .writeSectorBuffer .rdata true ∧ s.xta.phase .secBuf 512 ∧ [(1 : Byte)].length < 3 ∧ s.xta.curIdx + 3 ≤ 512 ∧
      s.draws.chunks = 3 :: [] ∧ s.draws.gets = [(1 : Byte)].map some ++ none :: [] := by decide

/-- A format command on its tick, the buffer written; FORMAT_TRACK on the last cylinder. -/
def formatting (op : Byte) (track : Nat) : State :=
  (waiting op .rdone fun e => { e with secbuf := filled, cTrack := track }).setCyl false 9

theorem witness_FormatTrackFillsTheCylinder :
    (let s := formatting 0x06 9;
      (∀ i : Fin 512, s.xta.secbuf[i] = some ((fun _ => 0xE5) i)) ∧ s.tickOf [] .formatTrack .rdone false ∧
      s.cmdDrive.curCyl = s.xta.cTrack ∧ 1 ≤ s.cmdDrive.tracks ∧
      (s.xta.cTrack + 1) * s.cmdDrive.hpc * s.cmdDrive.spt ≤ s.capacity s.xta.drvsel) ∧
    (let s := formatting 0x06 12;
      s.tickOf [] .formatTrack .rdone false ∧ s.cmdDrive.curCyl ≠ s.xta.cTrack ∧ 1 ≤ s.cmdDrive.hpc ∧ 1 ≤ s.cmdDrive.spt) ∧
    (let s := { formatting 0x06 0 with drv0 := ⟨true, 0, 17, 2, 0⟩ };
      s.tickOf [] .formatTrack .rdone false ∧ s.cmdDrive.tracks = 0 ∧ s.cmdDrive.curCyl = s.xta.cTrack ∧ 1 ≤ s.cmdDrive.hpc ∧
        1 ≤ s.cmdDrive.spt) :=
  ⟨⟨filled_get, by decide⟩, by decide, by decide⟩

theorem witness_FormatDriveFillsTheDrive :
    let s := formatting 0x04 0;
    (∀ i : Fin 512, s.xta.secbuf[i] = some ((fun _ => 0xE5) i)) ∧ s.tickOf [] .formatDrive .rdone false ∧
      s.cmdDrive.tracks * s.cmdDrive.hpc * s.cmdDrive.spt ≤ s.capacity s.xta.drvsel ∧ 1 ≤ s.cmdDrive.tracks :=
  ⟨filled_get, by decide⟩

/-- A geometry of no sector, and a buffer that was never written. -/
theorem witness_FormatDriveFillsTheDrive_no_sector :
    let s := { waiting 0x04 .rdone id with drv0 := ⟨true, 0, 17, 0, 10⟩ };
    s.tickOf [] .formatDrive .rdone false ∧ s.cmdDrive.tracks * s.cmdDrive.hpc * s.cmdDrive.spt = 0 ∧
      s.cmdDrive.tracks * s.cmdDrive.hpc * s.cmdDrive.spt ≤ s.capacity s.xta.drvsel ∧ 1 ≤ s.cmdDrive.tracks := by decide

theorem witness_FailedDiskWriteIsAModelFault :
    ((waiting 0x0A .rdone id).tickOf [] .writeSectors .rdone false ∧ ∃ i : Fin 512, (waiting 0x0A .rdone id).xta.secbuf[i] = none) ∧
    (let s := waiting 0x0A .rdone fun e => { e with secbuf := filled, cLba := 340 };
      s.tickOf [] .writeSectors .rdone false ∧ (∀ i : Fin 512, s.xta.secbuf[i] ≠ none) ∧ s.capacity s.xta.drvsel ≤ s.xta.cLba) := by
  refine ⟨⟨by decide, ⟨0, Vector.getElem_replicate (by decide)⟩⟩, by decide, fun i h => ?_, by decide⟩
  have := (filled_get i).symm.trans h
  cases this

/-- The format commands with a buffer that was never written. -/
theorem witness_FailedDiskWriteIsAModelFault_unwritten :
    (1 ≤ State.reset.cmdDrive.tracks ∧ 1 ≤ State.reset.cmdDrive.hpc ∧ 1 ≤ State.reset.cmdDrive.spt) ∧
    (∃ i : Fin 512, (waiting 0x06 .rdone id).xta.secbuf[i] = none) ∧
    (let s := waiting 0x06 .rdone id;
      s.tickOf [] .formatTrack .rdone false ∧ s.cmdDrive.curCyl = s.xta.cTrack ∧ s.cmdDrive = State.reset.cmdDrive) ∧
    (let s := waiting 0x04 .rdone id;
      s.tickOf [] .formatDrive .rdone false ∧ s.xta.secbuf = (waiting 0x06 .rdone id).xta.secbuf ∧
        s.cmdDrive = State.reset.cmdDrive) :=
  ⟨by decide, ⟨0, Vector.getElem_replicate (by decide)⟩, by decide, ⟨by decide, rfl, rfl⟩⟩

/-- The format commands with a written buffer and a geometry larger than the image: of the track, no sector is in the image. -/
theorem witness_FailedDiskWriteIsAModelFault_beyond :
    (let s := { formatting 0x06 10 with drv0 := ⟨true, 10, 17, 2, 11⟩ };
      (∀ i : Fin 512, s.xta.secbuf[i] = some ((fun _ => 0xE5) i)) ∧ s.tickOf [] .formatTrack .rdone false ∧
      s.cmdDrive.curCyl = s.xta.cTrack ∧ 1 ≤ s.cmdDrive.tracks ∧
      s.capacity s.xta.drvsel < (s.xta.cTrack + 1) * s.cmdDrive.hpc * s.cmdDrive.spt) ∧
    (let s := { formatting 0x04 0 with drv0 := ⟨true, 9, 17, 2, 11⟩ };
      (∀ i : Fin 512, s.xta.secbuf[i] = some ((fun _ => 0xE5) i)) ∧ s.tickOf [] .formatDrive .rdone false ∧
      s.capacity s.xta.drvsel < s.cmdDrive.tracks * s.cmdDrive.hpc * s.cmdDrive.spt) :=
  ⟨⟨filled_get, by decide⟩, filled_get, by decide⟩

/-- RAM contents at launch that are in form. -/
theorem witness_PowerOnMeetsTheInvariants :
    Mem.wf [(0xA0000, 0x5A)] = true ∧ (∀ c ∈ ([(0xA0000, 0x5A)] : Memory), c.1 < resetParams.memSizeKib * 1024) ∧
      Mem.wf resetParams.drive0.image = true ∧ Mem.wf resetParams.drive1.image = true := by decide

/-- The reset state is one, and has a step: the witness of EngineMovesAlongTheGraph and NoTickIsUnreachable too. -/
theorem witness_EngineKeepsItsStateGraph :
    State.reset.engineOk ∧ step (coming [.port [0x22, 0x03, 0, 0x00]]) = .next ({ State.reset with inputs := [] }.selectStrobe) := ⟨⟨rfl, ⟨rfl, rfl, rfl, rfl⟩, rfl⟩, rfl⟩

theorem witness_EmsMappingIsNeverStale :
    State.reset.emsOk ∧ v82.emsOk ∧ v82.translate 0xC4000 = .ram 0xA8000 ∧ step v82 = .next v82 := ⟨by decide, by decide, by decide, rfl⟩

/-- The witness of StoresKeepTheirForm, HeadsStayOnTheirCylinders and MediaChangeOnlyByTheirCommands; a tick that changes the
heads of its drive is `test_tick_setDriveParams`. -/
theorem witness_invariants :
    State.reset.storesOk ∧ State.reset.cylsOk ∧ step State.reset = .next State.reset := ⟨by decide, by decide, rfl⟩

theorem witness_UnitsAreIndependent :
    (xtaOp (.xtaIntrW 1) = true ∧ exec (.xtaIntrW 1) State.reset = .next (engine fun e => { e with intr := 1 })) ∧
      (xtaOp (.chipIndexW 1) = false ∧
        exec (.chipIndexW 1) State.reset = .next (mapped fun e => { e with chipIndex := some 1 })) := ⟨⟨rfl, rfl⟩, ⟨rfl, rfl⟩⟩

theorem witness_InterruptRisesOnlyAtCompletion :
    let s := waiting 0xE0 .rdone fun e => { e with intr := 2 };
    step s = .next s.cancel.complete ∧ s.irqOutput = false ∧ s.cancel.complete.irqOutput = true := ⟨rfl, by decide, by decide⟩

theorem witness_EveryOperationIsAccepted :
    State.reset.running ∧ State.reset.emsOk := by decide

end Sys2Proof.Tests
end

section
/-! PROOFS. The step of a host byte access (00_scope.md R6, 20_memory.md R67). The step and exec both begin with the check for a
recorded stop (10_state.md R47), so the step makes it twice; made twice it is the check made once. -/

namespace Sys2Proof.Machine

/-- While a stop is recorded, what would come after the check for it does not matter. -/
theorem State.ifRunning_of_not_running {s : State} (h : ¬ s.running) (k l : Result) : s.ifRunning k = s.ifRunning l := by
  unfold State.ifRunning
  split
  · rfl
  · rename_i hfatal
    split
    · rfl
    · rename_i hmfault
      split
      · rfl
      · rename_i hrefusal
        exact absurd ⟨hfatal, hmfault, hrefusal⟩ h

@[simp] theorem State.ifRunning_ifRunning (s : State) (k : Result) : s.ifRunning (s.ifRunning k) = s.ifRunning k := by
  by_cases h : s.running
  · exact State.ifRunning_of_running h _
  · exact State.ifRunning_of_not_running h _ _

/-- No stop is recorded in the list of inputs. -/
@[simp] theorem State.withInputs_ifRunning (s : State) (rest : List Input) (k : Result) :
    (s.withInputs rest).ifRunning k = s.ifRunning k := rfl

/-- Every operation makes the check for a stop itself. -/
theorem ifRunning_exec (i : Instr) (s : State) : s.ifRunning (exec i s) = exec i s := by
  cases i <;> exact State.ifRunning_ifRunning s _

/-- A host access whose bytes decode runs the operation. -/
theorem State.runAccess_of_decode {s : State} {f : Format} {bytes : List Byte} {i : Instr}
    (h : decode s.decodeCtx f bytes = .ok i) : s.runAccess f bytes = exec i s := by
  unfold State.runAccess
  rw [h]

theorem State.cycle_of_port {s : State} {bytes : List Byte} {rest : List Input} (h : s.inputs = .port bytes :: rest) :
    s.cycle = (s.withInputs rest).runAccess .port bytes := by
  unfold State.cycle
  rw [h]

theorem State.cycle_of_mem {s : State} {bytes : List Byte} {rest : List Input} (h : s.inputs = .mem bytes :: rest) :
    s.cycle = (s.withInputs rest).runAccess .mem bytes := by
  unfold State.cycle
  rw [h]

/-- The step of a host byte access that decodes, stopped or not. The decoder does not see the list of inputs, so it is the same
with the access taken. -/
theorem step_of_access {s : State} {f : Format} {bytes : List Byte} {rest : List Input} {i : Instr}
    (hcycle : s.cycle = (s.withInputs rest).runAccess f bytes) (hdecode : decode s.decodeCtx f bytes = .ok i) :
    step s = exec i (s.withInputs rest) := by
  have hrun : (s.withInputs rest).runAccess f bytes = exec i (s.withInputs rest) := State.runAccess_of_decode hdecode
  calc step s = s.ifRunning (exec i (s.withInputs rest)) := by unfold step; rw [hcycle, hrun]
    _ = (s.withInputs rest).ifRunning (exec i (s.withInputs rest)) := (State.withInputs_ifRunning s rest _).symm
    _ = exec i (s.withInputs rest) := ifRunning_exec i _

/-- Settles O5: a port access and a memory access are two cases of one lemma on host byte accesses. -/
theorem stepRunsTheDecodedOperation : Obligations.StepRunsTheDecodedOperation := by
  intro s bytes rest i
  exact ⟨fun hport => step_of_access (State.cycle_of_port hport), fun hmem => step_of_access (State.cycle_of_mem hmem)⟩

end Sys2Proof.Machine
end

section
/-! PROOFS. A stopped machine (10_state.md R47). -/

namespace Sys2Proof.Machine

/-- Settles O8: a step and an operation that answer a next state ran on a machine with no stop recorded. -/
theorem stoppedMachineHasNoStep : Obligations.StoppedMachineHasNoStep := by
  refine ⟨fun s t hstopped => ⟨fun h => ?_, fun i h => ?_⟩, fun p ram => ?_⟩
  · exact hstopped (step_running h)
  · exact hstopped (exec_running h)
  · exact ⟨rfl, rfl, rfl⟩

end Sys2Proof.Machine
end

section
/-! PROOFS. What one step can do to the drives, the images and the RAM array (10_state.md R33, R34, R40, R42): one relation between
the states before and after, which every operation and every tick is in. What the statements about the media say of a step is
read off it. -/

namespace Sys2Proof.Machine

/-- The part of the state the media are: the parameters, the drives, the images, the RAM array. -/
def State.media (s : State) : Params × (Drive × Drive) × (Memory × Memory) × Memory :=
  (s.cfg, (s.drv0, s.drv1), (s.disk0, s.disk1), s.ram)

/-- A move of the media: the heads stay on their cylinders and the stores in form, the drives of `sets` may have heads and
cylinders set, those of `writes` their image written, and the RAM array may be written. -/
structure MediaStep (sets writes : Set Bool) (s t : State) : Prop where
  cfg : t.cfg = s.cfg
  present : ∀ d, (t.drive d).present = (s.drive d).present
  spt : ∀ d, (t.drive d).spt = (s.drive d).spt
  geometry : ∀ d, ((t.drive d).hpc = (s.drive d).hpc ∧ (t.drive d).tracks = (s.drive d).tracks) ∨ d ∈ sets
  cyls : s.cylsOk → t.cylsOk
  image : ∀ d, t.disk d = s.disk d ∨ d ∈ writes
  stores : s.storesOk → t.storesOk

variable {sets writes : Set Bool} {s t u : State}

theorem MediaStep.refl (s : State) : MediaStep sets writes s s where
  cfg := rfl
  present _ := rfl
  spt _ := rfl
  geometry _ := .inl ⟨rfl, rfl⟩
  cyls := id
  image _ := .inl rfl
  stores := id

theorem MediaStep.trans (h : MediaStep sets writes s t) (k : MediaStep sets writes t u) : MediaStep sets writes s u where
  cfg := k.cfg.trans h.cfg
  present d := (k.present d).trans (h.present d)
  spt d := (k.spt d).trans (h.spt d)
  geometry d := by
    rcases h.geometry d with ⟨hh, ht⟩ | hd
    · exact (k.geometry d).imp_left fun ⟨kh, kt⟩ => ⟨kh.trans hh, kt.trans ht⟩
    · exact .inr hd
  cyls := k.cyls ∘ h.cyls
  image d := by
    rcases h.image d with hi | hd
    · exact (k.image d).imp_left (·.trans hi)
    · exact .inr hd
  stores := k.stores ∘ h.stores

/-- More drives may be changed. -/
theorem MediaStep.mono {sets' writes' : Set Bool} (h : MediaStep sets writes s t) (hs : sets ⊆ sets') (hw : writes ⊆ writes') :
    MediaStep sets' writes' s t :=
  { h with
    geometry := fun d => (h.geometry d).imp_right (hs ·)
    image := fun d => (h.image d).imp_right (hw ·) }

/-- Where the media are as before, they have made a move. -/
theorem MediaStep.of_media (h : t.media = s.media) : MediaStep sets writes s t := by
  simp only [State.media, Prod.mk.injEq] at h
  obtain ⟨hcfg, ⟨hdrv0, hdrv1⟩, ⟨hdisk0, hdisk1⟩, hram⟩ := h
  have hdrive : ∀ d, t.drive d = s.drive d := by simp [State.drive, hdrv0, hdrv1]
  have hdisk : ∀ d, t.disk d = s.disk d := by simp [State.disk, hdisk0, hdisk1]
  have hcap : ∀ d, t.capacity d = s.capacity d := by simp [State.capacity, hcfg]
  have hsize : t.ramSize = s.ramSize := by simp [State.ramSize, hcfg]
  refine ⟨hcfg, fun d => by rw [hdrive], fun d => by rw [hdrive], fun d => .inl (by simp only [hdrive, and_self]), ?_,
    fun d => .inl (hdisk d), ?_⟩
  · unfold State.cylsOk
    rw [hdrv0, hdrv1]
    exact id
  · unfold State.storesOk
    rw [hram, hdisk0, hdisk1, hcap, hcap, hsize]
    exact id

/-- A move before what leaves the media. -/
theorem MediaStep.then_media (h : MediaStep sets writes s t) (hu : u.media = t.media) : MediaStep sets writes s u :=
  h.trans (.of_media hu)

/-- A move after what leaves the media. -/
theorem MediaStep.after_media (k : MediaStep sets writes t u) (ht : t.media = s.media) : MediaStep sets writes s u :=
  (MediaStep.of_media ht).trans k

/-! The elementary moves. -/

theorem State.drive_setDrive (s : State) (d x : Bool) (v : Drive) :
    (s.setDrive d v).drive x = if x = d then v else s.drive x := by
  cases d <;> cases x <;> rfl

theorem State.disk_setDisk (s : State) (d x : Bool) (m : Memory) :
    (s.setDisk d m).disk x = if x = d then m else s.disk x := by
  cases d <;> cases x <;> rfl

/-- A drive replaced by one with its presence and sectors per track, on one of its cylinders. -/
theorem MediaStep.setDrive {d : Bool} {v : Drive} (hp : v.present = (s.drive d).present) (hs : v.spt = (s.drive d).spt)
    (hg : (v.hpc = (s.drive d).hpc ∧ v.tracks = (s.drive d).tracks) ∨ d ∈ sets) (hc : v.cylOk) :
    MediaStep sets writes s (s.setDrive d v) where
  cfg := by cases d <;> rfl
  present x := by
    rw [State.drive_setDrive]
    split
    case isTrue h => rw [h, hp]
    case isFalse => rfl
  spt x := by
    rw [State.drive_setDrive]
    split
    case isTrue h => rw [h, hs]
    case isFalse => rfl
  geometry x := by
    rw [State.drive_setDrive]
    split
    case isTrue h => rw [h]; exact hg
    case isFalse => exact .inl ⟨rfl, rfl⟩
  cyls := by
    rintro ⟨h0, h1⟩
    cases d
    · exact ⟨hc, h1⟩
    · exact ⟨h0, hc⟩
  image x := .inl (by cases d <;> rfl)
  stores := by cases d <;> exact id

/-- The head moved to one of the drive's cylinders. -/
theorem MediaStep.setCyl {d : Bool} {c : Nat} (hc : c ≤ max (s.drive d).tracks 1 - 1) :
    MediaStep sets writes s (s.setCyl d c) :=
  .setDrive rfl rfl (.inl ⟨rfl, rfl⟩) hc

/-- An image replaced by one in form. -/
theorem MediaStep.setDisk {d : Bool} {m : Memory} (hd : d ∈ writes)
    (hm : Mem.wf (s.disk d) = true → (∀ c ∈ s.disk d, c.1 < s.capacity d * 512) →
      Mem.wf m = true ∧ ∀ c ∈ m, c.1 < s.capacity d * 512) :
    MediaStep sets writes s (s.setDisk d m) where
  cfg := by cases d <;> rfl
  present x := by cases d <;> rfl
  spt x := by cases d <;> rfl
  geometry x := .inl (by cases d <;> exact ⟨rfl, rfl⟩)
  cyls := by cases d <;> exact id
  image x := by
    rw [State.disk_setDisk]
    split
    case isTrue h => exact .inr (h ▸ hd)
    case isFalse => exact .inl rfl
  stores := by
    rintro ⟨hram, h0, h1⟩
    cases d
    · exact ⟨hram, hm h0.1 h0.2, h1⟩
    · exact ⟨hram, h0, hm h1.1 h1.2⟩

/-- A byte of the RAM array that exists is stored. -/
theorem MediaStep.storeRam {x : Nat} (hx : x < s.ramSize) (v : Byte) :
    MediaStep sets writes s { s with ram := Mem.store s.ram x v } where
  cfg := rfl
  present _ := rfl
  spt _ := rfl
  geometry _ := .inl ⟨rfl, rfl⟩
  cyls := id
  image _ := .inl rfl
  stores := fun ⟨⟨hwf, hlt⟩, hdisks⟩ => ⟨⟨Mem.wf_storeBytes hwf x [v], Mem.bounded_storeBytes hlt hx⟩, hdisks⟩

/-- A disk write faults and leaves the media, or stores a sector inside the image. -/
theorem MediaStep.diskWrite {d : Bool} (hd : d ∈ writes) (lba : Nat) : MediaStep sets writes s (s.diskWrite d lba).state := by
  rcases s.diskWrite_cases d lba with h | h | ⟨bs, -, hlen, hlba, h⟩ <;> rw [h]
  · exact .of_media rfl
  · exact .of_media rfl
  · refine (MediaStep.setDisk hd fun hwf hlt => ?_).then_media rfl
    exact ⟨Mem.wf_storeBytes hwf _ _, Mem.bounded_storeBytes hlt (by omega)⟩

/-! What leaves the media. -/

@[simp] theorem State.complete_media (s : State) : s.complete.media = s.media := by
  rw [State.complete_eq]
  rfl

@[simp] theorem State.fail_media (s : State) (code : Byte) : (s.fail code).media = s.media := by
  unfold State.fail
  exact State.complete_media _

@[simp] theorem State.beginOut_media (s : State) (tgt : Target) (len : Nat) : (s.beginOut tgt len).media = s.media := by
  unfold State.beginOut
  split <;> rfl

@[simp] theorem State.beginIn_media (s : State) (tgt : Target) (len : Nat) : (s.beginIn tgt len).media = s.media := by
  unfold State.beginIn
  split <;> rfl

@[simp] theorem State.endDmaStep_media (s : State) (x : Xst) : (s.endDmaStep x).media = s.media := by
  unfold State.endDmaStep
  split <;> rfl

theorem State.drawChunk_media (s : State) (rem : Nat) : (s.drawChunk rem).2.media = s.media := by
  unfold State.drawChunk
  split <;> rfl

theorem State.dmaOutBytes_media (k : Nat) (s : State) : (s.dmaOutBytes k).state.media = s.media := by
  cases h : s.dmaOutBytes k with
  | go t =>
    obtain ⟨dr, hist, rfl⟩ := State.dmaOutBytes_go h
    rfl
  | halt t =>
    obtain ⟨dr, hist, n, -, rfl | rfl⟩ := State.dmaOutBytes_halt h <;> rfl

theorem State.dmaInBytes_media (k : Nat) (s : State) : (s.dmaInBytes k).state.media = s.media := by
  cases h : s.dmaInBytes k with
  | go t =>
    obtain ⟨dr, hist, buf, rfl⟩ := State.dmaInBytes_go h
    rfl
  | halt t =>
    obtain ⟨dr, hist, buf, n, -, rfl⟩ := State.dmaInBytes_halt h
    rfl

@[simp] theorem State.dmaOutStep_media (s : State) : s.dmaOutStep.state.media = s.media := by
  unfold State.dmaOutStep
  refine Flow.andThen_keeps (P := (·.media = s.media)) ?_ fun t ht => (State.endDmaStep_media t _).trans ht
  exact (State.dmaOutBytes_media _ _).trans (State.drawChunk_media s _)

@[simp] theorem State.dmaInStep_media (s : State) : s.dmaInStep.state.media = s.media := by
  unfold State.dmaInStep
  refine Flow.andThen_keeps (P := (·.media = s.media)) ?_ fun t ht => (State.endDmaStep_media t _).trans ht
  exact (State.dmaInBytes_media _ _).trans (State.drawChunk_media s _)

theorem State.diskRead_media (s : State) (d : Bool) (lba : Nat) : (s.diskRead d lba).state.media = s.media := by
  unfold State.diskRead
  split <;> simp only [Flow.state, State.media, State.raiseModelFault]

/-- The address check adds a failure, which leaves the media, to what comes after it. -/
theorem State.addressed_media {k : Nat → State → Flow} (hk : ∀ l t, (k l t).state.media = t.media) (s : State) :
    (s.addressed k).state.media = s.media := by
  by_cases h : s.addressOk
  · rw [State.addressed_ok h, hk]
    rfl
  · rw [State.addressed_bad h]
    exact State.fail_media s _

@[simp] theorem State.sendStep_media (s : State) : s.sendStep.state.media = s.media := by
  unfold State.sendStep
  refine State.addressed_media (fun l t => ?_) s
  exact Flow.andThen_keeps (P := (·.media = t.media)) (t.diskRead_media _ l) fun u hu => (u.beginOut_media _ _).trans hu

@[simp] theorem State.verifyStep_media (s : State) : s.verifyStep.state.media = s.media := by
  unfold State.verifyStep
  exact State.addressed_media (fun _ _ => rfl) s

@[simp] theorem State.verifyNext_media (s : State) : s.verifyNext.state.media = s.media := by
  cases h : s.cfg.verifyLoop with
  | sendTick => rw [State.verifyNext_sendTick h]; rfl
  | sameTick => rw [State.verifyNext_sameTick h, State.verifyStep_media]

@[simp] theorem State.recvStep_media (s : State) : s.recvStep.state.media = s.media := by
  unfold State.recvStep
  exact State.addressed_media (k := fun _ t => .go (t.beginIn .secBuf 512)) (fun _ t => t.beginIn_media _ _) s

theorem State.readAny_media (s : State) : s.readAny.media = s.media := by
  unfold State.readAny
  obtain ⟨b, dr, h⟩ := s.drawByte_cases
  rw [h]
  rfl

theorem State.violatingRead_media (s : State) : s.violatingRead.media = s.media := by
  unfold State.violatingRead
  obtain ⟨b, dr, h⟩ := (s.protocolViolation .read).drawByte_cases
  rw [h]
  rfl

theorem State.afterPhaseRead_media (s : State) (r : Byte) : (s.afterPhaseRead r).media = s.media := by
  simp only [State.afterPhaseRead]
  split <;> rfl

theorem State.dataRead_media (s : State) : s.dataRead.media = s.media := by
  unfold State.dataRead
  split
  · rfl
  split
  · split
    · exact State.afterPhaseRead_media s _
    · split
      · rfl
      · exact State.afterPhaseRead_media s _
    all_goals exact State.violatingRead_media s
  · exact State.violatingRead_media s

theorem State.resetStrobe_media (s : State) : s.resetStrobe.media = s.media := by
  simp only [State.resetStrobe]
  split <;> rfl

theorem State.storePhaseByte_media (s : State) (v : Byte) : (s.storePhaseByte v).media = s.media := by
  unfold State.storePhaseByte
  split <;> rfl

theorem State.readPage_media (s : State) (slot : BitVec 2) : (s.readPage slot).media = s.media := by
  unfold State.readPage
  split
  · rfl
  · exact State.readAny_media s

theorem State.chipDataWrite_media (s : State) (v : Byte) : (s.chipDataWrite v).media = s.media := by
  unfold State.chipDataWrite
  split
  · rfl
  · split <;> rfl

theorem State.chipDataRead_media (s : State) : s.chipDataRead.media = s.media := by
  unfold State.chipDataRead
  split
  · rfl
  · split
    · rfl
    · exact State.readAny_media s

theorem State.memReadBytes_media {n a : Nat} {bs : List Byte} (h : State.memReadBytes n a s = .ok (bs, t)) :
    t.media = s.media := by
  induction n generalizing a s bs with
  | zero => cases h; rfl
  | succ n ih =>
    simp only [State.memReadBytes] at h
    split at h
    · cases h
    · rename_i hbyte
      split at h
      · cases h
      · rename_i hbytes
        cases h
        obtain ⟨dr, hist, rfl⟩ := State.memReadByte_frame hbyte
        exact (ih hbytes).trans rfl

/-! Operations. -/

/-- The sector advance moves the head only to a clamped cylinder. -/
theorem State.nextSector_step (s : State) (d : Bool) : MediaStep sets writes s (s.nextSector d) := by
  unfold State.nextSector
  split
  · exact .of_media rfl
  split
  · exact .of_media rfl
  · exact (MediaStep.setCyl (Drive.clamp_le _ _)).then_media rfl

theorem State.loadAndSeek_step (s : State) : MediaStep sets writes s s.loadAndSeek :=
  (MediaStep.setCyl (s := s.loadChs) (Drive.clamp_le _ _)).after_media rfl

/-- The presence check adds a failure, which leaves the media, to what comes after it. -/
theorem State.checkPresent_step {k : State → State} (hk : ∀ t, MediaStep sets writes t (k t)) (s : State) :
    MediaStep sets writes s (s.checkPresent k) := by
  unfold State.checkPresent
  split
  · exact hk s
  · exact .of_media (State.fail_media s _)

theorem startSeek_step (s : State) : MediaStep sets writes s (startSeek s) := by
  unfold startSeek
  refine State.checkPresent_step (fun t => ?_) s
  simp only
  split
  · exact t.loadAndSeek_step.then_media (State.complete_media _)
  · exact t.loadAndSeek_step.then_media (State.fail_media _ _)

/-- Every start action moves heads at most. -/
theorem startOf_step (c : Option Cmd) (s : State) : MediaStep sets writes s (startOf c s) := by
  have await : ∀ x, MediaStep sets writes s (s.checkPresent fun t => t.await x) := fun x =>
    s.checkPresent_step fun t => .of_media (t := t.await x) rfl
  have seekAwait : ∀ x, MediaStep sets writes s (s.checkPresent fun t => t.loadAndSeek.await x) := fun x =>
    s.checkPresent_step fun t => t.loadAndSeek_step.then_media (u := t.loadAndSeek.await x) rfl
  cases c with
  | none => exact .of_media (State.fail_media s _)
  | some c =>
    cases c with
    | testReady => exact s.checkPresent_step fun t => .of_media t.complete_media
    | recalibrate => exact s.checkPresent_step fun t => (MediaStep.setCyl (Nat.zero_le _)).then_media (State.complete_media _)
    | readSense => exact .of_media (State.beginOut_media _ _ _)
    | formatDrive => exact await .rdone
    | readVerify => exact seekAwait .send
    | formatTrack => exact seekAwait .rdone
    | readSectors => exact seekAwait .send
    | writeSectors => exact seekAwait .recv
    | seek => exact startSeek_step s
    | setDriveParams => exact .of_media (s.beginIn_media _ _)
    | readSectorBuffer => exact .of_media (s.beginOut_media _ _)
    | writeSectorBuffer => exact .of_media (s.beginIn_media _ _)
    | ramDiag => exact .of_media rfl
    | driveDiag => exact await .rdone
    | ctrlDiag => exact .of_media rfl

theorem State.dcbComplete_step (c : Option Cmd) (s : State) : MediaStep sets writes s (s.dcbComplete (startOf c)) := by
  unfold State.dcbComplete
  split
  · exact .of_media rfl
  · exact (startOf_step c s.dispatchEntry).after_media rfl

theorem State.dataWrite_step (s : State) (v : Byte) : MediaStep sets writes s (s.dataWrite v) := by
  unfold State.dataWrite
  split
  · refine .after_media (t := (s.storePhaseByte v).advance) ?_ (s.storePhaseByte_media v)
    unfold State.afterPhaseByte
    split
    · split
      · exact State.dcbComplete_step _ _
      · exact .of_media rfl
    · exact .refl _
  · exact .of_media rfl

/-- An access to a port is refused, which leaves the media, or has its own effect. -/
theorem State.onPort_step {r : PortReg} {k : State} (h : s.onPort r k = .next t) (hk : MediaStep sets writes s k) :
    MediaStep sets writes s t := by
  obtain ⟨-, ⟨-, rfl⟩ | ⟨-, rfl⟩⟩ := State.onPort_next.1 h
  · exact .of_media rfl
  · exact hk

theorem State.acceptDcb_step {b : Vector Byte 6} (c : Option Cmd) (h : s.acceptDcb b (startOf c) = .next t) :
    MediaStep sets writes s t :=
  State.onPort_step h ((State.dcbComplete_step c _).after_media rfl)

theorem State.memRead_step {a n : Nat} (h : s.memRead a n = .next t) : MediaStep sets writes s t := by
  obtain ⟨-, h⟩ := State.ifRunning_next.1 h
  split at h
  · cases h
  · rename_i hbytes
    cases h
    exact .of_media (State.memReadBytes_media hbytes :)

theorem State.memWriteBytes_step {vs : List Byte} {a : Nat} (h : State.memWriteBytes vs a s = .ok t) :
    MediaStep sets writes s t := by
  induction vs generalizing a s with
  | nil => cases h; exact .refl _
  | cons v vs ih =>
    simp only [State.memWriteBytes] at h
    split at h
    · cases h
    · rename_i hbyte
      refine MediaStep.trans ?_ (ih h)
      rcases State.memWriteByte_cases hbyte with rfl | rfl | ⟨x, hx, rfl⟩
      · exact .refl _
      · exact .of_media rfl
      · exact .storeRam hx v

theorem State.memWrite_step {a : Nat} {vs : List Byte} (h : s.memWrite a vs = .next t) : MediaStep sets writes s t := by
  obtain ⟨-, h⟩ := State.ifRunning_next.1 h
  split at h
  · cases h
  · rename_i hbytes
    cases h
    exact State.memWriteBytes_step hbytes

/-- No operation sets a geometry or writes an image: that is done by ticks. -/
theorem exec_step {i : Instr} (h : exec i s = .next t) : MediaStep sets writes s t := by
  cases i with
  | xtaDataW v => exact State.onPort_step h (s.dataWrite_step v)
  | xtaDataR => exact State.onPort_step h (.of_media s.dataRead_media)
  | xtaResetW v => exact State.onPort_step h (.of_media s.resetStrobe_media)
  | xtaStatusR => exact State.onPort_step h (.of_media rfl)
  | xtaSelectW v => exact State.onPort_step h (.of_media rfl)
  | xtaJumpersR => exact State.onPort_step h (.of_media rfl)
  | xtaIntrW v => exact State.onPort_step h (.of_media rfl)
  | xtaPort3R => exact State.onPort_step h (.of_media s.readAny_media)
  | emsPageW slot v => exact State.onPort_step h (.of_media rfl)
  | emsPageR slot => exact State.onPort_step h (.of_media (s.readPage_media slot))
  | chipIndexW v => exact State.onPort_step h (.of_media rfl)
  | chipIndexR => exact State.onPort_step h (.of_media s.readAny_media)
  | emsCfgW v => exact State.onPort_step h (.of_media (s.chipDataWrite_media v))
  | emsCfgR => exact State.onPort_step h (.of_media s.chipDataRead_media)
  | chipDataW v => exact State.onPort_step h (.of_media (s.chipDataWrite_media v))
  | chipDataR => exact State.onPort_step h (.of_media s.chipDataRead_media)
  | xtaCmdTestReady d => exact State.acceptDcb_step (some .testReady) h
  | xtaCmdRecalibrate d => exact State.acceptDcb_step (some .recalibrate) h
  | xtaCmdReadSense d => exact State.acceptDcb_step (some .readSense) h
  | xtaCmdFormatDrive d => exact State.acceptDcb_step (some .formatDrive) h
  | xtaCmdReadVerify d => exact State.acceptDcb_step (some .readVerify) h
  | xtaCmdFormatTrack d => exact State.acceptDcb_step (some .formatTrack) h
  | xtaCmdReadSectors d => exact State.acceptDcb_step (some .readSectors) h
  | xtaCmdWriteSectors d => exact State.acceptDcb_step (some .writeSectors) h
  | xtaCmdSeek d => exact State.acceptDcb_step (some .seek) h
  | xtaCmdSetDriveParams d => exact State.acceptDcb_step (some .setDriveParams) h
  | xtaCmdReadSectorBuffer d => exact State.acceptDcb_step (some .readSectorBuffer) h
  | xtaCmdWriteSectorBuffer d => exact State.acceptDcb_step (some .writeSectorBuffer) h
  | xtaCmdRamDiag d => exact State.acceptDcb_step (some .ramDiag) h
  | xtaCmdDriveDiag d => exact State.acceptDcb_step (some .driveDiag) h
  | xtaCmdCtrlDiag d => exact State.acceptDcb_step (some .ctrlDiag) h
  | xtaCmdIllegal op d => exact State.acceptDcb_step none h
  | emsMemR a => exact State.memRead_step h
  | emsMemW a v => exact State.memWrite_step h

/-! Ticks. -/

/-- The end of a sector moves a head at most, where the next sector's action leaves the media. -/
theorem State.afterSector_step {next : State → Flow} (hnext : ∀ t, (next t).state.media = t.media) (s : State) :
    MediaStep sets writes s (s.afterSector next).state := by
  simp only [State.afterSector]
  split
  · exact .of_media (State.complete_media _)
  · refine .then_media ?_ (hnext _)
    exact (State.nextSector_step _ _).after_media rfl

theorem tickWriteSectorsDone_step (s : State) : MediaStep sets {s.d} s (tickWriteSectorsDone s).state := by
  unfold tickWriteSectorsDone
  refine Flow.andThen_keeps (P := MediaStep sets {s.d} s) (.diskWrite (Set.mem_singleton _) _) fun t ht => ?_
  exact ht.trans (State.afterSector_step State.recvStep_media t)

theorem State.diskWrite_go_xta {d : Bool} {lba : Nat} (h : s.diskWrite d lba = .go t) : t.xta = s.xta := by
  rcases s.diskWrite_cases d lba with e | e | ⟨bs, -, -, -, e⟩ <;> rw [e] at h <;> cases h
  cases d <;> rfl

theorem formatTrackSectors_step (xs : List (Nat × Nat)) (s : State) :
    MediaStep sets {s.d} s (formatTrackSectors xs s).state := by
  induction xs generalizing s with
  | nil => exact .of_media (State.complete_media s)
  | cons x xs ih =>
    unfold formatTrackSectors
    split
    · exact .of_media (State.fail_media s _)
    · rename_i l _
      have hwrite : MediaStep sets {s.d} s (s.diskWrite s.d l).state := .diskWrite (Set.mem_singleton _) l
      cases hw : s.diskWrite s.d l with
      | halt t => rwa [hw] at hwrite
      | go t =>
        rw [hw] at hwrite
        have hd : t.d = s.d := congrArg Xta.drvsel (State.diskWrite_go_xta hw)
        exact hwrite.trans (hd ▸ ih t)

/-- What every pass of a loop over a list keeps, the loop keeps. -/
theorem Flow.forEach_keeps_mem {α : Type} {body : α → State → Flow} {P : State → Prop} {xs : List α}
    (h : ∀ x ∈ xs, ∀ s, P s → P (body x s).state) (s : State) (hs : P s) : P (Flow.forEach body xs s).state := by
  induction xs generalizing s with
  | nil => exact hs
  | cons x xs ih =>
    exact Flow.andThen_keeps (h x (List.mem_cons_self ..) s hs) (ih fun y hy => h y (List.mem_cons_of_mem _ hy))

theorem tickFormatDrive_step (s : State) : MediaStep ∅ {s.d} s (tickFormatDrive s).state := by
  unfold tickFormatDrive
  refine Flow.andThen_keeps (P := MediaStep ∅ {s.d} s) ?_ fun t ht => ht.then_media t.complete_media
  refine Flow.forEach_keeps_mem (fun c hc t ht => ?_) s (.refl s)
  have hcyl : MediaStep ∅ {s.d} t (t.setCyl s.d c) := by
    have htracks : (t.drive s.d).tracks = (s.drive s.d).tracks := ((ht.geometry s.d).resolve_right id).2
    have hlt : c < (s.drive s.d).tracks := List.mem_range.1 hc
    exact .setCyl (by omega)
  refine Flow.forEach_keeps (fun h t ht => ?_) _ _ (ht.trans hcyl)
  exact Flow.forEach_keeps (fun sec t ht => ht.trans (.diskWrite (Set.mem_singleton _) _)) _ t ht

theorem tickSetDriveParams_step (s : State) : MediaStep {s.d} writes s (tickSetDriveParams s).state := by
  refine MediaStep.then_media (t := s.setDrive s.d _) (.setDrive ?_ ?_ (.inr rfl) ?_) (State.complete_media _)
  · rfl
  · rfl
  · exact Drive.clamp_le _ _

/-- The drives whose heads and cylinders the tick of a command sets (42_xta_commands.md R219). -/
def tickSets (d : Bool) (c : Option Cmd) (x : Xst) (dma : Bool) : Set Bool :=
  {e | e = d ∧ c = some .setDriveParams ∧ x = .rdone ∧ dma = false}

/-- The drives whose image the tick of a command writes (R215, R216, R217). -/
def tickWrites (d : Bool) (c : Option Cmd) (x : Xst) (dma : Bool) : Set Bool :=
  {e | e = d ∧ (∃ w ∈ [Cmd.writeSectors, .formatTrack, .formatDrive], c = some w) ∧ x = .rdone ∧ dma = false}

/-- The actions of the tick table that leave geometries and images. -/
def quietTicks : List (State → Flow) :=
  [tickReadSenseDone, State.verifyStep, tickReadVerifyDone, State.sendStep, State.dmaOutStep, tickReadSectorsDone,
    State.recvStep, State.dmaInStep, tickComplete]

/-- The other actions, each with its command: three write an image, one sets a geometry. -/
def mediaTicks : List (Option Cmd × (State → Flow)) :=
  [(some .writeSectors, tickWriteSectorsDone), (some .formatDrive, tickFormatDrive), (some .formatTrack, tickFormatTrack),
    (some .setDriveParams, tickSetDriveParams)]

/-- Every action of the tick table leaves the geometries and the images, but for the four of `mediaTicks`; each of these is
its command's in RDONE with no phase by DMA. -/
theorem tickTable_cases {c : Option Cmd} {x : Xst} {dma : Bool} {action : State → Flow} (h : tickTable c x dma = some action) :
    action ∈ quietTicks ∨ (x = .rdone ∧ dma = false ∧ (c, action) ∈ mediaTicks) := by
  unfold tickTable at h
  split at h
  all_goals repeat' split at h
  all_goals cases h
  all_goals simp [quietTicks, mediaTicks, *]

theorem quietTicks_step {action : State → Flow} (h : action ∈ quietTicks) (s : State) :
    MediaStep sets writes s (action s).state := by
  simp only [quietTicks, List.mem_cons, List.not_mem_nil, or_false] at h
  rcases h with rfl | rfl | rfl | rfl | rfl | rfl | rfl | rfl | rfl
  · exact .of_media (State.complete_media _)
  · exact .of_media s.verifyStep_media
  · exact State.afterSector_step State.verifyNext_media s
  · exact .of_media s.sendStep_media
  · exact .of_media s.dmaOutStep_media
  · exact State.afterSector_step State.sendStep_media s
  · exact .of_media s.recvStep_media
  · exact .of_media s.dmaInStep_media
  · exact .of_media s.complete_media

/-- An action of the tick table changes a geometry or an image only as its command may. -/
theorem tickTable_step {c : Option Cmd} {x : Xst} {dma : Bool} {action : State → Flow} (h : tickTable c x dma = some action)
    (s : State) : MediaStep (tickSets s.d c x dma) (tickWrites s.d c x dma) s (action s).state := by
  rcases tickTable_cases h with hquiet | ⟨rfl, rfl, hmedia⟩
  · exact quietTicks_step hquiet s
  · have hsets : c = some .setDriveParams → {s.d} ⊆ tickSets s.d c .rdone false := by
      rintro rfl _ rfl
      exact ⟨rfl, rfl, rfl, rfl⟩
    have hwrites : ∀ w ∈ [Cmd.writeSectors, .formatTrack, .formatDrive], c = some w →
        {s.d} ⊆ tickWrites s.d c .rdone false := by
      rintro w hw rfl _ rfl
      exact ⟨rfl, ⟨w, hw, rfl⟩, rfl, rfl⟩
    simp only [mediaTicks, List.mem_cons, List.not_mem_nil, or_false, Prod.mk.injEq] at hmedia
    rcases hmedia with ⟨hc, rfl⟩ | ⟨hc, rfl⟩ | ⟨hc, rfl⟩ | ⟨hc, rfl⟩
    · exact (tickWriteSectorsDone_step s).mono (Set.empty_subset _) (hwrites _ (by simp) hc)
    · exact (tickFormatDrive_step s).mono (Set.empty_subset _) (hwrites _ (by simp) hc)
    · exact (formatTrackSectors_step _ s).mono (Set.empty_subset _) (hwrites _ (by simp) hc)
    · exact (tickSetDriveParams_step s).mono (hsets hc) (Set.empty_subset _)

theorem State.fire_step (s : State) : MediaStep (tickSets s.d s.command s.xta.xst s.xta.xferDma)
    (tickWrites s.d s.command s.xta.xst s.xta.xferDma) s s.fire := by
  simp only [State.fire]
  split
  · rename_i action haction
    exact (tickTable_step haction s.cancel).after_media rfl
  · exact .of_media rfl

/-- The drives a step sets the geometry of: that of a tick of SET_DRIVE_PARAMS. -/
def State.stepSets (s : State) : Set Bool :=
  {d | s.xta.drvsel = d ∧ ∃ rest : List Input, s.tickOf rest .setDriveParams .rdone false}

/-- The drives a step writes the image of: that of a tick of WRITE_SECTORS, FORMAT_TRACK or FORMAT_DRIVE. -/
def State.stepWrites (s : State) : Set Bool :=
  {d | s.xta.drvsel = d ∧ ∃ (rest : List Input) (c : Cmd), c ∈ [Cmd.writeSectors, .formatTrack, .formatDrive] ∧
    s.tickOf rest c .rdone false}

theorem tickSets_subset {rest : List Input} (h : s.tickDue rest) :
    tickSets s.d s.command s.xta.xst s.xta.xferDma ⊆ s.stepSets := by
  rintro d ⟨hd, hcommand, hxst, hdma⟩
  exact ⟨hd.symm, rest, h, hcommand, hxst, hdma⟩

theorem tickWrites_subset {rest : List Input} (h : s.tickDue rest) :
    tickWrites s.d s.command s.xta.xst s.xta.xferDma ⊆ s.stepWrites := by
  rintro d ⟨hd, ⟨c, hc, hcommand⟩, hxst, hdma⟩
  exact ⟨hd.symm, rest, c, hc, h, hcommand, hxst, hdma⟩

/-- Every step is a move of the media, which changes geometries and images only in the ticks that are for it. -/
theorem step_mediaStep (h : step s = .next t) : MediaStep s.stepSets s.stepWrites s t := by
  obtain ⟨u, ⟨rest, rfl⟩, -, hstep⟩ := step_cases h
  rcases hstep with rfl | ⟨⟨rest, hdue, -⟩, rfl⟩ | ⟨f, bytes, i, -, -, hexec⟩ | rfl | ⟨a, n, hread⟩ | ⟨a, vs, hwrite⟩
  · exact .of_media rfl
  · refine MediaStep.after_media (MediaStep.mono (State.fire_step _) ?_ ?_) rfl
    · exact tickSets_subset hdue
    · exact tickWrites_subset hdue
  · exact (exec_step hexec).after_media rfl
  · exact .of_media rfl
  · exact (State.memRead_step hread).after_media rfl
  · exact (State.memWrite_step hwrite).after_media rfl

/-- Settles O54: a store is changed only by `Mem.storeBytes`, at addresses that exist. -/
theorem storesKeepTheirForm : Obligations.StoresKeepTheirForm :=
  fun _ _ hs h => (step_mediaStep h).stores hs

/-- Settles O55: a head is moved only to a clamped cylinder, to cylinder 0, or to one FORMAT_DRIVE counts. -/
theorem headsStayOnTheirCylinders : Obligations.HeadsStayOnTheirCylinders :=
  fun _ _ hs h => (step_mediaStep h).cyls hs

/-- Settles O57: of all operations and ticks, four ticks set a geometry or write an image, each that of its own command's drive. -/
theorem mediaChangeOnlyByTheirCommands : Obligations.MediaChangeOnlyByTheirCommands := by
  intro s t d h
  have hm := step_mediaStep h
  exact ⟨hm.cfg, hm.present d, hm.spt d, hm.geometry d, hm.image d⟩

end Sys2Proof.Machine
end

section
/-! PROOFS. The disk writes of a tick that fail (10_state.md R28, R40, 60_exceptions.md R305, 42_xta_commands.md R215 to R217): a
buffer with a cell that was never written stops a command at its first write, the end of the image at the first sector beyond
it, with the run of sectors before that one written. -/

namespace Sys2Proof.Machine

section
variable {s : State}

theorem tickWriteSectorsDone_of_halt {t : State} (h : s.diskWrite s.d s.xta.cLba = .halt t) :
    tickWriteSectorsDone s = .halt t := by
  unfold tickWriteSectorsDone
  rw [h]
  rfl

/-- A disk write beyond the image of a buffer with no cell left unwritten. -/
theorem State.diskWrite_beyond_of_ne_none {d : Bool} {lba : Nat} (h : ∀ i : Fin 512, s.xta.secbuf[i] ≠ none)
    (hc : s.capacity d ≤ lba) : s.diskWrite d lba = .halt (s.raiseModelFault .backendRange) :=
  State.diskWrite_beyond (b := fun i => (s.xta.secbuf[i]).get (Option.isSome_iff_ne_none.2 (h i)))
    (fun _ => (Option.some_get _).symm) hc

/-- Where FORMAT_TRACK is stopped at the first sector of the cylinder the head is on, that is its tick. -/
theorem tickFormatTrack_of_halt {t : State} (htracks : 1 ≤ s.cmdDrive.tracks) (hhpc : 1 ≤ s.cmdDrive.hpc)
    (hspt : 1 ≤ s.cmdDrive.spt) (hcyl : s.cmdDrive.curCyl = s.xta.cTrack)
    (h : s.diskWrite s.xta.drvsel (s.xta.cTrack * s.cmdDrive.hpc * s.cmdDrive.spt) = .halt t) :
    tickFormatTrack s = .halt t := by
  have hlen := trackSectors_length s.cmdDrive
  have hpos : 0 < s.cmdDrive.hpc * s.cmdDrive.spt := Nat.mul_pos hhpc hspt
  have hrun := trackSectors_consecutive s.cmdDrive s.xta.cTrack
  unfold tickFormatTrack
  rw [show s.drive s.d = s.cmdDrive from rfl]
  cases hxs : trackSectors s.cmdDrive with
  | nil =>
    rw [hxs, List.length_nil] at hlen
    omega
  | cons x xs =>
    rw [hxs] at hrun
    rw [formatTrackSectors_cons htracks hcyl hrun, h]
    rfl

/-- FORMAT_TRACK on a cylinder that reaches beyond the image: the sectors inside it are written. -/
theorem tickFormatTrack_beyond {b : Fin 512 → Byte} (hb : ∀ i : Fin 512, s.xta.secbuf[i] = some (b i))
    (htracks : 1 ≤ s.cmdDrive.tracks) (hcyl : s.cmdDrive.curCyl = s.xta.cTrack)
    (hcap : s.capacity s.xta.drvsel < (s.xta.cTrack + 1) * s.cmdDrive.hpc * s.cmdDrive.spt) {base : Nat}
    (hbase : base = s.xta.cTrack * s.cmdDrive.hpc * s.cmdDrive.spt) :
    tickFormatTrack s =
      .halt ((s.filled s.xta.drvsel b base (s.capacity s.xta.drvsel - base)).raiseModelFault .backendRange) := by
  have hend : (s.xta.cTrack + 1) * s.cmdDrive.hpc * s.cmdDrive.spt = base + s.cmdDrive.hpc * s.cmdDrive.spt := by
    rw [hbase]
    ring
  rw [hend] at hcap
  by_cases hin : base ≤ s.capacity s.xta.drvsel
  · have hrun := trackSectors_consecutive s.cmdDrive s.xta.cTrack
    rw [← hbase] at hrun
    have hloop := formatTrackSectors_eq hb htracks hcyl (n := 0) hrun hin
    rw [trackSectors_length, if_neg (by omega)] at hloop
    exact hloop
  · have hne : s.xta.cTrack * s.cmdDrive.hpc * s.cmdDrive.spt ≠ 0 := by omega
    obtain ⟨⟨-, hhpc⟩, hspt⟩ := by simpa only [ne_eq, Nat.mul_eq_zero, not_or] using hne
    rw [show s.capacity s.xta.drvsel - base = 0 by omega]
    refine tickFormatTrack_of_halt htracks (Nat.pos_of_ne_zero hhpc) (Nat.pos_of_ne_zero hspt) hcyl ?_
    rw [← hbase]
    exact State.diskWrite_beyond hb (Nat.le_of_not_le hin)

/-- A loop over a range that is not empty starts at 0. -/
theorem range_eq_zero_cons {n : Nat} (h : 1 ≤ n) : ∃ xs, List.range n = 0 :: xs := by
  obtain ⟨m, rfl⟩ := Nat.exists_eq_add_of_le' h
  exact ⟨_, List.range_succ_eq_map⟩

/-- FORMAT_DRIVE with a cell of the buffer never written stops at its first write, the head on cylinder 0. -/
theorem tickFormatDrive_unwritten (hbuf : ∃ i : Fin 512, s.xta.secbuf[i] = none) (htracks : 1 ≤ s.cmdDrive.tracks)
    (hhpc : 1 ≤ s.cmdDrive.hpc) (hspt : 1 ≤ s.cmdDrive.spt) :
    tickFormatDrive s = .halt ((s.setCyl s.xta.drvsel 0).raiseModelFault .unwrittenBuffer) := by
  obtain ⟨cs, hcs⟩ := range_eq_zero_cons htracks
  obtain ⟨hs, hhs⟩ := range_eq_zero_cons hhpc
  obtain ⟨secs, hsecs⟩ := range_eq_zero_cons hspt
  have hwrite : ∀ lba, (s.setCyl s.d 0).diskWrite s.d lba = .halt ((s.setCyl s.d 0).raiseModelFault .unwrittenBuffer) :=
    State.diskWrite_of_unwritten (by rw [State.setCyl_xta]; exact hbuf) s.d
  unfold tickFormatDrive
  simp only [show s.drive s.d = s.cmdDrive from rfl, hcs, hhs, hsecs, Flow.forEach, formatDriveSector, hwrite, Flow.andThen]
  rfl

/-- A run of sector writes fills its sectors. -/
theorem State.filled_imageFilled (s : State) (b : Fin 512 → Byte) (base n : Nat) :
    s.imageFilled (s.filled s.xta.drvsel b base n) base n b :=
  ⟨State.filled_load s s.xta.drvsel b base n, State.filled_other s s.xta.drvsel b base n⟩

/-- A machine whose tick has been taken. -/
def State.ticked (s : State) (rest : List Input) : State := { s with inputs := rest, xta := { s.xta with pending := false } }

/-- The step of a tick whose action stops: the state it stops in. -/
theorem step_of_tickOf_halt {t : State} {rest : List Input} {c : Cmd} {x : Xst} {dma : Bool} {action : State → Flow}
    (htick : s.tickOf rest c x dma) (haction : tickTable (some c) x dma = some action)
    (h : action (s.ticked rest) = .halt t) : step s = .next t :=
  (step_of_tickOf htick haction).trans (congrArg (fun f : Flow => Host.Outcome.next f.state) h)

/-- What a run of sector writes that the end of the image stopped leaves. -/
theorem State.filled_raiseModelFault_eq (s : State) (d : Bool) (b : Fin 512 → Byte) (base n : Nat) (r : ModelFaultReason) :
    (s.filled d b base n).raiseModelFault r = { s with
      mfault := some r, disk0 := (s.filled d b base n).disk0, disk1 := (s.filled d b base n).disk1,
      history := diskWrites d base n ++ s.history } := by
  have h := State.filled_eq s d b base n
  generalize s.filled d b base n = t at h ⊢
  rw [h]
  rfl

/-- A drive is changed before a fault as after it. -/
theorem State.setDrive_raiseModelFault (s : State) (d : Bool) (v : Drive) (r : ModelFaultReason) :
    (s.setDrive d v).raiseModelFault r = (s.raiseModelFault r).setDrive d v := by
  cases d <;> rfl

theorem State.disk_setDrive (s : State) (d e : Bool) (v : Drive) : (s.setDrive d v).disk e = s.disk e := by
  cases d <;> rfl

end

section
variable {s : State} {rest : List Input} {b : Fin 512 → Byte}

/-- The tick of FORMAT_TRACK on a cylinder that reaches beyond the image. -/
theorem step_formatTrack_beyond (htick : s.tickOf rest .formatTrack .rdone false)
    (hb : ∀ i : Fin 512, s.xta.secbuf[i] = some (b i)) (hcyl : s.cmdDrive.curCyl = s.xta.cTrack)
    (htracks : 1 ≤ s.cmdDrive.tracks)
    (hcap : s.capacity s.xta.drvsel < (s.xta.cTrack + 1) * s.cmdDrive.hpc * s.cmdDrive.spt) {base : Nat}
    (hbase : base = s.xta.cTrack * s.cmdDrive.hpc * s.cmdDrive.spt) :
    step s = .next (((s.ticked rest).filled s.xta.drvsel b base (s.capacity s.xta.drvsel - base)).raiseModelFault
      .backendRange) :=
  step_of_tickOf_halt htick rfl (tickFormatTrack_beyond (s := s.ticked rest) hb htracks hcyl hcap hbase)

/-- The tick of FORMAT_DRIVE of a geometry that reaches beyond the image. -/
theorem step_formatDrive_beyond (htick : s.tickOf rest .formatDrive .rdone false)
    (hb : ∀ i : Fin 512, s.xta.secbuf[i] = some (b i))
    (hcap : s.capacity s.xta.drvsel < s.cmdDrive.tracks * s.cmdDrive.hpc * s.cmdDrive.spt) :
    step s = .next (((s.ticked rest).formatted s.xta.drvsel b
      (s.capacity s.xta.drvsel / (s.cmdDrive.hpc * s.cmdDrive.spt)) (s.capacity s.xta.drvsel)).raiseModelFault
      .backendRange) :=
  step_of_tickOf_halt htick rfl
    ((tickFormatDrive_eq (s := s.ticked rest) (.inl hb)).trans (if_neg (Nat.not_le.2 hcap)))

end

/-- Settles O49: each of the three ticks is stopped by its first write that fails, with the writes before it done. -/
theorem failedDiskWriteIsAModelFault : Obligations.FailedDiskWriteIsAModelFault := by
  intro s rest
  have unwritten : (∃ i : Fin 512, s.xta.secbuf[i] = none) →
      ∀ d lba, (s.ticked rest).diskWrite d lba = .halt ((s.ticked rest).raiseModelFault .unwrittenBuffer) :=
    State.diskWrite_of_unwritten (s := s.ticked rest)
  refine ⟨fun htick => ⟨fun hbuf => ?_, fun hbuf hcap => ?_⟩,
    fun htracks hhpc hspt hbuf => ⟨fun htick hcyl => ?_, fun htick => ?_⟩,
    fun b hb => ⟨fun htick hcyl htracks hcap base n hbase hn => ?_, fun htick hcap => ?_⟩⟩
  · exact step_of_tickOf_halt htick rfl (tickWriteSectorsDone_of_halt (unwritten hbuf _ _))
  · exact step_of_tickOf_halt htick rfl
      (tickWriteSectorsDone_of_halt (State.diskWrite_beyond_of_ne_none (s := s.ticked rest) hbuf hcap))
  · exact step_of_tickOf_halt htick rfl
      (tickFormatTrack_of_halt (s := s.ticked rest) htracks hhpc hspt hcyl (unwritten hbuf _ _))
  · have hstep := step_of_tickOf_halt htick rfl (tickFormatDrive_unwritten (s := s.ticked rest) hbuf htracks hhpc hspt)
    rw [State.setCyl, State.setDrive_raiseModelFault] at hstep
    exact hstep
  · subst hn
    refine ⟨_, step_formatTrack_beyond htick hb hcyl htracks hcap hbase, ?_, ?_⟩
    · exact State.filled_imageFilled (s.ticked rest) b base _
    · exact State.filled_raiseModelFault_eq ..
  · refine ⟨_, step_formatDrive_beyond htick hb hcap, ?_, ?_⟩
    · unfold State.imageFilled
      simp only [State.formatted, State.setDrive_raiseModelFault, State.disk_setDrive]
      exact State.filled_imageFilled (s.ticked rest) b 0 _
    · simp only [State.formatted, State.setDrive_raiseModelFault, State.setDrive_disk0, State.setDrive_disk1]
      rw [State.filled_raiseModelFault_eq]
      rfl

end Sys2Proof.Machine
end

section
/-! PROOFS. Which registers name a port (20_memory.md R61, 43_ems.md R275): the port of a register is its own where no other
register has its number, and under the defaults none has. Every port operation and command is one access to its register's port;
a byte access to a port of no register, and a word access (R66), never gets that far. -/

namespace Sys2Proof.Machine

/-! The registers of a port. -/

theorem PortReg.mem_all (r : PortReg) : r ∈ PortReg.all := by
  cases r
  case page s =>
    revert s
    decide
  all_goals decide

theorem PortReg.nodup_all : PortReg.all.Nodup := by decide

theorem DecodeCtx.mem_claims {c : DecodeCtx} {p : Nat} {r : PortReg} : r ∈ c.claims p ↔ c.portNum r = p := by
  simp [DecodeCtx.claims, PortReg.mem_all]

theorem DecodeCtx.nodup_claims (c : DecodeCtx) (p : Nat) : (c.claims p).Nodup := PortReg.nodup_all.filter _

/-- The port of a register is its own where no other register has that number. -/
theorem DecodeCtx.collides_eq_false {c : DecodeCtx} {r : PortReg} (h : ∀ q, c.portNum q = c.portNum r → q = r) :
    c.collides r = false := by
  have hsub : c.claims (c.portNum r) ⊆ [r] := fun q hq => List.mem_singleton.2 (h q (DecodeCtx.mem_claims.1 hq))
  have hlen : (c.claims (c.portNum r)).length ≤ 1 := (List.subperm_of_subset (c.nodup_claims _) hsub).length_le
  exact decide_eq_false (by omega)

/-! The default ports. -/

/-- The page ports of slot 0 are from 0x0208 to 0x02F8, between the chipset ports and the XTA window. -/
theorem defaultEmsPortBase_bounds : ∀ v : Byte,
    0x0208 ≤ (0x0208 ||| (v &&& 0xF0).setWidth 16 : Port).toNat ∧
      (0x0208 ||| (v &&& 0xF0).setWidth 16 : Port).toNat ≤ 0x02F8 := by decide

section
variable {c : DecodeCtx} (hwindow : c.xtaBase = 0x320) (hindex : c.indexPort = 0x22) (hdata : c.dataPort = 0x23)
  (hlow : 0x0208 ≤ c.emsPortBase.toNat) (hhigh : c.emsPortBase.toNat ≤ 0x02F8)
include hwindow hindex hdata hhigh

/-- The ten ports with the chipset ports and the window base at their defaults and a port group below the window: the page ports
are 0x4000 apart and none wraps. -/
theorem DecodeCtx.map_portNum_of_defaults : PortReg.all.map c.portNum =
    [0x320, 0x321, 0x322, 0x323, c.emsPortBase.toNat, c.emsPortBase.toNat + 0x4000, c.emsPortBase.toNat + 0x8000,
      c.emsPortBase.toNat + 0xC000, 0x22, 0x23] := by
  have hpage : ∀ slot : BitVec 2, c.portNum (.page slot) = c.emsPortBase.toNat + 0x4000 * slot.toNat :=
    fun slot => Nat.mod_eq_of_lt (by omega)
  simp only [PortReg.all, List.map, hpage]
  simp [DecodeCtx.portNum, hwindow, hindex, hdata]

include hlow in
theorem DecodeCtx.portNum_injective_of_defaults : Function.Injective c.portNum := by
  have hdistinct : (PortReg.all.map c.portNum).Nodup := by
    rw [DecodeCtx.map_portNum_of_defaults hwindow hindex hdata hhigh]
    simp only [List.nodup_cons, List.mem_cons, List.not_mem_nil, List.nodup_nil, or_false, not_false_eq_true, and_true]
    omega
  exact fun q r => List.inj_on_of_nodup_map hdistinct (PortReg.mem_all q) (PortReg.mem_all r)

end

/-! The host access. -/

/-- A port operation and a command are an access to the port of their register, with an effect of their own. -/
theorem exec_eq_onPort {i : Instr} {r : PortReg} (h : opPort i = some r) (s : State) :
    ∃ k : State, exec i s = s.onPort r k := by
  cases i <;> cases h <;> exact ⟨_, rfl⟩

/-- Settles O9: the check for a shared port is the first thing of every access; under the defaults the ports are distinct. -/
theorem sharedPortIsRefused : Obligations.SharedPortIsRefused := by
  refine ⟨fun s i r hrunning hport hshared => ?_, fun s r hwindow hindex hdata hbase => ?_⟩
  · obtain ⟨k, hexec⟩ := exec_eq_onPort hport s
    exact hexec.trans (State.onPort_of_collides hrunning hshared k)
  · obtain ⟨hlow, hhigh⟩ := defaultEmsPortBase_bounds s.ems.emsCfg
    rw [← hbase] at hlow hhigh
    exact DecodeCtx.collides_eq_false fun _ hq =>
      DecodeCtx.portNum_injective_of_defaults hwindow hindex hdata hlow hhigh hq

/-! Accesses outside the block and word accesses. -/

/-- A byte access to a port of no register decodes to nothing, in either direction. -/
theorem decode_port_unclaimed {c : DecodeCtx} {p0 p1 dir : Byte} (v : Byte) (hdir : dir = 0 ∨ dir = 1)
    (h : c.claims (p0.toNat + 0x100 * p1.toNat) = []) : decode c .port [p0, p1, dir, v] = .error .unclaimedPort := by
  rcases hdir with rfl | rfl <;> simp [decode, decodeDir, decodePort, h]

/-- A host access outside the block changes nothing. -/
theorem State.runAccess_of_unclaimed {s : State} {f : Format} {bytes : List Byte}
    (h : decode s.decodeCtx f bytes = .error .unclaimedPort) : s.runAccess f bytes = .next s := by
  unfold State.runAccess
  rw [h]

theorem State.cycle_of_portWord {s : State} {p : Port} {rest : List Input} (h : s.inputs = .portWord p :: rest) :
    s.cycle = (s.withInputs rest).runPortWord p := by
  unfold State.cycle
  rw [h]

/-- Settles O7: the decoder does not see the list of inputs, so an access names the same registers with the access taken. -/
theorem portsOutsideTheBlockAndWordAccesses : Obligations.PortsOutsideTheBlockAndWordAccesses := by
  refine ⟨fun s p0 p1 dir v rest hrunning hinputs hdir hclaims => ?_, fun s p rest hrunning hinputs => ?_⟩
  · have hdecode : decode (s.withInputs rest).decodeCtx .port [p0, p1, dir, v] = .error .unclaimedPort :=
      decode_port_unclaimed v hdir hclaims
    rw [step_eq_cycle hrunning, State.cycle_of_port hinputs, State.runAccess_of_unclaimed hdecode]
    rfl
  · rw [step_eq_cycle hrunning, State.cycle_of_portWord hinputs]
    rfl

end Sys2Proof.Machine
end

section
/-! PROOFS. Decode and encode agree (30_encoding.md R100 to R103, R107, R108). Each layer of the decoder has two rules: what it
answers on the bytes the encoder writes, and that the bytes it answers on are those of an encoding. The layers are the bytes of an
access, the register of a port (or the 20-bit address, or the command of a DCB), and the operation. -/

namespace Sys2Proof.Machine

variable {c : DecodeCtx}

/-! The bytes of an access. -/

theorem decodeDir_ite (write : Bool) : decodeDir (if write then 0 else 1) = some write := by
  cases write <;> rfl

/-- No other byte is a direction. -/
theorem eq_of_decodeDir {b : Byte} {write : Bool} (h : decodeDir b = some write) : b = if write then 0 else 1 := by
  unfold decodeDir at h
  split at h
  next hb => cases h; exact hb
  next =>
    split at h
    next hb => cases h; exact hb
    next => cases h

/-- A 16-bit port number is read back from its two bytes (R101). -/
theorem decode_portBytes {p : Nat} (hp : p < 0x10000) (write : Bool) (v : Byte) :
    decode c .port (portBytes p write v) = decodePort c p write v := by
  have hport : (lowByte p).toNat + 0x100 * (lowByte (p / 0x100)).toNat = p := by
    simp only [lowByte, BitVec.toNat_ofNat]
    omega
  simp only [decode, portBytes, decodeDir_ite, hport]

/-- A 20-bit address is read back from its three bytes (R100). -/
theorem decode_memBytes {a : Nat} (ha : a < 0x100000) (write : Bool) (v : Byte) :
    decode c .mem (memBytes a write v) = decodeMem a write v := by
  have haddr : (lowByte a).toNat + 0x100 * (lowByte (a / 0x100)).toNat + 0x10000 * (lowByte (a / 0x10000)).toNat = a := by
    simp only [lowByte, BitVec.toNat_ofNat]
    omega
  simp only [decode, memBytes, decodeDir_ite, haddr]

/-- Bytes of format PORT that decode are those of a port access. -/
theorem decode_port_ok {bytes : List Byte} {i : Instr} (h : decode c .port bytes = .ok i) :
    ∃ p write v, bytes = portBytes p write v ∧ decodePort c p write v = .ok i := by
  match bytes, h with
  | [p0, p1, dir, v], h =>
    simp only [decode] at h
    split at h
    next => cases h
    next write hdir =>
      refine ⟨_, write, v, ?_, h⟩
      have hlow : lowByte (p0.toNat + 0x100 * p1.toNat) = p0 := by
        unfold lowByte
        bv_omega
      have hhigh : lowByte ((p0.toNat + 0x100 * p1.toNat) / 0x100) = p1 := by
        unfold lowByte
        bv_omega
      rw [portBytes, hlow, hhigh, ← eq_of_decodeDir hdir]

/-- Bytes of format MEM that decode are those of a memory access. -/
theorem decode_mem_ok {bytes : List Byte} {i : Instr} (h : decode c .mem bytes = .ok i) :
    ∃ a write v, bytes = memBytes a write v ∧ decodeMem a write v = .ok i := by
  match bytes, h with
  | [a0, a1, a2, dir, v], h =>
    simp only [decode] at h
    split at h
    next => cases h
    next write hdir =>
      refine ⟨_, write, v, ?_, h⟩
      have hlow : lowByte (a0.toNat + 0x100 * a1.toNat + 0x10000 * a2.toNat) = a0 := by
        unfold lowByte
        bv_omega
      have hmid : lowByte ((a0.toNat + 0x100 * a1.toNat + 0x10000 * a2.toNat) / 0x100) = a1 := by
        unfold lowByte
        bv_omega
      have hhigh : lowByte ((a0.toNat + 0x100 * a1.toNat + 0x10000 * a2.toNat) / 0x10000) = a2 := by
        unfold lowByte
        bv_omega
      rw [memBytes, hlow, hmid, hhigh, ← eq_of_decodeDir hdir]

/-- Bytes of a DCB that decode are six. -/
theorem decode_dcb_ok {bytes : List Byte} {i : Instr} (h : decode c .dcb bytes = .ok i) :
    ∃ b : Vector Byte 6, bytes = b.toList ∧ decodeDcb c.cmd b = i := by
  match bytes, h with
  | [b0, b1, b2, b3, b4, b5], h => exact ⟨#v[b0, b1, b2, b3, b4, b5], rfl, Except.ok.inj h⟩

/-- An access that is accepted is a write, or a read that carries no data. -/
theorem access_ok {write : Bool} {v : Byte} {w r i : Instr}
    (h : (if write then .ok w else if v = 0 then .ok r else .error .readWithData : Except DecodeReject Instr) = .ok i) :
    (write = true ∧ i = w) ∨ (write = false ∧ v = 0 ∧ i = r) := by
  split at h
  next hwrite => exact .inl ⟨hwrite, (Except.ok.inj h).symm⟩
  next hread =>
    split at h
    next hv => exact .inr ⟨Bool.eq_false_iff.2 hread, hv, (Except.ok.inj h).symm⟩
    next => cases h

/-! The register of a port. -/

/-- A register whose port is usable is the only one its port names (20_memory.md R61). -/
theorem claims_of_portUsable {r : PortReg} (h : portUsable c r = true) : c.claims (c.portNum r) = [r] := by
  simp only [portUsable, DecodeCtx.collides, Bool.and_eq_true, Bool.not_eq_true', decide_eq_false_iff_not] at h
  have hmem : r ∈ c.claims (c.portNum r) := DecodeCtx.mem_claims.2 rfl
  match hclaims : c.claims (c.portNum r) with
  | [] => simp [hclaims] at hmem
  | [q] => simpa [hclaims, eq_comm] using hmem
  | _ :: _ :: _ => simp [hclaims] at h

theorem portNum_lt_of_portUsable {r : PortReg} (h : portUsable c r = true) : c.portNum r < 0x10000 :=
  of_decide_eq_true (Bool.and_eq_true_iff.1 h).1

/-- A write to a usable port is the register's write. -/
theorem decode_port_write {r : PortReg} (h : portUsable c r = true) (v : Byte) :
    decode c .port (portBytes (c.portNum r) true v) = .ok (writeOp c r v) := by
  rw [decode_portBytes (portNum_lt_of_portUsable h), decodePort, claims_of_portUsable h]
  rfl

/-- A read of a usable port is the register's read. -/
theorem decode_port_read {r : PortReg} (h : portUsable c r = true) :
    decode c .port (portBytes (c.portNum r) false 0) = .ok (readOp c r) := by
  rw [decode_portBytes (portNum_lt_of_portUsable h), decodePort, claims_of_portUsable h]
  rfl

/-- A port access that decodes is to a register with that port number: its write, or its read with no data. -/
theorem decodePort_ok {p : Nat} {write : Bool} {v : Byte} {i : Instr} (h : decodePort c p write v = .ok i) :
    ∃ r, c.portNum r = p ∧ ((write = true ∧ i = writeOp c r v) ∨ (write = false ∧ v = 0 ∧ i = readOp c r)) := by
  unfold decodePort at h
  split at h
  next => cases h
  next r _ hclaims => exact ⟨r, DecodeCtx.mem_claims.1 (by simp [hclaims]), access_ok h⟩

/-- A register's write is encoded as a write to its port, but for the Data write that completes a DCB (R140). -/
theorem encode_writeOp {r : PortReg} (h : r = .data → c.lastDcbByte = none) (v : Byte) :
    encode c (writeOp c r v) = (.port, portBytes (c.portNum r) true v) := by
  cases r with
  | data => simp only [writeOp, h rfl, encode]
  | chipData => by_cases hindex : c.chipIndex = some c.emsCfgIndex <;> simp only [writeOp, hindex, if_true, if_false, encode]
  | _ => rfl

/-- A register's read is encoded as a read of its port. -/
theorem encode_readOp (r : PortReg) : encode c (readOp c r) = (.port, portBytes (c.portNum r) false 0) := by
  cases r with
  | chipData => by_cases hindex : c.chipIndex = some c.emsCfgIndex <;> simp only [readOp, hindex, if_true, if_false, encode]
  | _ => rfl

/-! The address of a memory access. -/

/-- A memory access that decodes is of 20 bits: a write, or a read with no data. -/
theorem decodeMem_ok {a : Nat} {write : Bool} {v : Byte} {i : Instr} (h : decodeMem a write v = .ok i) :
    ∃ addr : Addr, addr.toNat = a ∧ ((write = true ∧ i = .emsMemW addr v) ∨ (write = false ∧ v = 0 ∧ i = .emsMemR addr)) := by
  unfold decodeMem at h
  split at h
  next ha => exact ⟨BitVec.ofNat 20 a, Nat.mod_eq_of_lt ha, access_ok h⟩
  next => cases h

/-- A memory write is read back. -/
theorem decode_mem_write (a : Addr) (v : Byte) : decode c .mem (memBytes a.toNat true v) = .ok (.emsMemW a v) := by
  rw [decode_memBytes a.isLt, decodeMem, if_pos a.isLt, BitVec.ofNat_toNat, BitVec.setWidth_eq]
  rfl

/-- A memory read is read back. -/
theorem decode_mem_read (a : Addr) : decode c .mem (memBytes a.toNat false 0) = .ok (.emsMemR a) := by
  rw [decode_memBytes a.isLt, decodeMem, if_pos a.isLt, BitVec.ofNat_toNat, BitVec.setWidth_eq]
  rfl

/-! The command of a DCB. -/

/-- The opcode byte that decodes to a command is the command's (R108). -/
theorem cmdCode_of_cmdOf {codes : CmdCodes} {op : Byte} {k : Cmd} (h : cmdOf codes op = some k) : cmdCode codes k = op :=
  eq_of_beq (List.find?_some (p := fun k => cmdCode codes k == op) h)

theorem decodeDcb_of_cmdOf {codes : CmdCodes} {b : Vector Byte 6} {k : Cmd} (h : cmdOf codes b[0] = some k) :
    decodeDcb codes b = cmdInstr k (DcbOps.ofDcb b) := by
  unfold decodeDcb
  rw [h]
  cases k <;> rfl

theorem decodeDcb_of_illegal {codes : CmdCodes} {b : Vector Byte 6} (h : cmdOf codes b[0] = none) :
    decodeDcb codes b = .xtaCmdIllegal b[0] (DcbOps.ofDcb b) := by
  unfold decodeDcb
  rw [h]

theorem encode_cmdInstr (k : Cmd) (d : DcbOps) : encode c (cmdInstr k d) = (.dcb, (d.toDcb (cmdCode c.cmd k)).toList) := by
  cases k <;> rfl

/-- A command is read back from its DCB, its opcode byte being its own in P_CMD (R108). -/
theorem decode_dcb_command {k : Cmd} (h : cmdUsable c k = true) (d : DcbOps) :
    decode c .dcb (d.toDcb (cmdCode c.cmd k)).toList = .ok (cmdInstr k d) := by
  have hcmd := decodeDcb_of_cmdOf (b := d.toDcb (cmdCode c.cmd k)) (of_decide_eq_true h)
  rw [DcbOps.ofDcb_toDcb] at hcmd
  exact congrArg Except.ok hcmd

/-- An unrecognised opcode byte is read back with its operands (42_xta_commands.md R225). -/
theorem decode_dcb_illegal {op : Byte} (h : cmdOf c.cmd op = none) (d : DcbOps) :
    decode c .dcb (d.toDcb op).toList = .ok (.xtaCmdIllegal op d) := by
  have hcmd := decodeDcb_of_illegal (b := d.toDcb op) h
  rw [DcbOps.ofDcb_toDcb] at hcmd
  exact congrArg Except.ok hcmd

/-- The six bytes of a DCB are the encoding of the command they are. -/
theorem encode_decodeDcb (b : Vector Byte 6) : encode c (decodeDcb c.cmd b) = (.dcb, b.toList) := by
  cases hcmd : cmdOf c.cmd b[0] with
  | none => rw [decodeDcb_of_illegal hcmd, encode, DcbOps.toDcb_ofDcb]
  | some k => rw [decodeDcb_of_cmdOf hcmd, encode_cmdInstr, cmdCode_of_cmdOf hcmd, DcbOps.toDcb_ofDcb]

/-! The operations. -/

/-- What the host can issue in a context, by the field of the encoding that names it (R101, R107, R108): a register, a command,
an opcode byte of no command, or an address. -/
inductive Issuable (c : DecodeCtx) : Instr → Prop where
  | write (r : PortReg) (v : Byte) (usable : portUsable c r = true) (own : r = .data → c.lastDcbByte = none) :
      Issuable c (writeOp c r v)
  | read (r : PortReg) (usable : portUsable c r = true) : Issuable c (readOp c r)
  | command (k : Cmd) (d : DcbOps) (usable : cmdUsable c k = true) : Issuable c (cmdInstr k d)
  | illegal (op : Byte) (d : DcbOps) (unknown : cmdOf c.cmd op = none) : Issuable c (.xtaCmdIllegal op d)
  | memRead (a : Addr) : Issuable c (.emsMemR a)
  | memWrite (a : Addr) (v : Byte) : Issuable c (.emsMemW a v)


/-- Every well-formed operation is one the host can issue. -/
theorem issuable_of_wellFormed {i : Instr} (h : i.wellFormed c = true) : Issuable c i := by
  cases i with
  | xtaDataW v =>
    obtain ⟨hport, hown⟩ := Bool.and_eq_true_iff.1 h
    have hnone : c.lastDcbByte = none := Option.isNone_iff_eq_none.1 hown
    simpa only [writeOp, hnone] using Issuable.write .data v hport fun _ => hnone
  | xtaDataR => exact .read .data h
  | xtaResetW v => exact .write .status v h nofun
  | xtaStatusR => exact .read .status h
  | xtaSelectW v => exact .write .select v h nofun
  | xtaJumpersR => exact .read .select h
  | xtaIntrW v => exact .write .intr v h nofun
  | xtaPort3R => exact .read .intr h
  | emsPageW slot v => exact .write (.page slot) v h nofun
  | emsPageR slot => exact .read (.page slot) h
  | chipIndexW v => exact .write .chipIndex v h nofun
  | chipIndexR => exact .read .chipIndex h
  | emsCfgW v =>
    obtain ⟨hport, hindex⟩ := Bool.and_eq_true_iff.1 h
    simpa only [writeOp, if_pos (of_decide_eq_true hindex)] using Issuable.write .chipData v hport nofun
  | emsCfgR =>
    obtain ⟨hport, hindex⟩ := Bool.and_eq_true_iff.1 h
    simpa only [readOp, if_pos (of_decide_eq_true hindex)] using Issuable.read .chipData hport
  | chipDataW v =>
    obtain ⟨hport, hindex⟩ := Bool.and_eq_true_iff.1 h
    simpa only [writeOp, if_neg (of_decide_eq_true hindex)] using Issuable.write .chipData v hport nofun
  | chipDataR =>
    obtain ⟨hport, hindex⟩ := Bool.and_eq_true_iff.1 h
    simpa only [readOp, if_neg (of_decide_eq_true hindex)] using Issuable.read .chipData hport
  | xtaCmdTestReady d => exact .command .testReady d h
  | xtaCmdRecalibrate d => exact .command .recalibrate d h
  | xtaCmdReadSense d => exact .command .readSense d h
  | xtaCmdFormatDrive d => exact .command .formatDrive d h
  | xtaCmdReadVerify d => exact .command .readVerify d h
  | xtaCmdFormatTrack d => exact .command .formatTrack d h
  | xtaCmdReadSectors d => exact .command .readSectors d h
  | xtaCmdWriteSectors d => exact .command .writeSectors d h
  | xtaCmdSeek d => exact .command .seek d h
  | xtaCmdSetDriveParams d => exact .command .setDriveParams d h
  | xtaCmdReadSectorBuffer d => exact .command .readSectorBuffer d h
  | xtaCmdWriteSectorBuffer d => exact .command .writeSectorBuffer d h
  | xtaCmdRamDiag d => exact .command .ramDiag d h
  | xtaCmdDriveDiag d => exact .command .driveDiag d h
  | xtaCmdCtrlDiag d => exact .command .ctrlDiag d h
  | xtaCmdIllegal op d => exact .illegal op d (of_decide_eq_true h)
  | emsMemR a => exact .memRead a
  | emsMemW a v => exact .memWrite a v

/-- The encoding of what the host can issue decodes to it. -/
theorem Issuable.decode_encode {i : Instr} (h : Issuable c i) : decode c (encode c i).1 (encode c i).2 = .ok i := by
  cases h with
  | write r v usable own => rw [encode_writeOp own]; exact decode_port_write usable v
  | read r usable => rw [encode_readOp]; exact decode_port_read usable
  | command k d usable => rw [encode_cmdInstr]; exact decode_dcb_command usable d
  | illegal op d unknown => exact decode_dcb_illegal unknown d
  | memRead a => exact decode_mem_read a
  | memWrite a v => exact decode_mem_write a v

/-- Settles O1: by the field of the encoding that names the operation. -/
theorem decodeOfEncodeIsTheOperation : Obligations.DecodeOfEncodeIsTheOperation :=
  fun _ _ h => (issuable_of_wellFormed h).decode_encode

/-- Settles O2: format by format, the bytes are those of an access or a DCB, and so the encoding of what they decode to. -/
theorem encodeOfDecodeIsTheBytes : Obligations.EncodeOfDecodeIsTheBytes := by
  intro c f bytes i hnone h
  cases f with
  | port =>
    obtain ⟨p, write, v, rfl, haccess⟩ := decode_port_ok h
    obtain ⟨r, rfl, ⟨rfl, rfl⟩ | ⟨rfl, rfl, rfl⟩⟩ := decodePort_ok haccess
    · exact encode_writeOp (fun _ => hnone) v
    · exact encode_readOp r
  | mem =>
    obtain ⟨a, write, v, rfl, haccess⟩ := decode_mem_ok h
    obtain ⟨addr, rfl, ⟨rfl, rfl⟩ | ⟨rfl, rfl, rfl⟩⟩ := decodeMem_ok haccess
    · rfl
    · rfl
  | dcb =>
    obtain ⟨b, rfl, rfl⟩ := decode_dcb_ok h
    exact encode_decodeDcb b

/-- Bytes that are the encoding of a well-formed operation decode to it. -/
theorem decode_of_encode_eq {i : Instr} {f : Format} {bytes : List Byte} (hwf : i.wellFormed c = true)
    (henc : encode c i = (f, bytes)) : decode c f bytes = .ok i := by
  simpa only [henc] using (issuable_of_wellFormed hwf).decode_encode

/-- Settles O3: each word is the encoding of a well-formed operation. -/
theorem writtenOutWordsDecode : Obligations.WrittenOutWordsDecode :=
  ⟨decode_of_encode_eq (by decide) (by decide), decode_of_encode_eq (by decide) (by decide),
    decode_of_encode_eq (by decide) (by decide), decode_of_encode_eq (by decide) (by decide),
    decode_of_encode_eq (by decide) (by decide), decode_of_encode_eq (by decide) (by decide)⟩

end Sys2Proof.Machine
end

section
/-! PROOFS. The operations of the XTA window (40_xta_ports.md R140 to R149). A port operation on a usable port is its register's
own effect; each effect has an equation for each of its cases, and the Data write that is the sixth byte of a DCB is the acceptance
of the command that the DCB is. -/

namespace Sys2Proof.Machine

variable {s : State}

/-! The operations on a usable port. -/

theorem exec_xtaDataW_of_usable (h : s.usable .data) (v : Byte) : exec (.xtaDataW v) s = .next (s.dataWrite v) :=
  State.onPort_of_usable h _

theorem exec_xtaDataR_of_usable (h : s.usable .data) : exec .xtaDataR s = .next s.dataRead :=
  State.onPort_of_usable h _

/-! The strobes. -/

/-- What the Reset strobe leaves (R142): the parameter decides `sense` alone. -/
theorem State.resetStrobe_eq (s : State) : s.resetStrobe = { s with xta := { s.xta with
    pending := false, xst := .idle, status := 0x00, curTgt := .none, curIdx := 0, curLen := 0, xferDma := false,
    sense := if s.cfg.resetSense = .cleared then s.cfg.senseCodes.noError else s.xta.sense } } := by
  unfold State.resetStrobe
  cases hsense : s.cfg.resetSense with
  | unchanged => simp [State.cancel, State.enter, hsense, Status.idle]
  | cleared => simp [State.cancel, State.enter, hsense, Status.idle]

/-- Settles O15, by the two values of the parameter. -/
theorem resetStrobeForcesIdle : Obligations.ResetStrobeForcesIdle := fun s _ h =>
  (State.onPort_of_usable h _).trans (congrArg _ s.resetStrobe_eq)

/-- Settles O16: the strobe does not look at the engine's state. -/
theorem selectStrobeStartsReception : Obligations.SelectStrobeStartsReception := fun _ _ h =>
  State.onPort_of_usable h _

/-- Settles O18: the effect of the write is that store alone. -/
theorem enableWriteStoresTheByte : Obligations.EnableWriteStoresTheByte := fun _ _ h =>
  State.onPort_of_usable h _

/-! The reads. -/

/-- A read of `any u8` is the environment's next byte where it has one, and some byte otherwise (00_scope.md R10). -/
theorem State.readAny_readsAny (s : State) : readsAny s (.next s.readAny) := by
  unfold State.readAny
  refine ⟨?_, fun b bs hscript => ?_⟩
  · obtain ⟨b, dr, hdraw⟩ := s.drawByte_cases
    exact ⟨b, dr, by rw [hdraw]; rfl⟩
  · rw [State.drawByte_of_script hscript]
    rfl

/-- Settles O17: the three reads answer the register, the parameter and a drawn byte. -/
theorem windowReadsChangeNothing : Obligations.WindowReadsChangeNothing := by
  refine ⟨fun s h => State.onPort_of_usable h _, fun s h => State.onPort_of_usable h _, fun s h => ?_⟩
  have hread : exec .xtaPort3R s = .next s.readAny := State.onPort_of_usable h _
  rw [hread]
  exact s.readAny_readsAny

/-! The unexpected Data access. -/

/-- A Data write is unexpected but in RDATA with REQ set (R140, R149). -/
theorem State.dataWrite_of_unexpected (h : ¬ (s.xta.xst = .rdata ∧ s.xta.status &&& 0x01 ≠ 0)) (v : Byte) :
    s.dataWrite v = s.protocolViolation .write :=
  if_neg (by rwa [State.req_iff])

/-- A Data read is unexpected but in COMPL and in SDATA with REQ set (R141, R149); it answers any byte after the violation. -/
theorem State.dataRead_of_unexpected (hcompl : s.xta.xst ≠ .compl)
    (h : ¬ (s.xta.xst = .sdata ∧ s.xta.status &&& 0x01 ≠ 0)) : s.dataRead = (s.protocolViolation .read).readAny := by
  unfold State.dataRead
  rw [if_neg hcompl, if_neg (by rwa [State.req_iff])]
  rfl

/-- Settles O12: a violating read is a read of any byte in the state the violation leaves. -/
theorem unexpectedDataAccessIsAViolation : Obligations.UnexpectedDataAccessIsAViolation := by
  refine ⟨fun s v h hunexpected => ?_, fun s h hcompl hunexpected => ?_⟩
  · rw [exec_xtaDataW_of_usable h, State.dataWrite_of_unexpected hunexpected]
    rfl
  · rw [exec_xtaDataR_of_usable h, State.dataRead_of_unexpected hcompl hunexpected]
    exact (s.protocolViolation .read).readAny_readsAny

/-! The accepted Data write. -/

@[simp] theorem State.storePhaseByte_xta_curIdx (s : State) (v : Byte) : (s.storePhaseByte v).xta.curIdx = s.xta.curIdx := by
  unfold State.storePhaseByte
  split <;> rfl

@[simp] theorem State.storePhaseByte_xta_curLen (s : State) (v : Byte) : (s.storePhaseByte v).xta.curLen = s.xta.curLen := by
  unfold State.storePhaseByte
  split <;> rfl

theorem State.storePhaseByte_dcbBuf (h : s.xta.curTgt = .dcbBuf) (v : Byte) : s.storePhaseByte v =
    { s with xta := { s.xta with dcb := s.xta.dcb.setIfInBounds s.xta.curIdx v } } := by
  unfold State.storePhaseByte
  rw [h]

theorem State.storePhaseByte_paramBuf (h : s.xta.curTgt = .paramBuf) (v : Byte) : s.storePhaseByte v =
    { s with xta := { s.xta with parambuf := s.xta.parambuf.setIfInBounds s.xta.curIdx v } } := by
  unfold State.storePhaseByte
  rw [h]

theorem State.storePhaseByte_secBuf (h : s.xta.curTgt = .secBuf) (v : Byte) : s.storePhaseByte v = s.putSecbuf v := by
  unfold State.storePhaseByte
  rw [h]

/-- A DCB whose last byte is in is dispatched (R172). -/
theorem State.afterPhaseByte_dcb (hlast : s.xta.curIdx = s.xta.curLen) (htgt : s.xta.curTgt = .dcbBuf) :
    s.afterPhaseByte = s.dcbComplete (startOf s.command) := by
  unfold State.afterPhaseByte
  rw [if_pos hlast, if_pos htgt]

section
variable (hxst : s.xta.xst = .rdata) (hreq : s.xta.status &&& 0x01 ≠ 0) (v : Byte)
include hxst hreq

theorem State.dataWrite_of_accepted : s.dataWrite v = (s.storePhaseByte v).advance.afterPhaseByte :=
  if_pos ⟨hxst, s.req_iff.2 hreq⟩

/-- Nothing follows the byte where it is not the last of its phase. -/
theorem State.dataWrite_of_not_last (hmore : s.xta.curIdx + 1 < s.xta.curLen) :
    s.dataWrite v = (s.storePhaseByte v).advance := by
  have hopen : (s.storePhaseByte v).advance.xta.curIdx ≠ (s.storePhaseByte v).advance.xta.curLen := by
    simpa using hmore.ne
  rw [State.dataWrite_of_accepted hxst hreq]
  exact if_neg hopen

/-- The sixth byte of a DCB completes it and starts the command that its first byte names (R140, R172). -/
theorem State.dataWrite_of_sixth (htgt : s.xta.curTgt = .dcbBuf) (hidx : s.xta.curIdx = 5) (hlen : s.xta.curLen = 6) :
    s.dataWrite v = State.dcbComplete (startOf (cmdOf s.cfg.cmd (s.xta.dcb.set 5 v)[0]))
      { s with xta := { s.xta with dcb := s.xta.dcb.set 5 v, curIdx := 6 } } := by
  have hstored : (s.storePhaseByte v).advance = { s with xta := { s.xta with dcb := s.xta.dcb.set 5 v, curIdx := 6 } } := by
    rw [State.storePhaseByte_dcbBuf htgt, hidx, vector_setIfInBounds_eq _ (by decide)]
    simp only [State.advance, hidx]
  rw [State.dataWrite_of_accepted hxst hreq, hstored]
  exact State.afterPhaseByte_dcb hlen.symm htgt

end

/-- Settles O10, by the buffer of the phase. -/
theorem dataWriteStoresOneByte : Obligations.DataWriteStoresOneByte := by
  intro s v h hxst hreq hmore
  rw [exec_xtaDataW_of_usable h, State.dataWrite_of_not_last hxst hreq v hmore]
  refine ⟨fun htgt => ?_, fun htgt => ?_, fun htgt => ?_⟩
  · rw [State.storePhaseByte_dcbBuf htgt]; rfl
  · rw [State.storePhaseByte_paramBuf htgt]; rfl
  · rw [State.storePhaseByte_secBuf htgt]; rfl

/-! The sixth byte of a DCB. -/

/-- Every row of 42_xta_commands.md is the acceptance of its DCB around its start action. -/
theorem exec_cmdInstr (k : Cmd) (d : DcbOps) (s : State) :
    exec (cmdInstr k d) s = s.acceptDcb (d.toDcb (cmdCode s.cfg.cmd k)) (startOf (some k)) := by
  cases k <;> rfl

/-- The command that six bytes decode to accepts those bytes, whatever the opcode (R108, R172). -/
theorem exec_decodeDcb (b : Vector Byte 6) (s : State) :
    exec (decodeDcb s.cfg.cmd b) s = s.acceptDcb b (startOf (cmdOf s.cfg.cmd b[0])) := by
  cases hcmd : cmdOf s.cfg.cmd b[0] with
  | none =>
    calc exec (decodeDcb s.cfg.cmd b) s
      _ = s.acceptDcb ((DcbOps.ofDcb b).toDcb b[0]) startIllegal := by rw [decodeDcb_of_illegal hcmd]; rfl
      _ = s.acceptDcb b startIllegal := by rw [DcbOps.toDcb_ofDcb]
  | some k => rw [decodeDcb_of_cmdOf hcmd, exec_cmdInstr, cmdCode_of_cmdOf hcmd, DcbOps.toDcb_ofDcb]

/-- Settles O6: both sides are the access to the Data port that completes the DCB. -/
theorem sixthDataByteRunsTheCommand : Obligations.SixthDataByteRunsTheCommand := by
  intro s v hxst hreq htgt hidx hlen
  calc exec (.xtaDataW v) s
    _ = s.onPort .data (s.dataWrite v) := rfl
    _ = s.acceptDcb (s.xta.dcb.set 5 v) (startOf (cmdOf s.cfg.cmd (s.xta.dcb.set 5 v)[0])) := by
      rw [State.dataWrite_of_sixth hxst hreq v htgt hidx hlen]; rfl
    _ = exec (decodeDcb s.cfg.cmd (s.xta.dcb.set 5 v)) s := (exec_decodeDcb _ s).symm

end Sys2Proof.Machine
end

section
/-! PROOFS. The end of a data phase at the Data port (40_xta_ports.md R140, R141, 41_xta_engine.md R173, R177): the last byte of a
phase is moved like any other, and ends the phase. -/

namespace Sys2Proof.Machine

variable {s : State}

/-! The last byte from the host. -/

@[simp] theorem State.storePhaseByte_xta_curTgt (s : State) (v : Byte) : (s.storePhaseByte v).xta.curTgt = s.xta.curTgt := by
  unfold State.storePhaseByte
  split <;> rfl

/-- The last byte of a phase that is no DCB ends the phase (R173). -/
theorem State.dataWrite_of_last (hxst : s.xta.xst = .rdata) (hreq : s.xta.status &&& 0x01 ≠ 0) (v : Byte)
    (hlast : s.xta.curIdx + 1 = s.xta.curLen) (htgt : s.xta.curTgt ≠ .dcbBuf) :
    s.dataWrite v = (s.storePhaseByte v).advance.endInPhase := by
  have hended : (s.storePhaseByte v).advance.xta.curIdx = (s.storePhaseByte v).advance.xta.curLen := by simpa using hlast
  have hno : (s.storePhaseByte v).advance.xta.curTgt ≠ .dcbBuf := by simpa using htgt
  rw [State.dataWrite_of_accepted hxst hreq, State.afterPhaseByte, if_pos hended, if_neg hno]

/-- Settles O11, by the buffer of the phase. -/
theorem lastDataWriteEndsThePhase : Obligations.LastDataWriteEndsThePhase := by
  intro s v h hxst hreq hlast
  rw [exec_xtaDataW_of_usable h]
  refine ⟨fun htgt => ?_, fun htgt => ?_⟩
  · rw [State.dataWrite_of_last hxst hreq v hlast (by simp [htgt]), State.storePhaseByte_paramBuf htgt]; rfl
  · rw [State.dataWrite_of_last hxst hreq v hlast (by simp [htgt]), State.storePhaseByte_secBuf htgt]; rfl

/-! The bytes to the host. -/

theorem State.afterPhaseRead_of_not_last (r : Byte) (hmore : s.xta.curIdx + 1 < s.xta.curLen) :
    s.afterPhaseRead r = (s.answer r).advance :=
  if_neg hmore.ne

theorem State.afterPhaseRead_of_last (r : Byte) (hlast : s.xta.curIdx + 1 = s.xta.curLen) :
    s.afterPhaseRead r = (s.answer r).advance.endOutPhase :=
  if_pos hlast

/-- The cell of the sector buffer at a cursor inside it. -/
theorem State.secbufAt_of_getElem? {b : Option Byte} (h : s.xta.secbuf[s.xta.curIdx]? = some b) : s.secbufAt = b := by
  rw [State.secbufAt, vector_getD_eq, h, Option.getD_some]

section
variable (hxst : s.xta.xst = .sdata) (hreq : s.xta.status &&& 0x01 ≠ 0)
include hxst hreq

theorem State.dataRead_senseBuf (htgt : s.xta.curTgt = .senseBuf) :
    s.dataRead = s.afterPhaseRead (s.xta.sensebuf.getD s.xta.curIdx 0) := by
  unfold State.dataRead
  rw [if_neg (by simp [hxst]), if_pos ⟨hxst, s.req_iff.2 hreq⟩, htgt]

theorem State.dataRead_secBuf (htgt : s.xta.curTgt = .secBuf) {b : Byte} (hb : s.secbufAt = some b) :
    s.dataRead = s.afterPhaseRead b := by
  unfold State.dataRead
  rw [if_neg (by simp [hxst]), if_pos ⟨hxst, s.req_iff.2 hreq⟩, htgt]
  simp only [hb]

theorem State.dataRead_secBuf_unwritten (htgt : s.xta.curTgt = .secBuf) (hb : s.secbufAt = none) :
    s.dataRead = s.raiseModelFault .unwrittenBuffer := by
  unfold State.dataRead
  rw [if_neg (by simp [hxst]), if_pos ⟨hxst, s.req_iff.2 hreq⟩, htgt]
  simp only [hb]

end

/-- Settles O14: the byte at the cursor, by the buffer of the phase, and then whether it was the last. -/
theorem dataReadReturnsThePhaseByte : Obligations.DataReadReturnsThePhaseByte := by
  intro s h hxst hreq
  rw [exec_xtaDataR_of_usable h]
  refine ⟨fun b hb => ?_, fun htgt hcell => ?_⟩
  · have hread : s.dataRead = s.afterPhaseRead b := by
      rcases hb with ⟨htgt, hcell⟩ | ⟨htgt, hcell⟩
      · rw [State.dataRead_senseBuf hxst hreq htgt, vector_getD_eq, hcell, Option.getD_some]
      · exact State.dataRead_secBuf hxst hreq htgt (State.secbufAt_of_getElem? hcell)
    rw [hread]
    refine ⟨fun hmore => ?_, fun hlast => ?_⟩
    · rw [State.afterPhaseRead_of_not_last b hmore]; rfl
    · rw [State.afterPhaseRead_of_last b hlast]; rfl
  · rw [State.dataRead_secBuf_unwritten hxst hreq htgt (State.secbufAt_of_getElem? hcell)]
    rfl

end Sys2Proof.Machine
end

section
/-! PROOFS. The acceptance of a DCB (41_xta_engine.md R172, R175, R187): which command an opcode byte is, what a DCB with `mbz` set
and one for an absent drive meet. -/

namespace Sys2Proof.Machine

theorem mem_allCmds (c : Cmd) : c ∈ allCmds := by cases c <;> decide

/-- Settles O4: the table lists every command, so the first in it with an opcode is the only one that has it. -/
theorem commandOfAnOpcodeByte : Obligations.CommandOfAnOpcodeByte := by
  intro codes op hdistinct
  have hnone : cmdOf codes op = none ↔ ∀ c, cmdCode codes c ≠ op := by
    simp [cmdOf, List.find?_eq_none, mem_allCmds]
  refine ⟨fun c => ⟨cmdCode_of_cmdOf, fun hop => ?_⟩, hnone⟩
  cases hcmd : cmdOf codes op with
  | none => exact absurd hop (hnone.1 hcmd c)
  | some c' => rw [hdistinct c' c ((cmdCode_of_cmdOf hcmd).trans hop.symm)]

/-- Settles O30: the acceptance of a DCB looks at `mbz` before its start action. -/
theorem dcbWithMbzSetIsRefused : Obligations.DcbWithMbzSetIsRefused := by
  refine fun s d h hmbz => ⟨fun c => ⟨6, ?_⟩, fun op => ⟨6, ?_⟩⟩
  · rw [exec_cmdInstr]
    exact State.acceptDcb_of_mbz _ _ h hmbz _
  · exact State.acceptDcb_of_mbz _ _ h hmbz _

/-- The start actions of R187 begin with the presence check. -/
theorem startOf_absent {c : Cmd} {s : State}
    (hc : c ∈ [Cmd.testReady, .recalibrate, .driveDiag, .seek, .readVerify, .readSectors, .writeSectors, .formatTrack, .formatDrive])
    (habsent : (s.drive s.d).present = false) : startOf (some c) s = s.fail s.cfg.senseCodes.notRdy := by
  simp only [List.mem_cons, List.not_mem_nil, or_false] at hc
  rcases hc with rfl | rfl | rfl | rfl | rfl | rfl | rfl | rfl | rfl <;>
    simp only [startOf, startTestReady, startRecalibrate, startDriveDiag, startSeek, startReadVerify, startReadSectors,
      startWriteSectors, startFormatTrack, startFormatDrive, State.checkPresent_absent habsent]

/-- Settles O31: the accepted DCB names the drive that the presence check then looks at. -/
theorem absentDriveIsNotReady : Obligations.AbsentDriveIsNotReady := by
  intro s d c h hmbz habsent hc
  have hdrive : (accepted s (cmdCode s.cfg.cmd c) d).d = d.drvsel := accepted_drvsel ..
  rw [exec_cmdInstr, State.acceptDcb_of_usable _ _ h hmbz, startOf_absent hc (by rw [hdrive]; exact habsent), State.fail_eq]
  rfl

end Sys2Proof.Machine
end

section
/-! PROOFS. The state graph of the engine (41_xta_engine.md R170, R171): what the invariant looks at, what an action finds, and where
the start actions lead. -/

namespace Sys2Proof.Machine

variable {s t : State}

/-! What the invariant looks at. -/

/-- The part of the state that the graph is about. -/
def State.control (s : State) : (Xst × Byte) × (Target × Nat × Nat) × (Bool × Bool) × Nat × Option Cmd :=
  ((s.xta.xst, s.xta.status), (s.xta.curTgt, s.xta.curIdx, s.xta.curLen), (s.xta.xferDma, s.xta.pending), s.xta.count, s.command)

theorem State.xst_of_control (h : t.control = s.control) : t.xta.xst = s.xta.xst := congrArg (·.1.1) h

theorem State.engineOk_of_control (h : t.control = s.control) (hs : s.engineOk) : t.engineOk := by
  simp only [State.control, Prod.mk.injEq] at h
  obtain ⟨⟨hxst, hstatus⟩, ⟨htgt, hidx, hlen⟩, ⟨hdma, hpending⟩, hcount, hcommand⟩ := h
  simpa only [State.engineOk, State.countOk, State.runs, Xta.noPhase, Xta.phase, Xta.waiting, Xta.pio, Xta.dma, hxst, hstatus,
    htgt, hidx, hlen, hdma, hpending, hcount, hcommand] using hs

/-- Only the three commands with a per-sector loop have a count to keep. -/
theorem State.countOk_of_command {c : Cmd} (hc : s.command = some c) (hno : c ∉ [Cmd.readVerify, .readSectors, .writeSectors]) :
    s.countOk := by
  rintro ⟨c', hmem, hc'⟩
  obtain rfl : c = c' := Option.some.inj (hc.symm.trans hc')
  exact absurd hmem hno

/-! What an action finds, and where it leads. -/

/-- What the action of a command finds outside a DMA phase: its tick taken, and a count in range. -/
structure State.acts (s : State) (c : Cmd) : Prop where
  command : s.command = some c
  dma : s.xta.xferDma = false
  pending : s.xta.pending = false
  count : s.countOk

/-- The engine in a state of the graph that is one of a list. -/
abbrev State.standsIn (s : State) (xs : List Xst) : Prop := s.engineOk ∧ s.xta.xst ∈ xs

/-- Where an action leads: to a state of the graph out of `xs`, or to a stop in a state out of `stops`. -/
def Flow.leads (xs stops : List Xst) : Flow → Prop
  | .go t => t.standsIn xs
  | .halt t => ¬ t.running ∧ t.xta.xst ∈ stops

theorem completed_engineOk (s : State) : (completed s).engineOk := by
  refine ⟨?_, ⟨rfl, rfl, rfl, rfl⟩, rfl⟩
  by_cases hirq : s.xta.intr &&& s.cfg.irqEna ≠ 0
  · exact .inr (if_pos hirq)
  · exact .inl (if_neg hirq)

theorem State.complete_standsIn (s : State) {xs : List Xst} (hx : .compl ∈ xs) : s.complete.standsIn xs :=
  ⟨s.complete_eq ▸ completed_engineOk s, by rwa [State.complete_xta_xst]⟩

theorem State.fail_standsIn (s : State) (code : Byte) {xs : List Xst} (hx : .compl ∈ xs) : (s.fail code).standsIn xs :=
  State.complete_standsIn _ hx

theorem State.raiseModelFault_not_running (s : State) (r : ModelFaultReason) : ¬ (s.raiseModelFault r).running :=
  fun h => Option.some_ne_none r h.2.1

theorem State.raiseFatal_not_running (s : State) (r : FatalReason) : ¬ (s.raiseFatal r).running :=
  fun h => Option.some_ne_none r h.1

theorem State.refuse_not_running (s : State) (r : RefuseReason) : ¬ (s.refuse r).running :=
  fun h => Option.some_ne_none r h.2.2

/-- The commands that wait for a tick in a state of the graph with no phase open (R226). -/
def waiters : Xst → List Cmd
  | .recv => [.writeSectors]
  | .send => [.readVerify, .readSectors]
  | .rdone => [.writeSectors, .formatDrive, .formatTrack, .setDriveParams, .writeSectorBuffer, .ramDiag, .driveDiag, .ctrlDiag]
  | .sdone => [.readSense, .readVerify, .readSectors, .readSectorBuffer]
  | _ => []

section
variable {c : Cmd} {xs : List Xst} (h : s.acts c)
include h

/-- A wait for a tick. -/
theorem State.await_standsIn {x : Xst} (hmem : c ∈ waiters x) (hx : x ∈ xs) : (s.await x).standsIn xs := by
  refine ⟨?_, hx⟩
  cases x with
  | recv => exact ⟨⟨rfl, h.dma, rfl⟩, ⟨c, hmem, h.command⟩, h.count⟩
  | send => exact ⟨⟨rfl, h.dma, rfl⟩, ⟨c, hmem, h.command⟩, h.count⟩
  | rdone => exact ⟨⟨rfl, h.dma, rfl⟩, h.count, ⟨c, hmem, h.command⟩⟩
  | sdone => exact ⟨⟨rfl, h.dma, rfl⟩, h.count, ⟨c, hmem, h.command⟩⟩
  | _ => exact absurd hmem List.not_mem_nil

/-- A phase of the sector buffer to the host, by DMA or not. -/
theorem State.beginOut_secBuf_standsIn (hmem : c ∈ [Cmd.readSectors, .readSectorBuffer]) (hx : .sdata ∈ xs) :
    (s.beginOut .secBuf 512).standsIn xs := by
  refine ⟨?_, by rwa [State.beginOut_xta_xst]⟩
  cases hdma : s.dmaEnabled with
  | true =>
    rw [State.beginOut_dma hdma]
    exact .inr ⟨⟨rfl, rfl, Nat.zero_lt_succ _⟩, .inr ⟨rfl, rfl, rfl⟩, ⟨c, hmem, h.command⟩, h.count⟩
  | false =>
    rw [State.beginOut_pio fun _ => hdma]
    exact .inr ⟨⟨rfl, rfl, Nat.zero_lt_succ _⟩, .inl ⟨rfl, rfl, h.pending⟩, ⟨c, hmem, h.command⟩, h.count⟩

/-- A phase of the sector buffer from the host, by DMA or not. -/
theorem State.beginIn_secBuf_standsIn (hmem : c ∈ [Cmd.writeSectors, .writeSectorBuffer]) (hx : .rdata ∈ xs) :
    (s.beginIn .secBuf 512).standsIn xs := by
  refine ⟨?_, by rwa [State.beginIn_xta_xst]⟩
  cases hdma : s.dmaEnabled with
  | true =>
    rw [State.beginIn_dma hdma]
    exact .inr (.inr ⟨⟨rfl, rfl, Nat.zero_lt_succ _⟩, .inr ⟨rfl, rfl, rfl⟩, ⟨c, hmem, h.command⟩, h.count⟩)
  | false =>
    rw [State.beginIn_pio fun _ => hdma]
    exact .inr (.inr ⟨⟨rfl, rfl, Nat.zero_lt_succ _⟩, .inl ⟨rfl, rfl, h.pending⟩, ⟨c, hmem, h.command⟩, h.count⟩)

end

/-! Start actions. -/

theorem Xta.cnt_bounds (x : Xta) : 1 ≤ x.cnt ∧ x.cnt ≤ 256 := by
  unfold Xta.cnt
  split
  next => decide
  next hne => exact ⟨Nat.pos_of_ne_zero fun h => hne (BitVec.eq_of_toNat_eq h), by omega⟩

theorem State.loadAndSeek_xta (s : State) : s.loadAndSeek.xta = s.loadChs.xta := by
  unfold State.loadAndSeek State.doSeek
  exact State.setCyl_xta _ _ _

theorem State.loadAndSeek_cfg (s : State) : s.loadAndSeek.cfg = s.cfg := by
  unfold State.loadAndSeek State.doSeek
  exact State.setCyl_cfg _ _ _

/-- The sector commands load a count in range before they wait (R188). -/
theorem State.loadAndSeek_acts {c : Cmd} (hc : s.command = some c) (hdma : s.xta.xferDma = false)
    (hpending : s.xta.pending = false) : s.loadAndSeek.acts c where
  command := by
    rw [State.command, State.loadAndSeek_xta, State.loadAndSeek_cfg]
    exact hc
  dma := by rw [State.loadAndSeek_xta]; exact hdma
  pending := by rw [State.loadAndSeek_xta]; exact hpending
  count := fun _ => by rw [State.loadAndSeek_xta]; exact s.xta.cnt_bounds

/-- The presence check adds a failure, which is COMPL. -/
theorem State.checkPresent_standsIn {k : State → State} {xs : List Xst} (hx : .compl ∈ xs) (hk : (k s).standsIn xs) :
    (s.checkPresent k).standsIn xs := by
  unfold State.checkPresent
  split
  · exact hk
  · exact s.fail_standsIn _ hx

theorem startSeek_standsIn {xs : List Xst} (hx : .compl ∈ xs) : (startSeek s).standsIn xs := by
  refine State.checkPresent_standsIn hx ?_
  simp only
  split
  · exact State.complete_standsIn _ hx
  · exact State.fail_standsIn _ _ hx

/-- The states of the graph that a start action leads to (R170). -/
def startStates : List Xst := [.compl, .recv, .send, .rdata, .sdata, .rdone]

/-- A start action leads to the completion, to a wait for a tick, or to a phase. -/
theorem startOf_standsIn {c : Option Cmd} (hcmd : s.command = c) (hdma : s.xta.xferDma = false)
    (hpending : s.xta.pending = false) : (startOf c s).standsIn startStates := by
  have hcompl : Xst.compl ∈ startStates := by decide
  cases c with
  | none => exact s.fail_standsIn _ hcompl
  | some c =>
    have acts (hno : c ∉ [Cmd.readVerify, .readSectors, .writeSectors]) : s.acts c :=
      ⟨hcmd, hdma, hpending, State.countOk_of_command hcmd hno⟩
    have await (hno : c ∉ [Cmd.readVerify, .readSectors, .writeSectors]) (hwait : c ∈ waiters .rdone) :
        (s.await .rdone).standsIn startStates :=
      State.await_standsIn (acts hno) hwait (by decide)
    have seekAwait (x : Xst) (hwait : c ∈ waiters x) (hx : x ∈ startStates) :
        (s.checkPresent fun t => t.loadAndSeek.await x).standsIn startStates :=
      State.checkPresent_standsIn hcompl (State.await_standsIn (State.loadAndSeek_acts hcmd hdma hpending) hwait hx)
    cases c with
    | testReady => exact State.checkPresent_standsIn hcompl (s.complete_standsIn hcompl)
    | recalibrate => exact State.checkPresent_standsIn hcompl (State.complete_standsIn _ hcompl)
    | readSense =>
      refine ⟨?_, by simp [startOf, startReadSense, startStates]⟩
      simp only [startOf, startReadSense, State.beginOut_pio (tgt := .senseBuf) nofun]
      exact .inl ⟨⟨rfl, rfl, Nat.zero_lt_succ _⟩, ⟨rfl, rfl, hpending⟩, _, List.mem_singleton_self _, hcmd⟩
    | formatDrive => exact State.checkPresent_standsIn hcompl (await (by decide) (by decide))
    | readVerify => exact seekAwait .send (by decide) (by decide)
    | formatTrack => exact seekAwait .rdone (by decide) (by decide)
    | readSectors => exact seekAwait .send (by decide) (by decide)
    | writeSectors => exact seekAwait .recv (by decide) (by decide)
    | seek => exact startSeek_standsIn hcompl
    | setDriveParams =>
      refine ⟨?_, by simp [startOf, startSetDriveParams, startStates]⟩
      simp only [startOf, startSetDriveParams, State.beginIn_pio (tgt := .paramBuf) nofun]
      exact .inr (.inl ⟨⟨rfl, rfl, Nat.zero_lt_succ _⟩, ⟨rfl, rfl, hpending⟩, _, List.mem_singleton_self _, hcmd⟩)
    | readSectorBuffer => exact State.beginOut_secBuf_standsIn (acts (by decide)) (by decide) (by decide)
    | writeSectorBuffer => exact State.beginIn_secBuf_standsIn (acts (by decide)) (by decide) (by decide)
    | ramDiag => exact await (by decide) (by decide)
    | driveDiag => exact State.checkPresent_standsIn hcompl (await (by decide) (by decide))
    | ctrlDiag => exact await (by decide) (by decide)

end Sys2Proof.Machine
end

section
/-! PROOFS. Where the tick actions lead (41_xta_engine.md R170, R178, R185, 42_xta_commands.md R226): a stop leaves the engine where
the action began, or in FATAL. -/

namespace Sys2Proof.Machine

variable {s t : State}

theorem State.acts.of_control {c : Cmd} (hs : s.acts c) (h : t.control = s.control) : t.acts c := by
  simp only [State.control, Prod.mk.injEq] at h
  obtain ⟨-, -, ⟨hdma, hpending⟩, hcount, hcommand⟩ := h
  refine ⟨hcommand.trans hs.command, hdma.trans hs.dma, hpending.trans hs.pending, ?_⟩
  simpa only [State.countOk, State.runs, hcommand, hcount] using hs.count

theorem Flow.leads.mono {f : Flow} {xs stops stops' : List Xst} (h : f.leads xs stops) (hsub : stops ⊆ stops') :
    f.leads xs stops' := by
  cases f with
  | go t => exact h
  | halt t => exact ⟨h.1, hsub h.2⟩

theorem State.raiseModelFault_leads (s : State) (r : ModelFaultReason) (xs : List Xst) :
    (Flow.halt (s.raiseModelFault r)).leads xs [s.xta.xst] :=
  ⟨s.raiseModelFault_not_running r, List.mem_singleton_self _⟩

/-- An address check that fails leads to COMPL (R185). -/
theorem State.addressed_leads {k : Nat → State → Flow} {xs stops : List Xst} (hx : .compl ∈ xs)
    (hk : ∀ l t, t.control = s.control → (k l t).leads xs stops) : (s.addressed k).leads xs stops := by
  by_cases haddr : s.addressOk
  · rw [State.addressed_ok haddr]
    exact hk _ _ rfl
  · rw [State.addressed_bad haddr]
    exact s.fail_standsIn _ hx

/-- A disk read stops where it began, or changes only the sector buffer. -/
theorem State.diskRead_andThen_leads {d : Bool} {lba : Nat} {k : State → Flow} {xs : List Xst}
    (hk : ∀ t, t.control = s.control → (k t).leads xs [s.xta.xst]) : ((s.diskRead d lba).andThen k).leads xs [s.xta.xst] := by
  rcases s.diskRead_cases d lba with ⟨-, h⟩ | ⟨-, h⟩ <;> rw [h]
  · exact hk _ (by simp only [State.control, State.command])
  · exact s.raiseModelFault_leads _ xs

/-- A disk write stops where it began, or changes nothing of the engine. -/
theorem State.diskWrite_andThen_leads {d : Bool} {lba : Nat} {k : State → Flow} {xs : List Xst}
    (hk : ∀ t, t.control = s.control → (k t).leads xs [s.xta.xst]) : ((s.diskWrite d lba).andThen k).leads xs [s.xta.xst] := by
  rcases s.diskWrite_cases d lba with h | h | ⟨bs, -, -, -, h⟩ <;> rw [h]
  · exact s.raiseModelFault_leads _ xs
  · exact s.raiseModelFault_leads _ xs
  · exact hk _ (by simp [State.control, State.command])

theorem State.verifyStep_leads (h : s.acts .readVerify) : s.verifyStep.leads [.compl, .sdone] [] :=
  State.addressed_leads (by decide) fun _ _ ht => State.await_standsIn (h.of_control ht) (by decide) (by decide)

theorem State.recvStep_leads (h : s.acts .writeSectors) : s.recvStep.leads [.compl, .rdata] [] :=
  State.addressed_leads (by decide) fun _ _ ht => State.beginIn_secBuf_standsIn (h.of_control ht) (by decide) (by decide)

theorem State.sendStep_leads (h : s.acts .readSectors) : s.sendStep.leads [.compl, .sdata] [s.xta.xst] :=
  State.addressed_leads (by decide) fun _ _ ht => State.xst_of_control ht ▸ State.diskRead_andThen_leads fun _ hu =>
    State.beginOut_secBuf_standsIn (h.of_control (hu.trans ht)) (by decide) (by decide)

/-- The end of a sector completes, or goes on with a count in range (R185, R188). -/
theorem State.afterSector_leads {c : Cmd} {next : State → Flow} {xs stops : List Xst} (hx : .compl ∈ xs) (h : s.acts c)
    (hloop : c ∈ [Cmd.readVerify, .readSectors, .writeSectors])
    (hnext : ∀ t, t.acts c → t.xta.xst = s.xta.xst → t.cfg = s.cfg → (next t).leads xs stops) :
    (s.afterSector next).leads xs stops := by
  obtain ⟨-, hmax⟩ := h.count ⟨c, hloop, h.command⟩
  simp only [State.afterSector]
  split
  next => exact State.complete_standsIn _ hx
  next hmore =>
    refine hnext _ ⟨?_, ?_, ?_, fun _ => ?_⟩ ?_ ?_
    · simpa [State.command] using h.command
    · simpa using h.dma
    · simpa using h.pending
    · rw [State.nextSector_xta_count]
      exact ⟨Nat.pos_of_ne_zero hmore, (Nat.sub_le _ _).trans hmax⟩
    · simp
    · simp

theorem tickReadSectorsDone_leads (h : s.acts .readSectors) : (tickReadSectorsDone s).leads [.compl, .sdata] [s.xta.xst] :=
  State.afterSector_leads (by decide) h (by decide) fun _ ht hxst _ => hxst ▸ State.sendStep_leads ht

theorem tickWriteSectorsDone_leads (h : s.acts .writeSectors) : (tickWriteSectorsDone s).leads [.compl, .rdata] [s.xta.xst] :=
  State.diskWrite_andThen_leads fun _ ht => State.afterSector_leads (by decide) (h.of_control ht) (by decide)
    fun _ hu _ _ => (State.recvStep_leads hu).mono (List.nil_subset _)

/-- The tick that ends a sector of a verify goes back to SEND only where each sector has a SEND tick (log entry 41). -/
theorem tickReadVerifyDone_leads (h : s.acts .readVerify) :
    (tickReadVerifyDone s).leads (if s.cfg.verifyLoop = .sendTick then [.compl, .send] else [.compl, .sdone]) [] := by
  cases hloop : s.cfg.verifyLoop with
  | sendTick =>
    refine State.afterSector_leads (by decide) h (by decide) fun t ht _ hcfg => ?_
    rw [State.verifyNext_sendTick (hcfg ▸ hloop)]
    exact State.await_standsIn ht (by decide) (by decide)
  | sameTick =>
    refine State.afterSector_leads (by decide) h (by decide) fun t ht _ hcfg => ?_
    rw [State.verifyNext_sameTick (hcfg ▸ hloop)]
    exact State.verifyStep_leads ht

theorem formatTrackSectors_leads (xs : List (Nat × Nat)) (s : State) :
    (formatTrackSectors xs s).leads [.compl] [s.xta.xst] := by
  induction xs generalizing s with
  | nil => exact s.complete_standsIn (by decide)
  | cons x xs ih =>
    unfold formatTrackSectors
    split
    · exact s.fail_standsIn _ (by decide)
    · exact State.diskWrite_andThen_leads fun t ht => State.xst_of_control ht ▸ ih t

/-- A loop of disk writes stops in the state of the graph it began in, or goes on in it. -/
def Flow.staysIn (x : Xst) : Flow → Prop
  | .go t => t.xta.xst = x
  | .halt t => ¬ t.running ∧ t.xta.xst = x

theorem Flow.forEach_staysIn {α : Type} {body : α → State → Flow} {x : Xst}
    (h : ∀ a s, s.xta.xst = x → (body a s).staysIn x) (as : List α) (hs : s.xta.xst = x) :
    (Flow.forEach body as s).staysIn x := by
  induction as generalizing s with
  | nil => exact hs
  | cons a as ih =>
    have ha := h a s hs
    simp only [Flow.forEach]
    cases hbody : body a s with
    | go t => exact ih (hbody ▸ ha :)
    | halt t => exact (hbody ▸ ha :)

theorem formatDriveSector_staysIn (d : Bool) (c h sec : Nat) (s : State) : (formatDriveSector d c h sec s).staysIn s.xta.xst := by
  unfold formatDriveSector
  rcases s.diskWrite_cases d ((c * (s.drive d).hpc + h) * (s.drive d).spt + sec) with hw | hw | ⟨bs, -, -, -, hw⟩ <;> rw [hw]
  · exact ⟨s.raiseModelFault_not_running _, rfl⟩
  · exact ⟨s.raiseModelFault_not_running _, rfl⟩
  · simp [Flow.staysIn]

theorem Flow.staysIn.andThen_complete {f : Flow} {x : Xst} (h : f.staysIn x) :
    (f.andThen fun t => .go t.complete).leads [.compl] [x] := by
  cases f with
  | go t => exact t.complete_standsIn (by decide)
  | halt t => exact ⟨h.1, List.mem_singleton.2 h.2⟩

theorem tickFormatDrive_leads (s : State) : (tickFormatDrive s).leads [.compl] [s.xta.xst] := by
  refine Flow.staysIn.andThen_complete (Flow.forEach_staysIn (fun c u hu => ?_) _ rfl)
  refine Flow.forEach_staysIn (fun h v hv => ?_) _ (by simpa using hu)
  exact Flow.forEach_staysIn (fun sec w hw => hw ▸ formatDriveSector_staysIn s.d c h sec w) _ hv

/-! DMA ticks. -/

/-- A DMA phase of the sector buffer, wherever its cursor is (R176). -/
structure State.inDma (s : State) (x : Xst) (status : Byte) (c : Cmd) : Prop where
  command : s.command = some c
  xst : s.xta.xst = x
  status : s.xta.status = status
  tgt : s.xta.curTgt = .secBuf
  len : s.xta.curLen = 512
  dma : s.xta.xferDma = true
  count : s.countOk

theorem State.endDmaStep_of_last (x : Xst) (h : s.xta.curIdx = s.xta.curLen) : s.endDmaStep x =
    { s with xta := { s.xta with xferDma := false, status := 0x88, xst := x, pending := true } } := if_pos h

theorem State.endDmaStep_of_not_last (x : Xst) (h : s.xta.curIdx ≠ s.xta.curLen) : s.endDmaStep x = s.schedule := if_neg h

/-- A DMA step that went on ends its phase in a wait for a tick, or leaves it open with a tick scheduled. -/
theorem State.endDmaStep_standsIn {c : Cmd} {x ended : Xst} {status : Byte} (h : s.inDma x status c) (hidx : s.xta.curIdx ≤ 512)
    (hwait : c ∈ waiters ended) (hopen : s.xta.curIdx < 512 → s.schedule.engineOk) :
    (s.endDmaStep ended).standsIn [x, ended] := by
  by_cases hlast : s.xta.curIdx = s.xta.curLen
  · rw [State.endDmaStep_of_last _ hlast]
    have hacts : State.acts { s with xta := { s.xta with xferDma := false, pending := false } } c :=
      ⟨h.command, rfl, rfl, h.count⟩
    exact State.await_standsIn hacts hwait (by simp)
  · rw [State.endDmaStep_of_not_last _ hlast]
    have hlen := h.len
    exact ⟨hopen (by omega), by simp [h.xst]⟩

theorem State.schedule_sdata_engineOk {c : Cmd} (h : s.inDma .sdata 0x9A c) (hidx : s.xta.curIdx < 512)
    (hmem : c ∈ [Cmd.readSectors, .readSectorBuffer]) : s.schedule.engineOk := by
  simp only [State.engineOk, State.schedule_xta_xst, h.xst]
  exact .inr ⟨⟨h.tgt, h.len, hidx⟩, .inr ⟨h.status, h.dma, rfl⟩, ⟨c, hmem, h.command⟩, h.count⟩

theorem State.schedule_rdata_engineOk {c : Cmd} (h : s.inDma .rdata 0x98 c) (hidx : s.xta.curIdx < 512)
    (hmem : c ∈ [Cmd.writeSectors, .writeSectorBuffer]) : s.schedule.engineOk := by
  simp only [State.engineOk, State.schedule_xta_xst, h.xst]
  exact .inr (.inr ⟨⟨h.tgt, h.len, hidx⟩, .inr ⟨h.status, h.dma, rfl⟩, ⟨c, hmem, h.command⟩, h.count⟩)

theorem State.dmaOutStep_leads {c : Cmd} (h : s.inDma .sdata 0x9A c) (hidx : s.xta.curIdx < 512)
    (hmem : c ∈ [Cmd.readSectors, .readSectorBuffer]) :
    s.dmaOutStep.leads [.sdata, .sdone] [.sdata, .fatal] := by
  have hwait : c ∈ waiters .sdone := (by decide : [Cmd.readSectors, .readSectorBuffer] ⊆ waiters .sdone) hmem
  obtain ⟨k, dr, -, hk, hdraw⟩ := s.drawChunk_cases (rem := s.xta.curLen - s.xta.curIdx) (by rw [h.len]; omega)
  have hlen := h.len
  simp only [State.dmaOutStep, hdraw]
  cases hmoved : State.dmaOutBytes k { s with draws := dr } with
  | go t =>
    obtain ⟨dr', hist, rfl⟩ := State.dmaOutBytes_go hmoved
    have hu : State.inDma { s with draws := dr', history := hist, xta := { s.xta with curIdx := s.xta.curIdx + k } } .sdata 0x9A c :=
      ⟨h.command, h.xst, h.status, h.tgt, h.len, h.dma, h.count⟩
    exact State.endDmaStep_standsIn hu (by simp only; omega) hwait fun hopen => State.schedule_sdata_engineOk hu hopen hmem
  | halt t =>
    obtain ⟨dr', hist, n, -, rfl | rfl⟩ := State.dmaOutBytes_halt hmoved
    · exact ⟨State.raiseModelFault_not_running _ _, by simp [h.xst]⟩
    · exact ⟨State.raiseFatal_not_running _ _, by simp⟩

theorem State.dmaInStep_leads {c : Cmd} (h : s.inDma .rdata 0x98 c) (hidx : s.xta.curIdx < 512)
    (hmem : c ∈ [Cmd.writeSectors, .writeSectorBuffer]) :
    s.dmaInStep.leads [.rdata, .rdone] [.fatal] := by
  have hwait : c ∈ waiters .rdone := (by decide : [Cmd.writeSectors, .writeSectorBuffer] ⊆ waiters .rdone) hmem
  obtain ⟨k, dr, -, hk, hdraw⟩ := s.drawChunk_cases (rem := s.xta.curLen - s.xta.curIdx) (by rw [h.len]; omega)
  have hlen := h.len
  simp only [State.dmaInStep, hdraw]
  cases hmoved : State.dmaInBytes k { s with draws := dr } with
  | go t =>
    obtain ⟨dr', hist, buf, rfl⟩ := State.dmaInBytes_go hmoved
    have hu : State.inDma { s with
        draws := dr', history := hist, xta := { s.xta with secbuf := buf, curIdx := s.xta.curIdx + k } } .rdata 0x98 c :=
      ⟨h.command, h.xst, h.status, h.tgt, h.len, h.dma, h.count⟩
    exact State.endDmaStep_standsIn hu (by simp only; omega) hwait fun hopen => State.schedule_rdata_engineOk hu hopen hmem
  | halt t =>
    obtain ⟨dr', hist, buf, n, -, rfl⟩ := State.dmaInBytes_halt hmoved
    exact ⟨State.raiseFatal_not_running _ _, by simp⟩

end Sys2Proof.Machine
end

section
/-! PROOFS. The step and the state graph (41_xta_engine.md R170, 42_xta_commands.md R226): a tick goes where its action leads, an
access to a register of the XTA window moves the engine along the graph, and no other access reaches the engine. -/

namespace Sys2Proof.Machine

variable {s t u : State}

/-- What every step is: a machine that still runs is in a state of the graph, and the state-machine value has made a move of it
(R170), or the one move of a verify with a SEND tick for each sector (log entry 41). -/
structure EngineStep (s t : State) : Prop where
  keeps : t.running → t.engineOk
  moves : legalMove s.xta.xst t.xta.xst = true ∨
    (s.cfg.verifyLoop = .sendTick ∧ s.runs [.readVerify] ∧ s.xta.xst = .sdone ∧ t.xta.xst = .send)

theorem legalMove_self (x : Xst) : legalMove x x = true := by simp [legalMove]

theorem EngineStep.of_control (hs : s.engineOk) (h : t.control = s.control) : EngineStep s t where
  keeps _ := State.engineOk_of_control h hs
  moves := .inl (by rw [State.xst_of_control h]; exact legalMove_self _)

theorem EngineStep.of_stop (hstop : ¬ t.running) (hx : t.xta.xst = s.xta.xst) : EngineStep s t where
  keeps hrun := absurd hrun hstop
  moves := .inl (hx ▸ legalMove_self _)

theorem EngineStep.of_standsIn {xs : List Xst} (h : t.standsIn xs) (hmoves : ∀ y ∈ xs, legalMove s.xta.xst y = true) :
    EngineStep s t where
  keeps _ := h.1
  moves := .inl (hmoves _ h.2)

/-- Where an action leads, the step goes. -/
theorem EngineStep.of_leads {f : Flow} {xs stops : List Xst} (h : f.leads xs stops)
    (hmoves : ∀ y ∈ xs ++ stops, legalMove s.xta.xst y = true) : EngineStep s f.state := by
  cases f with
  | go t => exact .of_standsIn h fun y hy => hmoves y (List.mem_append_left _ hy)
  | halt t => exact ⟨fun hrun => absurd hrun h.1, .inl (hmoves _ (List.mem_append_right _ h.2))⟩

/-! The tick. -/

theorem State.fire_eq {c : Cmd} {x : Xst} {dma : Bool} {action : State → Flow} (hc : s.command = some c)
    (hx : s.xta.xst = x) (hdma : s.xta.xferDma = dma) (haction : tickTable (some c) x dma = some action) :
    s.fire = (action s.cancel).state := by
  have h : tickTable s.cancel.command s.cancel.xta.xst s.cancel.xta.xferDma = some action := by
    rw [State.cancel_xta_xst, State.cancel_xta_xferDma, hx, hdma]
    exact hc ▸ haction
  simp only [State.fire, h]

section
variable {c : Cmd} {action : State → Flow} {xs stops : List Xst}

/-- A tick of a command whose action is known to lead somewhere. -/
theorem State.fire_engineStep_of_leads {x : Xst} {dma : Bool} (hc : s.command = some c) (hx : s.xta.xst = x)
    (hdma : s.xta.xferDma = dma) (haction : tickTable (some c) x dma = some action)
    (hleads : (action s.cancel).leads xs stops) (hmoves : ∀ y ∈ xs ++ stops, legalMove x y = true) : EngineStep s s.fire := by
  rw [State.fire_eq hc hx hdma haction]
  exact .of_leads hleads (hx ▸ hmoves)

end

theorem State.fire_readVerifyDone_engineStep (h : s.cancel.acts .readVerify) (hx : s.xta.xst = .sdone) : EngineStep s s.fire := by
  have hleads := tickReadVerifyDone_leads h
  rw [State.fire_eq (s := s) h.command hx h.dma rfl]
  split at hleads
  next hloop =>
    cases hflow : tickReadVerifyDone s.cancel with
    | go t =>
      rw [hflow] at hleads
      obtain ⟨ht, hxt⟩ := hleads
      refine ⟨fun _ => ht, ?_⟩
      simp only [List.mem_cons, List.not_mem_nil, or_false] at hxt
      rcases hxt with hxt | hxt
      · exact .inl (by simp only [Flow.state, hx, hxt]; decide)
      · exact .inr ⟨hloop, ⟨_, List.mem_singleton_self _, h.command⟩, hx, hxt⟩
    | halt t => exact absurd (hflow ▸ hleads : Flow.leads _ _ (.halt t)).2 List.not_mem_nil
  next => exact .of_leads hleads (by rw [hx]; decide)

/-- The tick of a wait (R226): every command that can wait in a state has its row in the tick table. -/
theorem State.fire_engineStep_of_waiter {c : Cmd} (h : s.cancel.acts c) (hwait : c ∈ waiters s.xta.xst) : EngineStep s s.fire := by
  have hcompletes (u : State) : (Flow.go u.complete).leads [.compl] [] := u.complete_standsIn (by decide)
  cases hx : s.xta.xst with
  | recv =>
    simp only [hx, waiters, List.mem_cons, List.not_mem_nil, or_false] at hwait
    subst hwait
    exact State.fire_engineStep_of_leads h.command hx h.dma rfl (State.recvStep_leads h) (by decide)
  | send =>
    simp only [hx, waiters, List.mem_cons, List.not_mem_nil, or_false] at hwait
    rcases hwait with rfl | rfl
    · exact State.fire_engineStep_of_leads h.command hx h.dma rfl (State.verifyStep_leads h) (by decide)
    · exact State.fire_engineStep_of_leads h.command hx h.dma rfl (State.sendStep_leads h) (by simp [hx, legalMove])
  | rdone =>
    simp only [hx, waiters, List.mem_cons, List.not_mem_nil, or_false] at hwait
    rcases hwait with rfl | rfl | rfl | rfl | rfl | rfl | rfl | rfl
    · exact State.fire_engineStep_of_leads h.command hx h.dma rfl (tickWriteSectorsDone_leads h) (by simp [hx, legalMove])
    · exact State.fire_engineStep_of_leads h.command hx h.dma rfl (tickFormatDrive_leads _) (by simp [hx, legalMove])
    · exact State.fire_engineStep_of_leads h.command hx h.dma rfl (formatTrackSectors_leads _ _) (by simp [hx, legalMove])
    all_goals exact State.fire_engineStep_of_leads h.command hx h.dma rfl (hcompletes _) (by decide)
  | sdone =>
    simp only [hx, waiters, List.mem_cons, List.not_mem_nil, or_false] at hwait
    rcases hwait with rfl | rfl | rfl | rfl
    · exact State.fire_engineStep_of_leads h.command hx h.dma rfl (hcompletes _) (by decide)
    · exact State.fire_readVerifyDone_engineStep h hx
    · exact State.fire_engineStep_of_leads h.command hx h.dma rfl (tickReadSectorsDone_leads h) (by simp [hx, legalMove])
    · exact State.fire_engineStep_of_leads h.command hx h.dma rfl (hcompletes _) (by decide)
  | _ => exact absurd (hx ▸ hwait) List.not_mem_nil

theorem State.fire_engineStep_of_dmaIn {c : Cmd} (h : s.cancel.inDma .rdata 0x98 c) (hidx : s.xta.curIdx < 512)
    (hmem : c ∈ [Cmd.writeSectors, .writeSectorBuffer]) : EngineStep s s.fire := by
  have hleads := State.dmaInStep_leads h hidx hmem
  simp only [List.mem_cons, List.not_mem_nil, or_false] at hmem
  rcases hmem with rfl | rfl <;> exact State.fire_engineStep_of_leads h.command h.xst h.dma rfl hleads (by decide)

theorem State.fire_engineStep_of_dmaOut {c : Cmd} (h : s.cancel.inDma .sdata 0x9A c) (hidx : s.xta.curIdx < 512)
    (hmem : c ∈ [Cmd.readSectors, .readSectorBuffer]) : EngineStep s s.fire := by
  have hleads := State.dmaOutStep_leads h hidx hmem
  simp only [List.mem_cons, List.not_mem_nil, or_false] at hmem
  rcases hmem with rfl | rfl <;> exact State.fire_engineStep_of_leads h.command h.xst h.dma rfl hleads (by decide)

/-- A tick is pending only in a wait and in a DMA phase. -/
theorem State.fire_engineStep_of_engineOk (hs : s.engineOk) (hpending : s.xta.pending = true) : EngineStep s s.fire := by
  have hno (h : s.xta.pending = false) : EngineStep s s.fire := absurd (hpending.symm.trans h) (by decide)
  have wait {x : Xst} (hx : s.xta.xst = x) (hwait : s.xta.waiting) (hruns : s.runs (waiters x)) (hcount : s.countOk) :
      EngineStep s s.fire := by
    obtain ⟨⟨-, hdma, -⟩, c, hmem, hc⟩ := And.intro hwait hruns
    exact State.fire_engineStep_of_waiter ⟨hc, hdma, rfl, hcount⟩ (hx ▸ hmem)
  cases hx : s.xta.xst <;> simp only [State.engineOk, hx] at hs
  case idle => exact hno hs.2.2
  case compl => exact hno hs.2.2
  case recv => exact wait hx hs.1 hs.2.1 hs.2.2
  case send => exact wait hx hs.1 hs.2.1 hs.2.2
  case rdone => exact wait hx hs.1 hs.2.2 hs.2.1
  case sdone => exact wait hx hs.1 hs.2.2 hs.2.1
  case rdata =>
    rcases hs with ⟨-, -, -, h⟩ | ⟨-, ⟨-, -, h⟩, -⟩ |
      ⟨⟨htgt, hlen, hidx⟩, ⟨-, -, h⟩ | ⟨hstatus, hdma, -⟩, ⟨c, hmem, hc⟩, hcount⟩
    · exact hno h
    · exact hno h
    · exact hno h
    · exact State.fire_engineStep_of_dmaIn ⟨hc, hx, hstatus, htgt, hlen, hdma, hcount⟩ hidx hmem
  case sdata =>
    rcases hs with ⟨-, ⟨-, -, h⟩, -⟩ |
      ⟨⟨htgt, hlen, hidx⟩, ⟨-, -, h⟩ | ⟨hstatus, hdma, -⟩, ⟨c, hmem, hc⟩, hcount⟩
    · exact hno h
    · exact hno h
    · exact State.fire_engineStep_of_dmaOut ⟨hc, hx, hstatus, htgt, hlen, hdma, hcount⟩ hidx hmem

/-! The Data port. -/

/-- A DCB that is complete is refused, or its command starts (R172). -/
theorem State.dcbComplete_engineStep (hx : s.xta.xst = .rdata) (hux : u.xta.xst = .rdata) (hpending : u.xta.pending = false) :
    EngineStep s (u.dcbComplete (startOf u.command)) := by
  unfold State.dcbComplete
  split
  · exact .of_stop (u.refuse_not_running _) (hux.trans hx.symm)
  · exact .of_standsIn (startOf_standsIn (s := u.dispatchEntry) rfl rfl hpending) (by rw [hx]; decide)

theorem State.dataWrite_dcb_engineStep (hx : s.xta.xst = .rdata) (hphase : s.xta.phase .dcbBuf 6) (hpio : s.xta.pio 0x0D) (v : Byte) :
    EngineStep s (s.dataWrite v) := by
  obtain ⟨htgt, hlen, hidx⟩ := hphase
  obtain ⟨hstatus, hdma, hpending⟩ := hpio
  have hreq : s.xta.status &&& 0x01 ≠ 0 := by rw [hstatus]; decide
  by_cases hmore : s.xta.curIdx + 1 < s.xta.curLen
  · rw [State.dataWrite_of_not_last hx hreq v hmore, State.storePhaseByte_dcbBuf htgt]
    refine .of_standsIn (xs := [.rdata]) ⟨?_, by simp [hx]⟩ (by rw [hx]; decide)
    simp only [State.engineOk, State.advance, hx]
    exact .inl ⟨⟨htgt, hlen, hmore.trans_eq hlen⟩, hstatus, hdma, hpending⟩
  · rw [State.dataWrite_of_sixth hx hreq v htgt (by omega) hlen]
    exact State.dcbComplete_engineStep hx (u := { s with xta := { s.xta with dcb := s.xta.dcb.set 5 v, curIdx := 6 } }) hx hpending

/-- A Data write that is no part of a DCB stores its byte outside what the graph is about. -/
theorem State.storePhaseByte_control (htgt : s.xta.curTgt ≠ .dcbBuf) (v : Byte) :
    (s.storePhaseByte v).control = s.control := by
  unfold State.storePhaseByte
  cases h : s.xta.curTgt with
  | dcbBuf => exact absurd h htgt
  | _ => simp [State.control, State.command, h]

theorem State.advance_control (h : t.control = s.control) : t.advance.control = s.advance.control := by
  simp only [State.control, Prod.mk.injEq] at h
  obtain ⟨hgraph, ⟨htgt, hidx, hlen⟩, hrest⟩ := h
  simp only [State.control, Prod.mk.injEq]
  exact ⟨hgraph, ⟨htgt, congrArg (· + 1) hidx, hlen⟩, hrest⟩

theorem State.acts.advance {c : Cmd} (h : s.acts c) : s.advance.acts c := ⟨h.command, h.dma, h.pending, h.count⟩

section
variable {c : Cmd} (h : s.acts c) (hidx : s.xta.curIdx < s.xta.curLen)
  (hopen : s.xta.curIdx + 1 < s.xta.curLen → s.advance.engineOk)
include h hidx hopen

/-- A Data write leaves its phase open, or ends it in RDONE. -/
theorem State.dataWrite_phase_engineStep (hx : s.xta.xst = .rdata) (hreq : s.xta.status &&& 0x01 ≠ 0)
    (htgt : s.xta.curTgt ≠ .dcbBuf) (hwait : c ∈ waiters .rdone) (v : Byte) : EngineStep s (s.dataWrite v) := by
  have hcontrol := State.advance_control (State.storePhaseByte_control htgt v)
  by_cases hmore : s.xta.curIdx + 1 < s.xta.curLen
  · rw [State.dataWrite_of_not_last hx hreq v hmore]
    exact .of_standsIn (xs := [.rdata])
      ⟨State.engineOk_of_control hcontrol (hopen hmore), List.mem_singleton.2 ((State.xst_of_control hcontrol).trans hx)⟩
      (by rw [hx]; decide)
  · rw [State.dataWrite_of_last hx hreq v (by omega) htgt]
    exact .of_standsIn (xs := [.rdone])
      (State.await_standsIn (h.advance.of_control hcontrol) hwait (by decide)) (by rw [hx]; decide)

/-- A Data read leaves its phase open, or ends it in SDONE. -/
theorem State.afterPhaseRead_engineStep (hx : s.xta.xst = .sdata) (hwait : c ∈ waiters .sdone) (r : Byte) :
    EngineStep s (s.afterPhaseRead r) := by
  by_cases hmore : s.xta.curIdx + 1 < s.xta.curLen
  · rw [State.afterPhaseRead_of_not_last r hmore]
    exact .of_standsIn (xs := [.sdata])
      ⟨State.engineOk_of_control (s := s.advance) rfl (hopen hmore), by simp [hx]⟩ (by rw [hx]; decide)
  · rw [State.afterPhaseRead_of_last r (by omega)]
    have hacts : (s.answer r).advance.acts c := h.advance.of_control rfl
    exact .of_standsIn (xs := [.sdone]) (State.await_standsIn hacts hwait (by decide)) (by rw [hx]; decide)

end

theorem State.dataWrite_engineStep (hs : s.engineOk) (v : Byte) : EngineStep s (s.dataWrite v) := by
  by_cases hacc : s.xta.xst = .rdata ∧ s.xta.status &&& 0x01 ≠ 0
  case neg =>
    rw [State.dataWrite_of_unexpected hacc]
    exact .of_control hs rfl
  obtain ⟨hx, hreq⟩ := hacc
  simp only [State.engineOk, hx] at hs
  rcases hs with ⟨hphase, hpio⟩ | ⟨⟨htgt, hlen, hidx⟩, ⟨hstatus, hdma, hpending⟩, ⟨c, hmem, hc⟩⟩ |
    ⟨⟨htgt, hlen, hidx⟩, ⟨hstatus, hdma, hpending⟩ | ⟨hstatus, -, -⟩, ⟨c, hmem, hc⟩, hcount⟩
  · exact State.dataWrite_dcb_engineStep hx hphase hpio v
  · obtain rfl := List.mem_singleton.1 hmem
    have hacts : s.acts .setDriveParams := ⟨hc, hdma, hpending, State.countOk_of_command hc (by decide)⟩
    refine State.dataWrite_phase_engineStep hacts (hidx.trans_eq hlen.symm) (fun hmore => ?_) hx hreq (by simp [htgt]) (by decide) v
    simp only [State.engineOk, State.advance, hx]
    exact .inr (.inl ⟨⟨htgt, hlen, hmore.trans_eq hlen⟩, ⟨hstatus, hdma, hpending⟩, _, hmem, hc⟩)
  · have hwait : c ∈ waiters .rdone := (by decide : [Cmd.writeSectors, .writeSectorBuffer] ⊆ waiters .rdone) hmem
    have hacts : s.acts c := ⟨hc, hdma, hpending, hcount⟩
    refine State.dataWrite_phase_engineStep hacts (hidx.trans_eq hlen.symm) (fun hmore => ?_) hx hreq (by simp [htgt]) hwait v
    simp only [State.engineOk, State.advance, hx]
    exact .inr (.inr ⟨⟨htgt, hlen, hmore.trans_eq hlen⟩, .inl ⟨hstatus, hdma, hpending⟩, ⟨c, hmem, hc⟩, hcount⟩)
  · exact absurd (by rw [hstatus]; decide) hreq

@[simp] theorem State.readAny_control (s : State) : s.readAny.control = s.control := by
  unfold State.readAny
  obtain ⟨b, dr, hdraw⟩ := s.drawByte_cases
  rw [hdraw]
  rfl

theorem State.dataRead_engineStep (hs : s.engineOk) : EngineStep s s.dataRead := by
  by_cases hcompl : s.xta.xst = .compl
  · have hread : s.dataRead = s.completionRead := if_pos hcompl
    rw [hread]
    simp only [State.engineOk, hcompl] at hs
    obtain ⟨-, -, hpending⟩ := hs
    exact .of_standsIn (xs := [.idle]) ⟨⟨rfl, ⟨rfl, rfl, rfl, rfl⟩, hpending⟩, by simp⟩ (by rw [hcompl]; decide)
  by_cases hacc : s.xta.xst = .sdata ∧ s.xta.status &&& 0x01 ≠ 0
  case neg =>
    rw [State.dataRead_of_unexpected hcompl hacc]
    exact .of_control hs (State.readAny_control _)
  obtain ⟨hx, hreq⟩ := hacc
  simp only [State.engineOk, hx] at hs
  rcases hs with ⟨⟨htgt, hlen, hidx⟩, ⟨hstatus, hdma, hpending⟩, ⟨c, hmem, hc⟩⟩ |
    ⟨⟨htgt, hlen, hidx⟩, ⟨hstatus, hdma, hpending⟩ | ⟨hstatus, -, -⟩, ⟨c, hmem, hc⟩, hcount⟩
  · obtain rfl := List.mem_singleton.1 hmem
    have hacts : s.acts .readSense := ⟨hc, hdma, hpending, State.countOk_of_command hc (by decide)⟩
    rw [State.dataRead_senseBuf hx hreq htgt]
    refine State.afterPhaseRead_engineStep hacts (hidx.trans_eq hlen.symm) (fun hmore => ?_) hx (by decide) _
    simp only [State.engineOk, State.advance, hx]
    exact .inl ⟨⟨htgt, hlen, hmore.trans_eq hlen⟩, ⟨hstatus, hdma, hpending⟩, _, hmem, hc⟩
  · cases hcell : s.secbufAt with
    | none =>
      rw [State.dataRead_secBuf_unwritten hx hreq htgt hcell]
      exact .of_stop (s.raiseModelFault_not_running _) rfl
    | some b =>
      have hwait : c ∈ waiters .sdone := (by decide : [Cmd.readSectors, .readSectorBuffer] ⊆ waiters .sdone) hmem
      rw [State.dataRead_secBuf hx hreq htgt hcell]
      refine State.afterPhaseRead_engineStep ⟨hc, hdma, hpending, hcount⟩ (hidx.trans_eq hlen.symm) (fun hmore => ?_) hx hwait b
      simp only [State.engineOk, State.advance, hx]
      exact .inr ⟨⟨htgt, hlen, hmore.trans_eq hlen⟩, .inl ⟨hstatus, hdma, hpending⟩, ⟨c, hmem, hc⟩, hcount⟩
  · exact absurd (by rw [hstatus]; decide) hreq

/-! The registers. -/

/-- The effect of a host write of a register, whichever row the decoder gives it (R101, R140, R266 to R268). -/
def State.writeReg (s : State) (v : Byte) : PortReg → State
  | .data => s.dataWrite v
  | .status => s.resetStrobe
  | .select => s.selectStrobe
  | .intr => { s with xta := { s.xta with intr := v } }
  | .page slot => s.writePage slot v
  | .chipIndex => { s with ems := { s.ems with chipIndex := some v } }
  | .chipData => s.chipDataWrite v

/-- The effect of a host read of a register. -/
def State.readReg (s : State) : PortReg → State
  | .data => s.dataRead
  | .status => s.answer s.xta.status
  | .select => s.answer s.cfg.jumpers
  | .intr => s.readAny
  | .page slot => s.readPage slot
  | .chipIndex => s.readAny
  | .chipData => s.chipDataRead

theorem State.lastDcbByte_eq_some {b : Vector Byte 6} (h : s.decodeCtx.lastDcbByte = some b) :
    (s.xta.xst = .rdata ∧ s.req = true ∧ s.xta.curTgt = .dcbBuf ∧ s.xta.curIdx = 5 ∧ s.xta.curLen = 6) ∧ s.xta.dcb = b := by
  simpa [State.decodeCtx] using h

/-- The operation the decoder gives a write of a register is that register's write: also where it is a command's row (O6). -/
theorem exec_writeOp (s : State) (r : PortReg) (v : Byte) :
    exec (writeOp s.decodeCtx r v) s = s.onPort r (s.writeReg v r) := by
  cases r with
  | data =>
    cases hlast : s.decodeCtx.lastDcbByte with
    | none => simp only [writeOp, hlast]; rfl
    | some b =>
      obtain ⟨⟨hx, hreq, htgt, hidx, hlen⟩, rfl⟩ := State.lastDcbByte_eq_some hlast
      simp only [writeOp, hlast]
      exact (sixthDataByteRunsTheCommand s v hx (s.req_iff.1 hreq) htgt hidx hlen).symm
  | chipData =>
    simp only [writeOp]
    split <;> rfl
  | _ => rfl

theorem exec_readOp (s : State) (r : PortReg) : exec (readOp s.decodeCtx r) s = s.onPort r (s.readReg r) := by
  cases r with
  | chipData =>
    simp only [readOp]
    split <;> rfl
  | _ => rfl

/-- A host access that decodes is a register's write or read, or a memory access. -/
theorem exec_of_decode {f : Format} {bytes : List Byte} {i : Instr} (hf : f ≠ .dcb)
    (hdecode : decode s.decodeCtx f bytes = .ok i) (h : exec i s = .next t) :
    (∃ r v, s.onPort r (s.writeReg v r) = .next t) ∨ (∃ r, s.onPort r (s.readReg r) = .next t) ∨
    (∃ a n, s.memRead a n = .next t) ∨ ∃ a vs, s.memWrite a vs = .next t := by
  cases f with
  | dcb => exact absurd rfl hf
  | port =>
    obtain ⟨p, write, v, -, hport⟩ := decode_port_ok hdecode
    obtain ⟨r, -, ⟨-, rfl⟩ | ⟨-, -, rfl⟩⟩ := decodePort_ok hport
    · exact .inl ⟨r, v, exec_writeOp s r v ▸ h⟩
    · exact .inr (.inl ⟨r, exec_readOp s r ▸ h⟩)
  | mem =>
    obtain ⟨a, write, v, -, hmem⟩ := decode_mem_ok hdecode
    obtain ⟨addr, -, ⟨-, rfl⟩ | ⟨-, -, rfl⟩⟩ := decodeMem_ok hmem
    · exact .inr (.inr (.inr ⟨_, _, h⟩))
    · exact .inr (.inr (.inl ⟨_, _, h⟩))

theorem State.writeReg_engineStep (hs : s.engineOk) (v : Byte) (r : PortReg) : EngineStep s (s.writeReg v r) := by
  have hne : s.xta.xst ≠ .fatal := fun hx => by simp [State.engineOk, hx] at hs
  cases r with
  | data => exact State.dataWrite_engineStep hs v
  | status =>
    refine .of_standsIn (xs := [.idle]) ⟨?_, by simp [State.writeReg]⟩ (by simp [legalMove, hne])
    simp only [State.writeReg, State.resetStrobe_eq]
    exact ⟨rfl, ⟨rfl, rfl, rfl, rfl⟩, rfl⟩
  | select =>
    exact .of_standsIn (xs := [.rdata])
      ⟨.inl ⟨⟨rfl, rfl, Nat.zero_lt_succ _⟩, rfl, rfl, rfl⟩, by simp [State.writeReg]⟩ (by simp [legalMove, hne])
  | intr => exact .of_control hs rfl
  | page slot => exact .of_control hs rfl
  | chipIndex => exact .of_control hs rfl
  | chipData =>
    refine .of_control hs ?_
    simp only [State.writeReg, State.chipDataWrite]
    split
    · rfl
    · split <;> rfl

theorem State.readReg_engineStep (hs : s.engineOk) (r : PortReg) : EngineStep s (s.readReg r) := by
  cases r with
  | data => exact State.dataRead_engineStep hs
  | status => exact .of_control hs rfl
  | select => exact .of_control hs rfl
  | intr => exact .of_control hs s.readAny_control
  | page slot =>
    refine .of_control hs ?_
    simp only [State.readReg, State.readPage]
    split
    · rfl
    · exact s.readAny_control
  | chipIndex => exact .of_control hs s.readAny_control
  | chipData =>
    refine .of_control hs ?_
    simp only [State.readReg, State.chipDataRead]
    split
    · rfl
    · split
      · rfl
      · exact s.readAny_control

theorem State.onPort_engineStep {r : PortReg} {k : State} (h : s.onPort r k = .next t) (hk : EngineStep s k) : EngineStep s t := by
  obtain ⟨-, ⟨-, rfl⟩ | ⟨-, rfl⟩⟩ := State.onPort_next.1 h
  · exact .of_stop (s.refuse_not_running _) rfl
  · exact hk

/-! Memory accesses. -/

theorem State.memReadBytes_control {n a : Nat} {bs : List Byte} (h : State.memReadBytes n a s = .ok (bs, t)) :
    t.control = s.control := by
  induction n generalizing a s bs with
  | zero => cases h; rfl
  | succ n ih =>
    simp only [State.memReadBytes] at h
    split at h
    · cases h
    next hbyte =>
      split at h
      · cases h
      next hbytes =>
        cases h
        obtain ⟨dr, hist, rfl⟩ := State.memReadByte_frame hbyte
        exact (ih hbytes).trans rfl

theorem State.memWriteBytes_control {vs : List Byte} {a : Nat} (h : State.memWriteBytes vs a s = .ok t) :
    t.control = s.control := by
  induction vs generalizing a s with
  | nil => cases h; rfl
  | cons v vs ih =>
    simp only [State.memWriteBytes] at h
    split at h
    · cases h
    next hbyte =>
      refine (ih h).trans ?_
      rcases State.memWriteByte_cases hbyte with rfl | rfl | ⟨x, -, rfl⟩ <;> rfl

theorem State.memRead_control {a n : Nat} (h : s.memRead a n = .next t) : t.control = s.control := by
  obtain ⟨-, h⟩ := State.ifRunning_next.1 h
  split at h
  · cases h
  next hbytes =>
    cases h
    exact (State.memReadBytes_control hbytes :)

theorem State.memWrite_control {a : Nat} {vs : List Byte} (h : s.memWrite a vs = .next t) : t.control = s.control := by
  obtain ⟨-, h⟩ := State.ifRunning_next.1 h
  split at h
  · cases h
  next hbytes =>
    cases h
    exact State.memWriteBytes_control hbytes

/-! The step. -/

/-- Every step from a state of the graph is an engine step. -/
theorem step_engineStep (hs : s.engineOk) (h : step s = .next t) : EngineStep s t := by
  obtain ⟨u, ⟨rest, rfl⟩, -, hstep⟩ := step_cases h
  have hu : State.engineOk { s with inputs := rest } := hs
  suffices hengine : EngineStep { s with inputs := rest } t from ⟨hengine.keeps, hengine.moves⟩
  rcases hstep with rfl | ⟨⟨rest', hdue, -⟩, rfl⟩ | ⟨f, bytes, i, hf, hdecode, hexec⟩ | rfl | ⟨a, n, hread⟩ |
    ⟨a, vs, hwrite⟩
  · exact .of_control hu rfl
  · exact State.fire_engineStep_of_engineOk hu hdue.2.1
  · rcases exec_of_decode hf hdecode hexec with ⟨r, v, hport⟩ | ⟨r, hport⟩ | ⟨a, n, hread⟩ | ⟨a, vs, hwrite⟩
    · exact State.onPort_engineStep hport (State.writeReg_engineStep hu v r)
    · exact State.onPort_engineStep hport (State.readReg_engineStep hu r)
    · exact .of_control hu (State.memRead_control hread)
    · exact .of_control hu (State.memWrite_control hwrite)
  · exact .of_stop (State.refuse_not_running _ _) rfl
  · exact .of_control hu (State.memRead_control hread)
  · exact .of_control hu (State.memWrite_control hwrite)

/-- Settles O50: an action leaves a state of the graph, or stops the machine. -/
theorem engineKeepsItsStateGraph : Obligations.EngineKeepsItsStateGraph :=
  fun _ _ hs h => (step_engineStep hs h).keeps

/-- Settles O51: where an action leads is on the graph, but for the verify that goes back to SEND. -/
theorem engineMovesAlongTheGraph : Obligations.EngineMovesAlongTheGraph :=
  fun _ _ hs h => (step_engineStep hs h).moves

end Sys2Proof.Machine
end

section
/-! PROOFS. The DMA ticks (41_xta_engine.md R178, 20_memory.md R64). A tick draws a number of bytes and runs the loop of its
direction over them; where the channel takes or supplies all of them the step has an end, and where the loop stops the bytes before
it stay moved. -/

namespace Sys2Proof.Machine

variable {s : State}

/-- The end of a DMA step of the sector buffer, written out: the last byte ends the phase, and a tick is scheduled either way. -/
theorem State.endDmaStep_eq {x ended : Xst} (hlen : s.xta.curLen = 512) (hidx : s.xta.curIdx ≤ 512) (hdma : s.xta.xferDma = true)
    (hx : s.xta.xst = x) : s.endDmaStep ended = { s with xta := { s.xta with
      pending := true, xferDma := decide (s.xta.curIdx < 512),
      status := if s.xta.curIdx < 512 then s.xta.status else 0x88, xst := if s.xta.curIdx < 512 then x else ended } } := by
  by_cases hmore : s.xta.curIdx < 512
  · rw [State.endDmaStep_of_not_last _ (by omega)]
    simp [State.schedule, hmore, hdma, hx]
  · rw [State.endDmaStep_of_last _ (by omega)]
    simp [hmore]

section
variable {k : Nat} {ks : List Nat} (hchunks : s.draws.chunks = k :: ks) (hpos : 1 ≤ k) (hle : k ≤ s.xta.curLen - s.xta.curIdx)
include hchunks hpos hle

theorem State.dmaInStep_of_script : s.dmaInStep =
    (State.dmaInBytes k { s with draws := { s.draws with chunks := ks } }).andThen fun t => .go (t.endDmaStep .rdone) := by
  simp only [State.dmaInStep, State.drawChunk_of_script hchunks hpos hle]

theorem State.dmaOutStep_of_script : s.dmaOutStep =
    (State.dmaOutBytes k { s with draws := { s.draws with chunks := ks } }).andThen fun t => .go (t.endDmaStep .sdone) := by
  simp only [State.dmaOutStep, State.drawChunk_of_script hchunks hpos hle]

end

/-! Where a loop stops. -/

/-- A channel that has no byte. -/
theorem State.dmaInBytes_nodata {gs : List (Option Byte)} (m : Nat) (hgets : s.draws.gets = none :: gs) :
    s.dmaInBytes (m + 1) = .halt (State.raiseFatal { s with
      draws := { s.draws with gets := gs }, history := .dmaGet none :: s.history } .dmaExhausted) := by
  simp only [State.dmaInBytes, State.drawGet, hgets]
  rfl

/-- A channel that does not take the byte. -/
theorem State.dmaOutBytes_nodata {b : Byte} {ps : List Bool} (m : Nat) (hcell : s.secbufAt = some b)
    (hputs : s.draws.puts = false :: ps) : s.dmaOutBytes (m + 1) = .halt (State.raiseFatal { s with
      draws := { s.draws with puts := ps }, history := .dmaPut b false :: s.history } .dmaExhausted) := by
  simp only [State.dmaOutBytes, State.drawPut, hcell, hputs]
  rfl

/-- A cell of the sector buffer that was never written (10_state.md R28). -/
theorem State.dmaOutBytes_unwritten (m : Nat) (hcell : s.secbufAt = none) :
    s.dmaOutBytes (m + 1) = .halt (s.raiseModelFault .unwrittenBuffer) := by
  simp only [State.dmaOutBytes, hcell]

/-! The steps. -/

section
variable {bs : List Byte} {ks : List Nat} {gs : List (Option Byte)}

/-- A buffer that is another one with bytes stored from a cursor on. -/
abbrev storedFrom (old : Vector (Option Byte) 512) (idx : Nat) (bs : List Byte) (buf : Vector (Option Byte) 512) : Prop :=
  ∀ i : Fin 512, buf[i] = if idx ≤ i.val ∧ i.val < idx + bs.length then bs[i.val - idx]? else old[i]

/-- A step from the host whose bytes the channel supplies. -/
theorem State.dmaInStep_supplied (hx : s.xta.xst = .rdata) (hdma : s.xta.xferDma = true) (hlen : s.xta.curLen = 512)
    (hpos : 1 ≤ bs.length) (hle : s.xta.curIdx + bs.length ≤ 512) (hchunks : s.draws.chunks = bs.length :: ks)
    (hgets : s.draws.gets = bs.map some ++ gs) :
    ∃ buf, storedFrom s.xta.secbuf s.xta.curIdx bs buf ∧ s.dmaInStep = .go { s with
      draws := { s.draws with chunks := ks, gets := gs }
      history := (bs.map fun b => Event.dmaGet (some b)).reverse ++ s.history
      xta := { s.xta with
        secbuf := buf, curIdx := s.xta.curIdx + bs.length, pending := true,
        xferDma := decide (s.xta.curIdx + bs.length < 512),
        status := if s.xta.curIdx + bs.length < 512 then s.xta.status else 0x88,
        xst := if s.xta.curIdx + bs.length < 512 then .rdata else .rdone } } := by
  obtain ⟨buf, hbuf, hloop⟩ := State.dmaInBytes_supplied bs 0 (s := { s with draws := { s.draws with chunks := ks } }) hle hgets
  refine ⟨buf, hbuf, ?_⟩
  rw [State.dmaInStep_of_script hchunks hpos (by omega)]
  refine (congrArg (Flow.andThen · _) hloop).trans (congrArg Flow.go ?_)
  exact State.endDmaStep_eq hlen hle hdma hx

/-- A step from the host whose channel has no byte after `bs`. -/
theorem State.dmaInStep_nodata {k : Nat} (hlen : s.xta.curLen = 512) (hlt : bs.length < k) (hle : s.xta.curIdx + k ≤ 512)
    (hchunks : s.draws.chunks = k :: ks) (hgets : s.draws.gets = bs.map some ++ none :: gs) :
    ∃ buf, storedFrom s.xta.secbuf s.xta.curIdx bs buf ∧ s.dmaInStep = .halt { s with
      fatal := some .dmaExhausted
      draws := { s.draws with chunks := ks, gets := gs }
      history := .dmaGet none :: ((bs.map fun b => Event.dmaGet (some b)).reverse ++ s.history)
      xta := { s.xta with secbuf := buf, curIdx := s.xta.curIdx + bs.length, xst := .fatal } } := by
  obtain ⟨m, rfl⟩ := Nat.exists_eq_add_of_lt hlt
  obtain ⟨buf, hbuf, hloop⟩ := State.dmaInBytes_supplied bs (m + 1)
    (s := { s with draws := { s.draws with chunks := ks } }) (by simp only; omega) hgets
  refine ⟨buf, hbuf, ?_⟩
  rw [State.dmaInStep_of_script hchunks (by omega) (by omega)]
  exact congrArg (Flow.andThen · _) (hloop.trans (State.dmaInBytes_nodata m rfl))

end

section
variable {bs : List Byte} {ks : List Nat} {ps : List Bool}
  (hcells : ∀ j : Nat, j < bs.length → s.xta.secbuf[s.xta.curIdx + j]? = some bs[j]?)
include hcells

/-- A step to the host whose bytes the channel takes. -/
theorem State.dmaOutStep_taken (hx : s.xta.xst = .sdata) (hdma : s.xta.xferDma = true) (hlen : s.xta.curLen = 512)
    (hpos : 1 ≤ bs.length) (hle : s.xta.curIdx + bs.length ≤ 512) (hchunks : s.draws.chunks = bs.length :: ks)
    (hputs : s.draws.puts = List.replicate bs.length true ++ ps) :
    s.dmaOutStep = .go { s with
      draws := { s.draws with chunks := ks, puts := ps }
      history := (bs.map fun b => Event.dmaPut b true).reverse ++ s.history
      xta := { s.xta with
        curIdx := s.xta.curIdx + bs.length, pending := true,
        xferDma := decide (s.xta.curIdx + bs.length < 512),
        status := if s.xta.curIdx + bs.length < 512 then s.xta.status else 0x88,
        xst := if s.xta.curIdx + bs.length < 512 then .sdata else .sdone } } := by
  have hloop := State.dmaOutBytes_taken bs 0 (s := { s with draws := { s.draws with chunks := ks } }) hcells hputs
  rw [State.dmaOutStep_of_script hchunks hpos (by omega)]
  refine (congrArg (Flow.andThen · _) hloop).trans (congrArg Flow.go ?_)
  exact State.endDmaStep_eq hlen hle hdma hx

section
variable {k : Nat} (hlen : s.xta.curLen = 512) (hlt : bs.length < k) (hle : s.xta.curIdx + k ≤ 512)
  (hchunks : s.draws.chunks = k :: ks)
include hlen hlt hle hchunks

/-- A step to the host over the bytes `bs` and a loop that stops after them. -/
theorem State.dmaOutStep_stopped {rest : List Bool} {t : State} (hputs : s.draws.puts = List.replicate bs.length true ++ rest)
    (hstop : ∀ m, State.dmaOutBytes (m + 1) { s with
      draws := { s.draws with chunks := ks, puts := rest }
      history := (bs.map fun b => Event.dmaPut b true).reverse ++ s.history
      xta := { s.xta with curIdx := s.xta.curIdx + bs.length } } = .halt t) :
    s.dmaOutStep = .halt t := by
  obtain ⟨m, rfl⟩ := Nat.exists_eq_add_of_lt hlt
  have hloop := State.dmaOutBytes_taken bs (m + 1) (s := { s with draws := { s.draws with chunks := ks } }) hcells hputs
  rw [State.dmaOutStep_of_script hchunks (by omega) (by omega)]
  exact congrArg (Flow.andThen · _) (hloop.trans (hstop m))

/-- A step to the host whose channel does not take the byte after `bs`. -/
theorem State.dmaOutStep_nodata {b : Byte} (hcell : s.xta.secbuf[s.xta.curIdx + bs.length]? = some (some b))
    (hputs : s.draws.puts = List.replicate bs.length true ++ false :: ps) :
    s.dmaOutStep = .halt { s with
      fatal := some .dmaExhausted
      draws := { s.draws with chunks := ks, puts := ps }
      history := .dmaPut b false :: ((bs.map fun b => Event.dmaPut b true).reverse ++ s.history)
      xta := { s.xta with curIdx := s.xta.curIdx + bs.length, xst := .fatal } } :=
  State.dmaOutStep_stopped hcells hlen hlt hle hchunks hputs fun m =>
    State.dmaOutBytes_nodata m (State.secbufAt_of_getElem? hcell) rfl

/-- A step to the host whose sector buffer has a cell after `bs` that was never written (10_state.md R28). -/
theorem State.dmaOutStep_unwritten (hcell : s.xta.secbuf[s.xta.curIdx + bs.length]? = some none)
    (hputs : s.draws.puts = List.replicate bs.length true ++ ps) :
    s.dmaOutStep = .halt { s with
      mfault := some .unwrittenBuffer
      draws := { s.draws with chunks := ks, puts := ps }
      history := (bs.map fun b => Event.dmaPut b true).reverse ++ s.history
      xta := { s.xta with curIdx := s.xta.curIdx + bs.length } } :=
  State.dmaOutStep_stopped hcells hlen hlt hle hchunks hputs fun m =>
    State.dmaOutBytes_unwritten m (State.secbufAt_of_getElem? hcell)

end
end

/-! The ticks. -/

/-- The step of a tick, where its action is known. -/
theorem step_of_tickOf_flow {f : Flow} {rest : List Input} {c : Cmd} {x : Xst} {dma : Bool} {action : State → Flow}
    (htick : s.tickOf rest c x dma) (haction : tickTable (some c) x dma = some action)
    (h : action (s.ticked rest) = f) : step s = .next f.state :=
  (step_of_tickOf htick haction).trans (congrArg (fun f : Flow => Host.Outcome.next f.state) h)

theorem tickTable_dmaIn {c : Cmd} (hc : c = .writeSectors ∨ c = .writeSectorBuffer) :
    tickTable (some c) .rdata true = some State.dmaInStep := by
  rcases hc with rfl | rfl <;> rfl

theorem tickTable_dmaOut {c : Cmd} (hc : c = .readSectors ∨ c = .readSectorBuffer) :
    tickTable (some c) .sdata true = some State.dmaOutStep := by
  rcases hc with rfl | rfl <;> rfl

/-- Settles O44: the loop stores the bytes the channel supplies, and the step ends. -/
theorem dmaInMovesTheDrawnBytes : Obligations.DmaInMovesTheDrawnBytes := by
  intro s rest c bs ks gs hc htick ⟨_, hlen, _⟩ hpos hle hchunks hgets
  have ⟨_, _, hx, hdma⟩ := htick
  obtain ⟨buf, hbuf, hflow⟩ := State.dmaInStep_supplied (s := s.ticked rest) hx hdma hlen hpos hle hchunks hgets
  exact ⟨_, step_of_tickOf_flow htick (tickTable_dmaIn hc) hflow, hbuf, rfl⟩

/-- Settles O45: the loop offers the bytes of the buffer, and the step ends, or stops at a cell that was never written. -/
theorem dmaOutMovesTheDrawnBytes : Obligations.DmaOutMovesTheDrawnBytes := by
  constructor
  · intro s rest c bs ks ps hc htick ⟨_, hlen, _⟩ hpos hle hcells hchunks hputs
    have ⟨_, _, hx, hdma⟩ := htick
    exact step_of_tickOf_flow htick (tickTable_dmaOut hc)
      (State.dmaOutStep_taken (s := s.ticked rest) hcells hx hdma hlen hpos hle hchunks hputs)
  · intro s rest c bs k ks ps hc htick ⟨_, hlen, _⟩ hlt hle hcells hcell hchunks hputs
    exact step_of_tickOf_flow htick (tickTable_dmaOut hc)
      (State.dmaOutStep_unwritten (s := s.ticked rest) hcells hlen hlt hle hchunks hcell hputs)

/-- Settles O46, by the direction: the loop has moved the bytes `bs` where the channel answers NODATA. -/
theorem exhaustedDmaIsFatal : Obligations.ExhaustedDmaIsFatal := by
  constructor
  · intro s rest c bs k ks gs hc htick ⟨_, hlen, _⟩ hlt hle hchunks hgets
    obtain ⟨buf, hbuf, hflow⟩ := State.dmaInStep_nodata (s := s.ticked rest) hlen hlt hle hchunks hgets
    exact ⟨_, step_of_tickOf_flow htick (tickTable_dmaIn hc) hflow, hbuf, rfl⟩
  · intro s rest c bs b k ks ps hc htick ⟨_, hlen, _⟩ hlt hle hcells hcell hchunks hputs
    exact step_of_tickOf_flow htick (tickTable_dmaOut hc)
      (State.dmaOutStep_nodata (s := s.ticked rest) hcells hlen hlt hle hchunks hcell hputs)

end Sys2Proof.Machine
end

section
/-! PROOFS. The sectors of a command (41_xta_engine.md R183 to R185, 42_xta_commands.md R213 to R215): the advance from one to the
next, the tick that starts one, the tick that ends one. -/

namespace Sys2Proof.Machine

variable {s : State}

/-! The advance. -/

theorem State.nextSector_of_sector {d : Bool} (h : s.xta.cSector + 1 < (s.drive d).spt) :
    s.nextSector d = { s with xta := { s.xta with cSector := s.xta.cSector + 1 } } := if_pos h

theorem State.nextSector_of_head {d : Bool} (hsec : ¬ s.xta.cSector + 1 < (s.drive d).spt)
    (hhead : s.xta.cHead + 1 < (s.drive d).hpc) :
    s.nextSector d = { s with xta := { s.xta with cSector := 0, cHead := s.xta.cHead + 1 } } := by
  unfold State.nextSector
  rw [if_neg hsec, if_pos hhead]

/-- After the last sector of the last head: the next cylinder, the drive's head moved after it. -/
theorem State.nextSector_of_track {d : Bool} (hsec : ¬ s.xta.cSector + 1 < (s.drive d).spt)
    (hhead : ¬ s.xta.cHead + 1 < (s.drive d).hpc) :
    s.nextSector d = { (s.setCyl d ((s.drive d).clamp ((s.drive d).curCyl + 1))) with
      xta := { s.xta with cSector := 0, cHead := 0, cTrack := s.xta.cTrack + 1 } } := by
  simp only [State.nextSector, if_neg hsec, if_neg hhead, State.setCyl_xta]

/-- Inside a track the advance counts the sectors. -/
theorem State.nextSector_iterate {d : Bool} (h0 : s.xta.cSector = 0) {k : Nat} (hk : k < (s.drive d).spt) :
    (fun u : State => u.nextSector d)^[k] s = { s with xta := { s.xta with cSector := k } } := by
  induction k with
  | zero => rw [Function.iterate_zero, id, ← h0]
  | succ k ih =>
    rw [Function.iterate_succ_apply', ih (by omega)]
    exact State.nextSector_of_sector (s := { s with xta := { s.xta with cSector := k } }) hk

/-- Settles O41: the sectors before the last one of the track, then the last one. -/
theorem nextSectorRunsThroughTheTrack : Obligations.NextSectorRunsThroughTheTrack := by
  intro s d h0 hspt
  obtain ⟨k, hk⟩ : ∃ k, (s.drive d).spt = k + 1 := ⟨_, (Nat.sub_add_cancel hspt).symm⟩
  have hlast : ¬ k + 1 < (s.drive d).spt := by omega
  have hrun : (fun u : State => u.nextSector d)^[(s.drive d).spt] s =
      State.nextSector { s with xta := { s.xta with cSector := k } } d := by
    rw [hk, Function.iterate_succ_apply', State.nextSector_iterate h0 (by omega)]
  refine ⟨fun hmore => ?_, fun hend => ?_⟩
  · rw [hrun, State.nextSector_of_head (s := { s with xta := { s.xta with cSector := k } }) hlast hmore, ← h0]
  · have hclamp : (s.drive d).clamp ((s.drive d).curCyl + 1) = min ((s.drive d).curCyl + 1) ((s.drive d).tracks - 1) := by
      rw [Drive.clamp_eq, Drive.clamped]
      split <;> omega
    rw [hrun, State.nextSector_of_track (s := { s with xta := { s.xta with cSector := k } }) hlast (not_lt.2 hend.ge), ← hclamp,
      ← h0]
    cases d <;> rfl

/-! The tick that starts a sector. -/

/-- A phase of the sector buffer from the host, both ways at once (R176). -/
theorem State.beginIn_secBuf_eq (hpending : s.xta.pending = false) : s.beginIn .secBuf 512 = { s with xta := { s.xta with
    curTgt := .secBuf, curIdx := 0, curLen := 512, xst := .rdata, xferDma := s.dmaEnabled,
    status := if s.dmaEnabled then 0x98 else 0x89, pending := s.dmaEnabled } } := by
  cases hdma : s.dmaEnabled with
  | true => simp [State.beginIn_dma hdma]
  | false => simp [State.beginIn_pio fun _ => hdma, hpending]

/-- A phase of the sector buffer to the host, both ways at once (R176). -/
theorem State.beginOut_secBuf_eq (hpending : s.xta.pending = false) : s.beginOut .secBuf 512 = { s with xta := { s.xta with
    curTgt := .secBuf, curIdx := 0, curLen := 512, xst := .sdata, xferDma := s.dmaEnabled,
    status := if s.dmaEnabled then 0x9A else 0x8B, pending := s.dmaEnabled } } := by
  cases hdma : s.dmaEnabled with
  | true => simp [State.beginOut_dma hdma]
  | false => simp [State.beginOut_pio fun _ => hdma, hpending]

theorem State.diskRead_of_image {d : Bool} {lba : Nat} (himage : lba < s.capacity d) :
    s.diskRead d lba = .go { s with xta := { s.xta with secbuf := Vector.ofFn fun i => some (s.diskByte d lba i.val) } } :=
  if_pos himage

theorem State.diskRead_beyond {d : Bool} {lba : Nat} (hbeyond : ¬ lba < s.capacity d) :
    s.diskRead d lba = .halt (s.raiseModelFault .backendRange) :=
  if_neg hbeyond

/-- The bytes of the sector that the CHS cursor addresses. -/
def State.cursorSector (s : State) : Vector (Option Byte) 512 :=
  Vector.ofFn fun i => some (Mem.load (s.disk s.xta.drvsel) (s.cursorLba * 512 + i.val))

theorem State.cursorSector_ticked (s : State) (rest : List Input) : (s.ticked rest).cursorSector = s.cursorSector :=
  congrArg Vector.ofFn (funext fun _ => rfl)

/-- A sector of a read that is in the image (R214). -/
theorem State.sendStep_of_image (haddr : s.addressOk) (himage : s.cursorLba < s.capacity s.xta.drvsel) :
    s.sendStep = .go (State.beginOut { s with xta := { s.xta with
      cLba := s.cursorLba, secbuf := s.cursorSector } } .secBuf 512) := by
  have hread := State.diskRead_of_image (s := { s with xta := { s.xta with cLba := s.cursorLba } }) himage
  have hbytes : (Vector.ofFn fun i : Fin 512 =>
      some (State.diskByte { s with xta := { s.xta with cLba := s.cursorLba } } s.xta.drvsel s.cursorLba i.val)) = s.cursorSector :=
    congrArg Vector.ofFn (funext fun _ => rfl)
  rw [hbytes] at hread
  exact (State.addressed_ok haddr _).trans (congrArg (Flow.andThen · _) hread)

/-- The phase to the host of a sector that was read. -/
theorem State.beginOut_of_read (hpending : s.xta.pending = false) (lba : Nat) (buf : Vector (Option Byte) 512) :
    State.beginOut { s with xta := { s.xta with cLba := lba, secbuf := buf } } .secBuf 512 = { s with xta := { s.xta with
      cLba := lba, secbuf := buf, curTgt := .secBuf, curIdx := 0, curLen := 512, xst := .sdata, xferDma := s.dmaEnabled,
      status := if s.dmaEnabled then 0x9A else 0x8B, pending := s.dmaEnabled } } :=
  State.beginOut_secBuf_eq (s := { s with xta := { s.xta with cLba := lba, secbuf := buf } }) hpending

/-- A sector of a read that is beyond the image (10_state.md R40). -/
theorem State.sendStep_beyond (haddr : s.addressOk) (hbeyond : ¬ s.cursorLba < s.capacity s.xta.drvsel) :
    s.sendStep = .halt { s with mfault := some .backendRange, xta := { s.xta with cLba := s.cursorLba } } := by
  exact (State.addressed_ok haddr _).trans (congrArg (Flow.andThen · _)
    (State.diskRead_beyond (s := { s with xta := { s.xta with cLba := s.cursorLba } }) hbeyond))

/-- Settles O40: the address check, and what follows it where the address is valid. -/
theorem sectorTicksCheckTheAddress : Obligations.SectorTicksCheckTheAddress := by
  refine ⟨fun s rest htick hbad => ?_, fun s rest dma haddr hdma => ⟨fun htick => ?_, fun htick => ?_, fun htick himage => ?_,
    fun htick hbeyond => ?_⟩⟩
  · have hfail : ∀ k, (s.ticked rest).addressed k = .go (failed (s.ticked rest) s.cfg.senseCodes.illAddr) := fun k =>
      (State.addressed_bad (s := s.ticked rest) hbad k).trans (congrArg Flow.go (State.fail_eq _ _))
    rcases htick with htick | htick | htick
    · exact step_of_tickOf_flow htick rfl (hfail _)
    · exact step_of_tickOf_flow htick rfl (hfail _)
    · exact step_of_tickOf_flow htick rfl (hfail _)
  · exact step_of_tickOf_flow htick rfl (State.addressed_ok (s := s.ticked rest) haddr _)
  · subst hdma
    refine step_of_tickOf_flow htick rfl ((State.addressed_ok (s := s.ticked rest) haddr _).trans (congrArg Flow.go ?_))
    exact State.beginIn_secBuf_eq rfl
  · subst hdma
    refine step_of_tickOf_flow htick rfl ((State.sendStep_of_image (s := s.ticked rest) haddr himage).trans (congrArg Flow.go ?_))
    rw [State.cursorSector_ticked]
    exact State.beginOut_of_read (s := s.ticked rest) rfl s.cursorLba s.cursorSector
  · exact step_of_tickOf_flow htick rfl (State.sendStep_beyond (s := s.ticked rest) haddr hbeyond)

/-! The tick that ends a sector. -/

/-- The engine put in a state of the graph. -/
def State.withXst (s : State) (x : Xst) : State := { s with xta := { s.xta with xst := x } }

/-- The next sector of a command: one sector less to go, the cursor moved on, in a state of the graph. -/
def State.nextUp (s : State) (x : Xst) : State :=
  State.nextSector { s with xta := { s.xta with count := s.xta.count - 1, xst := x } } s.xta.drvsel

theorem State.afterSector_last (hcount : s.xta.count = 1) (next : State → Flow) :
    s.afterSector next = .go (completed { s with xta := { s.xta with count := 0 } }) := by
  simp only [State.afterSector, hcount, Nat.sub_self, if_true, State.complete_eq]

theorem State.afterSector_more (hcount : 1 < s.xta.count) (next : State → Flow) :
    s.afterSector next = next (s.nextUp s.xta.xst) :=
  if_neg (Nat.sub_ne_zero_of_lt hcount)

/-- Neither the timer nor the state of the graph has a part in which sector is next. -/
theorem State.nextUp_ticked (s : State) (rest : List Input) (x y : Xst) :
    (s.ticked rest).nextUp y = ((s.nextUp x).ticked rest).withXst y := by
  have hwith := State.nextSector_with { s with xta := { s.xta with count := s.xta.count - 1 } }
  have hx : s.nextUp x = _ := hwith x s.xta.pending s.inputs s.xta.drvsel
  rw [hx]
  exact hwith y false rest s.xta.drvsel

/-- The tick is due at the next sector as it was at the one before. -/
theorem State.nextUp_tickOf {rest : List Input} {c : Cmd} {x : Xst} {dma : Bool} (h : s.tickOf rest c x dma) (y : Xst) :
    (s.nextUp y).tickOf rest c y dma := by
  obtain ⟨⟨hrunning, hpending, hinputs⟩, hc, -, hdma⟩ := h
  refine ⟨⟨?_, ?_, ?_⟩, ?_, ?_, ?_⟩
  · simpa [State.nextUp, State.running] using hrunning
  · simpa [State.nextUp] using hpending
  · simpa [State.nextUp] using hinputs
  · simpa [State.nextUp, State.command] using hc
  · simp [State.nextUp]
  · simpa [State.nextUp] using hdma

/-- A step that ends a sector which is not the last runs the next one's action on what a SEND tick finds there, but for `xst`. -/
theorem step_of_sector_more {rest : List Input} {c : Cmd} {next : State → Flow} (htick : s.tickOf rest c .sdone false)
    (haction : tickTable (some c) .sdone false = some fun t => t.afterSector next) (hcount : 1 < s.xta.count) :
    step s = .next (next (((s.nextUp .send).ticked rest).withXst .sdone)).state := by
  have hx : (s.ticked rest).xta.xst = .sdone := htick.2.2.1
  refine step_of_tickOf_flow htick haction ?_
  rw [State.afterSector_more (s := s.ticked rest) hcount, hx, State.nextUp_ticked s rest .send]

/-- A verify step does not look at the state of the graph it begins in. -/
theorem State.verifyStep_withXst (s : State) (x : Xst) : (s.withXst x).verifyStep = s.verifyStep := by
  unfold State.verifyStep
  by_cases haddr : s.addressOk
  · rw [State.addressed_ok haddr, State.addressed_ok (s := s.withXst x) haddr]
    rfl
  · rw [State.addressed_bad haddr, State.addressed_bad (s := s.withXst x) haddr, State.fail_eq, State.fail_eq]
    rfl

/-- Nor does a send step whose sector is in the image. -/
theorem State.sendStep_withXst (x : Xst) (himage : s.addressOk → s.cursorLba < s.capacity s.xta.drvsel) :
    (s.withXst x).sendStep = s.sendStep := by
  by_cases haddr : s.addressOk
  · rw [State.sendStep_of_image haddr (himage haddr), State.sendStep_of_image (s := s.withXst x) haddr (himage haddr)]
    unfold State.beginOut
    rfl
  · unfold State.sendStep
    rw [State.addressed_bad haddr, State.addressed_bad (s := s.withXst x) haddr, State.fail_eq, State.fail_eq]
    rfl

/-- Settles O42: the last sector completes; after any other the action of the next one runs in the same tick, or a verify waits for
its SEND tick. -/
theorem sectorLoopCountsDown : Obligations.SectorLoopCountsDown := by
  intro s rest
  refine ⟨fun htick hcount => ?_, fun htick hcount u hu => ?_, fun htick hcount u hu => ?_⟩
  · rcases htick with htick | htick
    · exact step_of_tickOf_flow htick rfl (State.afterSector_last (s := s.ticked rest) hcount _)
    · exact step_of_tickOf_flow htick rfl (State.afterSector_last (s := s.ticked rest) hcount _)
  · change u = s.nextUp .send at hu
    have hstep := step_of_sector_more htick rfl hcount
    have hnext := State.nextUp_tickOf htick .send
    have hx : u.xta.xst = .send := by simp [hu, State.nextUp]
    have hcfg : u.cfg = s.cfg := by simp [hu, State.nextUp]
    rw [← hu] at hstep hnext
    refine ⟨fun hloop => ?_, fun hloop => ?_⟩
    · rw [hstep, State.verifyNext_sendTick (s := (u.ticked rest).withXst .sdone) (hcfg.symm ▸ hloop)]
      simp [Flow.state, State.withXst, State.ticked, hx]
    · rw [hstep, State.verifyNext_sameTick (s := (u.ticked rest).withXst .sdone) (hcfg.symm ▸ hloop), State.verifyStep_withXst]
      exact (step_of_tickOf hnext rfl).symm
  · change u = s.nextUp .send at hu
    have hstep := step_of_sector_more htick rfl hcount
    have hnext := State.nextUp_tickOf htick .send
    rw [← hu] at hstep hnext
    have hd : u.xta.drvsel = s.xta.drvsel := by simp [hu, State.nextUp, Xta.drvsel]
    rw [← hd]
    refine ⟨fun himage => ?_, fun haddr hbeyond => ?_⟩
    · rw [hstep, State.sendStep_withXst (s := u.ticked rest) _ himage]
      exact (step_of_tickOf hnext rfl).symm
    · refine ⟨.sdone, ?_⟩
      rw [hstep, State.sendStep_beyond (s := (u.ticked rest).withXst .sdone) haddr hbeyond.not_gt]
      rfl

end Sys2Proof.Machine
end

section
/-! PROOFS. The commands at dispatch (42_xta_commands.md R210 to R225): an accepted DCB runs its command's start action, on a present
drive what follows the presence check. What the start actions leave is read off the rules for the completion, the phases and the
seek. -/

namespace Sys2Proof.Machine

variable {s : State} {d : DcbOps}

/-! The start action. -/

/-- The drive of the command is the one its DCB names. -/
theorem accepted_d (s : State) (op : Byte) (d : DcbOps) : (accepted s op d).d = d.drvsel := accepted_drvsel d op s

theorem exec_cmdInstr_of_usable (h : s.usable .data) (hmbz : d.mbz = 0) (c : Cmd) :
    exec (cmdInstr c d) s = .next (startOf (some c) (accepted s (cmdCode s.cfg.cmd c) d)) := by
  rw [exec_cmdInstr, State.acceptDcb_of_usable _ _ h hmbz]

/-- The presence check on an accepted DCB whose drive is there (R187). -/
theorem checkPresent_accepted (hpresent : (s.drive d.drvsel).present = true) (op : Byte) (k : State → State) :
    (accepted s op d).checkPresent k = k (accepted s op d) :=
  State.checkPresent_present (by rw [accepted_d]; exact hpresent) k

/-! Completions. -/

/-- Settles O32: behind the presence check both complete, RECALIBRATE with its drive on cylinder 0. -/
theorem testReadyAndRecalibrateComplete : Obligations.TestReadyAndRecalibrateComplete := by
  refine fun s d h hmbz hpresent => ⟨?_, ?_⟩
  · refine (exec_cmdInstr_of_usable h hmbz .testReady).trans (congrArg _ ?_)
    exact (checkPresent_accepted hpresent _ State.complete).trans (State.complete_eq _)
  · refine (exec_cmdInstr_of_usable h hmbz .recalibrate).trans (congrArg _ ?_)
    refine (checkPresent_accepted hpresent _ fun s => (s.setCyl s.d 0).complete).trans ?_
    rw [accepted_d, State.complete_eq]
    rfl

/-- Settles O38: the start action of an unrecognised opcode does not look at the drive. -/
theorem unrecognisedOpcodeFails : Obligations.UnrecognisedOpcodeFails := fun _ d op h hmbz =>
  (State.acceptDcb_of_usable d op h hmbz startIllegal).trans (congrArg _ (State.fail_eq _ _))

/-! Waits. -/

/-- Settles O35, by the command: the start action is the wait, behind the presence check for two of the four. -/
theorem delayCommandsWaitInRdone : Obligations.DelayCommandsWaitInRdone := by
  intro s d c h hmbz hc
  have hstart : startOf (some c) (accepted s (cmdCode s.cfg.cmd c) d) = (accepted s (cmdCode s.cfg.cmd c) d).await .rdone := by
    simp only [List.mem_cons, List.not_mem_nil, or_false] at hc
    rcases hc with (rfl | rfl) | ⟨rfl | rfl, hpresent⟩
    · rfl
    · rfl
    · exact checkPresent_accepted hpresent _ fun s => s.await .rdone
    · exact checkPresent_accepted hpresent _ fun s => s.await .rdone
  rw [exec_cmdInstr_of_usable h hmbz, hstart]
  rfl

/-- Settles O34, by the command: each loads the cursor, seeks and waits. -/
theorem sectorCommandsSeekAndWait : Obligations.SectorCommandsSeekAndWait := by
  intro s d c x h hmbz hpresent hcx
  have hstart : startOf (some c) (accepted s (cmdCode s.cfg.cmd c) d) =
      (accepted s (cmdCode s.cfg.cmd c) d).loadAndSeek.await x := by
    simp only [List.mem_cons, Prod.mk.injEq, List.not_mem_nil, or_false] at hcx
    rcases hcx with ⟨rfl, rfl⟩ | ⟨rfl, rfl⟩ | ⟨rfl, rfl⟩ | ⟨rfl, rfl⟩ <;>
      exact checkPresent_accepted hpresent _ fun s => s.loadAndSeek.await _
  rw [exec_cmdInstr_of_usable h hmbz, hstart, State.loadAndSeek_accepted]
  rfl

/-! SEEK. -/

/-- A seek reaches the cylinders there are, on a geometry that has sectors (R182, D41, log entry 37). -/
theorem State.doSeek_reached_iff (s : State) (d : Bool) (c : Nat) :
    (s.doSeek d c).1 = true ↔ 1 ≤ (s.drive d).hpc ∧ 1 ≤ (s.drive d).spt ∧ c < (s.drive d).tracks := by
  unfold State.doSeek Drive.degenerate
  rw [decide_eq_true_iff]
  omega

/-- The seek of an accepted DCB goes to its cylinder, on its drive. -/
theorem doSeek_accepted_reached_iff (s : State) (op : Byte) (d : DcbOps) :
    ((accepted s op d).loadChs.doSeek (accepted s op d).d (accepted s op d).xta.cyl).1 = true ↔
      1 ≤ (s.drive d.drvsel).hpc ∧ 1 ≤ (s.drive d.drvsel).spt ∧ d.cyl.toNat < (s.drive d.drvsel).tracks := by
  rw [accepted_d, accepted_cyl]
  exact State.doSeek_reached_iff (accepted s op d).loadChs _ _

/-- SEEK is the load and the seek of the sector commands, and then the result of the seek (R218). -/
theorem startSeek_present {s : State} (hpresent : (s.drive s.d).present = true) :
    startSeek s =
      if (s.loadChs.doSeek s.d s.xta.cyl).1 then s.loadAndSeek.complete else s.loadAndSeek.fail s.cfg.senseCodes.seek := by
  rw [← State.loadAndSeek_cfg s]
  exact State.checkPresent_present hpresent _

/-- Settles O36, by the result of the seek. -/
theorem seekCompletesOrFails : Obligations.SeekCompletesOrFails := by
  rintro s t d h hmbz hpresent rfl
  refine (exec_cmdInstr_of_usable h hmbz .seek).trans (congrArg _ ?_)
  refine (startSeek_present (by rw [accepted_d]; exact hpresent)).trans ?_
  simp only [doSeek_accepted_reached_iff, State.complete_eq, State.fail_eq, State.loadAndSeek_accepted]
  rfl

/-! Data phases. -/

/-- A phase of the sector buffer to the host, whether or not a tick is pending (R176). -/
theorem State.beginOut_secBuf (s : State) : s.beginOut .secBuf 512 = { s with xta := { s.xta with
    curTgt := .secBuf, curIdx := 0, curLen := 512, xst := .sdata, xferDma := decide (s.xta.intr &&& s.cfg.dmaEna ≠ 0),
    status := if s.xta.intr &&& s.cfg.dmaEna ≠ 0 then 0x9A else 0x8B,
    pending := if s.xta.intr &&& s.cfg.dmaEna ≠ 0 then true else s.xta.pending } } := by
  simp only [← State.dmaEnabled_iff]
  cases hdma : s.dmaEnabled with
  | true => simp [State.beginOut_dma hdma]
  | false => simp [State.beginOut_pio fun _ => hdma]

/-- A phase of the sector buffer from the host, whether or not a tick is pending (R176). -/
theorem State.beginIn_secBuf (s : State) : s.beginIn .secBuf 512 = { s with xta := { s.xta with
    curTgt := .secBuf, curIdx := 0, curLen := 512, xst := .rdata, xferDma := decide (s.xta.intr &&& s.cfg.dmaEna ≠ 0),
    status := if s.xta.intr &&& s.cfg.dmaEna ≠ 0 then 0x98 else 0x89,
    pending := if s.xta.intr &&& s.cfg.dmaEna ≠ 0 then true else s.xta.pending } } := by
  simp only [← State.dmaEnabled_iff]
  cases hdma : s.dmaEnabled with
  | true => simp [State.beginIn_dma hdma]
  | false => simp [State.beginIn_pio fun _ => hdma]

/-- Settles O37: each start action is the beginning of its phase. -/
theorem bufferCommandsOpenTheirPhase : Obligations.BufferCommandsOpenTheirPhase := by
  refine fun s d h hmbz => ⟨?_, ?_, ?_⟩
  · exact (exec_cmdInstr_of_usable h hmbz .setDriveParams).trans (congrArg _ (State.beginIn_pio (tgt := .paramBuf) nofun 8))
  · exact (exec_cmdInstr_of_usable h hmbz .readSectorBuffer).trans (congrArg _ (State.beginOut_secBuf _))
  · exact (exec_cmdInstr_of_usable h hmbz .writeSectorBuffer).trans (congrArg _ (State.beginIn_secBuf _))

/-- Bits 9 and 8 of a cylinder above a 6-bit sector number (R105). -/
theorem cylHigh_or_sector (t n : Nat) : ((t >>> 8 &&& 0x03) <<< 6) ||| (n &&& 0x3F) = (t / 256) % 4 * 64 + n % 64 := by
  have hsector : n &&& 0x3F = n % 64 := Nat.and_two_pow_sub_one_eq_mod n 6
  have hcyl : t >>> 8 &&& 0x03 = (t / 256) % 4 := by
    rw [Nat.shiftRight_eq_div_pow]
    exact Nat.and_two_pow_sub_one_eq_mod _ 2
  rw [hsector, hcyl, ← Nat.shiftLeft_add_eq_or_of_lt (Nat.mod_lt n (by decide)), Nat.shiftLeft_eq]

/-- The sense block in arithmetic (R105). -/
theorem Xta.senseBlock_eq (x : Xta) : x.senseBlock = #v[x.sense, if x.drvsel then 0x20 else 0x00,
    BitVec.ofNat 8 ((x.cTrack / 256) % 4 * 64 + x.cSector % 64), BitVec.ofNat 8 (x.cTrack % 256)] := by
  have hlow : x.cTrack &&& 0xFF = x.cTrack % 256 := Nat.and_two_pow_sub_one_eq_mod _ 8
  simp only [Xta.senseBlock, cylHigh_or_sector, hlow]

/-- Settles O33: the sense block, in a phase that is not of the sector buffer. -/
theorem readSenseSendsTheSenseBlock : Obligations.ReadSenseSendsTheSenseBlock := by
  intro s d h hmbz
  refine (exec_cmdInstr_of_usable h hmbz .readSense).trans (congrArg _ ((State.beginOut_pio (tgt := .senseBuf) nofun 4).trans ?_))
  rw [Xta.senseBlock_eq, accepted_drvsel]
  rfl

end Sys2Proof.Machine
end

section
/-! PROOFS. The last ticks of the commands (42_xta_commands.md R212 to R224): the ones that complete without a disk write, the end of a
sector of WRITE_SECTORS, and the two format commands inside the image. A completion takes any pending tick, so that a tick that
ends in one leaves what the completion alone would. -/

namespace Sys2Proof.Machine

variable {s : State} {rest : List Input}

/-! Ticks without a disk write. -/

@[simp] theorem completed_disk0 (s : State) : (completed s).disk0 = s.disk0 := rfl
@[simp] theorem completed_disk1 (s : State) : (completed s).disk1 = s.disk1 := rfl
@[simp] theorem completed_disk (s : State) (d : Bool) : (completed s).disk d = s.disk d := rfl

/-- A completion does not look at the timer, whatever drive was set before it. -/
theorem completed_setDrive_ticked (s : State) (rest : List Input) (d : Bool) (v : Drive) :
    completed ((s.ticked rest).setDrive d v) = completed (State.setDrive { s with inputs := rest } d v) := by
  cases d <;> rfl

/-- The step of a tick whose action completes. -/
theorem step_of_tickOf_complete {t : State} {c : Cmd} {x : Xst} {dma : Bool} {action : State → Flow}
    (htick : s.tickOf rest c x dma) (haction : tickTable (some c) x dma = some action)
    (h : action (s.ticked rest) = .go t.complete) : step s = .next (completed t) :=
  step_of_tickOf_flow htick haction (h.trans (congrArg Flow.go (State.complete_eq t)))

/-- Settles O39: each of the ticks is a completion, of READ_SENSE and SET_DRIVE_PARAMS after one store. -/
theorem lastTicksComplete : Obligations.LastTicksComplete := by
  refine fun s rest => ⟨fun htick => step_of_tickOf_complete htick rfl rfl, ?_, fun htick => ?_⟩
  · rintro htick v rfl
    rw [step_of_tickOf_complete htick rfl rfl, completed_setDrive_ticked, Drive.clamp_eq]
    rfl
  · rcases htick with htick | htick | htick | htick | htick <;> exact step_of_tickOf_complete htick rfl rfl

/-! WRITE_SECTORS. -/

/-- A run of sector writes does not look at the inputs or the timer. -/
theorem State.filled_ticked (s : State) (rest : List Input) (d : Bool) (b : Fin 512 → Byte) (base n : Nat) :
    (s.ticked rest).filled d b base n = (s.filled d b base n).ticked rest := by
  induction n with
  | zero => rfl
  | succ n ih =>
    simp only [State.filled, ih]
    cases d <;> rfl

/-- A receive step does not look at the state of the graph it begins in. -/
theorem State.recvStep_withXst (s : State) (x : Xst) : (s.withXst x).recvStep = s.recvStep := by
  unfold State.recvStep
  by_cases haddr : s.addressOk
  · rw [State.addressed_ok haddr, State.addressed_ok (s := s.withXst x) haddr, State.beginIn_secBuf, State.beginIn_secBuf]
    rfl
  · rw [State.addressed_bad haddr, State.addressed_bad (s := s.withXst x) haddr, State.fail_eq, State.fail_eq]
    rfl

/-- What comes after a sector of WRITE_SECTORS leaves both images. -/
theorem State.afterSector_recvStep_disk (s : State) (d : Bool) : (s.afterSector State.recvStep).state.disk d = s.disk d :=
  ((State.afterSector_step (sets := ∅) (writes := ∅) State.recvStep_media s).image d).resolve_right id

/-- The state with the sector of the last address check written (R215), before the tick is taken. -/
def State.sectorWritten (s : State) (b : Fin 512 → Byte) : State := s.filled s.xta.drvsel b s.xta.cLba 1

theorem State.sectorWritten_eq (s : State) (b : Fin 512 → Byte) : s.sectorWritten b = { s with
    disk0 := (s.sectorWritten b).disk0, disk1 := (s.sectorWritten b).disk1,
    history := .diskWrite s.xta.drvsel s.xta.cLba :: s.history } :=
  State.filled_eq s s.xta.drvsel b s.xta.cLba 1

/-- The bytes of the sector that was written. -/
theorem State.sectorWritten_load (s : State) (b : Fin 512 → Byte) (i : Fin 512) :
    Mem.load ((s.sectorWritten b).disk s.xta.drvsel) (s.xta.cLba * 512 + i.val) = b i :=
  (State.filled_load s s.xta.drvsel b s.xta.cLba 1 s.xta.cLba i).trans (if_pos (by omega))

/-- The bytes outside the sector that was written: each is a byte of another sector. -/
theorem State.sectorWritten_load_other (s : State) (b : Fin 512 → Byte) {x : Nat}
    (hx : ¬ (s.xta.cLba * 512 ≤ x ∧ x < s.xta.cLba * 512 + 512)) :
    Mem.load ((s.sectorWritten b).disk s.xta.drvsel) x = Mem.load (s.disk s.xta.drvsel) x := by
  have hload := State.filled_load s s.xta.drvsel b s.xta.cLba 1 (x / 512) ⟨x % 512, Nat.mod_lt x (by decide)⟩
  rw [if_neg (by omega), show x / 512 * 512 + x % 512 = x by omega] at hload
  exact hload

/-- The step of WRITE_SECTORS in RDONE, the buffer written and the sector in the image: the sector is written, then the loop goes
on. -/
theorem step_writeSectors {b : Fin 512 → Byte} (htick : s.tickOf rest .writeSectors .rdone false)
    (hb : ∀ i : Fin 512, s.xta.secbuf[i] = some (b i)) (hcap : s.xta.cLba < s.capacity s.xta.drvsel) :
    step s = .next (((s.sectorWritten b).ticked rest).afterSector State.recvStep).state := by
  have hwrite := State.filled_write (s := s.ticked rest) (n := 0) hb hcap
  rw [State.filled_ticked _ _ _ _ _ 1] at hwrite
  exact step_of_tickOf_flow htick rfl (congrArg (Flow.andThen · _) hwrite)

theorem State.nextUp_sectorWritten (s : State) (b : Fin 512 → Byte) (x : Xst) : (s.sectorWritten b).nextUp x =
    State.nextSector { s with
      disk0 := (s.sectorWritten b).disk0, disk1 := (s.sectorWritten b).disk1,
      history := .diskWrite s.xta.drvsel s.xta.cLba :: s.history,
      xta := { s.xta with count := s.xta.count - 1, xst := x } } s.xta.drvsel := by
  have heq := s.sectorWritten_eq b
  generalize s.sectorWritten b = u at heq ⊢
  rw [heq]
  rfl

/-- After the last sector the loop completes. -/
theorem State.afterSector_sectorWritten_last (b : Fin 512 → Byte) (hcount : s.xta.count = 1) :
    (((s.sectorWritten b).ticked rest).afterSector State.recvStep).state = completed { s with
      inputs := rest, disk0 := (s.sectorWritten b).disk0, disk1 := (s.sectorWritten b).disk1,
      history := .diskWrite s.xta.drvsel s.xta.cLba :: s.history, xta := { s.xta with count := 0 } } := by
  have heq := s.sectorWritten_eq b
  generalize s.sectorWritten b = u at heq ⊢
  rw [State.afterSector_last (by rw [heq]; exact hcount), heq]
  rfl

/-- After any other sector the loop is the tick of RECV at the next one. -/
theorem step_nextUp_sectorWritten (b : Fin 512 → Byte) (htick : s.tickOf rest .writeSectors .rdone false)
    (hcount : 1 < s.xta.count) : step ((s.sectorWritten b).nextUp .recv) =
      .next (((s.sectorWritten b).ticked rest).afterSector State.recvStep).state := by
  have heq := s.sectorWritten_eq b
  generalize s.sectorWritten b = u at heq ⊢
  have hu : u.tickOf rest .writeSectors .rdone false := by rw [heq]; exact htick
  have ⟨_, _, hxst, _⟩ := hu
  have hx : (u.ticked rest).xta.xst = .rdone := hxst
  rw [State.afterSector_more (s := u.ticked rest) (by rw [heq]; exact hcount), hx, State.nextUp_ticked u rest .recv,
    State.recvStep_withXst]
  exact step_of_tickOf (State.nextUp_tickOf hu .recv) rfl

/-- Settles O43: the run of one sector, and then whether it was the last. -/
theorem writeSectorsStoresTheSector : Obligations.WriteSectorsStoresTheSector := by
  intro s rest b htick hb hcap
  have hdisk := State.afterSector_recvStep_disk ((s.sectorWritten b).ticked rest)
  have hdisk0 : State.disk0 _ = (s.sectorWritten b).disk0 := hdisk false
  have hdisk1 : State.disk1 _ = (s.sectorWritten b).disk1 := hdisk true
  refine ⟨_, step_writeSectors htick hb hcap, fun i => ?_, fun x hx => ?_, ?_, fun hcount => ?_, fun hcount => ?_⟩
  · rw [hdisk]
    exact s.sectorWritten_load b i
  · rw [hdisk]
    exact s.sectorWritten_load_other b hx
  · rw [hdisk]
    exact State.filled_other s s.xta.drvsel b s.xta.cLba 1
  · rw [hdisk0, hdisk1]
    exact State.afterSector_sectorWritten_last b hcount
  · rw [hdisk0, hdisk1, ← State.nextUp_sectorWritten]
    exact step_nextUp_sectorWritten b htick hcount

/-! The format commands. -/

/-- FORMAT_TRACK on a cylinder inside the image: its sectors are written, and it completes. -/
theorem tickFormatTrack_inside {b : Fin 512 → Byte} (hb : ∀ i : Fin 512, s.xta.secbuf[i] = some (b i))
    (htracks : 1 ≤ s.cmdDrive.tracks) (hcyl : s.cmdDrive.curCyl = s.xta.cTrack)
    (hcap : (s.xta.cTrack + 1) * s.cmdDrive.hpc * s.cmdDrive.spt ≤ s.capacity s.xta.drvsel) :
    tickFormatTrack s = .go (s.filled s.xta.drvsel b (s.xta.cTrack * s.cmdDrive.hpc * s.cmdDrive.spt)
      (s.cmdDrive.hpc * s.cmdDrive.spt)).complete := by
  have hend : (s.xta.cTrack + 1) * s.cmdDrive.hpc * s.cmdDrive.spt =
      s.xta.cTrack * s.cmdDrive.hpc * s.cmdDrive.spt + s.cmdDrive.hpc * s.cmdDrive.spt := by ring
  rw [hend] at hcap
  have hloop := formatTrackSectors_eq hb htracks hcyl (n := 0) (trackSectors_consecutive s.cmdDrive s.xta.cTrack)
    (Nat.le_trans (Nat.le_add_right _ _) hcap)
  rw [trackSectors_length, Nat.zero_add] at hloop
  exact hloop.trans (if_pos hcap)

/-- Settles O47: the loop over the cylinder is a run of writes; off the cylinder it ends before the first. -/
theorem formatTrackFillsTheCylinder : Obligations.FormatTrackFillsTheCylinder := by
  refine fun s rest htick => ⟨fun b hb hcyl htracks hcap => ?_, fun hoff hhpc hspt => ?_⟩
  · refine ⟨_, step_of_tickOf_complete htick rfl (tickFormatTrack_inside (s := s.ticked rest) hb htracks hcyl hcap), ?_, ?_⟩
    · exact State.filled_imageFilled (s.ticked rest) b _ _
    · rw [State.filled_eq]
      rfl
  · exact step_of_tickOf_flow htick rfl
      ((tickFormatTrack_bad (s := s.ticked rest) hoff hhpc hspt).trans (congrArg Flow.go (State.fail_eq _ _)))

/-- The completion of a run of writes that left the head on cylinder `c`, from a machine whose tick has been taken. -/
theorem completed_formatted_ticked (s : State) (rest : List Input) (d : Bool) (b : Fin 512 → Byte) (c n : Nat) :
    completed ((s.ticked rest).formatted d b c n) = completed (State.setDrive { s with
      inputs := rest, disk0 := (s.filled d b 0 n).disk0, disk1 := (s.filled d b 0 n).disk1,
      history := diskWrites d 0 n ++ s.history } d { s.drive d with curCyl := c }) := by
  rw [State.formatted, State.filled_ticked, completed_setDrive_ticked]
  have heq := s.filled_eq d b 0 n
  generalize s.filled d b 0 n = u at heq ⊢
  rw [heq]
  rfl

/-- Settles O48: the loop is a run of writes of the geometry, and a completion. -/
theorem formatDriveFillsTheDrive : Obligations.FormatDriveFillsTheDrive := by
  intro s rest b htick hb hcap
  have hstep := step_of_tickOf_complete htick rfl ((tickFormatDrive_eq (s := s.ticked rest) hb).trans (if_pos hcap))
  refine ⟨_, hstep.trans (congrArg _ (completed_formatted_ticked s rest ..)), ?_, ?_⟩
  · simp only [State.imageFilled, completed_disk, State.disk_setDrive]
    exact s.filled_imageFilled b 0 _
  · simp only [completed_disk0, completed_disk1, State.setDrive_disk0, State.setDrive_disk1]
    rfl

end Sys2Proof.Machine
end

section
/-! PROOFS. What the XTA engine leaves (00_scope.md R1, 70_reset_and_hazards.md R341): no operation of its window, no command and
no tick touches the registers of the EMS unit or the RAM array. -/

namespace Sys2Proof.Machine

/-- The part of the state that is the EMS unit's: its registers (10_state.md R41, R43, R44) and the RAM array (R42). -/
def State.emsUnit (s : State) : Ems × Memory := (s.ems, s.ram)

variable {s t : State}

/-! The routines of the engine. -/

@[simp] theorem State.complete_emsUnit (s : State) : s.complete.emsUnit = s.emsUnit := by simp [State.emsUnit]

@[simp] theorem State.fail_emsUnit (s : State) (code : Byte) : (s.fail code).emsUnit = s.emsUnit := by simp [State.emsUnit]

@[simp] theorem State.beginOut_emsUnit (s : State) (tgt : Target) (len : Nat) : (s.beginOut tgt len).emsUnit = s.emsUnit := by
  simp [State.emsUnit]

@[simp] theorem State.beginIn_emsUnit (s : State) (tgt : Target) (len : Nat) : (s.beginIn tgt len).emsUnit = s.emsUnit := by
  simp [State.emsUnit]

@[simp] theorem State.setCyl_emsUnit (s : State) (d : Bool) (c : Nat) : (s.setCyl d c).emsUnit = s.emsUnit := by
  simp [State.emsUnit]

@[simp] theorem State.nextSector_emsUnit (s : State) (d : Bool) : (s.nextSector d).emsUnit = s.emsUnit := by
  simp [State.emsUnit]

@[simp] theorem State.endDmaStep_emsUnit (s : State) (x : Xst) : (s.endDmaStep x).emsUnit = s.emsUnit := by
  simp [State.emsUnit]

@[simp] theorem State.drawChunk_emsUnit (s : State) (n : Nat) : (s.drawChunk n).2.emsUnit = s.emsUnit := by
  simp [State.emsUnit]

@[simp] theorem State.readAny_emsUnit (s : State) : s.readAny.emsUnit = s.emsUnit := by simp [State.emsUnit]

@[simp] theorem State.resetStrobe_emsUnit (s : State) : s.resetStrobe.emsUnit = s.emsUnit := by simp [State.emsUnit]

theorem State.diskRead_emsUnit (s : State) (d : Bool) (lba : Nat) : (s.diskRead d lba).state.emsUnit = s.emsUnit := by
  rcases s.diskRead_cases d lba with ⟨-, h⟩ | ⟨-, h⟩ <;> rw [h]
  · simp only [Flow.state, State.emsUnit]
  · rfl

theorem State.diskWrite_emsUnit (s : State) (d : Bool) (lba : Nat) : (s.diskWrite d lba).state.emsUnit = s.emsUnit := by
  rcases s.diskWrite_cases d lba with h | h | ⟨bs, -, -, -, h⟩ <;> rw [h]
  · rfl
  · rfl
  · simp [Flow.state, State.emsUnit]

theorem State.dmaOutBytes_emsUnit (k : Nat) (s : State) : (s.dmaOutBytes k).state.emsUnit = s.emsUnit := by
  cases h : s.dmaOutBytes k with
  | go t =>
    obtain ⟨dr, hist, rfl⟩ := State.dmaOutBytes_go h
    rfl
  | halt t =>
    obtain ⟨dr, hist, n, -, rfl | rfl⟩ := State.dmaOutBytes_halt h <;> rfl

theorem State.dmaInBytes_emsUnit (k : Nat) (s : State) : (s.dmaInBytes k).state.emsUnit = s.emsUnit := by
  cases h : s.dmaInBytes k with
  | go t =>
    obtain ⟨dr, hist, buf, rfl⟩ := State.dmaInBytes_go h
    rfl
  | halt t =>
    obtain ⟨dr, hist, buf, n, -, rfl⟩ := State.dmaInBytes_halt h
    rfl

/-- Of a sequence each part leaves the EMS unit. -/
theorem Flow.andThen_emsUnit {f : Flow} {k : State → Flow} (hf : f.state.emsUnit = s.emsUnit)
    (hk : ∀ u, (k u).state.emsUnit = u.emsUnit) : (f.andThen k).state.emsUnit = s.emsUnit :=
  Flow.andThen_keeps (P := (·.emsUnit = s.emsUnit)) hf fun u hu => (hk u).trans hu

/-- Of a loop each pass leaves the EMS unit. -/
theorem Flow.forEach_emsUnit {α : Type} {body : α → State → Flow} (hbody : ∀ x u, (body x u).state.emsUnit = u.emsUnit)
    (xs : List α) (s : State) : (Flow.forEach body xs s).state.emsUnit = s.emsUnit :=
  Flow.forEach_keeps (P := (·.emsUnit = s.emsUnit)) (fun x u hu => (hbody x u).trans hu) xs s rfl

theorem State.addressed_emsUnit {k : Nat → State → Flow} (hk : ∀ l u, (k l u).state.emsUnit = u.emsUnit) (s : State) :
    (s.addressed k).state.emsUnit = s.emsUnit := by
  by_cases h : s.addressOk
  · rw [State.addressed_ok h, hk]
    rfl
  · rw [State.addressed_bad h]
    exact s.fail_emsUnit _

/-! The operations of the window and the commands. -/

theorem State.checkPresent_emsUnit {k : State → State} (hk : ∀ u, (k u).emsUnit = u.emsUnit) (s : State) :
    (s.checkPresent k).emsUnit = s.emsUnit := by
  unfold State.checkPresent
  split
  · exact hk s
  · exact s.fail_emsUnit _

theorem State.loadAndSeek_emsUnit (s : State) : s.loadAndSeek.emsUnit = s.emsUnit :=
  (State.setCyl_emsUnit s.loadChs _ _).trans rfl

theorem startSeek_emsUnit (s : State) : (startSeek s).emsUnit = s.emsUnit := by
  unfold startSeek
  refine State.checkPresent_emsUnit (fun u => ?_) s
  simp only
  split
  · exact (State.complete_emsUnit _).trans u.loadAndSeek_emsUnit
  · exact (State.fail_emsUnit _ _).trans u.loadAndSeek_emsUnit

theorem startOf_emsUnit (c : Option Cmd) (s : State) : (startOf c s).emsUnit = s.emsUnit := by
  have await : ∀ x, (s.checkPresent fun u => u.await x).emsUnit = s.emsUnit := fun x =>
    State.checkPresent_emsUnit (k := fun u => u.await x) (fun _ => rfl) s
  have seekAwait : ∀ x, (s.checkPresent fun u => u.loadAndSeek.await x).emsUnit = s.emsUnit := fun x =>
    State.checkPresent_emsUnit (k := fun u => u.loadAndSeek.await x) State.loadAndSeek_emsUnit s
  cases c with
  | none => exact s.fail_emsUnit _
  | some c =>
    cases c with
    | testReady => exact s.checkPresent_emsUnit State.complete_emsUnit
    | recalibrate => exact s.checkPresent_emsUnit fun u => (State.complete_emsUnit _).trans (u.setCyl_emsUnit _ _)
    | readSense => exact State.beginOut_emsUnit _ _ _
    | formatDrive => exact await .rdone
    | readVerify => exact seekAwait .send
    | formatTrack => exact seekAwait .rdone
    | readSectors => exact seekAwait .send
    | writeSectors => exact seekAwait .recv
    | seek => exact startSeek_emsUnit s
    | setDriveParams => exact s.beginIn_emsUnit _ _
    | readSectorBuffer => exact s.beginOut_emsUnit _ _
    | writeSectorBuffer => exact s.beginIn_emsUnit _ _
    | ramDiag => rfl
    | driveDiag => exact await .rdone
    | ctrlDiag => rfl

theorem State.dcbComplete_emsUnit (c : Option Cmd) (s : State) : (s.dcbComplete (startOf c)).emsUnit = s.emsUnit := by
  unfold State.dcbComplete
  split
  · rfl
  · exact startOf_emsUnit c s.dispatchEntry

theorem State.storePhaseByte_emsUnit (s : State) (v : Byte) : (s.storePhaseByte v).emsUnit = s.emsUnit := by
  unfold State.storePhaseByte
  split <;> rfl

theorem State.dataWrite_emsUnit (s : State) (v : Byte) : (s.dataWrite v).emsUnit = s.emsUnit := by
  unfold State.dataWrite
  split
  · refine Eq.trans ?_ (s.storePhaseByte_emsUnit v)
    unfold State.afterPhaseByte
    split
    · split
      · exact State.dcbComplete_emsUnit _ _
      · rfl
    · rfl
  · rfl

theorem State.violatingRead_emsUnit (s : State) : s.violatingRead.emsUnit = s.emsUnit :=
  (s.protocolViolation .read).readAny_emsUnit

theorem State.afterPhaseRead_emsUnit (s : State) (r : Byte) : (s.afterPhaseRead r).emsUnit = s.emsUnit := by
  simp only [State.afterPhaseRead]
  split <;> rfl

theorem State.dataRead_emsUnit (s : State) : s.dataRead.emsUnit = s.emsUnit := by
  unfold State.dataRead
  split
  · rfl
  split
  · split
    · exact s.afterPhaseRead_emsUnit _
    · split
      · rfl
      · exact s.afterPhaseRead_emsUnit _
    all_goals exact s.violatingRead_emsUnit
  · exact s.violatingRead_emsUnit

/-- An access to a port is refused, which leaves the EMS unit, or has its own effect. -/
theorem State.onPort_emsUnit {r : PortReg} {k : State} (h : s.onPort r k = .next t) (hk : k.emsUnit = s.emsUnit) :
    t.emsUnit = s.emsUnit := by
  obtain ⟨-, ⟨-, rfl⟩ | ⟨-, rfl⟩⟩ := State.onPort_next.1 h
  · rfl
  · exact hk

theorem State.acceptDcb_emsUnit {b : Vector Byte 6} (c : Option Cmd) (h : s.acceptDcb b (startOf c) = .next t) :
    t.emsUnit = s.emsUnit :=
  State.onPort_emsUnit h (State.dcbComplete_emsUnit c _)

theorem exec_cmdInstr_emsUnit {c : Cmd} {d : DcbOps} (h : exec (cmdInstr c d) s = .next t) : t.emsUnit = s.emsUnit :=
  State.acceptDcb_emsUnit (some c) (exec_cmdInstr c d s ▸ h)

/-- No operation of the XTA window and no command touches the EMS unit. -/
theorem exec_xtaOp_emsUnit {i : Instr} (hop : xtaOp i = true) (h : exec i s = .next t) : t.emsUnit = s.emsUnit := by
  cases i with
  | xtaDataW v => exact State.onPort_emsUnit h (s.dataWrite_emsUnit v)
  | xtaDataR => exact State.onPort_emsUnit h s.dataRead_emsUnit
  | xtaResetW v => exact State.onPort_emsUnit h s.resetStrobe_emsUnit
  | xtaStatusR => exact State.onPort_emsUnit h rfl
  | xtaSelectW v => exact State.onPort_emsUnit h rfl
  | xtaJumpersR => exact State.onPort_emsUnit h rfl
  | xtaIntrW v => exact State.onPort_emsUnit h rfl
  | xtaPort3R => exact State.onPort_emsUnit h s.readAny_emsUnit
  | xtaCmdTestReady d => exact exec_cmdInstr_emsUnit (c := .testReady) h
  | xtaCmdRecalibrate d => exact exec_cmdInstr_emsUnit (c := .recalibrate) h
  | xtaCmdReadSense d => exact exec_cmdInstr_emsUnit (c := .readSense) h
  | xtaCmdFormatDrive d => exact exec_cmdInstr_emsUnit (c := .formatDrive) h
  | xtaCmdReadVerify d => exact exec_cmdInstr_emsUnit (c := .readVerify) h
  | xtaCmdFormatTrack d => exact exec_cmdInstr_emsUnit (c := .formatTrack) h
  | xtaCmdReadSectors d => exact exec_cmdInstr_emsUnit (c := .readSectors) h
  | xtaCmdWriteSectors d => exact exec_cmdInstr_emsUnit (c := .writeSectors) h
  | xtaCmdSeek d => exact exec_cmdInstr_emsUnit (c := .seek) h
  | xtaCmdSetDriveParams d => exact exec_cmdInstr_emsUnit (c := .setDriveParams) h
  | xtaCmdReadSectorBuffer d => exact exec_cmdInstr_emsUnit (c := .readSectorBuffer) h
  | xtaCmdWriteSectorBuffer d => exact exec_cmdInstr_emsUnit (c := .writeSectorBuffer) h
  | xtaCmdRamDiag d => exact exec_cmdInstr_emsUnit (c := .ramDiag) h
  | xtaCmdDriveDiag d => exact exec_cmdInstr_emsUnit (c := .driveDiag) h
  | xtaCmdCtrlDiag d => exact exec_cmdInstr_emsUnit (c := .ctrlDiag) h
  | xtaCmdIllegal op d => exact State.acceptDcb_emsUnit none h
  | emsPageW | emsPageR | chipIndexW | chipIndexR | emsCfgW | emsCfgR | chipDataW | chipDataR | emsMemR | emsMemW =>
    cases hop

/-! The ticks. -/

theorem State.dmaOutStep_emsUnit (s : State) : s.dmaOutStep.state.emsUnit = s.emsUnit :=
  Flow.andThen_emsUnit ((State.dmaOutBytes_emsUnit _ _).trans (s.drawChunk_emsUnit _)) fun u => u.endDmaStep_emsUnit _

theorem State.dmaInStep_emsUnit (s : State) : s.dmaInStep.state.emsUnit = s.emsUnit :=
  Flow.andThen_emsUnit ((State.dmaInBytes_emsUnit _ _).trans (s.drawChunk_emsUnit _)) fun u => u.endDmaStep_emsUnit _

theorem State.sendStep_emsUnit (s : State) : s.sendStep.state.emsUnit = s.emsUnit :=
  State.addressed_emsUnit (fun l u => Flow.andThen_emsUnit (k := fun w => .go (w.beginOut .secBuf 512))
    (u.diskRead_emsUnit u.d l) fun w => w.beginOut_emsUnit _ _) s

theorem State.verifyStep_emsUnit (s : State) : s.verifyStep.state.emsUnit = s.emsUnit :=
  State.addressed_emsUnit (fun _ _ => rfl) s

theorem State.verifyNext_emsUnit (s : State) : s.verifyNext.state.emsUnit = s.emsUnit := by
  cases h : s.cfg.verifyLoop with
  | sendTick => rw [State.verifyNext_sendTick h]; rfl
  | sameTick => rw [State.verifyNext_sameTick h, State.verifyStep_emsUnit]

theorem State.recvStep_emsUnit (s : State) : s.recvStep.state.emsUnit = s.emsUnit :=
  State.addressed_emsUnit (k := fun _ u => .go (u.beginIn .secBuf 512)) (fun _ u => u.beginIn_emsUnit _ _) s

theorem State.afterSector_emsUnit {next : State → Flow} (hnext : ∀ u, (next u).state.emsUnit = u.emsUnit) (s : State) :
    (s.afterSector next).state.emsUnit = s.emsUnit := by
  simp only [State.afterSector]
  split
  · exact State.complete_emsUnit _
  · exact (hnext _).trans (State.nextSector_emsUnit _ _)

theorem formatTrackSectors_emsUnit (xs : List (Nat × Nat)) (s : State) : (formatTrackSectors xs s).state.emsUnit = s.emsUnit := by
  induction xs generalizing s with
  | nil => exact s.complete_emsUnit
  | cons x xs ih =>
    unfold formatTrackSectors
    split
    · exact s.fail_emsUnit _
    · exact Flow.andThen_emsUnit (s.diskWrite_emsUnit _ _) ih

theorem tickFormatDrive_emsUnit (s : State) : (tickFormatDrive s).state.emsUnit = s.emsUnit := by
  refine Flow.andThen_emsUnit (Flow.forEach_emsUnit (fun c u => ?_) _ s) State.complete_emsUnit
  refine (Flow.forEach_emsUnit (fun h => ?_) _ _).trans (u.setCyl_emsUnit _ c)
  exact Flow.forEach_emsUnit (fun _ w => w.diskWrite_emsUnit _ _) _

/-- The actions of `quietTicks` leave the EMS unit. -/
theorem quietTicks_emsUnit {action : State → Flow} (h : action ∈ quietTicks) (s : State) :
    (action s).state.emsUnit = s.emsUnit := by
  simp only [quietTicks, List.mem_cons, List.not_mem_nil, or_false] at h
  rcases h with rfl | rfl | rfl | rfl | rfl | rfl | rfl | rfl | rfl
  · exact State.complete_emsUnit _
  · exact s.verifyStep_emsUnit
  · exact State.afterSector_emsUnit State.verifyNext_emsUnit s
  · exact s.sendStep_emsUnit
  · exact s.dmaOutStep_emsUnit
  · exact State.afterSector_emsUnit State.sendStep_emsUnit s
  · exact s.recvStep_emsUnit
  · exact s.dmaInStep_emsUnit
  · exact s.complete_emsUnit

/-- So do the four that set a geometry or write an image. -/
theorem mediaTicks_emsUnit {c : Option Cmd} {action : State → Flow} (h : (c, action) ∈ mediaTicks) (s : State) :
    (action s).state.emsUnit = s.emsUnit := by
  simp only [mediaTicks, List.mem_cons, List.not_mem_nil, or_false, Prod.mk.injEq] at h
  rcases h with ⟨-, rfl⟩ | ⟨-, rfl⟩ | ⟨-, rfl⟩ | ⟨-, rfl⟩
  · exact Flow.andThen_emsUnit (s.diskWrite_emsUnit _ _) (State.afterSector_emsUnit State.recvStep_emsUnit)
  · exact tickFormatDrive_emsUnit s
  · exact formatTrackSectors_emsUnit _ s
  · simp [tickSetDriveParams, Flow.state, State.emsUnit]

/-- No tick touches the EMS unit. -/
theorem State.fire_emsUnit (s : State) : s.fire.emsUnit = s.emsUnit := by
  simp only [State.fire]
  split
  · rename_i action haction
    rcases tickTable_cases haction with hquiet | ⟨-, -, hmedia⟩
    · exact quietTicks_emsUnit hquiet s.cancel
    · exact mediaTicks_emsUnit hmedia s.cancel
  · rfl

end Sys2Proof.Machine
end

section
/-! PROOFS. The mapping of the EMS pages (43_ems.md R262, R263, R266, R276). Each page is `Map` of its own byte; only the three
writes of the unit's registers change a page, the configuration or the index, and each leaves pages that are. -/

namespace Sys2Proof.Machine

variable {s t : State}

/-! `Map` (R262). -/

@[simp] theorem mapPage_cfg (p : Params) (v : Byte) : (mapPage p v).cfg = v := by
  unfold mapPage
  split <;> rfl

/-- The pages there are: where the RAM array ends below 640 KiB the subtraction of naturals gives none. -/
theorem emsPages_eq (p : Params) : emsPages p = (p.memSizeKib - 640) / 16 := by
  unfold emsPages
  split <;> omega

/-- The byte maps a page: its enable bit is set and the page it names exists. -/
abbrev mapsPage (p : Params) (v : Byte) : Prop := v &&& 0x80 ≠ 0 ∧ (v &&& 0x7F).toNat < (p.memSizeKib - 640) / 16

theorem mapsPage_iff (p : Params) (v : Byte) : mapsPage p v ↔ pageEnable v = true ∧ pageIndex v < emsPages p := by
  rw [pageEnable_iff, pageIndex_eq, emsPages_eq]

theorem mapPage_of_mapsPage {p : Params} {v : Byte} (h : mapsPage p v) :
    mapPage p v = { cfg := v, en := true, phys := 640 * 1024 + 16 * 1024 * (v &&& 0x7F).toNat } := by
  rw [← pageIndex_eq]
  exact if_pos ((mapsPage_iff p v).1 h)

theorem mapPage_of_not_mapsPage {p : Params} {v : Byte} (h : ¬ mapsPage p v) :
    mapPage p v = { cfg := v, en := false, phys := 0 } :=
  if_neg (mt (mapsPage_iff p v).2 h)

/-- A mapped page lies inside the RAM array. -/
theorem mapPage_lt {p : Params} {v : Byte} (h : mapsPage p v) : (mapPage p v).phys + 0x3FFF < p.memSizeKib * 1024 := by
  rw [mapPage_of_mapsPage h]
  obtain ⟨-, hindex⟩ := h
  show 640 * 1024 + 16 * 1024 * (v &&& 0x7F).toNat + 0x3FFF < p.memSizeKib * 1024
  omega

/-- Settles O19, by whether the byte maps a page. -/
theorem pageByteMapping : Obligations.PageByteMapping :=
  fun _ _ => ⟨fun h => ⟨mapPage_of_mapsPage h, mapPage_lt h⟩, mapPage_of_not_mapsPage⟩

/-! The invariant (R276). -/

/-- A page has the mapping its byte asks for exactly where it is `Map` of its byte. -/
theorem mapPage_eq_iff (p : Params) (q : EmsPage) : q = mapPage p q.cfg ↔
    if q.cfg.getLsbD 7 = true ∧ (q.cfg &&& 0x7F).toNat < emsPages p then
      q.en = true ∧ q.phys = 640 * 1024 + 16 * 1024 * (q.cfg &&& 0x7F).toNat
    else q.en = false ∧ q.phys = 0 := by
  rw [← pageIndex_eq]
  cases q with
  | mk v en phys =>
    unfold mapPage pageEnable
    split <;> simp

/-- What the invariant says: every page is `Map` of its own byte, the ports and the frame are those of the configuration byte. -/
theorem State.emsOk_iff : s.emsOk ↔ (∀ p : BitVec 2, s.ems.page p = mapPage s.cfg (s.ems.page p).cfg) ∧
    s.ems.portBase = emsPortBaseOf s.cfg s.ems.emsCfg ∧ s.ems.frameBase = 0xC0000 + 0x4000 * (s.ems.emsCfg &&& 0x0F).toNat := by
  simp only [State.emsOk, mapPage_eq_iff]

/-- The invariant is about the unit's registers and the parameters alone. -/
theorem State.emsOk.of_ems (hs : s.emsOk) (hems : t.ems = s.ems) (hcfg : t.cfg = s.cfg) : t.emsOk := by
  unfold State.emsOk
  rwa [hems, hcfg]

theorem State.emsOk.writePage (hs : s.emsOk) (slot : BitVec 2) (v : Byte) : (s.writePage slot v).emsOk := by
  obtain ⟨hpages, hregs⟩ := State.emsOk_iff.1 hs
  refine State.emsOk_iff.2 ⟨fun p => ?_, hregs⟩
  rw [State.writePage_page]
  split
  · exact congrArg _ (mapPage_cfg _ v).symm
  · exact hpages p

/-- The page that a reset or a configuration write leaves at every number. -/
theorem Ems.configured_page (p : Params) (v : Byte) (i : Option Byte) (q : BitVec 2) :
    (Ems.configured p v i).page q = ⟨0, false, 0⟩ := Vector.getElem_replicate q.isLt

theorem State.configureEms_emsOk (s : State) (v : Byte) : (s.configureEms v).emsOk := by
  refine State.emsOk_iff.2 ⟨fun p => ?_, rfl, rfl⟩
  rw [State.configureEms_ems, Ems.configured_page]
  exact (mapPage_of_not_mapsPage fun h => h.1 rfl).symm

/-! What an operation does to the registers of the unit. -/

/-- The writes of the unit's registers, each with the registers it leaves (R263, R265, R266). -/
inductive EmsWrite (s : State) : Instr → Ems → Prop where
  | page (slot : BitVec 2) (v : Byte) : EmsWrite s (.emsPageW slot v) (s.writePage slot v).ems
  | index (v : Byte) : EmsWrite s (.chipIndexW v) { s.ems with chipIndex := some v }
  | config (v : Byte) (i : Instr) (row : i ∈ [Instr.emsCfgW v, .chipDataW v]) : EmsWrite s i (s.configureEms v).ems

theorem State.readPage_ems (s : State) (slot : BitVec 2) : (s.readPage slot).ems = s.ems := by
  unfold State.readPage
  split
  · rfl
  · exact s.readAny_ems

theorem State.chipDataRead_ems (s : State) : s.chipDataRead.ems = s.ems := by
  unfold State.chipDataRead
  split
  · rfl
  · split
    · rfl
    · exact s.readAny_ems

theorem State.chipDataWrite_ems (s : State) (v : Byte) :
    (s.chipDataWrite v).ems = s.ems ∨ (s.chipDataWrite v).ems = (s.configureEms v).ems := by
  unfold State.chipDataWrite
  split
  · exact .inl rfl
  · split
    · exact .inr rfl
    · exact .inl rfl

theorem State.memReadBytes_frame {n a : Nat} {bs : List Byte} (h : State.memReadBytes n a s = .ok (bs, t)) :
    ∃ dr hist, t = { s with draws := dr, history := hist } := by
  induction n generalizing a s bs with
  | zero => cases h; exact ⟨_, _, rfl⟩
  | succ n ih =>
    simp only [State.memReadBytes] at h
    split at h
    · cases h
    next hbyte =>
      split at h
      · cases h
      next hbytes =>
        cases h
        obtain ⟨dr, hist, rfl⟩ := State.memReadByte_frame hbyte
        obtain ⟨dr', hist', rfl⟩ := ih hbytes
        exact ⟨dr', hist', rfl⟩

theorem State.memWriteBytes_frame {vs : List Byte} {a : Nat} (h : State.memWriteBytes vs a s = .ok t) :
    ∃ ram hist, t = { s with ram := ram, history := hist } := by
  induction vs generalizing a s with
  | nil => cases h; exact ⟨_, _, rfl⟩
  | cons v vs ih =>
    simp only [State.memWriteBytes] at h
    split at h
    · cases h
    next hbyte =>
      obtain ⟨ram, hist, rfl⟩ := ih h
      rcases State.memWriteByte_cases hbyte with rfl | rfl | ⟨x, -, rfl⟩ <;> exact ⟨_, _, rfl⟩

/-- What a read of bytes that answers is. -/
theorem State.memRead_next {a n : Nat} (h : s.memRead a n = .next t) :
    s.running ∧ ∃ (bs : List Byte) (w : State), State.memReadBytes n a s = .ok (bs, w) ∧ t = { w with result := bs } := by
  obtain ⟨hr, h⟩ := State.ifRunning_next.1 h
  refine ⟨hr, ?_⟩
  split at h
  · cases h
  next hbytes =>
    cases h
    exact ⟨_, _, hbytes, rfl⟩

theorem State.memWrite_next {a : Nat} {vs : List Byte} :
    s.memWrite a vs = .next t ↔ s.running ∧ State.memWriteBytes vs a s = .ok t := by
  unfold State.memWrite
  rw [State.ifRunning_next]
  cases State.memWriteBytes vs a s <;> simp

/-- Everything a memory read can do: it draws, records and answers. -/
theorem State.memRead_frame {a n : Nat} (h : s.memRead a n = .next t) :
    ∃ dr hist bs, t = { s with draws := dr, history := hist, result := bs } := by
  obtain ⟨-, bs, w, hbytes, rfl⟩ := State.memRead_next h
  obtain ⟨dr, hist, rfl⟩ := State.memReadBytes_frame hbytes
  exact ⟨dr, hist, bs, rfl⟩

/-- Everything a memory write can do: it stores and records. -/
theorem State.memWrite_frame {a : Nat} {vs : List Byte} (h : s.memWrite a vs = .next t) :
    ∃ ram hist, t = { s with ram := ram, history := hist } :=
  State.memWriteBytes_frame (State.memWrite_next.1 h).2

theorem State.memRead_ems {a n : Nat} (h : s.memRead a n = .next t) : t.ems = s.ems := by
  obtain ⟨dr, hist, bs, rfl⟩ := State.memRead_frame h
  rfl

theorem State.memWrite_ems {a : Nat} {vs : List Byte} (h : s.memWrite a vs = .next t) : t.ems = s.ems := by
  obtain ⟨ram, hist, rfl⟩ := State.memWrite_frame h
  rfl

/-- An access to a port is refused, which leaves the registers, or has its own effect. -/
theorem State.onPort_ems {r : PortReg} {k : State} (h : s.onPort r k = .next t) : t.ems = s.ems ∨ t.ems = k.ems := by
  obtain ⟨-, ⟨-, rfl⟩ | ⟨-, rfl⟩⟩ := State.onPort_next.1 h
  · exact .inl rfl
  · exact .inr rfl

/-- Either row of a write of the chipset data port leaves the registers or is the configuration write. -/
theorem execChipData_ems {i : Instr} {v : Byte} (row : i ∈ [Instr.emsCfgW v, .chipDataW v])
    (h : s.onPort .chipData (s.chipDataWrite v) = .next t) : t.ems = s.ems ∨ EmsWrite s i t.ems := by
  rcases State.onPort_ems h with hems | hems <;> rw [hems]
  · exact .inl rfl
  · exact (s.chipDataWrite_ems v).imp_right fun hwrite => by rw [hwrite]; exact .config v i row

/-- Every operation leaves the unit's registers, or is one of the writes of them. -/
theorem exec_ems_cases {i : Instr} (h : exec i s = .next t) : t.ems = s.ems ∨ EmsWrite s i t.ems := by
  cases hop : xtaOp i with
  | true => exact .inl (congrArg Prod.fst (exec_xtaOp_emsUnit hop h))
  | false =>
    cases i with
    | emsPageW slot v => exact (State.onPort_ems h).imp_right fun hems => by rw [hems]; exact .page slot v
    | emsPageR slot => exact .inl ((State.onPort_ems h).elim id (·.trans (s.readPage_ems slot)))
    | chipIndexW v => exact (State.onPort_ems h).imp_right fun hems => by rw [hems]; exact .index v
    | chipIndexR => exact .inl ((State.onPort_ems h).elim id (·.trans s.readAny_ems))
    | emsCfgW v => exact execChipData_ems (by simp) h
    | emsCfgR => exact .inl ((State.onPort_ems h).elim id (·.trans s.chipDataRead_ems))
    | chipDataW v => exact execChipData_ems (by simp) h
    | chipDataR => exact .inl ((State.onPort_ems h).elim id (·.trans s.chipDataRead_ems))
    | emsMemR a => exact .inl (State.memRead_ems h)
    | emsMemW a v => exact .inl (State.memWrite_ems h)
    | _ => cases hop

/-- A write of the unit's registers keeps the mapping what the bytes ask for. -/
theorem EmsWrite.emsOk {i : Instr} (hwrite : EmsWrite s i t.ems) (hs : s.emsOk) (hcfg : t.cfg = s.cfg) : t.emsOk := by
  generalize hems : t.ems = e at hwrite
  cases hwrite with
  | page slot v => exact (hs.writePage slot v).of_ems hems hcfg
  | index v => exact State.emsOk.of_ems (s := { s with ems := { s.ems with chipIndex := some v } }) hs hems hcfg
  | config v i row => exact (s.configureEms_emsOk v).of_ems hems hcfg

/-- Every step keeps the invariant: a tick leaves the unit, an operation leaves it or is one of its writes. -/
theorem step_emsOk (hs : s.emsOk) (h : step s = .next t) : t.emsOk := by
  have hcfg : t.cfg = s.cfg := (step_mediaStep h).cfg
  obtain ⟨u, ⟨rest, rfl⟩, -, hstep⟩ := step_cases h
  have hu : State.emsOk { s with inputs := rest } := hs
  rcases hstep with rfl | ⟨-, rfl⟩ | ⟨f, bytes, i, -, -, hexec⟩ | rfl | ⟨a, n, hread⟩ | ⟨a, vs, hwrite⟩
  · exact hu
  · exact hu.of_ems (congrArg Prod.fst (State.fire_emsUnit _)) hcfg
  · rcases exec_ems_cases hexec with hems | hwrite
    · exact hu.of_ems hems hcfg
    · exact hwrite.emsOk hu hcfg
  · exact hu
  · exact hu.of_ems (State.memRead_ems hread) hcfg
  · exact hu.of_ems (State.memWrite_ems hwrite) hcfg

/-! Translation (R270). -/

/-- An address that reaches the RAM array does so through an enabled page. -/
theorem State.translate_ram {a x : Nat} (h : s.translate a = .ram x) :
    ∃ j : BitVec 2, (s.ems.page j).en = true ∧ x = (s.ems.page j).phys + a % 0x4000 := by
  simp only [State.translate] at h
  split at h
  · split at h
    next hen =>
      cases h
      exact ⟨_, hen, rfl⟩
    · cases h
  · cases h

/-- Settles O53: the step keeps the mapping, and a page that is `Map` of its byte is expanded memory of the RAM array. -/
theorem emsMappingIsNeverStale : Obligations.EmsMappingIsNeverStale := by
  intro s t hs h
  have ht : t.emsOk := step_emsOk hs h
  refine ⟨ht, fun a x hx => ?_⟩
  obtain ⟨j, hen, rfl⟩ := State.translate_ram hx
  exact State.emsOk_bound ht hen (Nat.mod_lt a (by decide))

end Sys2Proof.Machine
end

section
/-! PROOFS. The page registers and the chipset ports (43_ems.md R261, R263 to R269). On a usable port an operation is its
register's own effect, and the effect has an equation for each case of the parameter or of the latched index. -/

namespace Sys2Proof.Machine

variable {s t : State}

/-! The page registers. -/

/-- Settles O20: the pages after the write are those of `State.writePage_page`. -/
theorem pageWriteSetsTheSwappedPage : Obligations.PageWriteSetsTheSwappedPage := by
  intro s slot v h
  refine ⟨s.writePage slot v, State.onPort_of_usable h _, fun q => ?_, rfl⟩
  rw [State.writePage_page, swapSlot_eq]

theorem State.readPage_of_raw (h : s.cfg.emsReadback = .raw) (slot : BitVec 2) :
    s.readPage slot = s.answer (s.ems.page (swapSlot slot)).cfg := by
  unfold State.readPage
  rw [h]

theorem State.readPage_of_any (h : s.cfg.emsReadback = .any) (slot : BitVec 2) : s.readPage slot = s.readAny := by
  unfold State.readPage
  rw [h]

/-- Settles O21, by the two values of the parameter. -/
theorem pageReadReturnsTheRawByte : Obligations.PageReadReturnsTheRawByte := by
  intro s slot h
  have hread : exec (.emsPageR slot) s = .next (s.readPage slot) := State.onPort_of_usable h _
  rw [hread]
  refine ⟨fun hraw => ?_, fun hany => ?_⟩
  · rw [State.readPage_of_raw hraw, swapSlot_eq]
    rfl
  · rw [State.readPage_of_any hany]
    exact s.readAny_readsAny

/-! The index port. -/

/-- Of the writes of the unit's registers one changes the index. -/
theorem EmsWrite.chipIndex {i : Instr} {e : Ems} (h : EmsWrite s i e) (hi : ∀ v : Byte, i ≠ .chipIndexW v) :
    e.chipIndex = s.ems.chipIndex := by
  cases h with
  | page slot v => rfl
  | index v => exact absurd rfl (hi v)
  | config v i row => rfl

/-- Settles O22: an operation leaves the unit's registers or is one of the writes of them. -/
theorem indexPortLatchesTheIndex : Obligations.IndexPortLatchesTheIndex := by
  intro s h
  refine ⟨fun v => State.onPort_of_usable h _, ?_, fun t i hi hexec => ?_⟩
  · have hread : exec .chipIndexR s = .next s.readAny := State.onPort_of_usable h _
    rw [hread]
    exact s.readAny_readsAny
  · rcases exec_ems_cases hexec with hems | hwrite
    · rw [hems]
    · exact hwrite.chipIndex hi

/-! The data port. -/

/-- Either row of a write of the data port is that access. -/
theorem exec_chipDataW_of_usable (h : s.usable .chipData) {v : Byte} {i : Instr} (hi : i ∈ [Instr.emsCfgW v, .chipDataW v]) :
    exec i s = .next (s.chipDataWrite v) := by
  simp only [List.mem_cons, List.not_mem_nil, or_false] at hi
  rcases hi with rfl | rfl <;> exact State.onPort_of_usable h _

/-- Either row of a read of the data port is that access. -/
theorem exec_chipDataR_of_usable (h : s.usable .chipData) {i : Instr} (hi : i ∈ [Instr.emsCfgR, .chipDataR]) :
    exec i s = .next s.chipDataRead := by
  simp only [List.mem_cons, List.not_mem_nil, or_false] at hi
  rcases hi with rfl | rfl <;> exact State.onPort_of_usable h _

theorem State.chipDataWrite_of_none (h : s.ems.chipIndex = none) (v : Byte) :
    s.chipDataWrite v = s.refuse .chipIndexUnwritten := by
  unfold State.chipDataWrite
  rw [h]

theorem State.chipDataWrite_of_config (h : s.ems.chipIndex = some s.cfg.emsCfgIndex) (v : Byte) :
    s.chipDataWrite v = s.configureEms v := by
  unfold State.chipDataWrite
  rw [h]
  exact if_pos rfl

theorem State.chipDataWrite_of_other {x : Byte} (h : s.ems.chipIndex = some x) (hx : x ≠ s.cfg.emsCfgIndex) (v : Byte) :
    s.chipDataWrite v = s := by
  unfold State.chipDataWrite
  rw [h]
  exact if_neg hx

theorem State.chipDataRead_of_none (h : s.ems.chipIndex = none) : s.chipDataRead = s.refuse .chipIndexUnwritten := by
  unfold State.chipDataRead
  rw [h]

theorem State.chipDataRead_of_config (h : s.ems.chipIndex = some s.cfg.emsCfgIndex) :
    s.chipDataRead = s.answer s.ems.emsCfg := by
  unfold State.chipDataRead
  rw [h]
  exact if_pos rfl

theorem State.chipDataRead_of_other {x : Byte} (h : s.ems.chipIndex = some x) (hx : x ≠ s.cfg.emsCfgIndex) :
    s.chipDataRead = s.readAny := by
  unfold State.chipDataRead
  rw [h]
  exact if_neg hx

/-- Settles O23: at the configuration index the port is the configuration register. -/
theorem configurationPortReachesTheEmsRegister : Obligations.ConfigurationPortReachesTheEmsRegister := by
  intro s h hindex
  refine ⟨fun v i hi => ?_, fun i hi => ?_⟩
  · rw [exec_chipDataW_of_usable h hi, State.chipDataWrite_of_config hindex]
    rfl
  · rw [exec_chipDataR_of_usable h hi, State.chipDataRead_of_config hindex]
    rfl

/-- Settles O24, by whether an index was written. -/
theorem dataPortAtOtherIndices : Obligations.DataPortAtOtherIndices := by
  intro s v h
  refine ⟨fun hnone i hi => ?_, fun x hindex hx => ⟨fun i hi => ?_, fun i hi => ?_⟩⟩
  · have hrow : i ∈ [Instr.emsCfgW v, .chipDataW v] ∨ i ∈ [Instr.emsCfgR, .chipDataR] := List.mem_append.1 hi
    rcases hrow with hw | hr
    · rw [exec_chipDataW_of_usable h hw, State.chipDataWrite_of_none hnone]
      rfl
    · rw [exec_chipDataR_of_usable h hr, State.chipDataRead_of_none hnone]
      rfl
  · rw [exec_chipDataW_of_usable h hi, State.chipDataWrite_of_other hindex hx]
  · rw [exec_chipDataR_of_usable h hi, State.chipDataRead_of_other hindex hx]
    exact s.readAny_readsAny

end Sys2Proof.Machine
end

section
/-! PROOFS. The byte accesses in the page frame (43_ems.md R270 to R273, R276). An access is that of one byte; what a byte's read and
write do is said once for each answer of the translation, and the translation once for an address in a window slot. -/

namespace Sys2Proof.Machine

variable {s t : State} {a : Nat}

/-! One byte, by the answer of the translation. -/

/-- The platform answers an access outside the frame, and one in a disabled slot where the parameter gives it on. -/
abbrev State.unclaimed (s : State) (a : Nat) : Prop :=
  s.translate a = .outside ∨ ∃ j, s.translate a = .disabled j ∧ s.cfg.disabledSlot = .fallthrough

theorem State.memReadByte_unclaimed (h : s.unclaimed a) : s.memReadByte a = .ok (s.drawPlatform a) := by
  unfold State.memReadByte
  rcases h with h | ⟨j, h, hslot⟩ <;> rw [h]
  simp only [hslot]

theorem State.memWriteByte_unclaimed (h : s.unclaimed a) (v : Byte) : s.memWriteByte a v = .ok s := by
  unfold State.memWriteByte
  rcases h with h | ⟨j, h, hslot⟩ <;> rw [h]
  simp only [hslot]

theorem State.memReadByte_allOnes {j : BitVec 2} (h : s.translate a = .disabled j) (hslot : s.cfg.disabledSlot = .emsAllOnes) :
    s.memReadByte a = .ok (0xFF, s.record (.disabledPageAccess a)) := by
  unfold State.memReadByte
  rw [h]
  simp only [hslot]

theorem State.memWriteByte_allOnes {j : BitVec 2} (h : s.translate a = .disabled j) (hslot : s.cfg.disabledSlot = .emsAllOnes)
    (v : Byte) : s.memWriteByte a v = .ok (s.record (.disabledPageAccess a)) := by
  unfold State.memWriteByte
  rw [h]
  simp only [hslot]

theorem State.memReadByte_ram {x : Nat} (h : s.translate a = .ram x) (hx : x < s.ramSize) :
    s.memReadByte a = .ok (Mem.load s.ram x, s) := by
  unfold State.memReadByte
  rw [h]
  exact if_pos hx

theorem State.memWriteByte_ram {x : Nat} (h : s.translate a = .ram x) (hx : x < s.ramSize) (v : Byte) :
    s.memWriteByte a v = .ok { s with ram := Mem.store s.ram x v } := by
  unfold State.memWriteByte
  rw [h]
  exact if_pos hx

/-- A byte of the RAM array is read as it was written. -/
theorem State.memReadByte_stored {x : Nat} (h : s.translate a = .ram x) (hx : x < s.ramSize) (v : Byte) :
    State.memReadByte { s with ram := Mem.store s.ram x v } a = .ok (v, { s with ram := Mem.store s.ram x v }) := by
  refine (State.memReadByte_ram (s := { s with ram := Mem.store s.ram x v }) h hx).trans ?_
  rw [Mem.load_store, if_pos rfl]

/-! An access of one byte. -/

theorem exec_emsMemR_of_running (h : s.running) {a : Addr} {b : Byte} (hread : s.memReadByte a.toNat = .ok (b, t)) :
    exec (.emsMemR a) s = .next { t with result := [b] } := by
  refine (State.ifRunning_of_running h _).trans ?_
  simp only [State.memReadBytes, hread]

theorem exec_emsMemW_of_running (h : s.running) {a : Addr} {v : Byte} (hwrite : s.memWriteByte a.toNat v = .ok t) :
    exec (.emsMemW a v) s = .next t := by
  refine (State.ifRunning_of_running h _).trans ?_
  simp only [State.memWriteBytes, hwrite]

/-- An unclaimed read answers a byte, and only the free inputs have moved. -/
theorem exec_emsMemR_unclaimed (h : s.running) {a : Addr} (hout : s.unclaimed a.toNat) :
    ∃ (b : Byte) (dr : Draws), exec (.emsMemR a) s = .next { s with result := [b], draws := dr } := by
  obtain ⟨b, dr, hdraw⟩ := s.drawPlatform_cases a.toNat
  exact ⟨b, dr, exec_emsMemR_of_running h (hdraw ▸ State.memReadByte_unclaimed hout)⟩

/-! The slots of the window. -/

theorem State.translate_enabled {a : Addr} {j : BitVec 2} (hlow : s.ems.frameBase + 0x4000 * j.toNat ≤ a.toNat)
    (hhigh : a.toNat < s.ems.frameBase + 0x4000 * j.toNat + 0x4000) (hen : (s.ems.page j).en = true) :
    s.translate a.toNat = .ram ((s.ems.page j).phys + a.toNat % 0x4000) := by
  rw [State.translate_slot a.isLt hlow hhigh, if_pos hen]

theorem State.translate_disabled {a : Addr} {j : BitVec 2} (hlow : s.ems.frameBase + 0x4000 * j.toNat ≤ a.toNat)
    (hhigh : a.toNat < s.ems.frameBase + 0x4000 * j.toNat + 0x4000) (hen : (s.ems.page j).en = false) :
    s.translate a.toNat = .disabled j := by
  rw [State.translate_slot a.isLt hlow hhigh, if_neg (Bool.eq_false_iff.1 hen)]

/-- Settles O25, by the answer of the translation. -/
theorem frameReadTranslates : Obligations.FrameReadTranslates := by
  intro s a j h
  refine ⟨fun hout => exec_emsMemR_unclaimed h (.inl (State.translate_outside hout)), fun hlow hhigh => ⟨fun hen hx => ?_,
    fun hen hslot => ?_, fun hen hslot => ?_⟩⟩
  · exact exec_emsMemR_of_running h (State.memReadByte_ram (State.translate_enabled hlow hhigh hen) hx)
  · exact exec_emsMemR_unclaimed h (.inr ⟨j, State.translate_disabled hlow hhigh hen, hslot⟩)
  · exact exec_emsMemR_of_running h (State.memReadByte_allOnes (State.translate_disabled hlow hhigh hen) hslot)

/-- Settles O26, by the answer of the translation. -/
theorem frameWriteTranslates : Obligations.FrameWriteTranslates := by
  intro s a v j h
  have unclaimed (hout : s.unclaimed a.toNat) : exec (.emsMemW a v) s = .next s :=
    exec_emsMemW_of_running h (State.memWriteByte_unclaimed hout v)
  refine ⟨fun hout => unclaimed (.inl (State.translate_outside hout)), fun hlow hhigh => ⟨fun hen hx => ?_,
    fun hen hslot => ?_, fun hen hslot => ?_⟩⟩
  · refine ⟨_, exec_emsMemW_of_running h (State.memWriteByte_ram (State.translate_enabled hlow hhigh hen) hx v), ?_, rfl⟩
    exact Mem.load_store s.ram _ v
  · exact unclaimed (.inr ⟨j, State.translate_disabled hlow hhigh hen, hslot⟩)
  · exact exec_emsMemW_of_running h (State.memWriteByte_allOnes (State.translate_disabled hlow hhigh hen) hslot v)

/-- Settles O27: both slots translate to one address of the RAM array, which the write stores and the read loads. -/
theorem aliasedSlotsShareTheirBytes : Obligations.AliasedSlotsShareTheirBytes := by
  intro s t a b v j k hs h halow hahigh hblow hbhigh hj hk hphys hoffset
  have hr : s.running := exec_running h
  have hx : (s.ems.page j).phys + a.toNat % 0x4000 < s.ramSize := (State.emsOk_bound hs hj (Nat.mod_lt _ (by decide))).2
  have ha : s.translate a.toNat = .ram ((s.ems.page j).phys + a.toNat % 0x4000) := State.translate_enabled halow hahigh hj
  have hb : s.translate b.toNat = .ram ((s.ems.page j).phys + a.toNat % 0x4000) := by
    rw [State.translate_enabled hblow hbhigh hk, hphys, hoffset]
  have ht : t = { s with ram := Mem.store s.ram ((s.ems.page j).phys + a.toNat % 0x4000) v } :=
    Host.Outcome.next.inj (h.symm.trans (exec_emsMemW_of_running hr (State.memWriteByte_ram ha hx v)))
  have hread : t.memReadByte b.toNat = .ok (v, t) := by rw [ht]; exact State.memReadByte_stored hb hx v
  exact exec_emsMemR_of_running (by rw [ht]; exact hr) hread

/-! What a page register controls. -/

/-- The translation looks at one page, that of the address's window slot. -/
theorem State.translate_congr {a : Nat} (hbase : t.ems.frameBase = s.ems.frameBase)
    (hpage : ∀ j : BitVec 2, s.ems.frameBase + 0x4000 * j.toNat ≤ a → a < s.ems.frameBase + 0x4000 * j.toNat + 0x4000 →
      t.ems.page j = s.ems.page j) : t.translate a = s.translate a := by
  by_cases hframe : (s.ems.frameBase ≤ a ∧ a < s.ems.frameBase + 0x10000) ∧ a < 0x100000
  · obtain ⟨⟨hlow, hhigh⟩, hlt⟩ := hframe
    have hj : (BitVec.ofNat 2 ((a - s.ems.frameBase) / 0x4000)).toNat = (a - s.ems.frameBase) / 0x4000 := by
      rw [BitVec.toNat_ofNat]
      omega
    generalize BitVec.ofNat 2 ((a - s.ems.frameBase) / 0x4000) = j at hj
    have hjlow : s.ems.frameBase + 0x4000 * j.toNat ≤ a := by omega
    have hjhigh : a < s.ems.frameBase + 0x4000 * j.toNat + 0x4000 := by omega
    rw [State.translate_slot hlt hjlow hjhigh, State.translate_slot hlt (hbase ▸ hjlow) (hbase ▸ hjhigh), hpage j hjlow hjhigh]
  · by_cases hlt : a < 0x100000
    · have hout : ¬ (s.ems.frameBase ≤ a ∧ a < s.ems.frameBase + 0x10000) := fun hin => hframe ⟨hin, hlt⟩
      rw [State.translate_outside hout, State.translate_outside (hbase ▸ hout)]
    · rw [State.translate_beyond (Nat.le_of_not_lt hlt), State.translate_beyond (Nat.le_of_not_lt hlt)]

theorem swapSlot_toNat (slot : BitVec 2) :
    (swapSlot slot).toNat = if slot = 1 then 2 else if slot = 2 then 1 else slot.toNat := by
  rw [swapSlot_eq]
  split
  · rfl
  · split <;> rfl

/-- Settles O28: the pages of the other slots are as before. -/
theorem pageWriteMovesOneWindowSlot : Obligations.PageWriteMovesOneWindowSlot := by
  intro s t slot v a hport h hslot
  rw [← swapSlot_toNat] at hslot
  have ht : t = s.writePage slot v :=
    Host.Outcome.next.inj (h.symm.trans (State.onPort_of_usable ⟨exec_running h, hport⟩ _))
  subst ht
  refine State.translate_congr rfl fun j hlow hhigh => ?_
  rw [State.writePage_page]
  refine if_neg fun hj => hslot ?_
  rw [← hj]
  exact ⟨hlow, hhigh⟩

end Sys2Proof.Machine
end

section
/-! PROOFS. Memory accesses of several bytes (43_ems.md R274, 20_memory.md R62, R65). An access is in two parts, one after the
other; the part from 0x100000 on reaches no slot. -/

namespace Sys2Proof.Machine

variable {s t u : State} {a : Nat}

/-! The parts of an access. -/

theorem State.memRead_eq_next {n : Nat} {bs : List Byte} (h : s.running) (hbytes : State.memReadBytes n a s = .ok (bs, t)) :
    s.memRead a n = .next { t with result := bs } := by
  refine (State.ifRunning_of_running h _).trans ?_
  rw [hbytes]

/-- A read of `n + m` bytes is the read of `n` and then of `m`, the bytes of both in order. -/
theorem State.memRead_add {n m : Nat} (h : s.memRead a n = .next t) (k : t.memRead (a + n) m = .next u) :
    s.memRead a (n + m) = .next { u with result := t.result ++ u.result } := by
  obtain ⟨hr, bs, w, hbs, rfl⟩ := State.memRead_next h
  obtain ⟨-, cs, x, hcs, rfl⟩ := State.memRead_next k
  rw [State.memReadBytes_result] at hcs
  cases hw : State.memReadBytes m (a + n) w with
  | error e => rw [hw] at hcs; cases hcs
  | ok p =>
    rw [hw] at hcs
    cases hcs
    refine (State.memRead_eq_next (t := p.2) (bs := bs ++ p.1) hr ?_).trans rfl
    rw [State.memReadBytes_add, hbs]
    simp only [hw]

/-- A write of bytes is the write of the first ones and then of the rest. -/
theorem State.memWrite_append {vs : List Byte} (h : s.memWrite a vs = .next t) (ws : List Byte) :
    s.memWrite a (vs ++ ws) = t.memWrite (a + vs.length) ws := by
  obtain ⟨hr, hbytes⟩ := State.memWrite_next.1 h
  have ht : t.running := by
    obtain ⟨ram, hist, rfl⟩ := State.memWriteBytes_frame hbytes
    exact hr
  unfold State.memWrite
  rw [State.ifRunning_of_running hr, State.ifRunning_of_running ht, State.memWriteBytes_append, hbytes]

/-- The bytes of a read from 0x100000 on come from outside, and only the free inputs have moved. -/
theorem State.memRead_beyond (h : s.running) (n : Nat) (ha : 0x100000 ≤ a) :
    ∃ (bs : List Byte) (dr : Draws), bs.length = n ∧ s.memRead a n = .next { s with result := bs, draws := dr } := by
  obtain ⟨bs, dr, hlen, hbytes⟩ := State.memReadBytes_beyond n ha s
  exact ⟨bs, dr, hlen, State.memRead_eq_next h hbytes⟩

/-- The bytes of a write from 0x100000 on change nothing, in a stopped machine as in a running one. -/
theorem State.memWrite_append_beyond (vs ws : List Byte) (ha : 0x100000 ≤ a + vs.length) (s : State) :
    s.memWrite a (vs ++ ws) = s.memWrite a vs := by
  unfold State.memWrite
  rw [State.memWriteBytes_append]
  cases State.memWriteBytes vs a s with
  | error e => rfl
  | ok t => simp only [State.memWriteBytes_beyond ws ha]

/-! The steps. -/

theorem littleEndian_add (k m w : Nat) : ∃ vs, littleEndian (k + m) w = littleEndian k w ++ vs :=
  ⟨_, (littleEndian_take (Nat.le_add_right k m) w ▸ List.take_append_drop k _).symm⟩

/-- A byte read returns one byte. -/
theorem exec_emsMemR_result {a : Addr} (h : exec (.emsMemR a) s = .next t) : ∃ b : Byte, t.result = [b] := by
  obtain ⟨-, bs, w, hbytes, rfl⟩ := State.memRead_next h
  simp only [State.memReadBytes] at hbytes
  split at hbytes <;> cases hbytes
  exact ⟨_, rfl⟩

theorem State.inputs_self {rest : List Input} (h : s.inputs = rest) : { s with inputs := rest } = s := by
  subst h
  rfl

/-- The address after one below 0x100000, where an access goes on there. -/
theorem addr_succ_toNat {a : Addr} {n : Nat} (h : a.toNat + (n + 1) < 0x100000) : (a + 1).toNat = a.toNat + 1 := by
  rw [BitVec.toNat_add]
  exact Nat.mod_eq_of_lt (show a.toNat + 1 < 2 ^ 20 by omega)

theorem State.memRead_succ_address {a : Addr} {n : Nat} (h : a.toNat + n < 0x100000) (s : State) :
    s.memRead (a + 1).toNat n = s.memRead (a.toNat + 1) n := by
  cases n with
  | zero => rfl
  | succ n => rw [addr_succ_toNat h]

theorem State.memWrite_succ_address {a : Addr} {n : Nat} (h : a.toNat + n < 0x100000) (w : Nat) (s : State) :
    s.memWrite (a + 1).toNat (littleEndian n w) = s.memWrite (a.toNat + 1) (littleEndian n w) := by
  cases n with
  | zero => rfl
  | succ n => rw [addr_succ_toNat h]

/-- A longer write is that of its first byte and then the rest. -/
theorem step_memWriteWide_succ {a : Addr} {n w : Nat} {rest : List Input} (ha : a.toNat + n < 0x100000) (hrest : s.inputs = rest)
    (h : exec (.emsMemW a (BitVec.ofNat 8 w)) s = .next t) :
    step { s with inputs := .memWriteWide a (n + 1) w :: rest } =
      step { t with inputs := .memWriteWide (a + 1) n (w / 0x100) :: rest } := by
  have ht : t.inputs = rest := by
    obtain ⟨ram, hist, rfl⟩ := State.memWrite_frame h
    exact hrest
  rw [step_memWriteWide, step_memWriteWide, State.inputs_self hrest, State.inputs_self ht, State.memWrite_succ_address ha]
  exact State.memWrite_append h _

/-- A longer read is that of its first byte and then the rest. -/
theorem step_memReadWide_succ {a : Addr} {n : Nat} {rest : List Input} (ha : a.toNat + n < 0x100000) (hrest : s.inputs = rest)
    (h : exec (.emsMemR a) s = .next t) (hu : step { t with inputs := .memReadWide (a + 1) n :: rest } = .next u) :
    step { s with inputs := .memReadWide a (n + 1) :: rest } = .next { u with result := t.result ++ u.result } := by
  have ht : t.inputs = rest := by
    obtain ⟨dr, hist, bs, rfl⟩ := State.memRead_frame h
    exact hrest
  rw [step_memReadWide, State.inputs_self ht, State.memRead_succ_address ha] at hu
  rw [step_memReadWide, State.inputs_self hrest, Nat.add_comm n 1]
  exact State.memRead_add h hu

/-- The bytes of a read that lie beyond the last address follow the others. -/
theorem step_memReadWide_beyond {a : Addr} {n : Nat} {rest : List Input} (ha : 0x100000 ≤ a.toNat + n)
    (h : step { s with inputs := .memReadWide a (0x100000 - a.toNat) :: rest } = .next t) :
    ∃ (bs : List Byte) (dr : Draws), bs.length = a.toNat + n - 0x100000 ∧
      step { s with inputs := .memReadWide a n :: rest } = .next { t with result := t.result ++ bs, draws := dr } := by
  have hlt : a.toNat < 0x100000 := a.isLt
  rw [step_memReadWide] at h
  have ht : t.running := by
    obtain ⟨dr, hist, bs, rfl⟩ := State.memRead_frame h
    exact (State.ifRunning_next.1 h).1
  have hend : 0x100000 ≤ a.toNat + (0x100000 - a.toNat) := by omega
  obtain ⟨bs, dr, hlen, hread⟩ := State.memRead_beyond ht (a.toNat + n - 0x100000) hend
  have hn : n = (0x100000 - a.toNat) + (a.toNat + n - 0x100000) := by omega
  refine ⟨bs, dr, hlen, ?_⟩
  rw [step_memReadWide, hn]
  exact State.memRead_add h hread

/-- A write ends at the last address. -/
theorem step_memWriteWide_beyond {a : Addr} {n : Nat} (ha : 0x100000 ≤ a.toNat + n) (w : Nat) (rest : List Input) (s : State) :
    step { s with inputs := .memWriteWide a n w :: rest } =
      step { s with inputs := .memWriteWide a (0x100000 - a.toNat) w :: rest } := by
  obtain ⟨vs, hvs⟩ := littleEndian_add (0x100000 - a.toNat) (a.toNat + n - 0x100000) w
  have hlt : a.toNat < 0x100000 := a.isLt
  rw [show (0x100000 - a.toNat) + (a.toNat + n - 0x100000) = n by omega] at hvs
  rw [step_memWriteWide, step_memWriteWide, hvs]
  exact State.memWrite_append_beyond _ _ (by rw [littleEndian_length]; omega) _

/-- Settles O29: the access of one byte, the longer one, and the bytes beyond the last address. -/
theorem wideAccessIsTheByteAccesses : Obligations.WideAccessIsTheByteAccesses := by
  refine ⟨fun s t a w rest => ⟨step_memWriteWide _ _ _ _ _, step_memReadWide _ _ _ _, fun h => ?_⟩,
    fun s t a n w rest ha hrest h => step_memWriteWide_succ ha hrest h, fun s t u a n rest ha hrest h hu => ?_,
    fun s a n w rest ha => step_memWriteWide_beyond ha w rest s, fun s t a n rest ha h => step_memReadWide_beyond ha h⟩
  · obtain ⟨b, hb⟩ := exec_emsMemR_result h
    refine ⟨b, hb, ?_⟩
    rw [State.readValue, hb]
    rfl
  · refine ⟨_, step_memReadWide_succ ha hrest h hu, rfl, ?_⟩
    obtain ⟨b, hb⟩ := exec_emsMemR_result h
    simp only [State.readValue, hb]
    rfl

end Sys2Proof.Machine
end

section
/-! PROOFS. What an operation does to the interrupt line and to the fault of a tick that the tick table does not list
(60_exceptions.md R305, R306): one relation between the states before and after. Every start action and every access to a register
or to memory is in it. -/

namespace Sys2Proof.Machine

variable {s t u : State}

/-- The part of the state that the interrupt line and the recorded fault depend on: the parameters and the enables, which a
completion looks at, the status byte, and the fault. -/
def State.signals (s : State) : Params × Byte × Byte × Option ModelFaultReason := (s.cfg, s.xta.intr, s.xta.status, s.mfault)

/-- A completion with IRQ_ENA set before it, its interrupt the latest event (41_xta_engine.md R180). -/
def State.raisesIrq (s t : State) : Prop :=
  t.xta.xst = .compl ∧ s.xta.intr &&& s.cfg.irqEna ≠ 0 ∧ ∃ h : List Event, t.history = .irqRaise s.cfg.xtaIrq :: h

/-- A move of the exceptions: the line is high only where it was, or by such a completion, and no tick was found unlisted. -/
structure ExceptionStep (s t : State) : Prop where
  line : t.irqOutput = true → s.irqOutput = true ∨ s.raisesIrq t
  fault : t.mfault = some .unreachableTick → s.mfault = some .unreachableTick

theorem ExceptionStep.of_signals (h : t.signals = s.signals) : ExceptionStep s t := by
  simp only [State.signals, Prod.mk.injEq] at h
  obtain ⟨-, -, hstatus, hfault⟩ := h
  refine ⟨fun hline => .inl ?_, fun hreason => hfault ▸ hreason⟩
  rwa [State.irqOutput, hstatus] at hline

/-- A routine that ends with a status that does not request an interrupt. -/
theorem ExceptionStep.of_low (v : Byte) (hlow : v.getLsbD 5 = false) (hstatus : t.xta.status = v)
    (hfault : t.mfault = s.mfault) : ExceptionStep s t where
  line hline := by
    rw [State.irqOutput, hstatus, hlow] at hline
    cases hline
  fault hreason := hfault ▸ hreason

/-- A move after what leaves the line, the fault, and what a completion looks at. -/
theorem ExceptionStep.after (h : ExceptionStep t u) (ht : t.signals = s.signals) : ExceptionStep s u := by
  have hst : ExceptionStep s t := .of_signals ht
  simp only [State.signals, Prod.mk.injEq] at ht
  obtain ⟨hcfg, hintr, hstatus, -⟩ := ht
  refine ⟨fun hline => ?_, fun hreason => hst.fault (h.fault hreason)⟩
  simpa only [State.irqOutput, State.raisesIrq, hcfg, hintr, hstatus] using h.line hline

/-! The completion and the stops. -/

theorem completed_exceptionStep (s : State) : ExceptionStep s (completed s) := by
  refine ⟨fun hline => .inr ?_, id⟩
  by_cases hirq : s.xta.intr &&& s.cfg.irqEna ≠ 0
  · exact ⟨rfl, hirq, s.history, if_pos hirq⟩
  · have hstatus : (completed s).xta.status = 0x0E := if_neg hirq
    rw [State.irqOutput, hstatus] at hline
    cases hline

theorem State.complete_exceptionStep (s : State) : ExceptionStep s s.complete :=
  s.complete_eq ▸ completed_exceptionStep s

theorem State.fail_exceptionStep (s : State) (code : Byte) : ExceptionStep s (s.fail code) :=
  (State.complete_exceptionStep _).after rfl

/-- A fault of a disk access or of a cell that was never written. -/
theorem State.raiseModelFault_exceptionStep (s : State) {r : ModelFaultReason} (h : r ≠ .unreachableTick) :
    ExceptionStep s (s.raiseModelFault r) :=
  ⟨.inl, fun hreason => absurd (Option.some.inj hreason) h⟩

/-! Data phases and waits. -/

theorem State.await_exceptionStep (s : State) (x : Xst) : ExceptionStep s (s.await x) :=
  .of_low Status.executing (by decide) rfl rfl

theorem State.beginOut_exceptionStep (s : State) (tgt : Target) (len : Nat) : ExceptionStep s (s.beginOut tgt len) := by
  unfold State.beginOut
  split
  · exact .of_low Status.dmaOut (by decide) rfl rfl
  · exact .of_low Status.pioOut (by decide) rfl rfl

theorem State.beginIn_exceptionStep (s : State) (tgt : Target) (len : Nat) : ExceptionStep s (s.beginIn tgt len) := by
  unfold State.beginIn
  split
  · exact .of_low Status.dmaIn (by decide) rfl rfl
  · exact .of_low Status.pioIn (by decide) rfl rfl

theorem State.endDmaStep_exceptionStep (s : State) (x : Xst) : ExceptionStep s (s.endDmaStep x) := by
  unfold State.endDmaStep
  split
  · exact .of_low Status.executing (by decide) rfl rfl
  · exact .of_signals rfl

/-! Start actions. -/

theorem State.checkPresent_exceptionStep {k : State → State} (hk : ∀ u, ExceptionStep u (k u)) (s : State) :
    ExceptionStep s (s.checkPresent k) := by
  unfold State.checkPresent
  split
  · exact hk s
  · exact s.fail_exceptionStep _

theorem State.loadAndSeek_signals (s : State) : s.loadAndSeek.signals = s.signals := by
  simp [State.loadAndSeek, State.doSeek, State.signals]

theorem startSeek_exceptionStep (s : State) : ExceptionStep s (startSeek s) := by
  unfold startSeek
  refine State.checkPresent_exceptionStep (fun u => ?_) s
  simp only
  split
  · exact (State.complete_exceptionStep _).after u.loadAndSeek_signals
  · exact (State.fail_exceptionStep _ _).after u.loadAndSeek_signals

theorem startOf_exceptionStep (c : Option Cmd) (s : State) : ExceptionStep s (startOf c s) := by
  have await (x : Xst) : ExceptionStep s (s.checkPresent fun u => u.await x) :=
    State.checkPresent_exceptionStep (fun u => u.await_exceptionStep x) s
  have seekAwait (x : Xst) : ExceptionStep s (s.checkPresent fun u => u.loadAndSeek.await x) :=
    State.checkPresent_exceptionStep (fun u => (u.loadAndSeek.await_exceptionStep x).after u.loadAndSeek_signals) s
  cases c with
  | none => exact s.fail_exceptionStep _
  | some c =>
    cases c with
    | testReady => exact s.checkPresent_exceptionStep State.complete_exceptionStep
    | recalibrate =>
      exact s.checkPresent_exceptionStep fun u => (u.setCyl u.d 0).complete_exceptionStep.after (by simp [State.signals])
    | readSense => exact (State.beginOut_exceptionStep _ .senseBuf 4).after (s := s) rfl
    | formatDrive => exact await .rdone
    | readVerify => exact seekAwait .send
    | formatTrack => exact seekAwait .rdone
    | readSectors => exact seekAwait .send
    | writeSectors => exact seekAwait .recv
    | seek => exact startSeek_exceptionStep s
    | setDriveParams => exact s.beginIn_exceptionStep .paramBuf 8
    | readSectorBuffer => exact s.beginOut_exceptionStep .secBuf 512
    | writeSectorBuffer => exact s.beginIn_exceptionStep .secBuf 512
    | ramDiag => exact s.await_exceptionStep .rdone
    | driveDiag => exact await .rdone
    | ctrlDiag => exact s.await_exceptionStep .rdone

/-- The dispatcher's entry lowers the line (R172). -/
theorem State.dispatchEntry_irqOutput (s : State) : s.dispatchEntry.irqOutput = false :=
  (by decide : Status.executing.getLsbD 5 = false)

theorem State.dcbComplete_exceptionStep (c : Option Cmd) (s : State) : ExceptionStep s (s.dcbComplete (startOf c)) := by
  unfold State.dcbComplete
  split
  · exact .of_signals rfl
  · have hstart := startOf_exceptionStep c s.dispatchEntry
    exact ⟨fun hline => .inr ((hstart.line hline).resolve_left (by simp [State.dispatchEntry_irqOutput])), hstart.fault⟩

/-! Accesses to the registers. -/

theorem State.storePhaseByte_signals (s : State) (v : Byte) : (s.storePhaseByte v).signals = s.signals := by
  unfold State.storePhaseByte
  split <;> rfl

theorem State.dataWrite_exceptionStep (s : State) (v : Byte) : ExceptionStep s (s.dataWrite v) := by
  unfold State.dataWrite
  split
  · refine .after (t := (s.storePhaseByte v).advance) ?_ (s.storePhaseByte_signals v)
    unfold State.afterPhaseByte
    split
    · split
      · exact State.dcbComplete_exceptionStep _ _
      · exact State.await_exceptionStep _ _
    · exact .of_signals rfl
  · exact .of_signals rfl

theorem State.readAny_signals (s : State) : s.readAny.signals = s.signals := by simp [State.signals]

theorem State.afterPhaseRead_exceptionStep (s : State) (r : Byte) : ExceptionStep s (s.afterPhaseRead r) := by
  simp only [State.afterPhaseRead]
  split
  · exact .of_low Status.executing (by decide) rfl rfl
  · exact .of_signals rfl

theorem State.dataRead_exceptionStep (s : State) : ExceptionStep s s.dataRead := by
  have hviolating : ExceptionStep s s.violatingRead := .of_signals (s.protocolViolation .read).readAny_signals
  unfold State.dataRead
  split
  · exact .of_low Status.idle (by decide) rfl rfl
  split
  · split
    · exact s.afterPhaseRead_exceptionStep _
    · split
      · exact s.raiseModelFault_exceptionStep (by decide)
      · exact s.afterPhaseRead_exceptionStep _
    all_goals exact hviolating
  · exact hviolating

theorem State.writeReg_exceptionStep (s : State) (v : Byte) (r : PortReg) : ExceptionStep s (s.writeReg v r) := by
  cases r with
  | data => exact s.dataWrite_exceptionStep v
  | status => exact .of_low Status.idle (by decide) s.resetStrobe_xta_status s.resetStrobe_mfault
  | select => exact .of_low Status.reception (by decide) rfl rfl
  | intr => exact ⟨.inl, id⟩
  | page slot => exact .of_signals rfl
  | chipIndex => exact .of_signals rfl
  | chipData =>
    simp only [State.writeReg, State.chipDataWrite]
    split
    · exact .of_signals rfl
    · split <;> exact .of_signals rfl

theorem State.readReg_exceptionStep (s : State) (r : PortReg) : ExceptionStep s (s.readReg r) := by
  cases r with
  | data => exact s.dataRead_exceptionStep
  | status => exact .of_signals rfl
  | select => exact .of_signals rfl
  | intr => exact .of_signals s.readAny_signals
  | page slot =>
    simp only [State.readReg, State.readPage]
    split
    · exact .of_signals rfl
    · exact .of_signals s.readAny_signals
  | chipIndex => exact .of_signals s.readAny_signals
  | chipData =>
    simp only [State.readReg, State.chipDataRead]
    split
    · exact .of_signals rfl
    · split
      · exact .of_signals rfl
      · exact .of_signals s.readAny_signals

theorem State.onPort_exceptionStep {r : PortReg} {k : State} (h : s.onPort r k = .next t) (hk : ExceptionStep s k) :
    ExceptionStep s t := by
  obtain ⟨-, ⟨-, rfl⟩ | ⟨-, rfl⟩⟩ := State.onPort_next.1 h
  · exact .of_signals rfl
  · exact hk

theorem State.memRead_exceptionStep {a n : Nat} (h : s.memRead a n = .next t) : ExceptionStep s t := by
  obtain ⟨dr, hist, bs, rfl⟩ := State.memRead_frame h
  exact .of_signals rfl

theorem State.memWrite_exceptionStep {a : Nat} {vs : List Byte} (h : s.memWrite a vs = .next t) : ExceptionStep s t := by
  obtain ⟨ram, hist, rfl⟩ := State.memWrite_frame h
  exact .of_signals rfl

end Sys2Proof.Machine
end

section
/-! PROOFS. What a tick and a step do to the interrupt line and to the fault of an unlisted tick (60_exceptions.md R305, R306,
42_xta_commands.md R226): every action of the tick table is in the relation, and so is every step but a tick with no row, which no
state of the graph has. -/

namespace Sys2Proof.Machine

variable {s t : State}

/-! Tick actions. -/

/-- A routine before the end of a tick: it goes on with the line, the fault and what a completion looks at as they were, or it
stops the machine by a move of the exceptions. -/
def Flow.quietFrom (s : State) : Flow → Prop
  | .go t => t.signals = s.signals
  | .halt t => ExceptionStep s t

theorem Flow.quietFrom.andThen {f : Flow} {k : State → Flow} (h : f.quietFrom s) (hk : ∀ u, ExceptionStep u (k u).state) :
    ExceptionStep s (f.andThen k).state := by
  cases f with
  | go u => exact (hk u).after h
  | halt u => exact h

theorem Flow.quietFrom.trans {f : Flow} (h : f.quietFrom t) (ht : t.signals = s.signals) : f.quietFrom s := by
  cases f with
  | go u => exact Eq.trans h ht
  | halt u => exact ExceptionStep.after h ht

theorem Flow.forEach_quietFrom {α : Type} {body : α → State → Flow} (h : ∀ a u, (body a u).quietFrom u) (as : List α)
    (s : State) : (Flow.forEach body as s).quietFrom s := by
  induction as generalizing s with
  | nil => exact rfl
  | cons a as ih =>
    have ha := h a s
    simp only [Flow.forEach]
    cases hbody : body a s with
    | go u => exact (ih u).trans (hbody ▸ ha :)
    | halt u => exact (hbody ▸ ha :)

theorem State.diskRead_quietFrom (s : State) (d : Bool) (lba : Nat) : (s.diskRead d lba).quietFrom s := by
  rcases s.diskRead_cases d lba with ⟨-, h⟩ | ⟨-, h⟩ <;> rw [h]
  · simp only [Flow.quietFrom, State.signals]
  · exact s.raiseModelFault_exceptionStep (by decide)

theorem State.diskWrite_quietFrom (s : State) (d : Bool) (lba : Nat) : (s.diskWrite d lba).quietFrom s := by
  rcases s.diskWrite_cases d lba with h | h | ⟨bs, -, -, -, h⟩ <;> rw [h]
  · exact s.raiseModelFault_exceptionStep (by decide)
  · exact s.raiseModelFault_exceptionStep (by decide)
  · simp [Flow.quietFrom, State.signals]

theorem State.dmaOutBytes_quietFrom (k : Nat) (s : State) : (s.dmaOutBytes k).quietFrom s := by
  cases h : s.dmaOutBytes k with
  | go t =>
    obtain ⟨dr, hist, rfl⟩ := State.dmaOutBytes_go h
    exact rfl
  | halt t =>
    obtain ⟨dr, hist, n, -, rfl | rfl⟩ := State.dmaOutBytes_halt h
    · exact (State.raiseModelFault_exceptionStep _ (by decide)).after rfl
    · exact ExceptionStep.of_signals rfl

theorem State.dmaInBytes_quietFrom (k : Nat) (s : State) : (s.dmaInBytes k).quietFrom s := by
  cases h : s.dmaInBytes k with
  | go t =>
    obtain ⟨dr, hist, buf, rfl⟩ := State.dmaInBytes_go h
    exact rfl
  | halt t =>
    obtain ⟨dr, hist, buf, n, -, rfl⟩ := State.dmaInBytes_halt h
    exact ExceptionStep.of_signals rfl

theorem State.drawChunk_signals (s : State) (n : Nat) : (s.drawChunk n).2.signals = s.signals := by simp [State.signals]

theorem State.dmaOutStep_exceptionStep (s : State) : ExceptionStep s s.dmaOutStep.state :=
  ((State.dmaOutBytes_quietFrom _ _).trans (s.drawChunk_signals _)).andThen fun u => u.endDmaStep_exceptionStep _

theorem State.dmaInStep_exceptionStep (s : State) : ExceptionStep s s.dmaInStep.state :=
  ((State.dmaInBytes_quietFrom _ _).trans (s.drawChunk_signals _)).andThen fun u => u.endDmaStep_exceptionStep _

/-- An address check that fails is a completion with an error. -/
theorem State.addressed_exceptionStep {k : Nat → State → Flow} (hk : ∀ l u, ExceptionStep u (k l u).state) (s : State) :
    ExceptionStep s (s.addressed k).state := by
  by_cases h : s.addressOk
  · rw [State.addressed_ok h]
    exact (hk _ _).after rfl
  · rw [State.addressed_bad h]
    exact s.fail_exceptionStep _

theorem State.sendStep_exceptionStep (s : State) : ExceptionStep s s.sendStep.state :=
  State.addressed_exceptionStep
    (fun l u => (u.diskRead_quietFrom u.d l).andThen (k := fun w => .go (w.beginOut .secBuf 512))
      fun w => w.beginOut_exceptionStep _ _) s

theorem State.verifyStep_exceptionStep (s : State) : ExceptionStep s s.verifyStep.state :=
  State.addressed_exceptionStep (k := fun _ u => .go (u.await .sdone)) (fun _ u => u.await_exceptionStep _) s

theorem State.verifyNext_exceptionStep (s : State) : ExceptionStep s s.verifyNext.state := by
  cases h : s.cfg.verifyLoop with
  | sendTick =>
    rw [State.verifyNext_sendTick h]
    exact .of_low Status.executing (by decide) rfl rfl
  | sameTick =>
    rw [State.verifyNext_sameTick h]
    exact s.verifyStep_exceptionStep

theorem State.recvStep_exceptionStep (s : State) : ExceptionStep s s.recvStep.state :=
  State.addressed_exceptionStep (k := fun _ u => .go (u.beginIn .secBuf 512)) (fun _ u => u.beginIn_exceptionStep _ _) s

theorem State.afterSector_exceptionStep {next : State → Flow} (hnext : ∀ u, ExceptionStep u (next u).state) (s : State) :
    ExceptionStep s (s.afterSector next).state := by
  simp only [State.afterSector]
  split
  · exact (State.complete_exceptionStep _).after rfl
  · exact (hnext _).after (by simp [State.signals])

theorem formatTrackSectors_exceptionStep (xs : List (Nat × Nat)) (s : State) :
    ExceptionStep s (formatTrackSectors xs s).state := by
  induction xs generalizing s with
  | nil => exact s.complete_exceptionStep
  | cons x xs ih =>
    unfold formatTrackSectors
    split
    · exact s.fail_exceptionStep _
    · exact (s.diskWrite_quietFrom _ _).andThen ih

theorem tickFormatDrive_exceptionStep (s : State) : ExceptionStep s (tickFormatDrive s).state := by
  refine (Flow.forEach_quietFrom (fun c u => ?_) _ s).andThen State.complete_exceptionStep
  refine (Flow.forEach_quietFrom (fun h => ?_) _ _).trans (t := u.setCyl s.d c) (by simp [State.signals])
  exact Flow.forEach_quietFrom (fun _ w => w.diskWrite_quietFrom _ _) _

theorem quietTicks_exceptionStep {action : State → Flow} (h : action ∈ quietTicks) (s : State) :
    ExceptionStep s (action s).state := by
  simp only [quietTicks, List.mem_cons, List.not_mem_nil, or_false] at h
  rcases h with rfl | rfl | rfl | rfl | rfl | rfl | rfl | rfl | rfl
  · exact (State.complete_exceptionStep _).after rfl
  · exact s.verifyStep_exceptionStep
  · exact State.afterSector_exceptionStep State.verifyNext_exceptionStep s
  · exact s.sendStep_exceptionStep
  · exact s.dmaOutStep_exceptionStep
  · exact State.afterSector_exceptionStep State.sendStep_exceptionStep s
  · exact s.recvStep_exceptionStep
  · exact s.dmaInStep_exceptionStep
  · exact s.complete_exceptionStep

theorem mediaTicks_exceptionStep {c : Option Cmd} {action : State → Flow} (h : (c, action) ∈ mediaTicks) (s : State) :
    ExceptionStep s (action s).state := by
  simp only [mediaTicks, List.mem_cons, List.not_mem_nil, or_false, Prod.mk.injEq] at h
  rcases h with ⟨-, rfl⟩ | ⟨-, rfl⟩ | ⟨-, rfl⟩ | ⟨-, rfl⟩
  · exact (s.diskWrite_quietFrom _ _).andThen (State.afterSector_exceptionStep State.recvStep_exceptionStep)
  · exact tickFormatDrive_exceptionStep s
  · exact formatTrackSectors_exceptionStep _ s
  · exact (State.complete_exceptionStep _).after (by simp [State.signals])

/-! The step. -/

/-- The tick table has no row for the command, the state and the kind of phase (R226). -/
abbrev State.tickUnlisted (s : State) : Prop := tickTable s.command s.xta.xst s.xta.xferDma = none

/-- A tick is a move of the exceptions, or it has no row and leaves the line. -/
theorem State.fire_exceptionStep (s : State) :
    ExceptionStep s s.fire ∨ (s.tickUnlisted ∧ s.fire.irqOutput = s.irqOutput) := by
  simp only [State.fire]
  split
  next action haction =>
    refine .inl (.after (t := s.cancel) ?_ rfl)
    rcases tickTable_cases haction with hquiet | ⟨-, -, hmedia⟩
    · exact quietTicks_exceptionStep hquiet _
    · exact mediaTicks_exceptionStep hmedia _
  next hnone => exact .inr ⟨hnone, rfl⟩

/-- So is a step. -/
theorem step_exceptionStep (h : step s = .next t) :
    ExceptionStep s t ∨ (s.xta.pending = true ∧ s.tickUnlisted ∧ t.irqOutput = s.irqOutput) := by
  obtain ⟨u, ⟨rest, rfl⟩, -, hstep⟩ := step_cases h
  rcases hstep with rfl | ⟨⟨rest', hdue, -⟩, rfl⟩ | ⟨f, bytes, i, hf, hdecode, hexec⟩ | rfl | ⟨a, n, hread⟩ |
    ⟨a, vs, hwrite⟩
  · exact .inl (.of_signals rfl)
  · rcases State.fire_exceptionStep { s with inputs := rest } with hfire | hunlisted
    · exact .inl (hfire.after rfl)
    · exact .inr ⟨hdue.2.1, hunlisted⟩
  · refine .inl (.after (t := { s with inputs := rest }) ?_ rfl)
    rcases exec_of_decode hf hdecode hexec with ⟨r, v, hport⟩ | ⟨r, hport⟩ | ⟨a, n, hread⟩ | ⟨a, vs, hwrite⟩
    · exact State.onPort_exceptionStep hport (State.writeReg_exceptionStep _ v r)
    · exact State.onPort_exceptionStep hport (State.readReg_exceptionStep _ r)
    · exact State.memRead_exceptionStep hread
    · exact State.memWrite_exceptionStep hwrite
  · exact .inl (.of_signals rfl)
  · exact .inl ((State.memRead_exceptionStep hread).after rfl)
  · exact .inl ((State.memWrite_exceptionStep hwrite).after rfl)

/-! The rows of the tick table. -/

/-- Every command that can wait for a tick in a state has its row there. -/
theorem tickTable_ne_none_of_waiter {c : Cmd} {x : Xst} (h : c ∈ waiters x) : tickTable (some c) x false ≠ none := by
  have hrows : ∀ c ∈ waiters x, (tickTable (some c) x false).isSome = true := by cases x <;> decide
  exact Option.isSome_iff_ne_none.1 (hrows c h)

/-- In a state of the graph a tick is pending only in a wait or a DMA phase, and both have a row. -/
theorem State.engineOk.not_tickUnlisted (hs : s.engineOk) (hpending : s.xta.pending = true) : ¬ s.tickUnlisted := by
  have noTick (h : s.xta.pending = false) : ¬ s.tickUnlisted := absurd (hpending.symm.trans h) (by decide)
  have wait {x : Xst} (hx : s.xta.xst = x) (hwait : s.xta.waiting) (hruns : s.runs (waiters x)) : ¬ s.tickUnlisted := by
    obtain ⟨⟨-, hdma, -⟩, c, hmem, hc⟩ := And.intro hwait hruns
    rw [State.tickUnlisted, hc, hdma, hx]
    exact tickTable_ne_none_of_waiter hmem
  cases hx : s.xta.xst <;> simp only [State.engineOk, hx] at hs
  case idle => exact noTick hs.2.2
  case compl => exact noTick hs.2.2
  case recv => exact wait hx hs.1 hs.2.1
  case send => exact wait hx hs.1 hs.2.1
  case rdone => exact wait hx hs.1 hs.2.2
  case sdone => exact wait hx hs.1 hs.2.2
  case rdata =>
    rcases hs with ⟨-, -, -, h⟩ | ⟨-, ⟨-, -, h⟩, -⟩ | ⟨-, ⟨-, -, h⟩ | ⟨-, hdma, -⟩, ⟨c, hmem, hc⟩, -⟩
    · exact noTick h
    · exact noTick h
    · exact noTick h
    · rw [State.tickUnlisted, hc, hdma, hx, tickTable_dmaIn (by simpa using hmem)]
      exact Option.some_ne_none _
  case sdata =>
    rcases hs with ⟨-, ⟨-, -, h⟩, -⟩ | ⟨-, ⟨-, -, h⟩ | ⟨-, hdma, -⟩, ⟨c, hmem, hc⟩, -⟩
    · exact noTick h
    · exact noTick h
    · rw [State.tickUnlisted, hc, hdma, hx, tickTable_dmaOut (by simpa using hmem)]
      exact Option.some_ne_none _

/-- Settles O52: only the tick with no row raises the fault, and in a state of the graph every tick has its row. -/
theorem noTickIsUnreachable : Obligations.NoTickIsUnreachable := by
  intro s t hs h hfault
  rcases step_exceptionStep h with hstep | ⟨hpending, hunlisted, -⟩
  · obtain ⟨-, hnone, -⟩ := step_running h
    exact Option.some_ne_none _ ((hstep.fault hfault).symm.trans hnone)
  · exact hs.not_tickUnlisted hpending hunlisted

/-- Settles O59: a step leaves the line, lowers it, or is a completion with IRQ_ENA set. -/
theorem interruptRisesOnlyAtCompletion : Obligations.InterruptRisesOnlyAtCompletion := by
  intro s t h hlow hhigh
  rcases step_exceptionStep h with hstep | ⟨-, -, hsame⟩
  · exact (hstep.line hhigh).resolve_left (by simp [hlow])
  · exact absurd (hhigh.symm.trans (hsame.trans hlow)) (by decide)

end Sys2Proof.Machine
end

section
/-! PROOFS. What an operation answers (60_exceptions.md R309, R310): the completion read, and a next state in every case. -/

namespace Sys2Proof.Machine

variable {s : State}

/-- Settles O13: in COMPL the Data read is the completion read. -/
theorem completionReadReturnsToIdle : Obligations.CompletionReadReturnsToIdle := by
  intro s h hcompl
  have hread : s.dataRead = s.completionRead := if_pos hcompl
  rw [exec_xtaDataR_of_usable h, hread]
  rfl

/-- Under the mapping invariant every address that reaches the RAM array is inside it. -/
theorem State.emsOk.lt_ramSize (hs : s.emsOk) {a x : Nat} (h : s.translate a = .ram x) : x < s.ramSize := by
  obtain ⟨j, hen, rfl⟩ := State.translate_ram h
  exact (State.emsOk_bound hs hen (Nat.mod_lt a (by decide))).2

theorem State.emsOk.memReadByte_ok (hs : s.emsOk) (a : Nat) : ∃ p : Byte × State, s.memReadByte a = .ok p := by
  unfold State.memReadByte
  split
  · exact ⟨_, rfl⟩
  · split <;> exact ⟨_, rfl⟩
  next htranslate => exact ⟨_, if_pos (hs.lt_ramSize htranslate)⟩

theorem State.emsOk.memWriteByte_ok (hs : s.emsOk) (a : Nat) (v : Byte) : ∃ t : State, s.memWriteByte a v = .ok t := by
  unfold State.memWriteByte
  split
  · exact ⟨_, rfl⟩
  · split <;> exact ⟨_, rfl⟩
  next htranslate => exact ⟨_, if_pos (hs.lt_ramSize htranslate)⟩

/-- Settles O60: an access to a port is refused or has its effect, both next states; a byte of a memory access can only miss the
RAM array, which the mapping invariant excludes. -/
theorem everyOperationIsAccepted : Obligations.EveryOperationIsAccepted := by
  intro s i hrunning hs
  cases hport : opPort i with
  | some r =>
    obtain ⟨k, hexec⟩ := exec_eq_onPort hport s
    rw [hexec]
    cases hshared : s.decodeCtx.collides r with
    | true => exact ⟨_, State.onPort_of_collides hrunning hshared k⟩
    | false => exact ⟨_, State.onPort_of_usable ⟨hrunning, hshared⟩ k⟩
  | none =>
    cases i with
    | emsMemR a =>
      obtain ⟨p, hread⟩ := hs.memReadByte_ok a.toNat
      exact ⟨_, exec_emsMemR_of_running hrunning hread⟩
    | emsMemW a v =>
      obtain ⟨t, hwrite⟩ := hs.memWriteByte_ok a.toNat v
      exact ⟨t, exec_emsMemW_of_running hrunning hwrite⟩
    | _ => cases hport

end Sys2Proof.Machine
end

section
/-! PROOFS. The two units and power-on (00_scope.md R1, 70_reset_and_hazards.md R340 to R342): no operation of the EMS unit touches
the registers of the engine, the drives or the images, the counterpart of `exec_xtaOp_emsUnit`; and what a machine holds after
power-on. -/

namespace Sys2Proof.Machine

variable {s t : State}

/-- The part of the state that is the XTA controller's: the engine (10_state.md R21 to R32), the drives (R33) and the images
(R40). -/
def State.xtaUnit (s : State) : Xta × (Drive × Drive) × Memory × Memory := (s.xta, (s.drv0, s.drv1), s.disk0, s.disk1)

theorem State.xtaUnit_eq_iff : t.xtaUnit = s.xtaUnit ↔
    t.xta = s.xta ∧ t.drv0 = s.drv0 ∧ t.drv1 = s.drv1 ∧ t.disk0 = s.disk0 ∧ t.disk1 = s.disk1 := by
  simp only [State.xtaUnit, Prod.mk.injEq, and_assoc]

/-! The operations of the EMS unit. -/

theorem State.readAny_xtaUnit (s : State) : s.readAny.xtaUnit = s.xtaUnit := by simp [State.xtaUnit]

theorem State.readPage_xtaUnit (s : State) (slot : BitVec 2) : (s.readPage slot).xtaUnit = s.xtaUnit := by
  unfold State.readPage
  split
  · rfl
  · exact s.readAny_xtaUnit

theorem State.chipDataWrite_xtaUnit (s : State) (v : Byte) : (s.chipDataWrite v).xtaUnit = s.xtaUnit := by
  unfold State.chipDataWrite
  split
  · rfl
  · split <;> rfl

theorem State.chipDataRead_xtaUnit (s : State) : s.chipDataRead.xtaUnit = s.xtaUnit := by
  unfold State.chipDataRead
  split
  · rfl
  · split
    · rfl
    · exact s.readAny_xtaUnit

/-- An access to a port is refused, which leaves the controller, or has its own effect. -/
theorem State.onPort_xtaUnit {r : PortReg} {k : State} (h : s.onPort r k = .next t) (hk : k.xtaUnit = s.xtaUnit) :
    t.xtaUnit = s.xtaUnit := by
  obtain ⟨-, ⟨-, rfl⟩ | ⟨-, rfl⟩⟩ := State.onPort_next.1 h
  · rfl
  · exact hk

theorem State.memRead_xtaUnit {a n : Nat} (h : s.memRead a n = .next t) : t.xtaUnit = s.xtaUnit := by
  obtain ⟨dr, hist, bs, rfl⟩ := State.memRead_frame h
  rfl

theorem State.memWrite_xtaUnit {a : Nat} {vs : List Byte} (h : s.memWrite a vs = .next t) : t.xtaUnit = s.xtaUnit := by
  obtain ⟨ram, hist, rfl⟩ := State.memWrite_frame h
  rfl

/-- No operation of the EMS ports and no memory access touches the controller. -/
theorem exec_emsOp_xtaUnit {i : Instr} (hop : xtaOp i = false) (h : exec i s = .next t) : t.xtaUnit = s.xtaUnit := by
  cases i with
  | emsPageW slot v => exact State.onPort_xtaUnit h rfl
  | emsPageR slot => exact State.onPort_xtaUnit h (s.readPage_xtaUnit slot)
  | chipIndexW v => exact State.onPort_xtaUnit h rfl
  | chipIndexR => exact State.onPort_xtaUnit h s.readAny_xtaUnit
  | emsCfgW v => exact State.onPort_xtaUnit h (s.chipDataWrite_xtaUnit v)
  | emsCfgR => exact State.onPort_xtaUnit h s.chipDataRead_xtaUnit
  | chipDataW v => exact State.onPort_xtaUnit h (s.chipDataWrite_xtaUnit v)
  | chipDataR => exact State.onPort_xtaUnit h s.chipDataRead_xtaUnit
  | emsMemR a => exact State.memRead_xtaUnit h
  | emsMemW a v => exact State.memWrite_xtaUnit h
  | _ => cases hop

/-- Settles O58: an operation is one unit's or the other's, and each unit's operations leave the other unit. -/
theorem unitsAreIndependent : Obligations.UnitsAreIndependent := by
  refine fun s t i h => ⟨fun hop => ?_, fun hop => State.xtaUnit_eq_iff.1 (exec_emsOp_xtaUnit hop h)⟩
  have hunit : (t.ems, t.ram) = (s.ems, s.ram) := exec_xtaOp_emsUnit hop h
  exact Prod.mk.inj hunit

/-! Power-on. -/

section
variable (p : Params) (ram : Memory)

/-- Power-on leaves the engine in IDLE. -/
theorem State.powerOn_engineOk : (State.powerOn p ram).engineOk := ⟨rfl, ⟨rfl, rfl, rfl, rfl⟩, rfl⟩

/-- Power-on leaves the EMS unit as a write of the reset value to the configuration register does (43_ems.md R266). -/
theorem State.powerOn_emsOk : (State.powerOn p ram).emsOk := (State.powerOn p ram).configureEms_emsOk p.emsCfgReset

/-- Power-on leaves both heads on cylinder 0. -/
theorem State.powerOn_cylsOk : (State.powerOn p ram).cylsOk := ⟨Nat.zero_le _, Nat.zero_le _⟩

/-- Every cell of the sector buffer holds what P_BUFFER_RESET says (10_state.md R28). -/
theorem Xta.powerOn_secbuf (i : Fin 512) :
    (Xta.powerOn p).secbuf[i] = if p.bufferReset = .zeros then some 0x00 else none := by
  refine (Vector.getElem_replicate i.isLt).trans ?_
  cases p.bufferReset <;> rfl

end

/-- Settles O56: the invariants by their lemmas above, the stores because they are the ones given, the registers because power-on
writes them. -/
theorem powerOnMeetsTheInvariants : Obligations.PowerOnMeetsTheInvariants := by
  refine ⟨?_, rfl⟩
  rintro p ram _ rfl
  exact ⟨State.powerOn_engineOk p ram, State.powerOn_emsOk p ram, State.powerOn_cylsOk p ram,
    fun hram hramLt hdisk0 hdisk0Lt hdisk1 hdisk1Lt => ⟨⟨hram, hramLt⟩, ⟨hdisk0, hdisk0Lt⟩, hdisk1, hdisk1Lt⟩,
    -- The registers of the engine.
    rfl, rfl, rfl, rfl, ⟨rfl, rfl, rfl, rfl⟩, rfl, Xta.powerOn_secbuf p, rfl, rfl, rfl, rfl, rfl,
    -- The drives, the images and the RAM array.
    rfl, rfl, rfl, rfl, rfl,
    -- The EMS unit, and no stop recorded.
    rfl, Ems.configured_page p p.emsCfgReset none, rfl, stoppedMachineHasNoStep.2 p ram⟩

end Sys2Proof.Machine
end
